-- ==== Sys2Proof/Word.lean ====
section
/-!
DEFINITION. Word.lean: the byte and the 32-bit word of the part's registers, addresses and time base.
-/
namespace Sys2Proof

/-- One byte of an order slot, a record or a capture entry. -/
abbrev Byte := BitVec 8

/-- A 32-bit register, host address or time base reading (R2, R174). -/
abbrev Word := BitVec 32

end Sys2Proof
end

