-- ==== Sys2Proof/Syntax.lean ====
section
/-!
DEFINITION. Syntax.lean: the commands of the WM-2, one constructor per row of the opcode table.
-/
namespace Sys2Proof

/-- The two tracks (00_scope; coded A 0, B 1 by R182). -/
inductive Track where
  | A
  | B
deriving DecidableEq, Repr

/-- The seven point codes of the detector link (R1, R4). -/
inductive PointCode where
  | LA
  | B0
  | B1
  | B2
  | B3
  | B4
  | HA
deriving DecidableEq, Repr

/-- The two sensing heads of a point: head 1 on the low side, head 2 on the high side (R1). -/
inductive Head where
  | head1
  | head2
deriving DecidableEq, Repr

/-- The level a head-edge message reports (R4). -/
inductive Level where
  | on
  | off
deriving DecidableEq, Repr

/-- One channel entry of a sample frame (R21). -/
structure ChannelEntry where
  /-- The converter's reading, a signed 24-bit count. -/
  value : BitVec 24
  /-- Set when the converter was driven beyond its range. -/
  overrange : Bool
deriving DecidableEq, Repr

/-- The commands: every row of the opcode table is one constructor.
The operand `check` of the two link messages says whether the message passes its link check (R4, R21).
An order command has no operands: its parameters are those of the order at the head of the order queue (R177, R178). -/
inductive Instr where
  /-- HEAD_EDGE_MESSAGE (R5). -/
  | headEdgeMessage (check : Bool) (track : Track) (point : PointCode) (head : Head) (level : Level)
  /-- SAMPLE_FRAME (R22). -/
  | sampleFrame (check : Bool) (track : Track) (sequence : Byte) (channels : List ChannelEntry)
  /-- STUCK_TIMER_EXPIRY (R12). -/
  | stuckTimerExpiry (track : Track) (point : PointCode) (head : Head)
  /-- APPROACH_TIMEOUT (R46). -/
  | approachTimeout (track : Track)
  /-- STALL_EXPIRY (R51). -/
  | stallExpiry (track : Track)
  /-- STANDING_EXPIRY (R52). -/
  | standingExpiry (track : Track)
  /-- SETTLE_EXPIRY (R53). -/
  | settleExpiry (track : Track)
  /-- WITHDRAWN_EXPIRY (R54). -/
  | withdrawnExpiry (track : Track)
  /-- HOLD_TIMER_EXPIRY (R144). -/
  | holdTimerExpiry (track : Track)
  /-- SCAN_TIMER_EXPIRY (R177). -/
  | scanTimerExpiry
  /-- SET_OPTIONS (R179). -/
  | setOptions
  /-- REPORT (R180). -/
  | report
  /-- QUIET (R184). -/
  | quiet
  /-- SET_TRACK (R17). -/
  | setTrack
  /-- ENABLE_TRACK (R44). -/
  | enableTrack
  /-- DISABLE_TRACK (R60). -/
  | disableTrack
  /-- CLOSE_PASSAGE (R59). -/
  | closePassage
  /-- WRITE_SPAN (R107). -/
  | writeSpan
  /-- READ_CALIBRATION (R108). -/
  | readCalibration
  /-- ZERO (R138). -/
  | zero
  /-- WRITE_CLASS (R114). -/
  | writeClass
  /-- READ_CLASS (R116). -/
  | readClass
  /-- SET_WATCH (R152). -/
  | setWatch
  /-- CLEAR_HITS (R153). -/
  | clearHits
  /-- SET_CAPTURE (R157). -/
  | setCapture
  /-- LEND_PAGE (R168). -/
  | lendPage
  /-- RECLAIM_PAGES (R169). -/
  | reclaimPages
  /-- UNKNOWN_ORDER (R178). -/
  | unknownOrder
  /-- SCAN_READ_DONE (R177), with the 64 bytes read from the slot. -/
  | scanReadDone (slot : List Byte)
  /-- TAKEN_WRITE_DONE (R177). -/
  | takenWriteDone
  /-- ANSWER_FIELDS_WRITE_DONE (R178). -/
  | answerFieldsWriteDone
  /-- ANSWERED_WRITE_DONE (R178). -/
  | answeredWriteDone
  /-- RECORD_WRITE_DONE (R171). -/
  | recordWriteDone
  /-- PAGE_HEADER_WRITE_DONE (R171). -/
  | pageHeaderWriteDone
  /-- RECLAIM_HEADER_WRITE_DONE (R169). -/
  | reclaimHeaderWriteDone
  /-- CAPTURE_ENTRY_WRITE_DONE (R159). -/
  | captureEntryWriteDone
  /-- CAPTURE_HEADER_WRITE_DONE (R160). -/
  | captureHeaderWriteDone
  /-- BUS_ERROR (R186). -/
  | busError
  /-- RUN (R183): a write of CONTROL with RUN 1 and SOFT_RESET 0. -/
  | run (value : Word)
  /-- SOFT_RESET (R187): a write of CONTROL with SOFT_RESET 1. -/
  | softReset (value : Word)
  /-- NOTICE_MASK_WRITE (R174): a write of CONTROL with SOFT_RESET 0. -/
  | noticeMaskWrite (value : Word)
  /-- ANCHOR_WRITE (R174). -/
  | anchorWrite (value : Word)
  /-- ATTENTION (R174). -/
  | attention (value : Word)
  /-- NOTICE_CLEAR (R181). -/
  | noticeClear (value : Word)
  /-- READ_ONLY_REGISTER_WRITE (R174): a write at the offset of IDENT, STATUS or FAULT_ADDRESS. -/
  | readOnlyRegisterWrite (offset : Byte) (value : Word)
  /-- POWER_ON_RESET (R187). -/
  | powerOnReset
  /-- HARD_RESET (R187). -/
  | hardReset
deriving DecidableEq, Repr

end Sys2Proof
end

