-- ==== Sys2Proof/Config.lean ====
section
/-!
DEFINITION. Config.lean: what the manual leaves open and no value of which may be leaned on.
-/
namespace Sys2Proof

/-- The free choices of the model: `choice k` is the k-th one, k counted by `State.freeCount`.
Used for the order of timers due at the same microsecond (R3 orders no two expiries) and for whether an
access is granted before or after the part enters QUIET (R175, R184).
Nothing in Lean can evaluate it, so a statement holds whatever is chosen. -/
opaque Config.choice : Nat → Nat

end Sys2Proof
end

