-- ==== Sys2Proof/Machine/State.lean ====
section
/-!
DEFINITION. Machine/State.lean: the whole state of the WM-2 as plain data, and its value right after power-on reset.
Counts, sizes, serials and record fields are Nat with the range the spec gives; registers, addresses and time base
readings are bit vectors. What the spec defines from other state is computed, not stored: a track's occupied item,
the occupant lists, the IRQ line, STATUS, IDENT and the grouper's lookahead.
-/
namespace Sys2Proof.Machine

/-! ### Small containers -/

/-- One value for each track. -/
structure PerTrack (α : Type) where
  a : α
  b : α
deriving DecidableEq, Repr

/-- One value for each head of a point (R1). -/
structure Heads (α : Type) where
  one : α
  two : α
deriving DecidableEq, Repr

/-- One value for the left and one for the right rail of a platform (00_scope). -/
structure Rails (α : Type) where
  left : α
  right : α
deriving DecidableEq, Repr

/-- One value for each of four like things: platforms 1 to 4, or watch units 0 to 3. -/
structure Four (α : Type) where
  first : α
  second : α
  third : α
  fourth : α
deriving DecidableEq, Repr

/-- One value for each point code of a track (R1). -/
structure PerPoint (α : Type) where
  la : α
  b0 : α
  b1 : α
  b2 : α
  b3 : α
  b4 : α
  ha : α
deriving DecidableEq, Repr

/-- A running timer: the time base at its start and its duration in microseconds (R3). A stopped timer is absent. -/
structure Timer where
  start : Word
  duration : Nat
deriving DecidableEq, Repr

/-! ### Points and passes (chapter 1) -/

/-- The direction of a pass (R10). -/
inductive Direction where
  | up
  | down
deriving DecidableEq, Repr

/-- The states of a point decoder (R7). -/
inductive PointState where
  | clear
  | lowOn
  | bothUp
  | highTail
  | highOn
  | bothDown
  | lowTail
  | faulted
deriving DecidableEq, Repr

/-- A point decoder (R7); a level is true when on. -/
structure Point where
  state : PointState
  level : Heads Bool
  onTime : Heads Word
  stuck : Heads (Option Timer)
deriving DecidableEq, Repr

/-- The CLEAR point of R15. -/
def Point.cleared : Point where
  state := .clear
  level := ⟨false, false⟩
  onTime := ⟨0, 0⟩
  stuck := ⟨none, none⟩

/-- A completed pass (R11): speed in 0.1 km/h, 0 to 1500 or absent. -/
structure Pass where
  point : PointCode
  direction : Direction
  time : Word
  speed : Option Nat
deriving DecidableEq, Repr

/-- The configuration of a track (R17); all 0 while unconfigured (R18). -/
structure TrackConfig where
  platforms : Nat
  headSpacing : Nat
  minSpeed : Nat
  maxSpeed : Nat
  approachTimeout : Nat
  stallTime : Nat
  standingLimit : Nat
  settleTime : Nat
  minWindowSamples : Nat
  headStuckTime : Nat
deriving DecidableEq, Repr

/-- The unconfigured track (R16, R18). -/
def TrackConfig.unconfigured : TrackConfig := ⟨0, 0, 0, 0, 0, 0, 0, 0, 0, 0⟩

/-! ### Windows and pending steps (chapter 2) -/

/-- The statistics of a closed window (R32). -/
structure WindowStats where
  mean : Rails (Option Int)
  sampleCount : Nat
  empty : Bool
  saturated : Bool
  gapped : Bool
  crosstalk : Bool
deriving DecidableEq, Repr

/-- An open window (R27) without its occupant list, which is the on-bridge entries of its platform. -/
structure Window where
  sum : Rails Int
  sampleCount : Nat
  saturated : Bool
  gapped : Bool
  snapshotOccupied : Bool
  snapshotEpoch : BitVec 16
deriving DecidableEq, Repr

/-- The sign of a step (R38). -/
inductive Sign where
  | entry
  | exit
deriving DecidableEq, Repr

/-- An axle serial with a ghost mark (R27, R38, R71, R72). -/
structure Entry where
  serial : Nat
  ghost : Bool
deriving DecidableEq, Repr

/-- A pending step (R38). -/
structure PendingStep where
  entry : Entry
  sign : Sign
  speed : Option Nat
  before : WindowStats
deriving DecidableEq, Repr

/-- What one platform holds: its open window, its last closed statistics and its pending step (R27, R32, R38). -/
structure Platform where
  window : Option Window
  last : Option WindowStats
  step : Option PendingStep
deriving DecidableEq, Repr

/-- A platform with nothing open, closed or pending. -/
def Platform.bare : Platform := ⟨none, none, none⟩

/-- The items by which a track's windows see the other track (R26). -/
structure Occupancy where
  occupied : Bool
  epoch : BitVec 16
deriving DecidableEq, Repr

/-! ### Passages (chapter 3) -/

/-- The track states (R42). -/
inductive TrackMode where
  | disabled
  | idle
  | approach
  | crossing
  | standing
  | draining
  | withdrawn
deriving DecidableEq, Repr

/-- How a passage opened (R47). -/
inductive OpenCause where
  | approach
  | direct
deriving DecidableEq, Repr

/-- Why a passage closed (R55), in the order of the close record's codes (R182). -/
inductive CloseReason where
  | normal
  | withdrawn
  | ordered
  | disabled
  | standing
  | overflow
deriving DecidableEq, Repr

/-- Whether a passage holds a close place (R49, R165). -/
inductive ClosePlace where
  | reserved
  | lost
deriving DecidableEq, Repr

/-- The passage flags (R49), in the bit order of the close record (R182). -/
structure PassageFlags where
  noApproach : Bool
  unzeroed : Bool
  drift : Bool
  crosstalkSeen : Bool
  sequence : Bool
  pointFault : Bool
  gapped : Bool
  saturated : Bool
  reentry : Bool
  recordLoss : Bool
deriving DecidableEq, Repr

/-- No flag set. -/
def PassageFlags.clear : PassageFlags :=
  ⟨false, false, false, false, false, false, false, false, false, false⟩

/-- The passage context (R49). -/
structure Passage where
  number : Nat
  direction : Direction
  cause : OpenCause
  openTime : Word
  place : ClosePlace
  flags : PassageFlags
  axlesCreated : Nat
  axlesDeparted : Nat
  axlesLeftOnBridge : Nat
  axlesBackedOut : Nat
  ghostEntries : Nat
  wagonsFormed : Nat
  wagonsUnrecorded : Nat
  locomotives : Nat
  freightTotal : Nat
  reason : Option CloseReason
  closeTime : Option Word
deriving DecidableEq, Repr

/-! ### The axle table (chapter 4) and finalized axles (chapter 5) -/

/-- The flags of an axle (R67). -/
structure AxleFlags where
  noEstimate : Bool
  crosstalk : Bool
  speed : Bool
  noLead : Bool
  low : Bool
  reentered : Bool
deriving DecidableEq, Repr

/-- An axle record (R67). -/
structure AxleRecord where
  serial : Nat
  platform : Nat
  entryTime : Word
  entrySpeed : Option Nat
  leadSpacing : Option Nat
  estimates : List (Rails Int)
  pendingSteps : Nat
  flags : AxleFlags
deriving DecidableEq, Repr

/-- An entry of the on-bridge list (R70). -/
structure BridgeEntry where
  serial : Nat
  ghost : Bool
  platform : Nat
deriving DecidableEq, Repr

/-- The spacing reference (R66). -/
structure SpacingReference where
  time : Word
  speed : Option Nat
deriving DecidableEq, Repr

/-- The axle table of a track (R66): `onBridge` front first, `backedOut` top first, `departed` newest first,
`awaiting` in departure order. -/
structure AxleTable where
  records : List AxleRecord
  onBridge : List BridgeEntry
  backedOut : List Entry
  departed : List Entry
  awaiting : List Nat
  discarded : List Nat
  lastSerial : Nat
  spacingReference : Option SpacingReference
  discardSeen : Bool
deriving DecidableEq, Repr

/-- The empty axle table of R66. -/
def AxleTable.empty : AxleTable := ⟨[], [], [], [], [], [], 0, none, false⟩

/-- A finalized axle (R103): the two loads are present or absent together. -/
structure FinalAxle where
  serial : Nat
  leadSpacing : Option Nat
  speed : Option Nat
  load : Option (Rails Nat)
  estimateCount : Nat
  flags : AxleFlags
deriving DecidableEq, Repr

/-- A calibration channel (R104). -/
structure Channel where
  span : Nat
  zeroOffset : Int
  zeroValid : Bool
  lock : Bool
deriving DecidableEq, Repr

/-- A channel after power-on or hard reset (R104). -/
def Channel.initial : Channel := ⟨65536, 0, false, false⟩

/-! ### Wagons and the class table (chapter 6) -/

/-- The modes of a class entry (R113). -/
inductive ClassMode where
  | off
  | pattern
  | count
deriving DecidableEq, Repr

/-- The kinds of a class entry (R112), with UNKNOWN for an UNGROUPED wagon (R123). -/
inductive VehicleKind where
  | wagon
  | locomotive
  | other
  | unknown
deriving DecidableEq, Repr

/-- A spacing pair (R112). -/
structure SpacingRange where
  min : Nat
  max : Nat
deriving DecidableEq, Repr

/-- A class entry (R112): pairs 1 to n − 1 are kept. -/
structure ClassEntry where
  mode : ClassMode
  n : Nat
  pairs : List SpacingRange
  endGapMin : Nat
  classCode : Nat
  kind : VehicleKind
  grossLimit : Nat
  axleLimit : Nat
  shiftLimit : Nat
  lock : Bool
deriving DecidableEq, Repr

/-- The content of an OFF entry, unlocked (R112). -/
def ClassEntry.off : ClassEntry := ⟨.off, 1, [], 0, 0, .wagon, 0, 0, 0, false⟩

/-- The flags of a wagon, in the bit order of its record (R128, R182). -/
structure WagonFlags where
  incomplete : Bool
  ungrouped : Bool
  overGross : Bool
  overAxle : Bool
  sideShift : Bool
  speed : Bool
  crosstalk : Bool
  captureMissed : Bool
  flushed : Bool
deriving DecidableEq, Repr

/-- A formed wagon (R124). -/
structure Wagon where
  track : Track
  passage : Nat
  number : Nat
  classIndex : Option Nat
  classCode : Nat
  kind : VehicleKind
  axles : List FinalAxle
  gross : Nat
  shift : Nat
  meanSpeed : Option Nat
  watchMask : BitVec 4
  flags : WagonFlags
deriving DecidableEq, Repr

/-! ### Zero operations (chapter 7) -/

/-- The state of a zero operation in progress (R137). -/
inductive ZeroState where
  | accumulating
  | suspended
deriving DecidableEq, Repr

/-- Who started a zero operation (R137). -/
inductive ZeroOrigin where
  | order (slot : Nat) (tag : BitVec 16)
  | automatic
deriving DecidableEq, Repr

/-- A zero operation in progress (R137); the engine in NONE holds none. `startsRun` is the model's own mark for R140: the track has accepted no
frame since the operation last entered SUSPENDED, so its next frame begins a new run and is not compared with the one before it (log 30). -/
structure ZeroOperation where
  state : ZeroState
  origin : ZeroOrigin
  target : Nat
  frames : Nat
  sums : Four (Rails Int)
  restarts : Nat
  holdLimit : Nat
  suspendedTotal : Nat
  suspendStart : Word
  holdTimer : Option Timer
  startsRun : Bool
deriving DecidableEq, Repr

/-! ### Watch units and the capture unit (chapter 8) -/

/-- The conditions of a watch unit (R151). -/
inductive WatchCondition where
  | grossAbove
  | axleAbove
  | shiftAbove
  | speedOutside
  | classIs
  | ungrouped
deriving DecidableEq, Repr

/-- The actions of a watch unit (R151). -/
inductive WatchAction where
  | mark
  | capture
deriving DecidableEq, Repr

/-- Which tracks' frames a capture records (R151). -/
inductive CaptureScope where
  | own
  | both
deriving DecidableEq, Repr

/-- A watch unit (R151); track absent is ANY. -/
structure WatchUnit where
  enabled : Bool
  track : Option Track
  condition : WatchCondition
  value1 : Nat
  value2 : Nat
  action : WatchAction
  scope : CaptureScope
  hitCount : Nat
deriving DecidableEq, Repr

/-- A watch unit after power-on or hard reset (R151). -/
def WatchUnit.initial : WatchUnit := ⟨false, none, .grossAbove, 0, 0, .mark, .own, 0⟩

/-- The states of the capture unit (R156). -/
inductive CaptureState where
  | disarmed
  | armed
  | recording
  | held
deriving DecidableEq, Repr

/-- A capture entry formed and not yet written (R159). -/
structure CaptureEntry where
  slot : Nat
  time : Word
  track : Track
  sequence : Byte
  channels : List ChannelEntry
deriving DecidableEq, Repr

/-- The capture unit (R156): `slots` is E, `limit` is M. -/
structure CaptureUnit where
  state : CaptureState
  area : Word
  slots : Nat
  limit : Nat
  triggerTrack : Track
  scope : CaptureScope
  triggerPassage : Nat
  triggerWagon : Nat
  written : Nat
  taking : Bool
  waiting : List CaptureEntry
deriving DecidableEq, Repr

/-- The DISARMED unit of every reset (R156). DESIGN CHOICE (log 14): the items without meaning in DISARMED hold 0, A and OWN. -/
def CaptureUnit.disarmed : CaptureUnit := ⟨.disarmed, 0, 0, 0, .A, .own, 0, 0, 0, false, []⟩

/-! ### Record queues and pages (chapter 9) -/

/-- A close record (R57, R166): the passage context at step 7 of the close, with its track and passages_lost. -/
structure CloseRecord where
  track : Track
  passage : Passage
  passagesLost : Nat
deriving DecidableEq, Repr

/-- A record waiting in a queue (R164). -/
inductive Record where
  | wagon (w : Wagon)
  | close (c : CloseRecord)
deriving DecidableEq, Repr

/-- The record queue of a track (R164), oldest record first. -/
structure RecordQueue where
  queue : List Record
  placesInUse : Nat
  lostPassages : Nat
  lostSinceClose : Nat
deriving DecidableEq, Repr

/-- The empty queue of every reset (R164). -/
def RecordQueue.empty : RecordQueue := ⟨[], 0, 0, 0⟩

/-- The current page of a page writer (R170, R171). `passage` is the passage whose records it holds, `written` the bytes
of the head record whose accesses have completed, `ended` marks that its close record has been written. -/
structure Page where
  address : Word
  fill : Nat
  records : Nat
  firstWagon : Nat
  passage : Nat
  written : Nat
  ended : Bool
deriving DecidableEq, Repr

/-- A page writer (R170). -/
structure PageWriter where
  current : Option Page
  sequence : Nat
deriving DecidableEq, Repr

/-- The lent page list, the waiting claims in the order taken, and the two page writers (R167, R170). -/
structure PageBlock where
  lent : List Word
  claims : List Track
  writers : PerTrack PageWriter
deriving DecidableEq, Repr

/-- The page block of every reset (R167, R170). -/
def PageBlock.empty : PageBlock := ⟨[], [], ⟨none, 0⟩, ⟨none, 0⟩⟩

/-! ### The order unit, the registers and the bus port (chapters 10 and 11) -/

/-- A taken order (R177). -/
structure Order where
  slot : Nat
  kind : Byte
  tag : BitVec 16
  params : List Byte
deriving DecidableEq, Repr

/-- The answer codes (R178). -/
inductive AnswerCode where
  | done
  | busy
  | invalid
  | locked
  | noRoom
  | nothing
  | failed
  | preempted
deriving DecidableEq, Repr

/-- Whose answer a due answer is: that of the order last carried out, that of a QUIET order, or that of a zero operation
(R178, R184, R146). -/
inductive AnswerOwner where
  | order
  | quiet
  | zero
deriving DecidableEq, Repr

/-- An answer that is due (R178): `area` is the leading bytes of the 48-byte answer area, the rest are 0. -/
structure Answer where
  slot : Nat
  tag : BitVec 16
  code : AnswerCode
  area : List Byte
  owner : AnswerOwner
deriving DecidableEq, Repr

/-- An access the order unit is ready to make (R178). -/
inductive ReadyAccess where
  | scanRead (slot : Nat)
  | takenWrite (slot : Nat)
  | answerFields
  | answered
  | reclaimHeader
deriving DecidableEq, Repr

/-- A scan in progress (R177): the slot being read or taken, the reads left after it, and the order whose TAKEN write has
not completed. -/
structure Scan where
  slot : Nat
  left : Nat
  take : Option Order
deriving DecidableEq, Repr

/-- A RECLAIM PAGES being carried out (R169): its order's slot and tag, the removed pages whose header is not yet written, and
the number removed. -/
structure Reclaim where
  slot : Nat
  tag : BitVec 16
  left : List Word
  count : Nat
deriving DecidableEq, Repr

/-- The order unit (R177, R178). `ready` lists its accesses in the order they became ready, the head being the one asked for
or in flight; `carrying` is set from the carrying out of an order to the end of its answer. -/
structure OrderUnit where
  scanPosition : Nat
  scanTimer : Option Timer
  pendingScan : Bool
  queue : List Order
  scan : Option Scan
  ready : List ReadyAccess
  answers : List Answer
  carrying : Bool
  reclaim : Option Reclaim
deriving DecidableEq, Repr

/-- The order unit of every reset (R177, R178). -/
def OrderUnit.initial : OrderUnit := ⟨31, none, false, [], none, [], [], false, none⟩

/-- The option crosstalk_policy (R97). -/
inductive CrosstalkPolicy where
  | mark
  | exclude
deriving DecidableEq, Repr

/-- The seven options (R179). -/
structure Options where
  scanInterval : Nat
  autoZero : Bool
  autoZeroCount : Nat
  zeroHoldLimit : Nat
  crosstalkPolicy : CrosstalkPolicy
  driftLimit : Nat
  hold : Bool
deriving DecidableEq, Repr

/-- The default of every option (R179). -/
def Options.default : Options := ⟨10, false, 1024, 900, .mark, 200, false⟩

/-- The part-wide counters (R6, R42, R137). -/
structure Counters where
  badFrames : Nat
  edgeErrors : Nat
  pointFaults : Nat
  sequenceErrors : Nat
  autoZeroFailures : Nat
deriving DecidableEq, Repr

/-- Every counter 0 (R6, R42, R137). -/
def Counters.zero : Counters := ⟨0, 0, 0, 0, 0⟩

/-- What the blocks of both tracks share: time base, NOTICE, counters, options, class table, watch units, capture unit and
order unit. -/
structure Shared where
  time : Word
  notice : BitVec 6
  counters : Counters
  options : Options
  classes : List ClassEntry
  watch : Four WatchUnit
  capture : CaptureUnit
  orders : OrderUnit
deriving DecidableEq, Repr

/-- Everything that exists once per track, but for its page writer. -/
structure TrackState where
  config : TrackConfig
  points : PerPoint Point
  mode : TrackMode
  expected : Option Direction
  timer : Option Timer
  passageNumber : Nat
  context : Option Passage
  falseApproaches : Nat
  sequence : Option Byte
  epoch : BitVec 16
  platforms : Four Platform
  axles : AxleTable
  group : List FinalAxle
  nextWagon : Nat
  zero : Option ZeroOperation
  calibration : Four (Rails Channel)
  records : RecordQueue
deriving DecidableEq, Repr

/-- The part states (R183 to R186). -/
inductive PartState where
  | stopped
  | running
  | quiet
  | halted
deriving DecidableEq, Repr

/-- The reset causes of STATUS (R182). -/
inductive ResetCause where
  | power
  | hard
  | soft
deriving DecidableEq, Repr

/-- The wake causes of STATUS (R185). -/
inductive WakeCause where
  | attention
  | detector
deriving DecidableEq, Repr

/-- The four requesters of the master side, in cyclic order (R175). -/
inductive Requester where
  | orderUnit
  | pageWriterA
  | pageWriterB
  | captureWriter
deriving DecidableEq, Repr

/-- The part-level registers (R174, R187). `badAnchor` is the start code BAD_ANCHOR. -/
structure Registers where
  part : PartState
  resetCause : ResetCause
  wakeCause : Option WakeCause
  badAnchor : Bool
  faultCode : Option Requester
  faultAddress : Word
  noticeMask : BitVec 6
  anchor : Word
deriving DecidableEq, Repr

/-- What a master access is for. -/
inductive AccessKind where
  | scanRead
  | takenWrite
  | answerFields
  | answered
  | reclaimHeader
  | recordWrite
  | pageHeader
  | captureEntry
  | captureHeader
deriving DecidableEq, Repr

/-- A master access (R175): first address and, for a write, the bytes in ascending address order. `discarded` marks an access
whose result a reset discards (R187). -/
structure Access where
  requester : Requester
  kind : AccessKind
  address : Word
  data : List Byte
  discarded : Bool
deriving DecidableEq, Repr

/-- The master side of the bus port (R175). -/
structure Bus where
  inFlight : Option Access
  lastGrantee : Requester
deriving DecidableEq, Repr

/-- The whole machine. `pending` is the queue of commands, first in first out; `freeCount` counts the free choices taken. -/
structure State where
  regs : Registers
  shared : Shared
  tracks : PerTrack TrackState
  pages : PageBlock
  bus : Bus
  freeCount : Nat
  pending : List Instr
deriving DecidableEq, Repr

/-- One track's blocks with what they share, and the other track's occupancy, which they may only read (R24, R26):
the view on which every rule of chapters 1 to 8 about one track works. -/
structure Scene where
  id : Track
  other : Occupancy
  trk : TrackState
  sh : Shared
deriving DecidableEq, Repr

/-! ### Reset values -/

/-- A track after power-on or hard reset (R7, R18, R23, R26, R27, R42, R66, R104, R117, R137, R164). -/
def TrackState.initial : TrackState where
  config := .unconfigured
  points := ⟨.cleared, .cleared, .cleared, .cleared, .cleared, .cleared, .cleared⟩
  mode := .disabled
  expected := none
  timer := none
  passageNumber := 0
  context := none
  falseApproaches := 0
  sequence := none
  epoch := 0
  platforms := ⟨.bare, .bare, .bare, .bare⟩
  axles := .empty
  group := []
  nextWagon := 0
  zero := none
  calibration := ⟨⟨.initial, .initial⟩, ⟨.initial, .initial⟩, ⟨.initial, .initial⟩, ⟨.initial, .initial⟩⟩
  records := .empty

/-- The shared blocks after power-on or hard reset (R2, R6, R112, R151, R156, R177, R179, R181). -/
def Shared.initial : Shared where
  time := 0
  notice := 0
  counters := .zero
  options := .default
  classes := List.replicate 16 .off
  watch := ⟨.initial, .initial, .initial, .initial⟩
  capture := .disarmed
  orders := .initial

/-- The machine right after power-on reset (R187): STOPPED, both tracks DISABLED, no access in flight, no command waiting. -/
def State.reset : State where
  regs := ⟨.stopped, .power, none, false, none, 0, 0, 0⟩
  shared := .initial
  tracks := ⟨.initial, .initial⟩
  pages := .empty
  bus := ⟨none, .captureWriter⟩
  freeCount := 0
  pending := []

/-- Why the machine stops with a fault: never. Every command has an effect the spec gives, or does not happen in the state it
meets, so this type has no constructor. -/
inductive Fault where
deriving DecidableEq, Repr

/-- Why a command has no meaning. -/
inductive Refusal where
  /-- Raised by `exec` for a command without a meaning; no arm raises it. It would be safe: the run stops. -/
  | notModelled (mnemonic : String)
deriving DecidableEq, Repr

end Sys2Proof.Machine
end

