-- ==== Sys2Proof/Machine/Ops.lean ====
section
/-!
DEFINITION. Machine/Ops.lean: the shared named operations: reading and writing the containers, timers, saturating counters,
rounding, little-endian bytes, and the view of one track.
-/
namespace Sys2Proof

/-- The other track. -/
def Track.other : Track → Track
  | .A => .B
  | .B => .A

end Sys2Proof

namespace Sys2Proof.Machine

/-! ### Containers -/

def PerTrack.get {α : Type} (x : PerTrack α) : Track → α
  | .A => x.a
  | .B => x.b

def PerTrack.set {α : Type} (x : PerTrack α) (t : Track) (v : α) : PerTrack α :=
  match t with
  | .A => { x with a := v }
  | .B => { x with b := v }

def Heads.get {α : Type} (x : Heads α) : Head → α
  | .head1 => x.one
  | .head2 => x.two

def Heads.set {α : Type} (x : Heads α) (h : Head) (v : α) : Heads α :=
  match h with
  | .head1 => { x with one := v }
  | .head2 => { x with two := v }

def Rails.map {α β : Type} (f : α → β) (x : Rails α) : Rails β := ⟨f x.left, f x.right⟩

/-- The thing numbered 1 to 4; a number above 4 names the fourth. -/
def Four.get {α : Type} (x : Four α) : Nat → α
  | 0 => x.first
  | 1 => x.first
  | 2 => x.second
  | 3 => x.third
  | _ => x.fourth

def Four.set {α : Type} (x : Four α) (i : Nat) (v : α) : Four α :=
  match i with
  | 0 => { x with first := v }
  | 1 => { x with first := v }
  | 2 => { x with second := v }
  | 3 => { x with third := v }
  | _ => { x with fourth := v }

/-- Each of the four changed by its number, 1 to 4. -/
def Four.mapIdx {α β : Type} (f : Nat → α → β) (x : Four α) : Four β :=
  ⟨f 1 x.first, f 2 x.second, f 3 x.third, f 4 x.fourth⟩

def Four.toList {α : Type} (x : Four α) : List α := [x.first, x.second, x.third, x.fourth]

def PerPoint.get {α : Type} (x : PerPoint α) : PointCode → α
  | .LA => x.la
  | .B0 => x.b0
  | .B1 => x.b1
  | .B2 => x.b2
  | .B3 => x.b3
  | .B4 => x.b4
  | .HA => x.ha

def PerPoint.set {α : Type} (x : PerPoint α) (p : PointCode) (v : α) : PerPoint α :=
  match p with
  | .LA => { x with la := v }
  | .B0 => { x with b0 := v }
  | .B1 => { x with b1 := v }
  | .B2 => { x with b2 := v }
  | .B3 => { x with b3 := v }
  | .B4 => { x with b4 := v }
  | .HA => { x with ha := v }

/-! ### Numbers -/

/-- One more, stopping at the largest value (00_scope, "A saturating counter"). -/
def satInc (largest n : Nat) : Nat := if n < largest then n + 1 else n

/-- A value lies in a range, both ends included (00_scope, "A range written"). -/
def inRange (low high x : Nat) : Bool := decide (low ≤ x) && decide (x ≤ high)

/-- The quotient rounded to the nearest whole number, halves away from zero (R32, R95, R102, R141). -/
def roundDiv (x : Int) (d : Nat) : Int :=
  let q : Nat := (2 * x.natAbs + d) / (2 * d)
  if x < 0 then -(q : Int) else (q : Int)

/-- Two bytes, little-endian (R182). -/
def le16 (n : Nat) : List Byte := [BitVec.ofNat 8 n, BitVec.ofNat 8 (n / 256)]

/-- Four bytes, little-endian (R182). -/
def le32 (n : Nat) : List Byte :=
  [BitVec.ofNat 8 n, BitVec.ofNat 8 (n / 256), BitVec.ofNat 8 (n / 65536), BitVec.ofNat 8 (n / 16777216)]

/-- A signed value in four bytes of two's complement, little-endian (R182). -/
def le32i (x : Int) : List Byte := le32 (BitVec.ofInt 32 x).toNat

/-- A list of bytes brought to `n` bytes: cut, or filled with 0 (R178, R182). -/
def padTo (n : Nat) (l : List Byte) : List Byte := (l ++ List.replicate n 0).take n

/-- Bits as a number, the first in bit 0 (R182, "A mask takes one bit per member"). -/
def maskOf : List Bool → Nat
  | [] => 0
  | b :: bs => (if b then 1 else 0) + 2 * maskOf bs

/-! ### Timers (R3) -/

/-- The timer's duration has passed since its start (R3); the difference is taken modulo 2^32 (R2). -/
def Timer.due (now : Word) (t : Timer) : Bool := decide (t.duration ≤ (now - t.start).toNat)

/-- A timer is running and due. -/
def timerDue (now : Word) : Option Timer → Bool
  | none => false
  | some t => t.due now

def milliseconds (n : Nat) : Nat := n * 1000
def seconds (n : Nat) : Nat := n * 1000000

/-! ### A track as the other track and the host see it -/

/-- A track's occupied item: its on-bridge list holds an entry (R26). -/
def TrackState.occupied (k : TrackState) : Bool := !k.axles.onBridge.isEmpty

/-- The two items of R26. -/
def TrackState.occupancy (k : TrackState) : Occupancy := ⟨k.occupied, k.epoch⟩

/-- The occupant list of platform p: the on-bridge entries on it, front first (R27). -/
def TrackState.occupants (k : TrackState) (p : Nat) : List BridgeEntry :=
  k.axles.onBridge.filter (fun e => e.platform == p)

/-- A passage is open (R35): in CROSSING, STANDING, DRAINING and WITHDRAWN. -/
def TrackMode.inPassage : TrackMode → Bool
  | .disabled => false
  | .idle => false
  | .approach => false
  | .crossing => true
  | .standing => true
  | .draining => true
  | .withdrawn => true

/-! ### The view of one track -/

/-- Track t with the shared blocks, and the other track's occupancy. -/
def State.scene (s : State) (t : Track) : Scene where
  id := t
  other := (s.tracks.get t.other).occupancy
  trk := s.tracks.get t
  sh := s.shared

/-- Do a track's rule on the machine: it changes track t and the shared blocks and nothing else. -/
def State.onTrack (s : State) (t : Track) (f : Scene → Scene) : State :=
  { s with tracks := s.tracks.set t (f (s.scene t)).trk, shared := (f (s.scene t)).sh }

def Scene.now (c : Scene) : Word := c.sh.time

def Scene.modTrk (c : Scene) (f : TrackState → TrackState) : Scene := { c with trk := f c.trk }

def Scene.modShared (c : Scene) (f : Shared → Shared) : Scene := { c with sh := f c.sh }

def Scene.modAxles (c : Scene) (f : AxleTable → AxleTable) : Scene :=
  c.modTrk fun k => { k with axles := f k.axles }

/-- Change the open passage's context; without an open passage nothing changes (R49). -/
def Scene.modPassage (c : Scene) (f : Passage → Passage) : Scene :=
  c.modTrk fun k => { k with context := k.context.map f }

/-- Set passage flags (R49). -/
def Scene.modFlags (c : Scene) (f : PassageFlags → PassageFlags) : Scene :=
  c.modPassage fun p => { p with flags := f p.flags }

/-- Change one platform. -/
def Scene.modPlatform (c : Scene) (p : Nat) (f : Platform → Platform) : Scene :=
  c.modTrk fun k => { k with platforms := k.platforms.set p (f (k.platforms.get p)) }

/-- Start the track timer with a duration in microseconds (R3, R43). -/
def Scene.startTimer (c : Scene) (duration : Nat) : Scene :=
  c.modTrk fun k => { k with timer := some ⟨c.now, duration⟩ }

/-! ### The answer FIFO (R178) -/

/-- An answer becomes due: it joins the FIFO, and if no other answer is being written its fields become ready to write. -/
def OrderUnit.pushAnswer (u : OrderUnit) (a : Answer) : OrderUnit :=
  { u with
    answers := u.answers ++ [a]
    ready := if u.answers.isEmpty then u.ready ++ [.answerFields] else u.ready }

def Shared.pushAnswer (h : Shared) (a : Answer) : Shared := { h with orders := h.orders.pushAnswer a }

end Sys2Proof.Machine
end

