-- ==== Sys2Proof/Machine/Flags.lean ====
section
/-!
DEFINITION. Machine/Flags.lean: NOTICE and the IRQ line (R181), the part-wide counters (R6, R42, R137), and the flag words of
the records (R182).
-/
namespace Sys2Proof.Machine

/-! ### NOTICE -/

/-- The six notice bits (R181). -/
inductive Notice where
  | answer
  | page
  | alert
  | capture
  | wake
  | fault
deriving DecidableEq, Repr

/-- The bit of NOTICE that a notice sets, ANSWER in bit 0 (R182). -/
def Notice.bit : Notice → BitVec 6
  | .answer => 0x01#6
  | .page => 0x02#6
  | .alert => 0x04#6
  | .capture => 0x08#6
  | .wake => 0x10#6
  | .fault => 0x20#6

/-- A raise sets the notice's bit and leaves the others (R181). -/
def Shared.raise (h : Shared) (n : Notice) : Shared := { h with notice := h.notice ||| n.bit }

def Scene.raise (c : Scene) (n : Notice) : Scene := c.modShared (·.raise n)

/-- The IRQ line: asserted while a bit set in NOTICE is set in the notice mask (R181). -/
def State.irq (s : State) : Bool := (s.shared.notice &&& s.regs.noticeMask) != 0#6

/-! ### Counters -/

def Shared.modCounters (h : Shared) (f : Counters → Counters) : Shared := { h with counters := f h.counters }

/-- bad_frames, saturating at 65535 (R6). -/
def Shared.countBadFrame (h : Shared) : Shared :=
  h.modCounters fun k => { k with badFrames := satInc 65535 k.badFrames }

/-- edge_errors, saturating at 65535 (R6, R8). -/
def Shared.countEdgeError (h : Shared) : Shared :=
  h.modCounters fun k => { k with edgeErrors := satInc 65535 k.edgeErrors }

/-- point_faults, saturating at 65535 (R6, R12). -/
def Shared.countPointFault (h : Shared) : Shared :=
  h.modCounters fun k => { k with pointFaults := satInc 65535 k.pointFaults }

/-- sequence_errors, saturating at 65535 (R42, R47, R77). -/
def Shared.countSequenceError (h : Shared) : Shared :=
  h.modCounters fun k => { k with sequenceErrors := satInc 65535 k.sequenceErrors }

/-- auto_zero_failures, saturating at 255 (R137, R146). -/
def Shared.countAutoZeroFailure (h : Shared) : Shared :=
  h.modCounters fun k => { k with autoZeroFailures := satInc 255 k.autoZeroFailures }

/-! ### Flag words of the records (R182) -/

/-- The flags word of a close record, NO_APPROACH in bit 0. -/
def PassageFlags.word (f : PassageFlags) : Nat :=
  maskOf [f.noApproach, f.unzeroed, f.drift, f.crosstalkSeen, f.sequence, f.pointFault, f.gapped, f.saturated, f.reentry,
    f.recordLoss]

/-- The flags word of a wagon record, INCOMPLETE in bit 0. -/
def WagonFlags.word (f : WagonFlags) : Nat :=
  maskOf [f.incomplete, f.ungrouped, f.overGross, f.overAxle, f.sideShift, f.speed, f.crosstalk, f.captureMissed, f.flushed]

/-- The flags byte of an axle entry, NO_ESTIMATE in bit 0. -/
def AxleFlags.word (f : AxleFlags) : Nat :=
  maskOf [f.noEstimate, f.crosstalk, f.speed, f.noLead, f.low, f.reentered]

end Sys2Proof.Machine
end

