-- ==== Sys2Proof/Machine/Orders.lean ====
section
/-!
DEFINITION. Machine/Orders.lean: the order unit: scans, taking orders and the answer FIFO (R176 to R178).
-/
namespace Sys2Proof.Machine

def Shared.modOrders (h : Shared) (f : OrderUnit → OrderUnit) : Shared := { h with orders := f h.orders }

/-! ### Scans (R177) -/

/-- The scan timer started with scan_interval, or stopped for 0 (R177, R179). -/
def scanTimerFor (now : Word) (interval : Nat) : Option Timer :=
  if interval = 0 then none else some ⟨now, milliseconds interval⟩

/-- The orders queued plus the take in flight (R177). -/
def OrderUnit.load (u : OrderUnit) : Nat :=
  u.queue.length + (match u.scan with
    | none => 0
    | some x => if x.take.isSome then 1 else 0)

/-- The slot after the scan position (R177). -/
def slotAfter (k : Nat) : Nat := (k + 1) % 32

/-- The scan ends: the timer is started again (R177). -/
def OrderUnit.stopScan (u : OrderUnit) (now : Word) (interval : Nat) : OrderUnit :=
  { u with scan := none, scanTimer := scanTimerFor now interval }

/-- The read of a slot becomes ready, with the reads left after it. -/
def OrderUnit.readSlot (u : OrderUnit) (slot left : Nat) : OrderUnit :=
  { u with scan := some ⟨slot, left, none⟩, ready := u.ready ++ [.scanRead slot] }

/-- A scan starts at the slot after the scan position; on a full queue, a load of 8, it ends at once (R177). -/
def OrderUnit.startScan (u : OrderUnit) (now : Word) (interval : Nat) : OrderUnit :=
  if 8 ≤ u.load then u.stopScan now interval
  else u.readSlot (slotAfter u.scanPosition) 31

/-- A scan ends and, if the pending mark is set, a new one starts (R177). -/
def OrderUnit.endScan (u : OrderUnit) (now : Word) (interval : Nat) : OrderUnit :=
  if u.pendingScan then (({ u with pendingScan := false }).stopScan now interval).startScan now interval
  else u.stopScan now interval

/-- A scan is requested: it starts, or the pending mark is set while one runs (R177). -/
def OrderUnit.requestScan (u : OrderUnit) (now : Word) (interval : Nat) : OrderUnit :=
  if u.scan.isSome then { u with pendingScan := true } else u.startScan now interval

/-- The scan goes on behind a slot: it ends after 32 reads or on a full queue, or reads the next slot (R177). -/
def OrderUnit.continueScan (u : OrderUnit) (now : Word) (interval slot left : Nat) : OrderUnit :=
  if left = 0 ∨ 8 ≤ u.load then u.endScan now interval
  else u.readSlot (slotAfter slot) (left - 1)

/-- Byte i of a slot or of a parameter area; 0 beyond its end. -/
def byteAt (l : List Byte) (i : Nat) : Byte := l.getD i 0

/-- The order a slot holds, in R182's layout: kind in byte 1, tag in bytes 2 and 3, parameters in bytes 16 to 63. -/
def slotOrder (slot : Nat) (bytes : List Byte) : Order where
  slot := slot
  kind := byteAt bytes 1
  tag := byteAt bytes 3 ++ byteAt bytes 2
  params := padTo 48 (bytes.drop 16)

/-- A scan read completes with the slot's 64 bytes: a POSTED slot is taken, any other passed over (R176, R177). -/
def OrderUnit.scanReadDone (u : OrderUnit) (now : Word) (interval : Nat) (bytes : List Byte) : OrderUnit :=
  let u := { u with ready := u.ready.tail }
  match u.scan with
  | none => u
  | some x =>
    if byteAt bytes 0 = 1#8 then
      { u with
        scan := some { x with take := some (slotOrder x.slot bytes) }
        ready := u.ready ++ [.takenWrite x.slot] }
    else u.continueScan now interval x.slot x.left

/-- A TAKEN write completes: the order joins the queue, the scan position becomes its slot, the scan goes on (R177). -/
def OrderUnit.takenWriteDone (u : OrderUnit) (now : Word) (interval : Nat) : OrderUnit :=
  let u := { u with ready := u.ready.tail }
  match u.scan with
  | none => u
  | some x =>
    match x.take with
    | none => u
    | some o =>
      OrderUnit.continueScan
        { u with queue := u.queue ++ [o], scanPosition := x.slot, scan := some { x with take := none } }
        now interval x.slot x.left

/-! ### Answers (R178) -/

/-- The answer fields are written: the state write ANSWERED becomes ready. -/
def OrderUnit.answerFieldsDone (u : OrderUnit) : OrderUnit :=
  { u with ready := u.ready.tail ++ [.answered] }

/-- ANSWERED is written: the answer leaves the FIFO, the next one's fields become ready, and an order's own answer lets the next
order be carried out. -/
def OrderUnit.answeredDone (u : OrderUnit) : OrderUnit :=
  match u.answers with
  | [] => { u with ready := u.ready.tail }
  | a :: rest =>
    { u with
      answers := rest
      ready := if rest.isEmpty then u.ready.tail else u.ready.tail ++ [.answerFields]
      carrying := if a.owner = .zero then u.carrying else false }

def answerCodeValue : AnswerCode → Byte
  | .done => 0
  | .busy => 1
  | .invalid => 2
  | .locked => 3
  | .noRoom => 4
  | .nothing => 5
  | .failed => 6
  | .preempted => 7

/-- The bytes of an answer-fields write: slot bytes 2 to 63, being tag, answer code, unnamed bytes 0 and the answer area
(R176, R178, R182). DESIGN CHOICE (log 11): the access begins at the tag. -/
def answerBytes (a : Answer) : List Byte :=
  le16 a.tag.toNat ++ padTo 12 [answerCodeValue a.code] ++ padTo 48 a.area

/-! ### Reclaim (R169) -/

/-- RECLAIM PAGES with pages to write: their header writes become ready one after the other (log 10). -/
def OrderUnit.startReclaim (u : OrderUnit) (o : Order) (removed : List Word) : OrderUnit :=
  { u with reclaim := some ⟨o.slot, o.tag, removed, removed.length⟩, ready := u.ready ++ [.reclaimHeader], carrying := true }

/-- A reclaimed page's header is written: the next one's becomes ready, or after the last the order's answer, DONE with the number of
pages removed, becomes due (R169). -/
def OrderUnit.reclaimHeaderDone (u : OrderUnit) : OrderUnit :=
  let u := { u with ready := u.ready.tail }
  match u.reclaim with
  | none => u
  | some r =>
    match r.left.tail with
    | [] =>
      OrderUnit.pushAnswer { u with reclaim := none } ⟨r.slot, r.tag, .done, [BitVec.ofNat 8 r.count], .order⟩
    | rest => { u with reclaim := some { r with left := rest }, ready := u.ready ++ [.reclaimHeader] }

end Sys2Proof.Machine
end

