-- ==== Sys2Proof/Machine/Estimates.lean ====
section
/-!
DEFINITION. Machine/Estimates.lean: the step estimator (R41, R94 to R99), finalization (R102, R103) and the drift test (R109).
-/
namespace Sys2Proof.Machine

/-! ### Axle records -/

/-- The axle record of a serial (R66). -/
def AxleTable.find (a : AxleTable) (serial : Nat) : Option AxleRecord :=
  a.records.find? fun r => r.serial == serial

/-- Change the record of a serial. -/
def AxleTable.modRecord (a : AxleTable) (serial : Nat) (f : AxleRecord → AxleRecord) : AxleTable :=
  { a with records := a.records.map fun r => if r.serial = serial then f r else r }

/-- Drop the record of a serial (R74, R103). -/
def AxleTable.dropRecord (a : AxleTable) (serial : Nat) : AxleTable :=
  { a with records := a.records.filter fun r => r.serial != serial }

def Scene.modRecord (c : Scene) (serial : Nat) (f : AxleRecord → AxleRecord) : Scene :=
  c.modAxles (·.modRecord serial f)

/-! ### Estimates -/

/-- One side of a window as the estimator uses it: a closed window's mean and marks, or the zero-offset substitute, which
counts as long enough and carries no mark (R41, R96). -/
structure SideWindow where
  mean : Option Int
  long : Bool
  saturated : Bool
  gapped : Bool
  crosstalk : Bool
deriving DecidableEq, Repr

/-- A side of a closed window used as it stands (R96). -/
def sideOf (x : WindowStats) (mean : Option Int) (minSamples : Nat) : SideWindow :=
  ⟨mean, decide (minSamples ≤ x.sampleCount), x.saturated, x.gapped, x.crosstalk⟩

/-- A side of a before-window: the channel's zero offset where the window is short and empty and the channel's zero_valid is
set, the window itself otherwise (R41). -/
def beforeSide (x : WindowStats) (mean : Option Int) (ch : Channel) (minSamples : Nat) : SideWindow :=
  if x.sampleCount < minSamples ∧ x.empty ∧ ch.zeroValid then ⟨some ch.zeroOffset, true, false, false, false⟩
  else sideOf x mean minSamples

/-- The clamp of R95 to signed 32 bits. -/
def clampKg (x : Int) : Int := max (-2147483648) (min 2147483647 x)

/-- One side's estimate in kg: the signed difference times the span, divided by 65536, rounded and clamped (R95);
absent when a mean is. -/
def sideEstimate (sign : Sign) (before after : Option Int) (span : Nat) : Option Int :=
  match before, after with
  | some b, some a =>
    let d := match sign with
      | .entry => a - b
      | .exit => b - a
    some (clampKg (roundDiv (d * (span : Int)) 65536))
  | _, _ => none

/-- The speed test of R96. -/
def speedOk (cfg : TrackConfig) : Option Nat → Bool
  | none => false
  | some v => decide (cfg.minSpeed ≤ v) && decide (v ≤ cfg.maxSpeed)

/-- The estimate of a step, absent when invalid, and whether a window used carries CROSSTALK (R95, R96). -/
def stepEstimate (cfg : TrackConfig) (policy : CrosstalkPolicy) (ch : Rails Channel) (st : PendingStep) (after : WindowStats) :
    Option (Rails Int) × Bool :=
  let bl := beforeSide st.before st.before.mean.left ch.left cfg.minWindowSamples
  let br := beforeSide st.before st.before.mean.right ch.right cfg.minWindowSamples
  let al := sideOf after after.mean.left cfg.minWindowSamples
  let ar := sideOf after after.mean.right cfg.minWindowSamples
  let crosstalk := bl.crosstalk || br.crosstalk || after.crosstalk
  let ok := speedOk cfg st.speed
    && bl.long && br.long && al.long && ar.long
    && !(bl.saturated || br.saturated || after.saturated)
    && !(bl.gapped || br.gapped || after.gapped)
    && (!crosstalk || decide (policy = .mark))
  match ok, sideEstimate st.sign bl.mean al.mean ch.left.span, sideEstimate st.sign br.mean ar.mean ch.right.span with
  | true, some l, some r => (some ⟨l, r⟩, crosstalk)
  | _, _, _ => (none, crosstalk)

/-- What a resolved step does to the record of its known axle: flags (R98), the list of at most 8 estimates (R99), one pending
step fewer (R100). -/
def AxleRecord.takeEstimate (r : AxleRecord) (cfg : TrackConfig) (speed : Option Nat) (e : Option (Rails Int) × Bool) :
    AxleRecord :=
  { r with
    estimates := match e.1 with
      | some v => if r.estimates.length < 8 then r.estimates ++ [v] else r.estimates
      | none => r.estimates
    flags :=
      { r.flags with
        speed := r.flags.speed || !speedOk cfg speed
        crosstalk := r.flags.crosstalk || (e.1.isSome && e.2) }
    pendingSteps := r.pendingSteps - 1 }

/-- The estimator takes a step resolved on platform p (R94): a ghost's step, and one whose axle record is gone, is dropped. -/
def Scene.takeStep (c : Scene) (p : Nat) (st : PendingStep) (after : WindowStats) : Scene :=
  if st.entry.ghost then c
  else
    c.modRecord st.entry.serial fun r =>
      r.takeEstimate c.trk.config st.speed
        (stepEstimate c.trk.config c.sh.options.crosstalkPolicy (c.trk.calibration.get p) st after)

/-! ### Finalization -/

/-- The rounded mean of one side in 10 kg units (R102). -/
def meanLoad (values : List Int) : Int := roundDiv values.sum (10 * values.length)

/-- A rounded mean stored as a load (R102): 0 when negative, at most 65535. -/
def storedLoad (x : Int) : Nat := min 65535 x.toNat

/-- The finalized axle of a record (R102, R103). -/
def AxleRecord.finalize (r : AxleRecord) : FinalAxle :=
  let l := meanLoad (r.estimates.map (·.left))
  let rr := meanLoad (r.estimates.map (·.right))
  { serial := r.serial
    leadSpacing := r.leadSpacing
    speed := r.entrySpeed
    load := if r.estimates.isEmpty then none else some ⟨storedLoad l, storedLoad rr⟩
    estimateCount := r.estimates.length
    flags :=
      { r.flags with
        noEstimate := r.estimates.isEmpty
        low := !r.estimates.isEmpty && (decide (l < 0) || decide (rr < 0)) } }

/-! ### Drift -/

/-- One channel has drifted (R109). -/
def channelDrifted (limit : Nat) (minSamples : Nat) (x : WindowStats) (mean : Option Int) (ch : Channel) : Bool :=
  match mean with
  | none => false
  | some m =>
    ch.zeroValid && x.empty && decide (minSamples ≤ x.sampleCount) && !x.saturated && !x.gapped && !x.crosstalk
      && decide (limit * 65536 < (m - ch.zeroOffset).natAbs * ch.span)

/-- A channel of platform p has drifted (R109); a platform above P is not checked. -/
def platformDrifted (k : TrackState) (limit : Nat) (p : Nat) : Bool :=
  match (k.platforms.get p).last with
  | none => false
  | some x =>
    decide (p ≤ k.config.platforms)
      && (channelDrifted limit k.config.minWindowSamples x x.mean.left (k.calibration.get p).left
        || channelDrifted limit k.config.minWindowSamples x x.mean.right (k.calibration.get p).right)

/-- The drift check of step 6 of the close (R109); a drift_limit of 0 turns it off. -/
def Scene.checkDrift (c : Scene) : Scene :=
  if c.sh.options.driftLimit ≠ 0 ∧ [1, 2, 3, 4].any (platformDrifted c.trk c.sh.options.driftLimit) then
    (c.modFlags fun f => { f with drift := true }).raise .alert
  else c

end Sys2Proof.Machine
end

