-- ==== Sys2Proof/Machine/Windows.lean ====
section
/-!
DEFINITION. Machine/Windows.lean: platform windows (R27 to R32, R35 to R37), the sequence check (R23) and the pending steps as
stored objects (R38, R39).
-/
namespace Sys2Proof.Machine

/-- A new window, with the other track's occupancy as its snapshot (R28). -/
def Window.opened (other : Occupancy) : Window where
  sum := ⟨0, 0⟩
  sampleCount := 0
  saturated := false
  gapped := false
  snapshotOccupied := other.occupied
  snapshotEpoch := other.epoch

/-- Open a window on platform p (R28). -/
def Scene.openWindow (c : Scene) (p : Nat) : Scene :=
  c.modPlatform p fun x => { x with window := some (Window.opened c.other) }

/-- Open a window on every platform 1 to P (R28). -/
def Scene.openWindows (c : Scene) : Scene :=
  c.modTrk fun k =>
    { k with platforms := k.platforms.mapIdx fun p x =>
        if p ≤ k.config.platforms then { x with window := some (Window.opened c.other) } else x }

/-- Discard every window (R37): no statistics, no flag. -/
def Scene.discardWindows (c : Scene) : Scene :=
  c.modTrk fun k => { k with platforms := k.platforms.mapIdx fun _ x => { x with window := none } }

/-- The entry of a channel in a frame: channel 2p − 1 is platform p's left, 2p its right (R29). -/
def frameChannel (channels : List ChannelEntry) (channel : Nat) : ChannelEntry :=
  channels.getD (channel - 1) ⟨0, false⟩

/-- Platform p's two entries of a frame. -/
def frameRails (channels : List ChannelEntry) (p : Nat) : Rails ChannelEntry :=
  ⟨frameChannel channels (2 * p - 1), frameChannel channels (2 * p)⟩

/-- A frame's two values added to a window (R29); a window of 2^32 − 1 frames adds nothing further. -/
def Window.add (w : Window) (x : Rails ChannelEntry) : Window :=
  if 4294967295 ≤ w.sampleCount then w
  else
    { w with
      sum := ⟨w.sum.left + x.left.value.toInt, w.sum.right + x.right.value.toInt⟩
      sampleCount := w.sampleCount + 1
      saturated := w.saturated || x.left.overrange || x.right.overrange }

/-- The frame added to every open window of the track (R24, R29). -/
def Scene.addToWindows (c : Scene) (channels : List ChannelEntry) : Scene :=
  c.modTrk fun k =>
    { k with platforms := k.platforms.mapIdx fun p x => { x with window := x.window.map (·.add (frameRails channels p)) } }

/-- Every open window marked GAPPED (R23). -/
def Scene.markGapped (c : Scene) : Scene :=
  c.modTrk fun k =>
    { k with platforms := k.platforms.mapIdx fun _ x => { x with window := x.window.map fun w => { w with gapped := true } } }

/-- A frame with this sequence number shows a gap (R23). -/
def gapBefore (state : Option Byte) (sequence : Byte) : Bool :=
  match state with
  | none => false
  | some n => sequence != n + 1

/-- The CROSSTALK test of R32. -/
def Window.crosstalk (w : Window) (other : Occupancy) : Bool :=
  w.snapshotOccupied || other.occupied || other.epoch != w.snapshotEpoch

/-- The statistics of a closing window (R32). -/
def Window.stats (w : Window) (empty : Bool) (other : Occupancy) : WindowStats where
  mean := w.sum.map fun x => if w.sampleCount = 0 then none else some (roundDiv x w.sampleCount)
  sampleCount := w.sampleCount
  empty := empty
  saturated := w.saturated
  gapped := w.gapped
  crosstalk := w.crosstalk other

/-- The marks of a closing window carried into the passage flags (R35). -/
def PassageFlags.addMarks (f : PassageFlags) (x : WindowStats) : PassageFlags :=
  { f with
    gapped := f.gapped || x.gapped
    saturated := f.saturated || x.saturated
    crosstalkSeen := f.crosstalkSeen || x.crosstalk }

/-- Close platform p's window: statistics, passage flags, and the pending step resolved with them as its after-window
(R32, R35, R39). -/
def Scene.closeWindow (c : Scene) (p : Nat) : Scene :=
  match (c.trk.platforms.get p).window with
  | none => c
  | some w =>
    let x := w.stats (c.trk.occupants p).isEmpty c.other
    let step := (c.trk.platforms.get p).step
    let c := c.modPlatform p fun _ => ⟨none, some x, none⟩
    let c := c.modFlags (·.addMarks x)
    match step with
    | none => c
    | some st => c.takeStep p st x

/-- Record a pending step on platform p for an entry a pass moved; its before-window is the window the pass closed (R38).
For a real axle pending_steps is incremented (R89). -/
def Scene.recordStep (c : Scene) (e : Entry) (speed : Option Nat) (p : Nat) (sign : Sign) : Scene :=
  match (c.trk.platforms.get p).last with
  | none => c
  | some before =>
    let c := c.modPlatform p fun x => { x with step := some ⟨e, sign, speed, before⟩ }
    if e.ghost then c
    else c.modRecord e.serial fun r => { r with pendingSteps := r.pendingSteps + 1 }

end Sys2Proof.Machine
end

