-- ==== Sys2Proof/Machine/AxleTable.lean ====
section
/-!
DEFINITION. Machine/AxleTable.lean: the axle table's part of a pass (R68 to R89): what each kind of pass moves, and the disposal
of what is left at close (R90).
-/
namespace Sys2Proof.Machine

/-! ### Points, platforms and travel order -/

/-- The entry point's index: B0 for UP, BP for DOWN (00_scope). -/
def entryIndex (P : Nat) : Direction → Nat
  | .up => 0
  | .down => P

/-- The exit point's index. -/
def exitIndex (P : Nat) : Direction → Nat
  | .up => P
  | .down => 0

/-- The first platform in travel order. -/
def firstPlatform (P : Nat) : Direction → Nat
  | .up => 1
  | .down => P

/-- The last platform in travel order. -/
def lastPlatform (P : Nat) : Direction → Nat
  | .up => P
  | .down => 1

/-- The platform behind an intermediate point Bk, in the passage's direction (R76). -/
def behindPlatform (k : Nat) : Direction → Nat
  | .up => k
  | .down => k + 1

/-- The platform ahead of an intermediate point Bk. -/
def aheadPlatform (k : Nat) : Direction → Nat
  | .up => k + 1
  | .down => k

/-- The six kinds of boundary pass of an open passage (R50), the intermediate ones with the index of their point. -/
inductive PassKind where
  | forwardEntry
  | backwardEntry
  | forwardMiddle (k : Nat)
  | backwardMiddle (k : Nat)
  | forwardExit
  | backwardExit
deriving DecidableEq, Repr

/-- The kind of a pass at boundary point Bk of a passage's direction (R50). -/
def classifyPass (P : Nat) (passage : Direction) (k : Nat) (d : Direction) : PassKind :=
  if k = entryIndex P passage then (if d = passage then .forwardEntry else .backwardEntry)
  else if k = exitIndex P passage then (if d = passage then .forwardExit else .backwardExit)
  else if d = passage then .forwardMiddle k else .backwardMiddle k

/-- The platforms a pass bounds, in travel order (R30, R31). -/
def boundPlatforms (P : Nat) (passage : Direction) : PassKind → List Nat
  | .forwardEntry => [firstPlatform P passage]
  | .backwardEntry => [firstPlatform P passage]
  | .forwardMiddle k => [behindPlatform k passage, aheadPlatform k passage]
  | .backwardMiddle k => [behindPlatform k passage, aheadPlatform k passage]
  | .forwardExit => [lastPlatform P passage]
  | .backwardExit => [lastPlatform P passage]

/-! ### Moving entries in the on-bridge list -/

/-- Take out the frontmost entry on platform p. -/
def takeFrontOn (p : Nat) : List BridgeEntry → Option (BridgeEntry × List BridgeEntry)
  | [] => none
  | e :: l =>
    if e.platform = p then some (e, l)
    else (takeFrontOn p l).map fun r => (r.1, e :: r.2)

/-- Take out the rearmost entry on platform p. -/
def takeRearOn (p : Nat) (l : List BridgeEntry) : Option (BridgeEntry × List BridgeEntry) :=
  (takeFrontOn p l.reverse).map fun r => (r.1, r.2.reverse)

/-- Move the frontmost entry on platform p to platform q, in place (R83). -/
def moveFrontOn (p q : Nat) : List BridgeEntry → Option (BridgeEntry × List BridgeEntry)
  | [] => none
  | e :: l =>
    if e.platform = p then some (e, { e with platform := q } :: l)
    else (moveFrontOn p q l).map fun r => (r.1, e :: r.2)

/-- Move the rearmost entry on platform p to platform q, in place (R84). -/
def moveRearOn (p q : Nat) (l : List BridgeEntry) : Option (BridgeEntry × List BridgeEntry) :=
  (moveFrontOn p q l.reverse).map fun r => (r.1, r.2.reverse)

def BridgeEntry.entry (e : BridgeEntry) : Entry := ⟨e.serial, e.ghost⟩

/-- The on-bridge list replaced; occupancy_epoch advances when the list goes from empty to non-empty (R26, R70). -/
def Scene.setBridge (c : Scene) (l : List BridgeEntry) : Scene :=
  c.modTrk fun k =>
    { k with
      axles := { k.axles with onBridge := l }
      epoch := if k.axles.onBridge.isEmpty && !l.isEmpty then k.epoch + 1 else k.epoch }

/-! ### The moves -/

/-- What a pass moved: the entry and the steps to record, in the order of R76. -/
structure Moved where
  scene : Scene
  entry : Entry
  steps : List (Nat × Sign)
deriving DecidableEq, Repr

/-- lead_spacing at creation (R69): absent for serial 1, after a discard, and where either speed is absent. -/
def leadSpacing (a : AxleTable) (time : Word) (speed : Option Nat) : Option Nat :=
  if a.lastSerial = 0 ∨ a.discardSeen then none
  else
    match a.spacingReference.bind (fun r => r.speed.map fun v => (r.time, v)), speed with
    | some (t0, v0), some v1 =>
      let t := (time - t0).toNat
      if 2147483648 ≤ t then some 65535 else some (min 65535 ((v0 + v1) / 2 * t / 360000))
    | _, _ => none

/-- The record of a created axle (R80). -/
def newRecord (a : AxleTable) (platform : Nat) (time : Word) (speed : Option Nat) : AxleRecord where
  serial := a.lastSerial + 1
  platform := platform
  entryTime := time
  entrySpeed := speed
  leadSpacing := leadSpacing a time speed
  estimates := []
  pendingSteps := 0
  flags := ⟨false, false, false, (leadSpacing a time speed).isNone, false, false⟩

/-- A creation (R68, R69, R80). -/
def Scene.createAxle (c : Scene) (platform : Nat) (time : Word) (speed : Option Nat) : Moved :=
  let r := newRecord c.trk.axles platform time speed
  let c := c.modAxles fun a =>
    { a with
      records := a.records ++ [r]
      lastSerial := a.lastSerial + 1
      spacingReference := some ⟨time, speed⟩ }
  let c := c.setBridge (c.trk.axles.onBridge ++ [⟨r.serial, false, platform⟩])
  { scene := c.modPassage fun p => { p with axlesCreated := satInc 65535 p.axlesCreated }
    entry := ⟨r.serial, false⟩
    steps := [(platform, .entry)] }

/-- A re-entry of the top of the backed-out stack (R79). -/
def Scene.reenter (c : Scene) (e : Entry) (rest : List Entry) (platform : Nat) (time : Word) (speed : Option Nat) : Moved :=
  let c := c.modAxles fun a => { a with backedOut := rest }
  let c :=
    if e.ghost then c
    else
      let c := c.modRecord e.serial fun r =>
        { r with platform := platform, entryTime := time, entrySpeed := speed, flags := { r.flags with reentered := true } }
      c.modAxles fun a => if e.serial = a.lastSerial then { a with spacingReference := some ⟨time, speed⟩ } else a
  { scene := c.setBridge (c.trk.axles.onBridge ++ [⟨e.serial, e.ghost, platform⟩])
    entry := e
    steps := [(platform, .entry)] }

/-- The discard of the bottom of a full stack, before a push (R82). -/
def Scene.discardBottom (c : Scene) : Scene :=
  if c.trk.axles.backedOut.length < 32 then c
  else
    match c.trk.axles.backedOut.getLast? with
    | none => c
    | some e =>
      let c := c.modAxles fun a => { a with backedOut := a.backedOut.dropLast, discardSeen := true }
      if e.ghost then c
      else
        let c := c.modAxles fun a => { a.dropRecord e.serial with discarded := a.discarded ++ [e.serial] }
        c.modPassage fun p => { p with axlesBackedOut := satInc 65535 p.axlesBackedOut }

/-- A backward pass at the entry point (R81). -/
def Scene.backOut (c : Scene) (platform : Nat) : Option Moved :=
  (takeRearOn platform c.trk.axles.onBridge).map fun r =>
    let c := c.discardBottom
    let c := c.setBridge r.2
    { scene := c.modAxles fun a => { a with backedOut := r.1.entry :: a.backedOut }
      entry := r.1.entry
      steps := [(platform, .exit)] }

/-- The record of a moved axle takes its new platform (R83). -/
def Scene.placeRecord (c : Scene) (e : BridgeEntry) (platform : Nat) : Scene :=
  if e.ghost then c else c.modRecord e.serial fun r => { r with platform := platform }

/-- A forward pass at an intermediate point (R83). -/
def Scene.moveForward (c : Scene) (behind ahead : Nat) : Option Moved :=
  (moveFrontOn behind ahead c.trk.axles.onBridge).map fun r =>
    { scene := (c.setBridge r.2).placeRecord r.1 ahead
      entry := r.1.entry
      steps := [(behind, .exit), (ahead, .entry)] }

/-- A backward pass at an intermediate point (R84). -/
def Scene.moveBackward (c : Scene) (behind ahead : Nat) : Option Moved :=
  (moveRearOn ahead behind c.trk.axles.onBridge).map fun r =>
    { scene := (c.setBridge r.2).placeRecord r.1 behind
      entry := r.1.entry
      steps := [(ahead, .exit), (behind, .entry)] }

/-- A forward pass at the exit point (R85): the departed ring keeps the newest 8. -/
def Scene.depart (c : Scene) (platform : Nat) : Option Moved :=
  (takeFrontOn platform c.trk.axles.onBridge).map fun r =>
    let c := c.setBridge r.2
    let c := c.modAxles fun a => { a with departed := (r.1.entry :: a.departed).take 8 }
    { scene :=
        if r.1.ghost then c
        else
          (c.modAxles fun a => { a with awaiting := a.awaiting ++ [r.1.serial] }).modPassage fun p =>
            { p with axlesDeparted := satInc 65535 p.axlesDeparted }
      entry := r.1.entry
      steps := [(platform, .exit)] }

/-- A backward pass at the exit point (R86, R87): a ghost of the newest departure, or of serial 0, comes back. -/
def Scene.ghostReturn (c : Scene) (platform : Nat) : Option Moved :=
  if 32 ≤ c.trk.axles.onBridge.length then none
  else
    let newest := c.trk.axles.departed.head?
    let serial := (newest.map (·.serial)).getD 0
    let counted := (newest.map fun e => !e.ghost).getD true
    let c := c.modAxles fun a => { a with departed := a.departed.tail }
    let c := c.setBridge (⟨serial, true, platform⟩ :: c.trk.axles.onBridge)
    some
      { scene := c.modPassage fun p =>
          { p with
            flags := { p.flags with reentry := true }
            ghostEntries := if counted then satInc 65535 p.ghostEntries else p.ghostEntries }
        entry := ⟨serial, true⟩
        steps := [(platform, .entry)] }

/-- A forward pass at the entry point that is no OVERFLOW (R78): re-entry or creation. -/
def Scene.enter (c : Scene) (platform : Nat) (x : Pass) : Moved :=
  match c.trk.axles.backedOut with
  | e :: rest => c.reenter e rest platform x.time x.speed
  | [] => c.createAxle platform x.time x.speed

/-- The OVERFLOW test of R78: a full bridge, or an exhausted serial with an empty stack. -/
def AxleTable.overflows (a : AxleTable) : Bool :=
  decide (32 ≤ a.onBridge.length) || (a.backedOut.isEmpty && decide (65535 ≤ a.lastSerial))

/-- Stage 3 of R31: the move a pass calls for (R76); absent for a sequence error (R77). -/
def Scene.movePass (c : Scene) (d : Direction) (x : Pass) (kind : PassKind) : Option Moved :=
  let P := c.trk.config.platforms
  match kind with
  | .forwardEntry => some (c.enter (firstPlatform P d) x)
  | .backwardEntry => c.backOut (firstPlatform P d)
  | .forwardMiddle k => c.moveForward (behindPlatform k d) (aheadPlatform k d)
  | .backwardMiddle k => c.moveBackward (behindPlatform k d) (aheadPlatform k d)
  | .forwardExit => c.depart (lastPlatform P d)
  | .backwardExit => c.ghostReturn (lastPlatform P d)

/-- Stages 3 and 4 of R31: the move and its steps, or the sequence error of R77. -/
def Scene.moveAndRecord (c : Scene) (d : Direction) (x : Pass) (kind : PassKind) : Scene :=
  match c.movePass d x kind with
  | none => (c.modShared Shared.countSequenceError).modFlags fun f => { f with sequence := true }
  | some m => m.steps.foldl (fun c s => c.recordStep m.entry x.speed s.1 s.2) m.scene

/-! ### Disposal at close -/

/-- A saturating 16-bit count increased by n. -/
def satAdd (largest n k : Nat) : Nat := if n + k < largest then n + k else max n largest

/-- Step 4 of the close (R90): the real axles on the bridge and in the stack join the discarded set and are counted;
list, stack and ring are emptied. -/
def Scene.disposeAxles (c : Scene) : Scene :=
  let left := (c.trk.axles.onBridge.filter fun e => !e.ghost).map (·.serial)
  let backed := (c.trk.axles.backedOut.filter fun e => !e.ghost).map (·.serial)
  let c := c.modAxles fun a =>
    { a with
      records := a.records.filter fun r => !(left ++ backed).contains r.serial
      onBridge := []
      backedOut := []
      departed := []
      discarded := a.discarded ++ left ++ backed }
  c.modPassage fun p =>
    { p with
      axlesLeftOnBridge := satAdd 65535 p.axlesLeftOnBridge left.length
      axlesBackedOut := satAdd 65535 p.axlesBackedOut backed.length }

end Sys2Proof.Machine
end

