-- ==== Sys2Proof/Machine/Watch.lean ====
section
/-!
DEFINITION. Machine/Watch.lean: the watch units (R154, R155) and the capture unit's trigger, entries and end (R158 to R160).
-/
namespace Sys2Proof.Machine

def Shared.modCapture (h : Shared) (f : CaptureUnit → CaptureUnit) : Shared := { h with capture := f h.capture }

/-- Axle load, left plus right, exceeds a limit; an axle without loads does not (R127, R154). -/
def axleAbove (limit : Nat) (x : FinalAxle) : Bool :=
  match x.load with
  | none => false
  | some l => decide (limit < l.left + l.right)

/-- An axle's speed is absent, below the lowest or above the highest value (R154). -/
def speedOutside (lowest highest : Nat) (x : FinalAxle) : Bool :=
  match x.speed with
  | none => true
  | some v => decide (v < lowest) || decide (highest < v)

/-- A unit's condition holds for a wagon (R154); the shift percent is 255 exactly when no load is above 0 (R125). -/
def WatchUnit.holds (u : WatchUnit) (w : Wagon) : Bool :=
  match u.condition with
  | .grossAbove => decide (u.value1 < w.gross)
  | .axleAbove => w.axles.any (axleAbove u.value1)
  | .shiftAbove => decide (0 < w.gross) && decide (u.value1 < w.shift)
  | .speedOutside => w.axles.any (speedOutside u.value1 u.value2)
  | .classIs => decide (w.classCode = u.value1)
  | .ungrouped => w.flags.ungrouped

/-- A unit takes part in a wagon's evaluation and its condition holds (R155). -/
def WatchUnit.hits (u : WatchUnit) (w : Wagon) : Bool :=
  u.enabled && (match u.track with
    | none => true
    | some t => decide (t = w.track)) && u.holds w

/-- A recording starts, triggered by a wagon and a unit's scope (R158). -/
def CaptureUnit.start (x : CaptureUnit) (w : Wagon) (scope : CaptureScope) : CaptureUnit :=
  { x with
    state := .recording
    triggerTrack := w.track
    scope := scope
    triggerPassage := w.passage
    triggerWagon := w.number
    written := 0
    taking := true }

/-- The evaluation of one wagon in progress: the wagon with its marks, the shared blocks, and whether a CAPTURE hit came. -/
structure Evaluation where
  wagon : Wagon
  sh : Shared
  captureHit : Bool
deriving DecidableEq, Repr

/-- The action of a hit (R155). -/
def Evaluation.act (v : Evaluation) (u : WatchUnit) : Evaluation :=
  match u.action with
  | .mark => { v with sh := v.sh.raise .alert }
  | .capture =>
    if v.captureHit then v
    else if v.sh.capture.state = .armed then
      { v with sh := v.sh.modCapture (·.start v.wagon u.scope), captureHit := true }
    else
      { v with wagon := { v.wagon with flags := { v.wagon.flags with captureMissed := true } }, captureHit := true }

/-- Unit i, 0 to 3, evaluates the wagon (R155). -/
def Evaluation.unit (v : Evaluation) (i : Nat) : Evaluation :=
  let u := v.sh.watch.get (i + 1)
  if u.hits v.wagon then
    Evaluation.act
      { v with
        sh := { v.sh with watch := v.sh.watch.set (i + 1) { u with hitCount := satInc 65535 u.hitCount } }
        wagon := { v.wagon with watchMask := v.wagon.watchMask ||| (1#4 <<< i) } } u
  else v

/-- The watch units evaluate a wagon in index order (R155). -/
def Shared.evaluate (h : Shared) (w : Wagon) : Evaluation :=
  [0, 1, 2, 3].foldl Evaluation.unit ⟨w, h, false⟩

/-! ### Recording -/

/-- A recording ends: no further entry is formed (R160). -/
def CaptureUnit.endRecording (x : CaptureUnit) : CaptureUnit := { x with taking := false }

/-- The capture unit takes an accepted frame of a captured track (R159) and ends by count (R160). A frame that finds 16 waiting
entries forms none. -/
def CaptureUnit.takeFrame (x : CaptureUnit) (now : Word) (t : Track) (sequence : Byte) (channels : List ChannelEntry) :
    CaptureUnit :=
  if x.taking ∧ (t = x.triggerTrack ∨ x.scope = .both) ∧ x.waiting.length < 16 then
    let y : CaptureUnit :=
      { x with
        waiting := x.waiting ++ [⟨x.written % x.slots, now, t, sequence, channels⟩]
        written := x.written + 1 }
    if y.written = y.limit then y.endRecording else y
  else x

/-- Step 8 of the close (R56, R160): the close of the trigger track ends the recording. -/
def CaptureUnit.closeOf (x : CaptureUnit) (t : Track) : CaptureUnit :=
  if x.state = .recording ∧ x.triggerTrack = t then x.endRecording else x

/-- The capture writer has its header to write: the recording has ended and every entry is written (R160). -/
def CaptureUnit.headerDue (x : CaptureUnit) : Bool :=
  decide (x.state = .recording) && !x.taking && x.waiting.isEmpty

/-- The address of an entry's slot (R159). -/
def CaptureUnit.entryAddress (x : CaptureUnit) (e : CaptureEntry) : Word :=
  x.area + 32 + 40 * BitVec.ofNat 32 e.slot

end Sys2Proof.Machine
end

