-- ==== Sys2Proof/Machine/Grouper.lean ====
section
/-!
DEFINITION. Machine/Grouper.lean: the matching of axles to the class table (R113, R118 to R123), wagons (R124 to R130), the offer of
their records (R166), finalization into the group-pending list (R100, R101, R103) and the close flush (R132).
-/
namespace Sys2Proof.Machine

/-- The lookahead L (R118): the largest n of an entry that is not OFF, plus 1; 2 when every entry is OFF. -/
def lookahead (classes : List ClassEntry) : Nat :=
  classes.foldl (fun m e => if e.mode = .off then m else max m e.n) 1 + 1

/-- The lead_spacing of an axle of the passage, read where it stands (R122): in its axle record or the group-pending list.
DEDUCED (log 18): an axle behind a pending axle is never in a formed wagon. -/
def TrackState.leadSpacingOf (k : TrackState) (serial : Nat) : Option Nat :=
  match k.axles.find serial with
  | some r => r.leadSpacing
  | none => (k.group.find? fun x => x.serial == serial).bind (·.leadSpacing)

/-- The end gap behind the axle with serial s (R122). -/
def TrackState.endGapHolds (k : TrackState) (flush : Bool) (endGapMin s : Nat) : Bool :=
  if s = 65535 ∨ k.axles.lastSerial < s + 1 then flush
  else if k.axles.discarded.contains (s + 1) then false
  else
    match k.leadSpacingOf (s + 1) with
    | none => false
    | some g => decide (endGapMin ≤ g)

/-- A lead_spacing is present and inside a pair (R121). -/
def SpacingRange.fits (r : SpacingRange) (x : FinalAxle) : Bool :=
  match x.leadSpacing with
  | none => false
  | some g => decide (r.min ≤ g) && decide (g ≤ r.max)

/-- The inner spacings of a PATTERN entry: pair k − 1 against the k-th axle of the list, for k from 2 to n (R121). -/
def innerSpacingsFit (e : ClassEntry) (group : List FinalAxle) : Bool :=
  (List.zip e.pairs (group.tail.take (e.n - 1))).all fun x => x.1.fits x.2

/-- An entry matches the head of the list (R113, R121). -/
def TrackState.matchesEntry (k : TrackState) (flush : Bool) (e : ClassEntry) : Bool :=
  decide (e.mode ≠ .off) && decide (e.n ≤ k.group.length)
    && (decide (e.mode = .count) || innerSpacingsFit e k.group)
    && (match k.group[e.n - 1]? with
      | none => false
      | some x => k.endGapHolds flush e.endGapMin x.serial)

/-- The lowest index whose entry matches (R121). -/
def TrackState.firstMatch (k : TrackState) (flush : Bool) (classes : List ClassEntry) : Option Nat :=
  classes.findIdx? (k.matchesEntry flush)

/-! ### Wagons -/

/-- ΣL and ΣR over the axles whose loads are present (R125). -/
def loadSums (axles : List FinalAxle) : Rails Nat :=
  ⟨((axles.filterMap (·.load)).map (·.left)).sum, ((axles.filterMap (·.load)).map (·.right)).sum⟩

/-- The shift percent of R125; 255 when ΣL + ΣR is 0. -/
def shiftPercent (x : Rails Nat) : Nat :=
  if x.left + x.right = 0 then 255
  else ((x.left : Int) - (x.right : Int)).natAbs * 100 / (x.left + x.right)

/-- The mean speed of R126, absent when no axle has a speed. -/
def meanSpeed (axles : List FinalAxle) : Option Nat :=
  let v := axles.filterMap (·.speed)
  if v.isEmpty then none else some (v.sum / v.length)

/-- A wagon formed from axles, with its class entry and index or UNGROUPED (R123 to R128). -/
def formWagon (t : Track) (passage number : Nat) (entry : Option (Nat × ClassEntry)) (axles : List FinalAxle) (flush : Bool) :
    Wagon :=
  let sums := loadSums axles
  let gross := sums.left + sums.right
  let shift := shiftPercent sums
  { track := t
    passage := passage
    number := number
    classIndex := entry.map (·.1)
    classCode := (entry.map fun e => e.2.classCode).getD 255
    kind := (entry.map fun e => e.2.kind).getD .unknown
    axles := axles
    gross := gross
    shift := shift
    meanSpeed := meanSpeed axles
    watchMask := 0
    flags :=
      { incomplete := axles.any fun x => x.load.isNone
        ungrouped := entry.isNone
        overGross := match entry with
          | none => false
          | some e => decide (e.2.grossLimit ≠ 0) && decide (e.2.grossLimit < gross)
        overAxle := match entry with
          | none => false
          | some e => decide (e.2.axleLimit ≠ 0) && axles.any (axleAbove e.2.axleLimit)
        sideShift := match entry with
          | none => false
          | some e => decide (e.2.shiftLimit ≠ 0) && decide (0 < gross) && decide (e.2.shiftLimit < shift)
        speed := axles.any (·.flags.speed)
        crosstalk := axles.any (·.flags.crosstalk)
        captureMissed := false
        flushed := flush } }

/-- The passage totals of R129. -/
def Passage.countWagon (p : Passage) (w : Wagon) : Passage :=
  { p with
    wagonsFormed := satInc 65535 p.wagonsFormed
    locomotives := if w.kind = .locomotive then satInc 65535 p.locomotives else p.locomotives
    freightTotal := if w.kind = .locomotive then p.freightTotal else min 4294967295 (p.freightTotal + w.gross) }

def Record.isWagon : Record → Bool
  | .wagon _ => true
  | .close _ => false

/-- The wagon records in a queue (R164). -/
def RecordQueue.wagons (q : RecordQueue) : Nat := (q.queue.filter Record.isWagon).length

/-- The open passage holds a reserved close place (R165). -/
def TrackState.hasPlace (k : TrackState) : Bool :=
  match k.context with
  | none => false
  | some p => decide (p.place = .reserved)

/-- A wagon record is offered to the record queue (R130, R165, R166): a lost passage offers none. -/
def Scene.offerWagon (c : Scene) (w : Wagon) : Scene :=
  if c.trk.hasPlace then
    if c.trk.records.wagons < 24 then
      c.modTrk fun k => { k with records := { k.records with queue := k.records.queue ++ [.wagon w] } }
    else
      c.modPassage fun p =>
        { p with
          wagonsUnrecorded := satInc 65535 p.wagonsUnrecorded
          flags := { p.flags with recordLoss := true } }
  else c

/-- The watch units evaluate the wagon, and its record is offered as they leave it (R128, R155). -/
def Scene.watchAndOffer (c : Scene) (w : Wagon) : Scene :=
  let v := c.sh.evaluate w
  ({ c with sh := v.sh }).offerWagon v.wagon

/-- A formed wagon is handed on: totals, watch units, record queue (R128). -/
def Scene.handOn (c : Scene) (w : Wagon) : Scene :=
  (c.modPassage (·.countWagon w)).watchAndOffer w

/-- The number of the open passage (R49). -/
def TrackState.passageOpen (k : TrackState) : Nat := (k.context.map (·.number)).getD 0

/-- One turn of the loop (R119, R132): a wagon of the first n axles by the first entry that matches, or an UNGROUPED wagon of the head. -/
def Scene.formNext (c : Scene) (flush : Bool) : Scene :=
  let index := c.trk.firstMatch flush c.sh.classes
  let entry := index.bind fun i => (c.sh.classes[i]?).map fun e => (i, e)
  let n := (entry.map fun e => e.2.n).getD 1
  let w := formWagon c.id c.trk.passageOpen c.trk.nextWagon entry (c.trk.group.take n) flush
  let c := c.modTrk fun k => { k with group := k.group.drop n, nextWagon := k.nextWagon + 1 }
  c.handOn w

/-- The matching loop of R119, at most `fuel` turns; every turn removes an axle, so the list's length is enough. -/
def groupTurns : Nat → Scene → Scene
  | 0, c => c
  | fuel + 1, c => if c.trk.group.length < lookahead c.sh.classes then c else groupTurns fuel (c.formNext false)

def Scene.groupLoop (c : Scene) : Scene := groupTurns c.trk.group.length c

/-- The close flush of R132. -/
def flushTurns : Nat → Scene → Scene
  | 0, c => c
  | fuel + 1, c => if c.trk.group.isEmpty then c else flushTurns fuel (c.formNext true)

def Scene.closeFlush (c : Scene) : Scene := flushTurns c.trk.group.length c

/-! ### Finalization -/

/-- An awaiting axle is finalized and appended, and the loop runs (R103, R119). -/
def Scene.finalizeAxle (c : Scene) (serial : Nat) : Scene :=
  let record := c.trk.axles.find serial
  let c := c.modAxles fun a => { a.dropRecord serial with awaiting := a.awaiting.filter (· != serial) }
  match record with
  | none => c
  | some r => (c.modTrk fun k => { k with group := k.group ++ [r.finalize] }).groupLoop

/-- Awaiting axles whose last step is resolved, in departure order (R100). -/
def AxleTable.finalizable (a : AxleTable) : List Nat :=
  a.awaiting.filter fun s =>
    match a.find s with
    | none => false
    | some r => r.pendingSteps == 0

/-- The end of stage 1 of a pass (R100). -/
def Scene.finalizeResolved (c : Scene) : Scene := c.trk.axles.finalizable.foldl Scene.finalizeAxle c

/-- Step 3 of the close (R101). -/
def Scene.finalizeAll (c : Scene) : Scene := c.trk.axles.awaiting.foldl Scene.finalizeAxle c

end Sys2Proof.Machine
end

