-- ==== Sys2Proof/Machine/Records.lean ====
section
/-!
DEFINITION. Machine/Records.lean: the byte layouts of records, headers and capture entries (R172, R182), and the page writers (R170, R171).
-/
namespace Sys2Proof.Machine

/-! ### Codes and layouts (R182) -/

def trackCode : Track → Nat
  | .A => 0
  | .B => 1

def directionCode : Direction → Nat
  | .up => 0
  | .down => 1

def causeCode : OpenCause → Nat
  | .approach => 0
  | .direct => 1

def reasonCode : CloseReason → Nat
  | .normal => 0
  | .withdrawn => 1
  | .ordered => 2
  | .disabled => 3
  | .standing => 4
  | .overflow => 5

def kindCode : VehicleKind → Nat
  | .wagon => 0
  | .locomotive => 1
  | .other => 2
  | .unknown => 3

def byte (n : Nat) : Byte := BitVec.ofNat 8 n

/-- An optional 16-bit value, 0xFFFF when absent. -/
def le16Optional : Option Nat → List Byte
  | none => le16 65535
  | some n => le16 n

/-- An axle entry of a wagon record, 8 bytes. -/
def axleBytes (x : FinalAxle) : List Byte :=
  le16 ((x.load.map (·.left)).getD 0) ++ le16 ((x.load.map (·.right)).getD 0) ++ le16Optional x.speed
    ++ [byte x.estimateCount, byte x.flags.word]

/-- The 32-byte header of a wagon record. -/
def wagonHeader (w : Wagon) : List Byte :=
  padTo 32
    ([byte 1, byte (trackCode w.track), byte w.axles.length, byte (w.classIndex.getD 255)]
      ++ le32 w.passage ++ le16 w.number ++ le16 ((w.axles.head?.map (·.serial)).getD 0)
      ++ [byte w.classCode, byte (kindCode w.kind), byte w.shift, w.watchMask.setWidth 8]
      ++ le32 w.gross ++ le16Optional w.meanSpeed ++ le16 w.flags.word)

/-- A close record, 64 bytes. -/
def closeBytes (c : CloseRecord) : List Byte :=
  let p := c.passage
  padTo 64
    ([byte 2, byte (trackCode c.track), byte (directionCode p.direction), byte (causeCode p.cause),
        byte ((p.reason.map reasonCode).getD 0), 0, 0, 0]
      ++ le32 p.number ++ le32 p.openTime.toNat ++ le32 ((p.closeTime.map (·.toNat)).getD 0)
      ++ le16 p.axlesCreated ++ le16 p.axlesDeparted ++ le16 p.axlesLeftOnBridge ++ le16 p.axlesBackedOut ++ le16 p.ghostEntries
      ++ le16 p.wagonsFormed ++ le16 p.wagonsUnrecorded ++ le16 p.locomotives
      ++ le32 p.freightTotal ++ le16 c.passagesLost ++ le16 p.flags.word)

/-- The bytes of a record. -/
def Record.bytes : Record → List Byte
  | .wagon w => wagonHeader w ++ (w.axles.map axleBytes).flatten
  | .close c => closeBytes c

/-- The size of a record (R171). -/
def Record.size : Record → Nat
  | .wagon w => 32 + 8 * w.axles.length
  | .close _ => 64

/-- A page header, 32 bytes, of a page's state code. -/
def pageHeader (state track sequence passage records bytesUsed firstWagon : Nat) : List Byte :=
  padTo 32
    ([byte state, byte track] ++ le16 sequence ++ le32 passage ++ le16 records ++ le16 bytesUsed ++ le16 firstWagon)

/-- The header of a reclaimed page (R169): UNUSED, track A, bytes used 32, everything else 0. -/
def unusedHeader : List Byte := pageHeader 3 0 0 0 0 32 0

/-- A capture entry, 40 bytes. -/
def captureEntryBytes (e : CaptureEntry) : List Byte :=
  padTo 40
    (le32 e.time.toNat ++ [byte (trackCode e.track), e.sequence, byte e.channels.length, byte (maskOf (e.channels.map (·.overrange)))]
      ++ (e.channels.map fun x => le32i x.value.toInt).flatten)

/-- The capture header, 32 bytes (R160). DESIGN CHOICE (log 29): wrapped is 1 for set and 0 for clear. -/
def captureHeaderBytes (x : CaptureUnit) : List Byte :=
  padTo 32
    ([byte 1, byte (trackCode x.triggerTrack), if x.slots < x.written then 1 else 0, 0]
      ++ le32 x.triggerPassage ++ le16 x.triggerWagon ++ le16 x.written
      ++ le16 (if x.slots < x.written then x.written % x.slots else 0))

/-! ### The page writer -/

/-- A page just claimed (R170). -/
def Page.claimed (address : Word) : Page := ⟨address, 32, 0, 0, 0, 0, false⟩

/-- The record fits (R171). -/
def Page.fits (g : Page) (r : Record) : Bool := decide (g.fill + r.size ≤ 4096)

/-- The header a page is returned with (R171, R172). -/
def Page.header (g : Page) (t : Track) (sequence : Nat) : List Byte :=
  pageHeader (if g.ended then 2 else 1) (trackCode t) sequence g.passage g.records g.fill g.firstWagon

/-- The next piece of a record, at most 64 bytes (R171). DESIGN CHOICE (log 12): every piece but the last is 64 bytes. -/
def Record.piece (r : Record) (written : Nat) : List Byte := (r.bytes.drop written).take 64

/-- The passage number of a record. -/
def Record.passage : Record → Nat
  | .wagon w => w.passage
  | .close c => c.passage.number

/-- The page after a whole record has been written into it (R171). -/
def Page.addRecord (g : Page) (r : Record) : Page :=
  { g with
    fill := g.fill + r.size
    records := g.records + 1
    firstWagon := match r with
      | .wagon w => if g.firstWagon = 0 then w.number else g.firstWagon
      | .close _ => g.firstWagon
    passage := r.passage
    written := 0
    ended := match r with
      | .wagon _ => false
      | .close _ => true }

/-- The queue after its head record has been written: the record leaves, and a close record frees its close place
(R164, R171). -/
def RecordQueue.dropHead (q : RecordQueue) : RecordQueue :=
  match q.queue with
  | [] => q
  | .wagon _ :: l => { q with queue := l }
  | .close _ :: l => { q with queue := l, placesInUse := q.placesInUse - 1 }

/-- A writer with a queued record and no current page makes a claim, once (R170). -/
def State.claimPage (s : State) (t : Track) : State :=
  if (s.tracks.get t).records.queue ≠ [] ∧ (s.pages.writers.get t).current = none ∧ t ∉ s.pages.claims then
    { s with pages := { s.pages with claims := s.pages.claims ++ [t] } }
  else s

/-- A claim takes the oldest page (R170). -/
def PageBlock.serve (b : PageBlock) : PageBlock :=
  match b.claims, b.lent with
  | t :: ts, address :: rest =>
    { lent := rest
      claims := ts
      writers := b.writers.set t ⟨some (Page.claimed address), (b.writers.get t).sequence + 1⟩ }
  | _, _ => b

/-- The two tracks' claims, served in the order they were taken while pages last (R170). -/
def PageBlock.serveAll (b : PageBlock) : PageBlock := b.serve.serve

end Sys2Proof.Machine
end

