-- ==== Sys2Proof/Machine/Bus.lean ====
section
/-!
DEFINITION. Machine/Bus.lean: the master side of the bus port (R175): what each requester asks for, the arbiter, the end of an access,
and what every step does last: claims are made and served, and a free port is granted.
-/
namespace Sys2Proof.Machine

/-! ### What each requester asks for -/

/-- The address of slot k (R176). -/
def slotAddress (anchor : Word) (k : Nat) : Word := anchor + 64 * BitVec.ofNat 32 k

/-- The order unit's access for the head of its ready list (R177, R178, R169). A state write is one byte (log 11). -/
def OrderUnit.access (u : OrderUnit) (anchor : Word) : ReadyAccess → Option Access
  | .scanRead k => some ⟨.orderUnit, .scanRead, slotAddress anchor k, [], false⟩
  | .takenWrite k => some ⟨.orderUnit, .takenWrite, slotAddress anchor k, [2], false⟩
  | .answerFields => u.answers.head?.map fun a => ⟨.orderUnit, .answerFields, slotAddress anchor a.slot + 2, answerBytes a, false⟩
  | .answered => u.answers.head?.map fun a => ⟨.orderUnit, .answered, slotAddress anchor a.slot, [3], false⟩
  | .reclaimHeader =>
    (u.reclaim.bind fun r => r.left.head?).map fun address => ⟨.orderUnit, .reclaimHeader, address, unusedHeader, false⟩

def OrderUnit.request (u : OrderUnit) (anchor : Word) : Option Access := u.ready.head?.bind (u.access anchor)

def writerOf : Track → Requester
  | .A => .pageWriterA
  | .B => .pageWriterB

/-- A page writer's access: the header of an ended page or of one its head record does not fit, or the next piece of that record
(R171). -/
def PageWriter.request (w : PageWriter) (t : Track) (queue : List Record) : Option Access :=
  match w.current with
  | none => none
  | some g =>
    let header : Access := ⟨writerOf t, .pageHeader, g.address, g.header t w.sequence, false⟩
    if g.ended then some header
    else
      match queue with
      | [] => none
      | r :: _ =>
        if g.fits r then
          some ⟨writerOf t, .recordWrite, g.address + BitVec.ofNat 32 (g.fill + g.written), r.piece g.written, false⟩
        else some header

/-- The capture writer's access: the oldest waiting entry, or the header at the end (R159, R160). -/
def CaptureUnit.request (x : CaptureUnit) : Option Access :=
  match x.waiting with
  | e :: _ => some ⟨.captureWriter, .captureEntry, x.entryAddress e, captureEntryBytes e, false⟩
  | [] => if x.headerDue then some ⟨.captureWriter, .captureHeader, x.area, captureHeaderBytes x, false⟩ else none

/-- What a requester asks for. -/
def State.request (s : State) : Requester → Option Access
  | .orderUnit => s.shared.orders.request s.regs.anchor
  | .pageWriterA => (s.pages.writers.get .A).request .A (s.tracks.get .A).records.queue
  | .pageWriterB => (s.pages.writers.get .B).request .B (s.tracks.get .B).records.queue
  | .captureWriter => s.shared.capture.request

/-! ### The arbiter -/

/-- The cyclic order starting with the requester after the last grantee (R175). -/
def Requester.following : Requester → List Requester
  | .orderUnit => [.pageWriterA, .pageWriterB, .captureWriter, .orderUnit]
  | .pageWriterA => [.pageWriterB, .captureWriter, .orderUnit, .pageWriterA]
  | .pageWriterB => [.captureWriter, .orderUnit, .pageWriterA, .pageWriterB]
  | .captureWriter => [.orderUnit, .pageWriterA, .pageWriterB, .captureWriter]

/-- The request the arbiter would grant (R175). -/
def State.nextRequest (s : State) : Option Access := s.bus.lastGrantee.following.findSome? s.request

/-- A free port is granted to the first requester asking (R175). -/
def State.grant (s : State) : State :=
  match s.bus.inFlight, s.nextRequest with
  | none, some a => { s with bus := ⟨some a, a.requester⟩ }
  | _, _ => s

/-- Both writers' claims are made (R170). -/
def State.claimPages (s : State) : State := (s.claimPage .A).claimPage .B

def State.servePages (s : State) : State := { s with pages := s.pages.serveAll }

/-- What every step does last: claims are made; in RUNNING they are served and a free port is granted. In QUIET no claim is served
and no access starts; in STOPPED and HALTED nothing happens (R170, R171, R175). -/
def State.settle (s : State) : State :=
  match s.regs.part with
  | .running => s.claimPages.servePages.grant
  | .quiet => s.claimPages
  | .stopped => s
  | .halted => s

/-! ### The end of an access -/

/-- The access in flight ends. -/
def State.freePort (s : State) : State := { s with bus := { s.bus with inFlight := none } }

/-- The access in flight of a kind completes: `f` is its effect. One that a reset discarded has none (R187); when no access of the
kind is in flight, the event does not happen (log 1). -/
def State.completeAccess (s : State) (kind : AccessKind) (f : Access → State → State) : State :=
  match s.bus.inFlight with
  | none => s
  | some a =>
    if a.kind = kind then
      if a.discarded then s.freePort.settle else f a s.freePort
    else s

/-! ### Small state operations -/

def State.modShared (s : State) (f : Shared → Shared) : State := { s with shared := f s.shared }

def State.modRegs (s : State) (f : Registers → Registers) : State := { s with regs := f s.regs }

/-- A scan is requested (R177). -/
def State.requestScan (s : State) : State :=
  s.modShared fun h => h.modOrders (·.requestScan h.time h.options.scanInterval)

end Sys2Proof.Machine
end

