-- ==== Sys2Proof/Machine/Points.lean ====
section
/-!
DEFINITION. Machine/Points.lean: the point decoders (R1, R7 to R15): level changes, the transition table, passes, stuck heads.
-/
namespace Sys2Proof.Machine

/-- The index k of a boundary point Bk; absent for LA and HA (R1). -/
def boundaryIndex : PointCode → Option Nat
  | .LA => none
  | .B0 => some 0
  | .B1 => some 1
  | .B2 => some 2
  | .B3 => some 3
  | .B4 => some 4
  | .HA => none

/-- The code names a point of a track with P platforms (R1): LA, B0 to BP, HA. -/
def pointExists (P : Nat) (p : PointCode) : Bool :=
  match boundaryIndex p with
  | none => true
  | some k => decide (k ≤ P)

/-- The transition table of R9: the next state and the direction of a completed pass.
The cells marked "edge error" never arise here (R8) and keep the state. -/
def pointNext : PointState → Head → Level → PointState × Option Direction
  | .clear, .head1, .on => (.lowOn, none)
  | .clear, .head2, .on => (.highOn, none)
  | .clear, _, .off => (.clear, none)
  | .lowOn, .head1, .off => (.clear, none)
  | .lowOn, .head2, .on => (.bothUp, none)
  | .lowOn, .head1, .on => (.lowOn, none)
  | .lowOn, .head2, .off => (.lowOn, none)
  | .bothUp, .head1, .off => (.highTail, none)
  | .bothUp, .head2, .off => (.lowOn, none)
  | .bothUp, _, .on => (.bothUp, none)
  | .highTail, .head1, .on => (.bothUp, none)
  | .highTail, .head2, .off => (.clear, some .up)
  | .highTail, .head1, .off => (.highTail, none)
  | .highTail, .head2, .on => (.highTail, none)
  | .highOn, .head1, .on => (.bothDown, none)
  | .highOn, .head2, .off => (.clear, none)
  | .highOn, .head1, .off => (.highOn, none)
  | .highOn, .head2, .on => (.highOn, none)
  | .bothDown, .head1, .off => (.highOn, none)
  | .bothDown, .head2, .off => (.lowTail, none)
  | .bothDown, _, .on => (.bothDown, none)
  | .lowTail, .head1, .off => (.clear, some .down)
  | .lowTail, .head2, .on => (.bothDown, none)
  | .lowTail, .head1, .on => (.lowTail, none)
  | .lowTail, .head2, .off => (.lowTail, none)
  | .faulted, _, _ => (.faulted, none)

/-- The level an edge reports, true for on. -/
def levelOn : Level → Bool
  | .on => true
  | .off => false

/-- The speed of R10 in 0.1 km/h: absent for an interval of 0 or of 2^31 or more, and above 1500. -/
def passSpeed (headSpacing : Nat) (interval : Nat) : Option Nat :=
  if interval = 0 ∨ 2147483648 ≤ interval then none
  else
    let v := headSpacing * 36000 / interval
    if 1500 < v then none else some v

/-- The pass a point completes in a direction, from its on-times (R10, R11). -/
def formPass (headSpacing : Nat) (p : PointCode) (pt : Point) (d : Direction) : Pass :=
  match d with
  | .up => ⟨p, .up, pt.onTime.two, passSpeed headSpacing (pt.onTime.two - pt.onTime.one).toNat⟩
  | .down => ⟨p, .down, pt.onTime.one, passSpeed headSpacing (pt.onTime.one - pt.onTime.two).toNat⟩

/-- The updates of R8 for a level-changing edge, made before the transition: level, on-time, stuck timer.
In FAULTED no stuck timer is started. -/
def Point.takeEdge (pt : Point) (now : Word) (stuckTime : Nat) (h : Head) (l : Level) : Point :=
  match l with
  | .on =>
    { pt with
      level := pt.level.set h true
      onTime := pt.onTime.set h now
      stuck := if pt.state = .faulted then pt.stuck else pt.stuck.set h (some ⟨now, stuckTime⟩) }
  | .off =>
    { pt with
      level := pt.level.set h false
      stuck := pt.stuck.set h none }

/-- A level-changing edge at a point, with the direction of the pass it completes (R8, R9, R13). -/
def Point.edge (pt : Point) (now : Word) (stuckTime : Nat) (h : Head) (l : Level) : Point × Option Direction :=
  let q := pt.takeEdge now stuckTime h l
  if pt.state = .faulted then
    (if l = .off ∧ q.level.one = false ∧ q.level.two = false then { q with state := .clear } else q, none)
  else
    ({ q with state := (pointNext pt.state h l).1 }, (pointNext pt.state h l).2)

/-- What a decoder makes of a head edge: an edge error (R8), or the point's new value and the pass completed. -/
inductive EdgeResult where
  | edgeError
  | changed (pt : Point) (pass : Option Pass)
deriving DecidableEq, Repr

/-- The decoder of point p of a track takes an edge (R8 to R11, R13). -/
def TrackState.decodeEdge (k : TrackState) (now : Word) (p : PointCode) (h : Head) (l : Level) : EdgeResult :=
  let pt := k.points.get p
  if pt.level.get h = levelOn l then .edgeError
  else
    let r := pt.edge now (seconds k.config.headStuckTime) h l
    .changed r.1 (r.2.map (formPass k.config.headSpacing p r.1))

/-- A point enters FAULTED: both stuck timers stop (R12). -/
def Point.fault (pt : Point) : Point := { pt with state := .faulted, stuck := ⟨none, none⟩ }

/-- The stuck-timer expiry of R12 at point p: FAULTED, point_faults, ALERT, and POINT_FAULT on an open passage. -/
def Scene.pointFault (c : Scene) (p : PointCode) : Scene :=
  let c := c.modTrk fun k => { k with points := k.points.set p (k.points.get p).fault }
  let c := c.modFlags fun f => { f with pointFault := true }
  (c.modShared Shared.countPointFault).raise .alert

/-- Every point of a track set to CLEAR (R15). -/
def pointsCleared : PerPoint Point :=
  ⟨.cleared, .cleared, .cleared, .cleared, .cleared, .cleared, .cleared⟩

end Sys2Proof.Machine
end

