-- ==== Sys2Proof/Machine/Zero.lean ====
section
/-!
DEFINITION. Machine/Zero.lean: the zero engine (R137 to R147).
-/
namespace Sys2Proof.Machine

/-- Why a zero operation was PREEMPTED (R146), in the order of the answer's codes. -/
inductive PreemptCause where
  | holdLimit
  | disabled
deriving DecidableEq, Repr

/-- How a zero operation ends (R146). -/
inductive ZeroEnd where
  | done (means : Four (Rails Int))
  | failed (channel : Nat)
  | preempted (cause : PreemptCause)
deriving DecidableEq, Repr

def Scene.setZero (c : Scene) (z : Option ZeroOperation) : Scene := c.modTrk fun k => { k with zero := z }

/-- suspended_ms: suspended_total in milliseconds, rounded down (R146). -/
def ZeroOperation.suspendedMs (z : ZeroOperation) : Nat := z.suspendedTotal / 1000

/-- The offsets of a DONE answer: channels 1 to 8, those above 2P as 0 (R146). -/
def doneOffsets (P : Nat) (means : Four (Rails Int)) : List Int :=
  ((means.mapIdx fun p x => if p ≤ P then [x.left, x.right] else [0, 0]).toList).flatten

/-- The answer of an ORDER operation's end: code and fields in the order of R146's table (R182). -/
def ZeroOperation.answer (z : ZeroOperation) (P : Nat) : ZeroEnd → AnswerCode × List Byte
  | .done means =>
    (.done, ((doneOffsets P means).map le32i).flatten ++ le16 z.target ++ le16 z.restarts ++ le32 z.suspendedMs)
  | .failed channel =>
    (.failed, [BitVec.ofNat 8 channel] ++ le16 z.frames ++ le16 z.restarts ++ le32 z.suspendedMs)
  | .preempted cause =>
    (.preempted, [match cause with
        | .holdLimit => 0
        | .disabled => 1] ++ le16 z.frames ++ le16 z.restarts ++ le32 z.suspendedMs)

/-- A zero operation ends (R146): the engine returns to NONE; an ORDER operation's answer becomes due; a FAILED or PREEMPTED
automatic zero is counted and raises ALERT. -/
def Scene.endZero (c : Scene) (z : ZeroOperation) (e : ZeroEnd) : Scene :=
  let c := c.setZero none
  match z.origin with
  | .order slot tag =>
    let a := z.answer c.trk.config.platforms e
    c.modShared (·.pushAnswer ⟨slot, tag, a.1, a.2, .zero⟩)
  | .automatic =>
    match e with
    | .done _ => c
    | .failed _ => (c.modShared Shared.countAutoZeroFailure).raise .alert
    | .preempted _ => (c.modShared Shared.countAutoZeroFailure).raise .alert

/-- Time spent in the current suspension added to suspended_total (R143 to R145). -/
def ZeroOperation.addSuspension (z : ZeroOperation) (now : Word) : ZeroOperation :=
  { z with suspendedTotal := z.suspendedTotal + (now - z.suspendStart).toNat }

/-- Entry into SUSPENDED (R142): the hold timer runs for what is left of hold_limit, or the operation is PREEMPTED at once. Until another
frame of the track is accepted, its last accepted frame is one from before the suspension (R140). -/
def Scene.suspendZero (c : Scene) (z : ZeroOperation) : Scene :=
  let left := seconds z.holdLimit - z.suspendedTotal
  let z := { z with state := .suspended, suspendStart := c.now, startsRun := true }
  if left = 0 then c.endZero z (.preempted .holdLimit)
  else c.setZero (some { z with holdTimer := some ⟨c.now, left⟩ })

/-- The track leaves IDLE (R142). -/
def Scene.zeroLeavesIdle (c : Scene) : Scene :=
  match c.trk.zero with
  | none => c
  | some z =>
    match z.state with
    | .accumulating => c.suspendZero z
    | .suspended => c

/-- The track returns to IDLE (R143). -/
def Scene.zeroReturnsToIdle (c : Scene) : Scene :=
  match c.trk.zero with
  | none => c
  | some z =>
    match z.state with
    | .accumulating => c
    | .suspended => c.setZero (some { z.addSuspension c.now with state := .accumulating, holdTimer := none })

/-- The hold timer expires (R144). -/
def Scene.zeroHoldExpires (c : Scene) : Scene :=
  match c.trk.zero with
  | none => c
  | some z => c.endZero (z.addSuspension c.now) (.preempted .holdLimit)

/-- The track enters DISABLED (R145). -/
def Scene.zeroDisabled (c : Scene) : Scene :=
  match c.trk.zero with
  | none => c
  | some z =>
    match z.state with
    | .accumulating => c.endZero z (.preempted .disabled)
    | .suspended => c.endZero (z.addSuspension c.now) (.preempted .disabled)

/-- A gap (R140): an ACCUMULATING operation restarts, but not at a gap found against the last frame before a suspension, since the first
frame after the resumption is never compared with that frame (log 30). -/
def Scene.zeroGap (c : Scene) : Scene :=
  match c.trk.zero with
  | none => c
  | some z =>
    match z.state with
    | .suspended => c
    | .accumulating =>
      if z.startsRun then c
      else c.setZero (some { z with sums := ⟨⟨0, 0⟩, ⟨0, 0⟩, ⟨0, 0⟩, ⟨0, 0⟩⟩, frames := 0, restarts := satInc 65535 z.restarts })

/-- The lowest-numbered channel 1 to 2P whose entry carries the overrange mark (R139). -/
def failingChannel (P : Nat) (channels : List ChannelEntry) : Option Nat :=
  ((List.range (2 * P)).find? fun i => (frameChannel channels (i + 1)).overrange).map (· + 1)

/-- A frame's values added to the sums of channels 1 to 2P (R139). -/
def addSums (P : Nat) (sums : Four (Rails Int)) (channels : List ChannelEntry) : Four (Rails Int) :=
  sums.mapIdx fun p x =>
    if p ≤ P then
      ⟨x.left + (frameRails channels p).left.value.toInt, x.right + (frameRails channels p).right.value.toInt⟩
    else x

/-- Completion (R141): the means become the zero offsets of channels 1 to 2P, which become valid. -/
def Scene.completeZero (c : Scene) (z : ZeroOperation) : Scene :=
  let means := z.sums.mapIdx fun _ x => x.map fun v => roundDiv v z.target
  let c := c.modTrk fun k =>
    { k with calibration := k.calibration.mapIdx fun p x =>
        if p ≤ k.config.platforms then
          ⟨{ x.left with zeroOffset := (means.get p).left, zeroValid := true },
            { x.right with zeroOffset := (means.get p).right, zeroValid := true }⟩
        else x }
  c.endZero z (.done means)

/-- The engine takes an accepted frame (R139); a SUSPENDED one only notes that a frame has come since its suspension (R140). -/
def Scene.zeroFrame (c : Scene) (channels : List ChannelEntry) : Scene :=
  match c.trk.zero with
  | none => c
  | some z =>
    match z.state with
    | .suspended => c.setZero (some { z with startsRun := false })
    | .accumulating =>
      match failingChannel c.trk.config.platforms channels with
      | some channel => c.endZero z (.failed channel)
      | none =>
        let z := { z with sums := addSums c.trk.config.platforms z.sums channels, frames := z.frames + 1, startsRun := false }
        if z.frames = z.target then c.completeZero z else c.setZero (some z)

/-- An operation at its start, before its state is chosen (R138, R147). DESIGN CHOICE (log 14): suspend_start is 0 until the
operation is first SUSPENDED. -/
def ZeroOperation.started (origin : ZeroOrigin) (target holdLimit : Nat) : ZeroOperation where
  state := .accumulating
  origin := origin
  target := target
  frames := 0
  sums := ⟨⟨0, 0⟩, ⟨0, 0⟩, ⟨0, 0⟩, ⟨0, 0⟩⟩
  restarts := 0
  holdLimit := holdLimit
  suspendedTotal := 0
  suspendStart := 0
  holdTimer := none
  startsRun := false

/-- Step 10 of the close (R147): the automatic zero. -/
def Scene.autoZero (c : Scene) (reason : CloseReason) : Scene :=
  if c.sh.options.autoZero ∧ (reason = .normal ∨ reason = .withdrawn) ∧ c.trk.zero = none then
    c.setZero (some (.started .automatic c.sh.options.autoZeroCount c.sh.options.zeroHoldLimit))
  else c

end Sys2Proof.Machine
end

