-- ==== Sys2Proof/Machine/Passages.lean ====
section
/-!
DEFINITION. Machine/Passages.lean: the passage controller (R42 to R60): approach, passage open, passes of an open passage, the close
procedure and entry into DISABLED.
-/
namespace Sys2Proof.Machine

/-! ### Entry into DISABLED (R60) -/

/-- Entry into DISABLED: timer stopped, points CLEAR, last closed statistics removed, any zero operation PREEMPTED
(R15, R32, R38, R60, R145). -/
def Scene.enterDisabled (c : Scene) : Scene :=
  let c := c.modTrk fun k =>
    { k with
      mode := .disabled
      timer := none
      points := pointsCleared
      platforms := k.platforms.mapIdx fun _ x => { x with last := none, step := none } }
  c.zeroDisabled

/-! ### The close procedure (R56) -/

/-- The close begins: timer stopped, reason and close_time recorded. -/
def Scene.beginClose (c : Scene) (reason : CloseReason) : Scene :=
  let c := c.modTrk fun k => { k with timer := none }
  c.modPassage fun p => { p with reason := some reason, closeTime := some c.now }

/-- Steps 1 and 2: every window closes, platform 1 to P, and resolves its platform's pending step (R36). -/
def Scene.closeAllWindows (c : Scene) : Scene :=
  ([1, 2, 3, 4].filter fun p => decide (p ≤ c.trk.config.platforms)).foldl Scene.closeWindow c

/-- Step 7: the close record goes into the reserved close place with passages_lost; a lost passage queues none (R57, R166). -/
def Scene.queueCloseRecord (c : Scene) : Scene :=
  match c.trk.context with
  | none => c
  | some p =>
    if p.place = .reserved then
      c.modTrk fun k =>
        { k with records :=
            { k.records with
              queue := k.records.queue ++ [.close ⟨c.id, p, k.records.lostSinceClose⟩]
              lostSinceClose := 0 } }
    else c

/-- Step 9: the passage context is discarded; the axle table is left as a reset leaves it and next_wagon returns to 0
(R66, R90, R117). -/
def Scene.leavePassage (c : Scene) : Scene :=
  c.modTrk fun k => { k with context := none, nextWagon := 0, axles := .empty }

/-- Steps 1 to 8 of the close (R56). -/
def Scene.closeToStep8 (c : Scene) (reason : CloseReason) : Scene :=
  let c := (c.beginClose reason).closeAllWindows
  let c := c.finalizeAll.disposeAxles.closeFlush.checkDrift.queueCloseRecord
  c.modShared fun h => h.modCapture (·.closeOf c.id)

/-- Steps 9 and 10 of the close (R56). -/
def Scene.endClose (c : Scene) (reason : CloseReason) : Scene :=
  if reason = .disabled then c.leavePassage.enterDisabled
  else ((c.leavePassage.modTrk fun k => { k with mode := .idle }).zeroReturnsToIdle).autoZero reason

/-- The close procedure (R56). -/
def Scene.closePassage (c : Scene) (reason : CloseReason) : Scene := (c.closeToStep8 reason).endClose reason

/-! ### IDLE and APPROACH (R45 to R47) -/

/-- A pass at an approach point in IDLE that begins an APPROACH (R45). -/
def Scene.enterApproach (c : Scene) (d : Direction) : Scene :=
  let c := c.modTrk fun k => { k with mode := .approach, expected := some d }
  (c.openWindows.startTimer (seconds c.trk.config.approachTimeout)).zeroLeavesIdle

/-- The APPROACH timer expires (R46). -/
def Scene.approachExpires (c : Scene) : Scene :=
  let c := c.modTrk fun k =>
    { k with mode := .idle, expected := none, timer := none, falseApproaches := satInc 255 k.falseApproaches }
  c.discardWindows.zeroReturnsToIdle

/-! ### Passage open (R48, R165) -/

/-- The number after a passage number: after 4294967295 the next is 1 (R48). -/
def nextPassageNumber (n : Nat) : Nat := if 4294967295 ≤ n then 1 else n + 1

/-- A channel 1 to 2P has zero_valid clear (R48). -/
def TrackState.unzeroed (k : TrackState) : Bool :=
  [1, 2, 3, 4].any fun p =>
    decide (p ≤ k.config.platforms)
      && (!(k.calibration.get p).left.zeroValid || !(k.calibration.get p).right.zeroValid)

/-- The context of a new passage (R48, R49). -/
def Passage.opened (number : Nat) (d : Direction) (cause : OpenCause) (time : Word) (place : ClosePlace) (unzeroed : Bool) :
    Passage where
  number := number
  direction := d
  cause := cause
  openTime := time
  place := place
  flags := { PassageFlags.clear with noApproach := decide (cause = .direct), unzeroed := unzeroed }
  axlesCreated := 0
  axlesDeparted := 0
  axlesLeftOnBridge := 0
  axlesBackedOut := 0
  ghostEntries := 0
  wagonsFormed := 0
  wagonsUnrecorded := 0
  locomotives := 0
  freightTotal := 0
  reason := none
  closeTime := none

/-- A close place is asked for (R165). -/
def RecordQueue.requestPlace (q : RecordQueue) : RecordQueue × ClosePlace :=
  if q.placesInUse < 2 then ({ q with placesInUse := q.placesInUse + 1 }, .reserved)
  else
    ({ q with
      lostPassages := satInc 255 q.lostPassages
      lostSinceClose := satInc 65535 q.lostSinceClose }, .lost)

/-- Steps 1 to 5 of the passage's opening (R48). -/
def Scene.openPassage (c : Scene) (x : Pass) (cause : OpenCause) : Scene :=
  let fromIdle := c.trk.mode = .idle
  let c := if fromIdle then c.openWindows else c
  let c := c.modTrk fun k =>
    { k with
      passageNumber := nextPassageNumber k.passageNumber
      context := some (Passage.opened (nextPassageNumber k.passageNumber) x.direction cause x.time
        k.records.requestPlace.2 k.unzeroed)
      records := k.records.requestPlace.1
      expected := none
      mode := .crossing
      nextWagon := 1 }
  let c := c.startTimer (milliseconds c.trk.config.stallTime)
  if fromIdle then c.zeroLeavesIdle else c

/-! ### Passes of an open passage (R31, R50, R76) -/

/-- Stages 1 to 4 of R31: windows close, awaiting axles are finalized, windows open, the entry moves, steps are recorded. -/
def Scene.processPass (c : Scene) (d : Direction) (x : Pass) (kind : PassKind) : Scene :=
  let bound := boundPlatforms c.trk.config.platforms d kind
  let c := (bound.foldl Scene.closeWindow c).finalizeResolved
  let c := bound.foldl Scene.openWindow c
  c.moveAndRecord d x kind

/-- The next track state after a pass, from the on-bridge list (R50). -/
def Scene.nextMode (c : Scene) (kind : PassKind) : Scene :=
  if c.trk.occupied then
    (c.modTrk fun k => { k with mode := .crossing }).startTimer (milliseconds c.trk.config.stallTime)
  else if c.trk.mode = .crossing ∨ c.trk.mode = .standing then
    match kind with
    | .backwardEntry =>
      (c.modTrk fun k => { k with mode := .withdrawn }).startTimer (seconds c.trk.config.approachTimeout)
    | _ =>
      (c.modTrk fun k => { k with mode := .draining }).startTimer (milliseconds c.trk.config.settleTime)
  else c

/-- A boundary pass handed to the axle table (R50, R76, R78): an OVERFLOW closes the passage, any other is processed. -/
def Scene.handPass (c : Scene) (d : Direction) (x : Pass) (k : Nat) : Scene :=
  let kind := classifyPass c.trk.config.platforms d k x.direction
  if kind = .forwardEntry ∧ c.trk.axles.overflows then c.closePassage .overflow
  else (c.processPass d x kind).nextMode kind

/-- The direction of a pass at boundary point Bk that opens a passage: UP at B0 or DOWN at BP (R47). -/
def opensPassage (P : Nat) (k : Nat) (d : Direction) : Bool := decide (k = entryIndex P d)

/-- The passage controller takes a pass (R45, R47, R50). -/
def Scene.takePass (c : Scene) (x : Pass) : Scene :=
  match c.trk.mode with
  | .disabled => c
  | .idle =>
    match boundaryIndex x.point with
    | none =>
      if (x.point = .LA ∧ x.direction = .up) ∨ (x.point = .HA ∧ x.direction = .down) then c.enterApproach x.direction else c
    | some k =>
      if opensPassage c.trk.config.platforms k x.direction then (c.openPassage x .direct).handPass x.direction x k
      else c.modShared Shared.countSequenceError
  | .approach =>
    match boundaryIndex x.point with
    | none => c
    | some k =>
      if opensPassage c.trk.config.platforms k x.direction then
        (c.openPassage x (if c.trk.expected = some x.direction then .approach else .direct)).handPass x.direction x k
      else c.modShared Shared.countSequenceError
  | _ =>
    match boundaryIndex x.point, c.trk.context with
    | some k, some p => c.handPass p.direction x k
    | _, _ => c

/-! ### Orders on the track state (R44, R60) -/

/-- DISABLE TRACK's effect (R60). -/
def Scene.disable (c : Scene) : Scene :=
  match c.trk.mode with
  | .disabled => c
  | .idle => c.enterDisabled
  | .approach => (c.discardWindows.modTrk fun k => { k with expected := none }).enterDisabled
  | _ => c.closePassage .disabled

/-- ENABLE TRACK's effect (R44). -/
def Scene.enable (c : Scene) : Scene :=
  c.modTrk fun k => { k with mode := .idle, timer := none, sequence := none }

/-! ### A head edge at its decoder (R5, R11) -/

/-- The decoder of the named point takes an edge, with the pass it completes (R8 to R11). -/
def Scene.takeEdge (c : Scene) (p : PointCode) (h : Head) (l : Level) : Scene :=
  match c.trk.decodeEdge c.now p h l with
  | .edgeError => c.modShared Shared.countEdgeError
  | .changed pt pass =>
    let c := c.modTrk fun k => { k with points := k.points.set p pt }
    match pass with
    | none => c
    | some x => c.takePass x

/-! ### An accepted frame (R23, R24) -/

/-- The sequence check of R23 and the receivers of R24: a gap marks the windows and is told to the zero engine before the frame is taken. -/
def Scene.acceptFrame (c : Scene) (sequence : Byte) (channels : List ChannelEntry) : Scene :=
  let c := if gapBefore c.trk.sequence sequence then c.markGapped.zeroGap else c
  let c := c.modTrk fun k => { k with sequence := some sequence }
  let c := c.zeroFrame channels
  let c := c.modShared fun h => h.modCapture (·.takeFrame c.now c.id sequence channels)
  c.addToWindows channels

end Sys2Proof.Machine
end

