-- ==== Sys2Proof/Machine/Links.lean ====
section
/-!
DEFINITION. Machine/Links.lean: the two link messages (R5, R22) and the wake (R185).
-/
namespace Sys2Proof.Machine

/-- The outcome type of a command. -/
abbrev Result := Host.Outcome State Fault Refusal

/-- Both tracks' sequence states become none (R23, R185). -/
def clearSequences (x : PerTrack TrackState) : PerTrack TrackState :=
  ⟨{ x.a with sequence := none }, { x.b with sequence := none }⟩

/-- The part wakes from QUIET (R185): RUNNING, the wake cause, WAKE, sequence states none, a scan requested. -/
def State.wake (s : State) (cause : WakeCause) : State :=
  let s := s.modRegs fun r => { r with part := .running, wakeCause := some cause }
  let s := s.modShared (·.raise .wake)
  let s := { s with tracks := clearSequences s.tracks }
  s.requestScan

/-- A head edge that passes the first four tests of R5 reaches its decoder. -/
def State.edgeArrives (s : State) (t : Track) (p : PointCode) (h : Head) (l : Level) : State :=
  let s := if s.regs.part = .quiet then s.wake .detector else s
  (s.onTrack t fun c => c.takeEdge p h l).settle

/-- HEAD_EDGE_MESSAGE (R5): the tests in their order. -/
def execHeadEdgeMessage (check : Bool) (t : Track) (p : PointCode) (h : Head) (l : Level) (s : State) : Result :=
  .next
    (if s.regs.part = .halted then s
    else if check = false then s.modShared Shared.countBadFrame
    else if (s.tracks.get t).mode = .disabled then s
    else if pointExists (s.tracks.get t).config.platforms p = false then s.modShared Shared.countBadFrame
    else s.edgeArrives t p h l)

/-- A frame passes its link check: the check agrees and channel_count lies from 1 to 8 (R21). -/
def frameCheck (check : Bool) (channels : List ChannelEntry) : Bool :=
  check && inRange 1 8 channels.length

/-- SAMPLE_FRAME (R22): the tests in their order. -/
def execSampleFrame (check : Bool) (t : Track) (sequence : Byte) (channels : List ChannelEntry) (s : State) : Result :=
  .next
    (if s.regs.part = .halted then s
    else if s.regs.part = .quiet then s
    else if frameCheck check channels = false then s.modShared Shared.countBadFrame
    else if (s.tracks.get t).mode = .disabled then s.modShared Shared.countBadFrame
    else if channels.length ≠ 2 * (s.tracks.get t).config.platforms then s.modShared Shared.countBadFrame
    else (s.onTrack t fun c => c.acceptFrame sequence channels).settle)

end Sys2Proof.Machine
end

