-- ==== Sys2Proof/Machine/Operands.lean ====
section
/-!
DEFINITION. Machine/Operands.lean: the parameters of every order, read from its parameter area with the ranges of the owning rule, and
the answer fields, laid out by R182: each quantity in the smallest of 1, 2 or 4 bytes that holds its range, little-endian, in
the order of the rule's table.
-/
namespace Sys2Proof.Machine

/-! ### Reading quantities (R182) -/

def nat8 (l : List Byte) (i : Nat) : Nat := (byteAt l i).toNat
def nat16 (l : List Byte) (i : Nat) : Nat := nat8 l i + 256 * nat8 l (i + 1)
def nat32 (l : List Byte) (i : Nat) : Nat := nat16 l i + 65536 * nat16 l (i + 2)

/-- A is 0 and B is 1. -/
def trackOf : Nat → Option Track
  | 0 => some .A
  | 1 => some .B
  | _ => none

/-- NO and OFF are 0, YES and ON are 1. -/
def boolOf : Nat → Option Bool
  | 0 => some false
  | 1 => some true
  | _ => none

/-! ### SET TRACK (R17) -/

/-- The ten parameters after the track; absent when one lies outside its range or max_speed is less than min_speed. -/
def trackConfigOf (l : List Byte) : Option TrackConfig :=
  let c : TrackConfig :=
    { platforms := nat8 l 1
      headSpacing := nat16 l 2
      minSpeed := nat16 l 4
      maxSpeed := nat16 l 6
      approachTimeout := nat16 l 8
      stallTime := nat16 l 10
      standingLimit := nat16 l 12
      settleTime := nat16 l 14
      minWindowSamples := nat8 l 16
      headStuckTime := nat8 l 17 }
  if inRange 1 4 c.platforms && inRange 80 400 c.headSpacing && inRange 1 1500 c.minSpeed && inRange 1 1500 c.maxSpeed
      && decide (c.minSpeed ≤ c.maxSpeed) && inRange 1 600 c.approachTimeout && inRange 500 10000 c.stallTime
      && inRange 1 1800 c.standingLimit && inRange 50 60000 c.settleTime && inRange 4 255 c.minWindowSamples
      && inRange 1 60 c.headStuckTime
  then some c else none

/-! ### SET OPTIONS (R179) -/

def policyOf : Nat → Option CrosstalkPolicy
  | 0 => some .mark
  | 1 => some .exclude
  | _ => none

/-- The seven options; absent when one lies outside its range. -/
def optionsOf (l : List Byte) : Option Options :=
  match boolOf (nat8 l 2), policyOf (nat8 l 7), boolOf (nat8 l 10) with
  | some auto, some policy, some hold =>
    if inRange 0 1000 (nat16 l 0) && inRange 64 65535 (nat16 l 3) && inRange 60 1800 (nat16 l 5) then
      some ⟨nat16 l 0, auto, nat16 l 3, nat16 l 5, policy, nat16 l 8, hold⟩
    else none
  | _, _, _ => none

/-! ### WRITE SPAN and READ CALIBRATION (R107, R108) -/

/-- WRITE SPAN's parameters. -/
structure SpanWrite where
  track : Track
  channel : Nat
  span : Nat
  lock : Bool
deriving DecidableEq, Repr

def spanWriteOf (l : List Byte) : Option SpanWrite :=
  match trackOf (nat8 l 0), boolOf (nat8 l 6) with
  | some t, some lock =>
    if inRange 1 8 (nat8 l 1) && inRange 1 16777216 (nat32 l 2) then some ⟨t, nat8 l 1, nat32 l 2, lock⟩ else none
  | _, _ => none

/-- Channel c, 1 to 8: 2p − 1 is platform p's left, 2p its right (R107). -/
def channelGet (x : Four (Rails Channel)) (c : Nat) : Channel :=
  let r := x.get ((c + 1) / 2)
  if c % 2 = 1 then r.left else r.right

def channelSet (x : Four (Rails Channel)) (c : Nat) (v : Channel) : Four (Rails Channel) :=
  let r := x.get ((c + 1) / 2)
  x.set ((c + 1) / 2) (if c % 2 = 1 then { r with left := v } else { r with right := v })

/-- The channels of a half: 1 to 4 for LOW, 5 to 8 for HIGH (R108). -/
def halfChannels (x : Four (Rails Channel)) (high : Bool) : List Channel :=
  if high then [x.third.left, x.third.right, x.fourth.left, x.fourth.right]
  else [x.first.left, x.first.right, x.second.left, x.second.right]

/-- The answer of READ CALIBRATION. -/
def calibrationFields (l : List Channel) : List Byte :=
  (l.map fun x => le32 x.span).flatten ++ (l.map fun x => le32i x.zeroOffset).flatten
    ++ [byte (maskOf (l.map (·.zeroValid))), byte (maskOf (l.map (·.lock)))]

/-! ### WRITE CLASS and READ CLASS (R114, R116) -/

def modeOf : Nat → Option ClassMode
  | 0 => some .off
  | 1 => some .pattern
  | 2 => some .count
  | _ => none

def modeCode : ClassMode → Nat
  | .off => 0
  | .pattern => 1
  | .count => 2

def kindOf : Nat → Option VehicleKind
  | 0 => some .wagon
  | 1 => some .locomotive
  | 2 => some .other
  | _ => none

/-- Spacing pair i, counted from 0. -/
def pairAt (l : List Byte) (i : Nat) : SpacingRange := ⟨nat16 l (3 + 4 * i), nat16 l (5 + 4 * i)⟩

/-- The content of a PATTERN or COUNT entry; absent when a checked parameter lies outside its range. -/
def classContentOf (l : List Byte) (mode : ClassMode) (lock : Bool) : Option ClassEntry :=
  let n := nat8 l 2
  let pairs := (List.range (n - 1)).map (pairAt l)
  match kindOf (nat8 l 34) with
  | none => none
  | some kind =>
    if inRange 1 8 n && inRange 0 254 (nat8 l 33) && inRange 0 100 (nat8 l 41) && pairs.all fun p => decide (p.min ≤ p.max) then
      some ⟨mode, n, pairs, nat16 l 31, nat8 l 33, kind, nat32 l 35, nat16 l 39, nat8 l 41, lock⟩
    else none

/-- WRITE CLASS's parameters: the index and the entry to store, lock included. -/
structure ClassWrite where
  index : Nat
  entry : ClassEntry
deriving DecidableEq, Repr

/-- WRITE CLASS's parameters, absent when a checked one lies outside its range; for mode OFF only index, mode and lock are checked and the
OFF content is stored. -/
def classWriteOf (l : List Byte) : Option ClassWrite :=
  match modeOf (nat8 l 1), boolOf (nat8 l 42) with
  | some mode, some lock =>
    if inRange 0 15 (nat8 l 0) then
      match mode with
      | .off => some ⟨nat8 l 0, { ClassEntry.off with lock := lock }⟩
      | .pattern => (classContentOf l .pattern lock).map fun e => ⟨nat8 l 0, e⟩
      | .count => (classContentOf l .count lock).map fun e => ⟨nat8 l 0, e⟩
    else none
  | _, _ => none

/-- The answer of READ CLASS (R116): seven pairs, those beyond pair n − 1 as 0. DESIGN CHOICE (log 29): the lock is 1 for set and 0 for
clear. -/
def classFields (e : ClassEntry) : List Byte :=
  [byte (modeCode e.mode), byte e.n] ++ padTo 28 (e.pairs.map fun p => le16 p.min ++ le16 p.max).flatten
    ++ le16 e.endGapMin ++ [byte e.classCode, byte (kindCode e.kind)] ++ le32 e.grossLimit ++ le16 e.axleLimit
    ++ [byte e.shiftLimit, if e.lock then 1 else 0]

/-! ### SET WATCH (R152) -/

/-- The tracks a unit evaluates: A 0, B 1, ANY 2; ANY is the absent track. -/
def watchTrackOf : Nat → Option (Option Track)
  | 0 => some (some .A)
  | 1 => some (some .B)
  | 2 => some none
  | _ => none

def conditionOf : Nat → Option WatchCondition
  | 0 => some .grossAbove
  | 1 => some .axleAbove
  | 2 => some .shiftAbove
  | 3 => some .speedOutside
  | 4 => some .classIs
  | 5 => some .ungrouped
  | _ => none

def actionOf : Nat → Option WatchAction
  | 0 => some .mark
  | 1 => some .capture
  | _ => none

def scopeOf : Nat → Option CaptureScope
  | 0 => some .own
  | 1 => some .both
  | _ => none

/-- The two operands lie in the ranges their condition gives. -/
def watchValuesOk (c : WatchCondition) (v1 v2 : Nat) : Bool :=
  match c with
  | .grossAbove => true
  | .axleAbove => inRange 0 131070 v1
  | .shiftAbove => inRange 0 100 v1
  | .speedOutside => inRange 0 1500 v1 && inRange 0 1500 v2 && decide (v1 ≤ v2)
  | .classIs => inRange 0 255 v1
  | .ungrouped => true

/-- value_1 as stored: 0 for UNGROUPED. -/
def watchValue1 (c : WatchCondition) (v : Nat) : Nat :=
  match c with
  | .ungrouped => 0
  | _ => v

/-- value_2 as stored: 0 but for SPEED_OUTSIDE. -/
def watchValue2 (c : WatchCondition) (v : Nat) : Nat :=
  match c with
  | .speedOutside => v
  | _ => 0

/-- SET WATCH's parameters. -/
structure WatchWrite where
  unit : Nat
  value : WatchUnit
deriving DecidableEq, Repr

def watchWriteOf (l : List Byte) : Option WatchWrite :=
  match boolOf (nat8 l 1), watchTrackOf (nat8 l 2), conditionOf (nat8 l 3), actionOf (nat8 l 10), scopeOf (nat8 l 11) with
  | some enabled, some track, some condition, some action, some scope =>
    if inRange 0 3 (nat8 l 0) && watchValuesOk condition (nat32 l 4) (nat16 l 8) then
      some
        ⟨nat8 l 0,
          ⟨enabled, track, condition, watchValue1 condition (nat32 l 4), watchValue2 condition (nat16 l 8), action, scope, 0⟩⟩
    else none
  | _, _, _, _, _ => none

/-! ### SET CAPTURE (R157) -/

/-- entries is 0 or from 16 to 65535. -/
def captureEntriesOk (entries : Nat) : Bool := decide (entries = 0) || inRange 16 65535 entries

/-- address is a multiple of 8, the area ends by 2^32, and post_trigger is from 16 to 65535. -/
def captureAreaOk (address entries postTrigger : Nat) : Bool :=
  decide (address % 8 = 0) && decide (address + 32 + 40 * entries ≤ 4294967296) && inRange 16 65535 postTrigger

/-! ### REPORT (R180, R182) -/

def trackModeCode : TrackMode → Nat
  | .disabled => 0
  | .idle => 1
  | .approach => 2
  | .crossing => 3
  | .standing => 4
  | .draining => 5
  | .withdrawn => 6

/-- 0 NONE, 1 ACCUMULATING, 2 SUSPENDED. -/
def zeroCode : Option ZeroOperation → Nat
  | none => 0
  | some z =>
    match z.state with
    | .accumulating => 1
    | .suspended => 2

def captureStateCode : CaptureState → Nat
  | .disarmed => 0
  | .armed => 1
  | .recording => 2
  | .held => 3

/-- One track's ten bytes of REPORT. -/
def reportTrack (k : TrackState) : List Byte :=
  [byte (trackModeCode k.mode), byte (zeroCode k.zero), byte k.records.placesInUse, byte k.records.wagons,
    byte k.axles.onBridge.length, byte k.axles.backedOut.length] ++ le32 k.passageNumber

/-- The locks of a track's eight channels. -/
def lockList (k : TrackState) : List Bool :=
  (halfChannels k.calibration false ++ halfChannels k.calibration true).map (·.lock)

/-- REPORT's answer layout (R182). -/
def reportFields (s : State) : List Byte :=
  let a := s.tracks.a
  let b := s.tracks.b
  let h := s.shared
  reportTrack a ++ reportTrack b
    ++ [byte s.pages.lent.length, byte (captureStateCode h.capture.state), if h.options.hold then 1 else 0]
    ++ le16 (maskOf (h.classes.map (·.lock))) ++ le16 (maskOf (lockList a ++ lockList b))
    ++ (h.watch.toList.map fun u => le16 u.hitCount).flatten
    ++ [byte a.falseApproaches, byte b.falseApproaches]
    ++ le16 h.counters.badFrames ++ le16 h.counters.edgeErrors ++ le16 h.counters.pointFaults ++ le16 h.counters.sequenceErrors
    ++ [byte h.counters.autoZeroFailures, byte a.records.lostPassages, byte b.records.lostPassages]

end Sys2Proof.Machine
end

