-- ==== Sys2Proof/Machine/OrderCommands.lean ====
section
/-!
DEFINITION. Machine/OrderCommands.lean: the orders, carried out from the head of the order queue (R178), one meaning each.
-/
namespace Sys2Proof.Machine

/-! ### Carrying out and answering -/

/-- The order the order unit may carry out now: in RUNNING, with no order carried out and not yet answered, the head of the queue
(R178, R183). -/
def State.readyOrder (s : State) : Option Order :=
  if s.regs.part = .running ∧ s.shared.orders.carrying = false then s.shared.orders.queue.head? else none

/-- The head order leaves the queue (R178). -/
def State.popOrder (s : State) : State :=
  s.modShared fun h => h.modOrders fun u => { u with queue := u.queue.tail }

/-- Carry out the head order if its kind is one of these; otherwise the event does not happen (log 1). -/
def State.carryOut (s : State) (isKind : Byte → Bool) (f : Order → State → State) : Result :=
  .next
    (match s.readyOrder with
    | none => s
    | some o => if isKind o.kind then (f o s.popOrder).settle else s)

/-- The answer of an order carried out becomes due, and the next order waits for it (R178). -/
def State.answerAs (s : State) (owner : AnswerOwner) (o : Order) (code : AnswerCode) (area : List Byte) : State :=
  s.modShared fun h =>
    (h.pushAnswer ⟨o.slot, o.tag, code, area, owner⟩).modOrders fun u => { u with carrying := true }

def State.answer (s : State) (o : Order) (code : AnswerCode) (area : List Byte := []) : State :=
  s.answerAs .order o code area

/-- Change a track's stored state alone. -/
def State.modTrack (s : State) (t : Track) (f : TrackState → TrackState) : State :=
  { s with tracks := s.tracks.set t (f (s.tracks.get t)) }

/-! ### Options, report and quiet -/

/-- The options replaced; the scan timer is restarted unless a scan is running (R179). -/
def Shared.setOptions (h : Shared) (x : Options) : Shared :=
  { h with
    options := x
    orders :=
      if h.orders.scan.isSome then h.orders
      else { h.orders with scanTimer := scanTimerFor h.time x.scanInterval } }

def carrySetOptions (o : Order) (s : State) : State :=
  match optionsOf o.params with
  | none => s.answer o .invalid
  | some x => (s.modShared (·.setOptions x)).answer o .done

/-- SET_OPTIONS (R179). -/
def execSetOptions (s : State) : Result := s.carryOut (· == 0x01#8) carrySetOptions

/-- REPORT (R180). -/
def execReport (s : State) : Result := s.carryOut (· == 0x02#8) fun o s => s.answer o .done (reportFields s)

/-- A track is IDLE or DISABLED. -/
def TrackMode.atRest : TrackMode → Bool
  | .disabled => true
  | .idle => true
  | .approach => false
  | .crossing => false
  | .standing => false
  | .draining => false
  | .withdrawn => false

/-- The four conditions of R184. -/
def State.mayRest (s : State) : Bool :=
  s.tracks.a.mode.atRest && s.tracks.b.mode.atRest && s.tracks.a.zero.isNone && s.tracks.b.zero.isNone
    && decide (s.shared.capture.state ≠ .recording) && s.shared.orders.queue.isEmpty

/-- QUIET (R184): the answer; the part enters QUIET only when the answer has been written. -/
def execQuiet (s : State) : Result :=
  s.carryOut (· == 0x03#8) fun o s => if s.mayRest then s.answerAs .quiet o .done [] else s.answer o .busy

/-! ### Tracks -/

def carrySetTrack (o : Order) (s : State) : State :=
  match trackOf (nat8 o.params 0) with
  | none => s.answer o .invalid
  | some t =>
    if (s.tracks.get t).mode ≠ .disabled then s.answer o .busy
    else
      match trackConfigOf o.params with
      | none => s.answer o .invalid
      | some x => (s.modTrack t fun k => { k with config := x }).answer o .done

/-- SET_TRACK (R17). -/
def execSetTrack (s : State) : Result := s.carryOut (· == 0x10#8) carrySetTrack

def carryEnableTrack (o : Order) (s : State) : State :=
  match trackOf (nat8 o.params 0) with
  | none => s.answer o .invalid
  | some t =>
    if (s.tracks.get t).mode ≠ .disabled then s.answer o .busy
    else if (s.tracks.get t).config.platforms = 0 then s.answer o .busy
    else (s.onTrack t Scene.enable).answer o .done

/-- ENABLE_TRACK (R44). -/
def execEnableTrack (s : State) : Result := s.carryOut (· == 0x11#8) carryEnableTrack

/-- closed_passage of DISABLE TRACK: the number of the passage closed, 0 when none was open (R60). -/
def closedPassage (k : TrackState) : Nat := if k.mode.inPassage then k.passageOpen else 0

def carryDisableTrack (o : Order) (s : State) : State :=
  match trackOf (nat8 o.params 0) with
  | none => s.answer o .invalid
  | some t => (s.onTrack t Scene.disable).answer o .done (le32 (closedPassage (s.tracks.get t)))

/-- DISABLE_TRACK (R60). -/
def execDisableTrack (s : State) : Result := s.carryOut (· == 0x12#8) carryDisableTrack

def carryClosePassage (o : Order) (s : State) : State :=
  match trackOf (nat8 o.params 0) with
  | none => s.answer o .invalid
  | some t =>
    if (s.tracks.get t).mode.inPassage then
      (s.onTrack t fun c => c.closePassage .ordered).answer o .done (le32 (s.tracks.get t).passageOpen)
    else s.answer o .nothing

/-- CLOSE_PASSAGE (R59). -/
def execClosePassage (s : State) : Result := s.carryOut (· == 0x13#8) carryClosePassage

/-! ### Calibration and zero -/

/-- A written channel: the span, and the lock set when asked (R107). -/
def Channel.writeSpan (x : Channel) (span : Nat) (lock : Bool) : Channel := { x with span := span, lock := lock }

def carryWriteSpan (o : Order) (s : State) : State :=
  match spanWriteOf o.params with
  | none => s.answer o .invalid
  | some w =>
    if (channelGet (s.tracks.get w.track).calibration w.channel).lock then s.answer o .locked
    else if (s.tracks.get w.track).mode.inPassage then s.answer o .busy
    else
      (s.modTrack w.track fun k =>
        { k with calibration :=
            channelSet k.calibration w.channel ((channelGet k.calibration w.channel).writeSpan w.span w.lock) }).answer o .done

/-- WRITE_SPAN (R107). -/
def execWriteSpan (s : State) : Result := s.carryOut (· == 0x20#8) carryWriteSpan

def carryReadCalibration (o : Order) (s : State) : State :=
  match trackOf (nat8 o.params 0), boolOf (nat8 o.params 1) with
  | some t, some high => s.answer o .done (calibrationFields (halfChannels (s.tracks.get t).calibration high))
  | _, _ => s.answer o .invalid

/-- READ_CALIBRATION (R108). -/
def execReadCalibration (s : State) : Result := s.carryOut (· == 0x21#8) carryReadCalibration

/-- An accepted ZERO starts its operation (R138). -/
def Scene.startZero (c : Scene) (o : Order) (count : Nat) : Scene :=
  let z := ZeroOperation.started (.order o.slot o.tag) count c.sh.options.zeroHoldLimit
  if c.trk.mode = .idle then c.setZero (some z) else c.suspendZero z

def carryZero (o : Order) (s : State) : State :=
  match trackOf (nat8 o.params 0) with
  | none => s.answer o .invalid
  | some t =>
    if (s.tracks.get t).mode = .disabled then s.answer o .busy
    else if (s.tracks.get t).zero.isSome then s.answer o .busy
    else if inRange 64 65535 (nat16 o.params 1) then s.onTrack t fun c => c.startZero o (nat16 o.params 1)
    else s.answer o .invalid

/-- ZERO (R138): an accepted one is not answered when it is carried out. -/
def execZero (s : State) : Result := s.carryOut (· == 0x22#8) carryZero

/-! ### The class table -/

def carryWriteClass (o : Order) (s : State) : State :=
  match classWriteOf o.params with
  | none => s.answer o .invalid
  | some w =>
    if (s.shared.classes.getD w.index .off).lock then s.answer o .locked
    else (s.modShared fun h => { h with classes := h.classes.set w.index w.entry }).answer o .done

/-- WRITE_CLASS (R114). -/
def execWriteClass (s : State) : Result := s.carryOut (· == 0x30#8) carryWriteClass

def carryReadClass (o : Order) (s : State) : State :=
  if inRange 0 15 (nat8 o.params 0) then
    s.answer o .done (classFields (s.shared.classes.getD (nat8 o.params 0) .off))
  else s.answer o .invalid

/-- READ_CLASS (R116). -/
def execReadClass (s : State) : Result := s.carryOut (· == 0x31#8) carryReadClass

/-! ### Watch units and capture -/

def carrySetWatch (o : Order) (s : State) : State :=
  match watchWriteOf o.params with
  | none => s.answer o .invalid
  | some w => (s.modShared fun h => { h with watch := h.watch.set (w.unit + 1) w.value }).answer o .done

/-- SET_WATCH (R152). -/
def execSetWatch (s : State) : Result := s.carryOut (· == 0x40#8) carrySetWatch

/-- The hit counts of the units named by a mask cleared, unit 0 in bit 0 (R153). -/
def clearHits (mask : Byte) (x : Four WatchUnit) : Four WatchUnit :=
  x.mapIdx fun i u => if mask.getLsbD (i - 1) then { u with hitCount := 0 } else u

def carryClearHits (o : Order) (s : State) : State :=
  (s.modShared fun h => { h with watch := clearHits (byteAt o.params 0) h.watch }).answer o .done
    (s.shared.watch.toList.map fun u => le16 u.hitCount).flatten

/-- CLEAR_HITS (R153). -/
def execClearHits (s : State) : Result := s.carryOut (· == 0x41#8) carryClearHits

/-- SET CAPTURE's effect (R157). DESIGN CHOICE (log 31): the items that lose their meaning keep their old values. -/
def carrySetCapture (o : Order) (s : State) : State :=
  let address := nat32 o.params 0
  let entries := nat16 o.params 4
  let postTrigger := nat16 o.params 6
  if captureEntriesOk entries = false then s.answer o .invalid
  else if s.shared.capture.state = .recording then s.answer o .busy
  else if entries = 0 then
    (s.modShared fun h => h.modCapture fun x => { x with state := .disarmed }).answer o .done
  else if captureAreaOk address entries postTrigger = false then s.answer o .invalid
  else
    (s.modShared fun h => h.modCapture fun x =>
      { x with state := .armed, area := BitVec.ofNat 32 address, slots := entries, limit := postTrigger }).answer o .done

/-- SET_CAPTURE (R157). -/
def execSetCapture (s : State) : Result := s.carryOut (· == 0x42#8) carrySetCapture

/-! ### Pages -/

/-- An address is lent: in the list or a current page (R167). -/
def PageBlock.holds (b : PageBlock) (address : Word) : Bool :=
  b.lent.contains address
    || decide ((b.writers.a.current.map (·.address)) = some address)
    || decide ((b.writers.b.current.map (·.address)) = some address)

def carryLendPage (o : Order) (s : State) : State :=
  let address := nat32 o.params 0
  if address % 4096 ≠ 0 then s.answer o .invalid
  else if s.pages.holds (BitVec.ofNat 32 address) then s.answer o .invalid
  else if 16 ≤ s.pages.lent.length then s.answer o .noRoom
  else
    State.answer { s with pages := { s.pages with lent := s.pages.lent ++ [BitVec.ofNat 32 address] } } o .done

/-- LEND_PAGE (R168): a waiting claim is served as the step ends (R170). -/
def execLendPage (s : State) : Result := s.carryOut (· == 0x50#8) carryLendPage

/-- The slot and tag of a RECLAIM PAGES are kept for its answer, which becomes due after the last header write (R169). -/
def carryReclaimPages (o : Order) (s : State) : State :=
  let removed := s.pages.lent
  if removed.isEmpty then s.answer o .done [0]
  else
    State.modShared { s with pages := { s.pages with lent := [] } } fun h => h.modOrders (·.startReclaim o removed)

/-- RECLAIM_PAGES (R169). -/
def execReclaimPages (s : State) : Result := s.carryOut (· == 0x51#8) carryReclaimPages

/-! ### Unknown kinds -/

/-- The kinds of the order catalogue (section 10.5). -/
def catalogue : List Byte :=
  [0x01, 0x02, 0x03, 0x10, 0x11, 0x12, 0x13, 0x20, 0x21, 0x22, 0x30, 0x31, 0x40, 0x41, 0x42, 0x50, 0x51]

/-- UNKNOWN_ORDER (R178): a kind that matches no entry of the catalogue is answered INVALID. -/
def execUnknownOrder (s : State) : Result :=
  s.carryOut (fun k => !catalogue.contains k) fun o s => s.answer o .invalid

end Sys2Proof.Machine
end

