-- ==== Sys2Proof/Machine/BusEvents.lean ====
section
/-!
DEFINITION. Machine/BusEvents.lean: the ends of master accesses (R159, R160, R169, R171, R177, R178) and the bus error (R186).
-/
namespace Sys2Proof.Machine

/-! ### The order unit's accesses -/

/-- SCAN_READ_DONE (R177), with the bytes read from the slot. -/
def execScanReadDone (bytes : List Byte) (s : State) : Result :=
  .next (s.completeAccess .scanRead fun _ s =>
    (s.modShared fun h => h.modOrders (·.scanReadDone h.time h.options.scanInterval bytes)).settle)

/-- TAKEN_WRITE_DONE (R177). -/
def execTakenWriteDone (s : State) : Result :=
  .next (s.completeAccess .takenWrite fun _ s =>
    (s.modShared fun h => h.modOrders (·.takenWriteDone h.time h.options.scanInterval)).settle)

/-- ANSWER_FIELDS_WRITE_DONE (R178). -/
def execAnswerFieldsWriteDone (s : State) : Result :=
  .next (s.completeAccess .answerFields fun _ s => (s.modShared fun h => h.modOrders (·.answerFieldsDone)).settle)

/-- The five conditions of R184's second test. -/
def State.mayEnterQuiet (s : State) : Bool := s.mayRest && s.shared.orders.scan.isNone

/-- The part enters QUIET (R184): the scan timer stops and the pending mark is cleared. -/
def State.enterQuiet (s : State) : State :=
  (s.modRegs fun r => { r with part := .quiet }).modShared fun h =>
    h.modOrders fun u => { u with scanTimer := none, pendingScan := false }

/-- QUIET entry while another requester may be asking for the port that has just become free (R175, R184): whether it is granted before
the entry is a free choice (log 13). -/
def State.restNow (s : State) : State :=
  if s.claimPages.servePages.nextRequest.isNone then s.enterQuiet.settle
  else
    let s' := { s with freeCount := s.freeCount + 1 }
    if Config.choice s.freeCount % 2 = 0 then s'.enterQuiet.settle else s'.settle.enterQuiet

/-- The ANSWERED write of the head answer completes (R178): the ANSWER notice, and for a QUIET order's DONE the second test (R184). -/
def State.answeredDone (s : State) : State :=
  let quiet := (s.shared.orders.answers.head?.map (·.owner)) = some .quiet
  let s := s.modShared fun h => (h.modOrders (·.answeredDone)).raise .answer
  if quiet ∧ s.mayEnterQuiet ∧ s.regs.part = .running then s.restNow else s.settle

/-- ANSWERED_WRITE_DONE (R178, R184). -/
def execAnsweredWriteDone (s : State) : Result := .next (s.completeAccess .answered fun _ s => s.answeredDone)

/-- RECLAIM_HEADER_WRITE_DONE (R169). -/
def execReclaimHeaderWriteDone (s : State) : Result :=
  .next (s.completeAccess .reclaimHeader fun _ s => (s.modShared fun h => h.modOrders (·.reclaimHeaderDone)).settle)

/-! ### The page writers' accesses -/

/-- The track of a page writer. -/
def Requester.track : Requester → Track
  | .pageWriterB => .B
  | _ => .A

/-- Change one page writer. -/
def State.modWriter (s : State) (t : Track) (f : PageWriter → PageWriter) : State :=
  { s with pages := { s.pages with writers := s.pages.writers.set t (f (s.pages.writers.get t)) } }

/-- One record write of track t's writer completes (R171): the next piece follows, or the record is whole, leaves the queue and
counts in the page. -/
def State.recordWritten (s : State) (t : Track) (bytes : Nat) : State :=
  match (s.pages.writers.get t).current, (s.tracks.get t).records.queue with
  | some g, r :: _ =>
    if r.size ≤ g.written + bytes then
      (s.modWriter t fun w => { w with current := some (g.addRecord r) }).modTrack t fun k =>
        { k with records := k.records.dropHead }
    else s.modWriter t fun w => { w with current := some { g with written := g.written + bytes } }
  | _, _ => s

/-- RECORD_WRITE_DONE (R171). -/
def execRecordWriteDone (s : State) : Result :=
  .next (s.completeAccess .recordWrite fun a s => (s.recordWritten a.requester.track a.data.length).settle)

/-- The page is returned (R171): PAGE is raised, the current page becomes absent, page_sequence is 0 after an END return. -/
def State.pageReturned (s : State) (t : Track) : State :=
  match (s.pages.writers.get t).current with
  | none => s
  | some g =>
    (s.modWriter t fun w => { w with current := none, sequence := if g.ended then 0 else w.sequence }).modShared (·.raise .page)

/-- PAGE_HEADER_WRITE_DONE (R171). -/
def execPageHeaderWriteDone (s : State) : Result :=
  .next (s.completeAccess .pageHeader fun a s => (s.pageReturned a.requester.track).settle)

/-! ### The capture writer's accesses -/

/-- CAPTURE_ENTRY_WRITE_DONE (R159): the oldest entry leaves the waiting entries. -/
def execCaptureEntryWriteDone (s : State) : Result :=
  .next (s.completeAccess .captureEntry fun _ s =>
    (s.modShared fun h => h.modCapture fun x => { x with waiting := x.waiting.tail }).settle)

/-- CAPTURE_HEADER_WRITE_DONE (R160): HELD and the CAPTURE notice. -/
def execCaptureHeaderWriteDone (s : State) : Result :=
  .next (s.completeAccess .captureHeader fun _ s =>
    (s.modShared fun h => (h.modCapture fun x => { x with state := .held }).raise .capture).settle)

/-! ### Bus error -/

/-- The halt of R186: HALTED, FAULT_ADDRESS, fault code, FAULT; the failed access is not done. -/
def State.halt (s : State) (a : Access) : State :=
  (s.modRegs fun r => { r with part := .halted, faultCode := some a.requester, faultAddress := a.address }).modShared
    (·.raise .fault)

/-- BUS_ERROR (R186): an access that a reset discarded ends without effect (R187). -/
def execBusError (s : State) : Result :=
  .next
    (match s.bus.inFlight with
    | none => s
    | some a => if a.discarded then s.freePort.settle else s.freePort.halt a)

end Sys2Proof.Machine
end

