-- ==== Sys2Proof/Machine/RegisterCommands.lean ====
section
/-!
DEFINITION. Machine/RegisterCommands.lean: the target side of the bus port (R174, R181 to R183) and the three resets (R187 and each
chapter's reset values).
-/
namespace Sys2Proof.Machine

/-! ### Reading the registers (R174, R182) -/

def partCode : PartState → Nat
  | .stopped => 0
  | .running => 1
  | .quiet => 2
  | .halted => 3

def resetCode : ResetCause → Nat
  | .power => 1
  | .hard => 2
  | .soft => 3

def wakeCode : Option WakeCause → Nat
  | none => 0
  | some .attention => 1
  | some .detector => 2

def faultCodeValue : Option Requester → Nat
  | none => 0
  | some .orderUnit => 1
  | some .pageWriterA => 2
  | some .pageWriterB => 3
  | some .captureWriter => 4

/-- IDENT (R182). -/
def ident : Word := 0x4C723201#32

/-- STATUS (R182): part state in 2:0, reset cause 5:4, wake cause 7:6, start code 11:8, fault code 19:16. -/
def State.status (s : State) : Word :=
  BitVec.ofNat 32
    (partCode s.regs.part + 16 * resetCode s.regs.resetCause + 64 * wakeCode s.regs.wakeCause
      + 256 * (if s.regs.badAnchor then 1 else 0) + 65536 * faultCodeValue s.regs.faultCode)

/-- CONTROL as read (R174, R182): RUN is 1 but in STOPPED, SOFT_RESET 0, the notice mask in 13:8. -/
def State.control (s : State) : Word :=
  BitVec.ofNat 32 ((if s.regs.part = .stopped then 0 else 1) + 256 * s.regs.noticeMask.toNat)

/-- The value a read of the register at an offset returns; absent where no register lies (R174). -/
def State.readRegister (s : State) (offset : Byte) : Option Word :=
  match offset.toNat with
  | 0x00 => some ident
  | 0x04 => some s.status
  | 0x08 => some s.control
  | 0x0C => some s.regs.anchor
  | 0x10 => some 0#32
  | 0x14 => some (s.shared.notice.setWidth 32)
  | 0x18 => some s.regs.faultAddress
  | _ => none

/-! ### Resets -/

/-- An access in flight at a hard or soft reset completes with its result discarded; the last grantee is taken to be the capture
writer (R175, R187). -/
def Bus.reset (b : Bus) : Bus := ⟨b.inFlight.map fun a => { a with discarded := true }, .captureWriter⟩

/-- A track after a soft reset: configuration, passage_number and calibration kept, the rest as after power-on
(R18, R42, R104 and the chapters' reset tables). -/
def TrackState.softReset (k : TrackState) : TrackState :=
  { TrackState.initial with
    config := k.config
    passageNumber := k.passageNumber
    calibration := k.calibration }

/-- The options after a soft reset: kept with HOLD ON; with HOLD OFF the defaults, HOLD itself kept (R179). -/
def Options.softReset (x : Options) : Options := if x.hold then x else { Options.default with hold := x.hold }

/-- The shared blocks after a soft reset: class table and watch configurations kept, hit counts 0 (R112, R151, R179). -/
def Shared.softReset (h : Shared) : Shared :=
  { Shared.initial with
    options := h.options.softReset
    classes := h.classes
    watch := h.watch.mapIdx fun _ u => { u with hitCount := 0 } }

/-- A soft reset (R187): ANCHOR kept. -/
def State.softReset (s : State) : State :=
  { s with
    regs := ⟨.stopped, .soft, none, false, none, 0, 0, s.regs.anchor⟩
    shared := s.shared.softReset
    tracks := ⟨s.tracks.a.softReset, s.tracks.b.softReset⟩
    pages := .empty
    bus := s.bus.reset }

/-- A hard reset (R187): every value as after power-on but for the reset cause and an access in flight. -/
def State.hardReset (s : State) : State :=
  { s with
    regs := ⟨.stopped, .hard, none, false, none, 0, 0, 0⟩
    shared := .initial
    tracks := ⟨.initial, .initial⟩
    pages := .empty
    bus := s.bus.reset }

/-- A power-on reset (R187): the machine of `State.reset`; the queue of commands and the model's own counter stay. -/
def State.powerOnReset (s : State) : State :=
  { State.reset with freeCount := s.freeCount, pending := s.pending }

/-! ### CONTROL -/

/-- The notice mask of a CONTROL write, bits 13:8 (R182). -/
def maskField (v : Word) : BitVec 6 := v.extractLsb' 8 6

/-- RUN, bit 0 of a CONTROL write (R182). -/
def runBit (v : Word) : Bool := v.getLsbD 0

/-- SOFT_RESET, bit 1 of a CONTROL write (R182). -/
def softResetBit (v : Word) : Bool := v.getLsbD 1

/-- RUN written 1 in STOPPED (R183): the part starts when ANCHOR is a multiple of 4096, otherwise BAD_ANCHOR. -/
def State.start (s : State) : State :=
  if s.regs.anchor.toNat % 4096 = 0 then
    (s.modRegs fun r => { r with part := .running, badAnchor := false }).requestScan.settle
  else s.modRegs fun r => { r with badAnchor := true }

/-- A write of CONTROL (R174). -/
def State.writeControl (s : State) (v : Word) : State :=
  if softResetBit v then s.softReset
  else
    let s := s.modRegs fun r => { r with noticeMask := maskField v }
    if runBit v ∧ s.regs.part = .stopped then s.start else s

/-- RUN (R183). -/
def execRun (v : Word) (s : State) : Result := .next (s.writeControl v)

/-- SOFT_RESET (R187). -/
def execSoftReset (v : Word) (s : State) : Result := .next (s.writeControl v)

/-- NOTICE_MASK_WRITE (R174). -/
def execNoticeMaskWrite (v : Word) (s : State) : Result := .next (s.writeControl v)

/-! ### The other registers -/

/-- ANCHOR_WRITE (R174): taken as it stands in STOPPED, ignored otherwise. -/
def execAnchorWrite (v : Word) (s : State) : Result :=
  .next (if s.regs.part = .stopped then s.modRegs fun r => { r with anchor := v } else s)

/-- ATTENTION (R174, R185): a scan is requested in RUNNING, a wake in QUIET; ignored otherwise. The value is not used. -/
def execAttention (_v : Word) (s : State) : Result :=
  .next
    (match s.regs.part with
    | .stopped => s
    | .running => s.requestScan.settle
    | .quiet => (s.wake .attention).settle
    | .halted => s)

/-- NOTICE_CLEAR (R181): every bit written 1 is cleared. -/
def execNoticeClear (v : Word) (s : State) : Result :=
  .next (s.modShared fun h => { h with notice := h.notice &&& ~~~(v.extractLsb' 0 6) })

/-- READ_ONLY_REGISTER_WRITE (R174): nothing changes. -/
def execReadOnlyRegisterWrite (_offset : Byte) (_v : Word) (s : State) : Result := .next s

/-- POWER_ON_RESET (R187). -/
def execPowerOnReset (s : State) : Result := .next s.powerOnReset

/-- HARD_RESET (R187). -/
def execHardReset (s : State) : Result := .next s.hardReset

end Sys2Proof.Machine
end

