-- ==== Sys2Proof/Machine/Timers.lean ====
section
/-!
DEFINITION. Machine/Timers.lean: the timer expiries (R3, R12, R46, R51 to R54, R144, R177) and which of them are due.
An expiry whose timer is stopped, not due or not acted upon does not happen: the state is unchanged (R3, log 1).
-/
namespace Sys2Proof.Machine

/-- Stuck timers are acted upon in RUNNING and QUIET (R12, chapter 11's table). -/
def PartState.actsOnStuck : PartState → Bool
  | .stopped => false
  | .running => true
  | .quiet => true
  | .halted => false

/-- Every other timer is acted upon in RUNNING (chapter 11's table; in QUIET none of them runs, R63, R184). -/
def PartState.actsOnTimers : PartState → Bool
  | .stopped => false
  | .running => true
  | .quiet => false
  | .halted => false

/-- A stuck timer's expiry happens. -/
def State.stuckDue (s : State) (t : Track) (p : PointCode) (h : Head) : Bool :=
  s.regs.part.actsOnStuck && timerDue s.shared.time (((s.tracks.get t).points.get p).stuck.get h)

/-- The track timer's expiry happens in a track state. -/
def State.trackTimerDue (s : State) (t : Track) (mode : TrackMode) : Bool :=
  s.regs.part.actsOnTimers && decide ((s.tracks.get t).mode = mode) && timerDue s.shared.time (s.tracks.get t).timer

/-- The hold timer of a track's zero engine, while an operation is in progress. -/
def TrackState.holdTimer (k : TrackState) : Option Timer := k.zero.bind (·.holdTimer)

/-- The hold timer's expiry happens. -/
def State.holdDue (s : State) (t : Track) : Bool :=
  s.regs.part.actsOnTimers && timerDue s.shared.time (s.tracks.get t).holdTimer

/-- The scan timer's expiry happens. -/
def State.scanTimerDue (s : State) : Bool :=
  s.regs.part.actsOnTimers && timerDue s.shared.time s.shared.orders.scanTimer

/-- STUCK_TIMER_EXPIRY (R12). -/
def execStuckTimerExpiry (t : Track) (p : PointCode) (h : Head) (s : State) : Result :=
  .next (if s.stuckDue t p h then s.onTrack t fun c => c.pointFault p else s)

/-- APPROACH_TIMEOUT (R46). -/
def execApproachTimeout (t : Track) (s : State) : Result :=
  .next (if s.trackTimerDue t .approach then s.onTrack t Scene.approachExpires else s)

/-- STALL_EXPIRY (R51): STANDING, with the standing timer. -/
def execStallExpiry (t : Track) (s : State) : Result :=
  .next
    (if s.trackTimerDue t .crossing then
      s.onTrack t fun c =>
        (c.modTrk fun k => { k with mode := .standing }).startTimer (seconds c.trk.config.standingLimit)
    else s)

/-- STANDING_EXPIRY (R52). -/
def execStandingExpiry (t : Track) (s : State) : Result :=
  .next (if s.trackTimerDue t .standing then (s.onTrack t fun c => c.closePassage .standing).settle else s)

/-- SETTLE_EXPIRY (R53). -/
def execSettleExpiry (t : Track) (s : State) : Result :=
  .next (if s.trackTimerDue t .draining then (s.onTrack t fun c => c.closePassage .normal).settle else s)

/-- WITHDRAWN_EXPIRY (R54). -/
def execWithdrawnExpiry (t : Track) (s : State) : Result :=
  .next (if s.trackTimerDue t .withdrawn then (s.onTrack t fun c => c.closePassage .withdrawn).settle else s)

/-- HOLD_TIMER_EXPIRY (R144). -/
def execHoldTimerExpiry (t : Track) (s : State) : Result :=
  .next (if s.holdDue t then (s.onTrack t Scene.zeroHoldExpires).settle else s)

/-- SCAN_TIMER_EXPIRY (R177): the timer stops and a scan is requested. -/
def execScanTimerExpiry (s : State) : Result :=
  .next
    (if s.scanTimerDue then
      (s.modShared fun h => h.modOrders fun u => { u with scanTimer := none }).requestScan.settle
    else s)

/-! ### The expiries that are due -/

def allPoints : List PointCode := [.LA, .B0, .B1, .B2, .B3, .B4, .HA]

/-- A track's stuck timers that are due. -/
def State.dueStuck (s : State) (t : Track) : List Instr :=
  (allPoints.map fun p =>
    (if s.stuckDue t p .head1 then [Instr.stuckTimerExpiry t p .head1] else [])
      ++ (if s.stuckDue t p .head2 then [Instr.stuckTimerExpiry t p .head2] else [])).flatten

/-- The command of the track timer in a track state (R43). -/
def trackExpiry (t : Track) : TrackMode → Option Instr
  | .disabled => none
  | .idle => none
  | .approach => some (.approachTimeout t)
  | .crossing => some (.stallExpiry t)
  | .standing => some (.standingExpiry t)
  | .draining => some (.settleExpiry t)
  | .withdrawn => some (.withdrawnExpiry t)

/-- A track's due expiries. -/
def State.dueTrack (s : State) (t : Track) : List Instr :=
  s.dueStuck t
    ++ (if s.trackTimerDue t (s.tracks.get t).mode then (trackExpiry t (s.tracks.get t).mode).toList else [])
    ++ (if s.holdDue t then [Instr.holdTimerExpiry t] else [])

/-- Every expiry that is due. -/
def State.dueExpiries (s : State) : List Instr :=
  s.dueTrack .A ++ s.dueTrack .B ++ (if s.scanTimerDue then [Instr.scanTimerExpiry] else [])

/-- A list of due expiries in a free order (log 3): each is inserted at a place that `Config.choice` picks. -/
def arrange (k : Nat) : List Instr → List Instr
  | [] => []
  | [i] => [i]
  | i :: j :: l =>
    let rest := arrange (k + 1) (j :: l)
    rest.insertIdx (Config.choice k % (rest.length + 1)) i

/-- The time base one microsecond on (R2). -/
def State.tick (s : State) : State := s.modShared fun h => { h with time := h.time + 1 }

/-- A step on an empty queue (log 2): the expiries that are due are queued, or, when none is, the time base advances. -/
def State.idleStep (s : State) : State :=
  match s.dueExpiries with
  | [] => s.tick
  | due => { s with pending := arrange s.freeCount due, freeCount := s.freeCount + due.length }

end Sys2Proof.Machine
end

