-- ==== Sys2Proof/Machine/Dispatch.lean ====
section
/-!
DEFINITION. Machine/Dispatch.lean: the meaning of every command, one arm per constructor of Instr.
-/
namespace Sys2Proof.Machine

/-- A command's effect on everything but the queue of commands. -/
def exec (i : Instr) (s : State) : Host.Outcome State Fault Refusal :=
  match i with
  | .headEdgeMessage check t p h l => Sys2Proof.Machine.execHeadEdgeMessage check t p h l s
  | .sampleFrame check t sequence channels => Sys2Proof.Machine.execSampleFrame check t sequence channels s
  | .stuckTimerExpiry t p h => Sys2Proof.Machine.execStuckTimerExpiry t p h s
  | .approachTimeout t => Sys2Proof.Machine.execApproachTimeout t s
  | .stallExpiry t => Sys2Proof.Machine.execStallExpiry t s
  | .standingExpiry t => Sys2Proof.Machine.execStandingExpiry t s
  | .settleExpiry t => Sys2Proof.Machine.execSettleExpiry t s
  | .withdrawnExpiry t => Sys2Proof.Machine.execWithdrawnExpiry t s
  | .holdTimerExpiry t => Sys2Proof.Machine.execHoldTimerExpiry t s
  | .scanTimerExpiry => Sys2Proof.Machine.execScanTimerExpiry s
  | .setOptions => Sys2Proof.Machine.execSetOptions s
  | .report => Sys2Proof.Machine.execReport s
  | .quiet => Sys2Proof.Machine.execQuiet s
  | .setTrack => Sys2Proof.Machine.execSetTrack s
  | .enableTrack => Sys2Proof.Machine.execEnableTrack s
  | .disableTrack => Sys2Proof.Machine.execDisableTrack s
  | .closePassage => Sys2Proof.Machine.execClosePassage s
  | .writeSpan => Sys2Proof.Machine.execWriteSpan s
  | .readCalibration => Sys2Proof.Machine.execReadCalibration s
  | .zero => Sys2Proof.Machine.execZero s
  | .writeClass => Sys2Proof.Machine.execWriteClass s
  | .readClass => Sys2Proof.Machine.execReadClass s
  | .setWatch => Sys2Proof.Machine.execSetWatch s
  | .clearHits => Sys2Proof.Machine.execClearHits s
  | .setCapture => Sys2Proof.Machine.execSetCapture s
  | .lendPage => Sys2Proof.Machine.execLendPage s
  | .reclaimPages => Sys2Proof.Machine.execReclaimPages s
  | .unknownOrder => Sys2Proof.Machine.execUnknownOrder s
  | .scanReadDone bytes => Sys2Proof.Machine.execScanReadDone bytes s
  | .takenWriteDone => Sys2Proof.Machine.execTakenWriteDone s
  | .answerFieldsWriteDone => Sys2Proof.Machine.execAnswerFieldsWriteDone s
  | .answeredWriteDone => Sys2Proof.Machine.execAnsweredWriteDone s
  | .recordWriteDone => Sys2Proof.Machine.execRecordWriteDone s
  | .pageHeaderWriteDone => Sys2Proof.Machine.execPageHeaderWriteDone s
  | .reclaimHeaderWriteDone => Sys2Proof.Machine.execReclaimHeaderWriteDone s
  | .captureEntryWriteDone => Sys2Proof.Machine.execCaptureEntryWriteDone s
  | .captureHeaderWriteDone => Sys2Proof.Machine.execCaptureHeaderWriteDone s
  | .busError => Sys2Proof.Machine.execBusError s
  | .run v => Sys2Proof.Machine.execRun v s
  | .softReset v => Sys2Proof.Machine.execSoftReset v s
  | .noticeMaskWrite v => Sys2Proof.Machine.execNoticeMaskWrite v s
  | .anchorWrite v => Sys2Proof.Machine.execAnchorWrite v s
  | .attention v => Sys2Proof.Machine.execAttention v s
  | .noticeClear v => Sys2Proof.Machine.execNoticeClear v s
  | .readOnlyRegisterWrite offset v => Sys2Proof.Machine.execReadOnlyRegisterWrite offset v s
  | .powerOnReset => Sys2Proof.Machine.execPowerOnReset s
  | .hardReset => Sys2Proof.Machine.execHardReset s

end Sys2Proof.Machine
end

