-- ==== Sys2Proof/Safety.lean ====
section
/-!
DEFINITION. Safety.lean: the terms in which claims about the WM-2 are stated: when a command's event happens, what an order leaves due,
and the invariants of the machine.
-/
namespace Sys2Proof.Machine

/-! ### When events happen -/

/-- The order unit may carry out order o of kind k now (R178, R183). -/
def State.Carries (s : State) (k : Byte) (o : Order) : Prop :=
  s.regs.part = .running ∧ s.shared.orders.carrying = false ∧ s.shared.orders.queue.head? = some o ∧ o.kind = k

/-- The access in flight is one of a kind whose result counts, in a part that takes it (R175, R184). -/
def State.Ends (s : State) (k : AccessKind) (a : Access) : Prop :=
  s.bus.inFlight = some a ∧ a.kind = k ∧ a.discarded = false

/-- A head edge reaches the decoder of its point in RUNNING (R5). -/
def State.EdgeReaches (s : State) (t : Track) (p : PointCode) : Prop :=
  s.regs.part = .running ∧ (s.tracks.get t).mode ≠ .disabled ∧ pointExists (s.tracks.get t).config.platforms p = true

/-- A frame of a track that passes its link check is accepted (R21, R22). -/
def State.FrameAccepted (s : State) (t : Track) (channels : List ChannelEntry) : Prop :=
  s.regs.part = .running ∧ inRange 1 8 channels.length = true ∧ (s.tracks.get t).mode ≠ .disabled
    ∧ channels.length = 2 * (s.tracks.get t).config.platforms

/-- The order unit after its head order has been carried out and answered with a code and fields (R178). -/
def OrderUnit.afterAnswer (u : OrderUnit) (o : Order) (code : AnswerCode) (area : List Byte) : OrderUnit :=
  { ({ u with queue := u.queue.tail }).pushAnswer ⟨o.slot, o.tag, code, area, .order⟩ with carrying := true }

/-- The machine after its head order has been carried out and answered, the step's end included (R178). -/
def State.answered (s : State) (o : Order) (code : AnswerCode) (area : List Byte) : State :=
  State.settle { s with shared := { s.shared with orders := s.shared.orders.afterAnswer o code area } }

/-- A timer is running and its duration has passed, the time base read modulo 2^32 (R2, R3). -/
def State.RunOut (s : State) (x : Option Timer) : Prop :=
  ∃ t, x = some t ∧ t.duration ≤ (s.shared.time - t.start).toNat

/-- The eight expiry commands. -/
def IsExpiry : Instr → Prop
  | .stuckTimerExpiry _ _ _ => True
  | .approachTimeout _ => True
  | .stallExpiry _ => True
  | .standingExpiry _ => True
  | .settleExpiry _ => True
  | .withdrawnExpiry _ => True
  | .holdTimerExpiry _ => True
  | .scanTimerExpiry => True
  | _ => False

/-- The commands that reset the part (R187): POWER_ON_RESET, HARD_RESET, and a CONTROL write with SOFT_RESET 1. -/
def Resets : Instr → Prop
  | .powerOnReset => True
  | .hardReset => True
  | .run v => v.getLsbD 1 = true
  | .softReset v => v.getLsbD 1 = true
  | .noticeMaskWrite v => v.getLsbD 1 = true
  | _ => False

/-- The resets that set the calibration store and the class table back (R104, R112). -/
def ClearsStores : Instr → Prop
  | .powerOnReset => True
  | .hardReset => True
  | _ => False

/-- The state with the order unit replaced. -/
def State.withOrders (s : State) (u : OrderUnit) : State := { s with shared := { s.shared with orders := u } }

/-- The state with one track's stored state replaced. -/
def State.withTrack (s : State) (t : Track) (k : TrackState) : State := { s with tracks := s.tracks.set t k }

/-- The state with a notice raised (R181). -/
def State.withNotice (s : State) (n : Notice) : State := { s with shared := { s.shared with notice := s.shared.notice ||| n.bit } }

/-- The state once the access in flight has ended (R175). -/
def State.withFreePort (s : State) : State := { s with bus := { s.bus with inFlight := none } }

/-! ### Axle accounts (R91) -/

/-- The real axles on the bridge (R70). -/
def AxleTable.realOnBridge (a : AxleTable) : Nat := (a.onBridge.filter fun e => !e.ghost).length

/-- The real axles in the backed-out stack (R71). -/
def AxleTable.realBackedOut (a : AxleTable) : Nat := (a.backedOut.filter fun e => !e.ghost).length

/-- The items of a passage that only its opening, passes, the disposal and the close's beginning write: all but its wagon counts and the
flags set later than at the opening. -/
def Passage.account (p : Passage) : Passage :=
  { p with
    flags := { PassageFlags.clear with noApproach := p.flags.noApproach, unzeroed := p.flags.unzeroed }
    wagonsFormed := 0
    wagonsUnrecorded := 0
    locomotives := 0
    freightTotal := 0 }

/-- The sum of R91. -/
def Passage.Balances (p : Passage) : Prop :=
  p.axlesCreated = p.axlesDeparted + p.axlesLeftOnBridge + p.axlesBackedOut

/-- Every axle an open passage has created has departed, was discarded, or stands on the bridge or in the stack; and every close record
in the queue balances (R91). -/
def TrackState.Balanced (k : TrackState) : Prop :=
  (∀ p, k.context = some p →
      p.axlesCreated = k.axles.lastSerial ∧ k.axles.lastSerial ≤ 65535 ∧ p.axlesLeftOnBridge = 0
        ∧ p.axlesCreated = p.axlesDeparted + p.axlesBackedOut + k.axles.realOnBridge + k.axles.realBackedOut)
    ∧ ∀ c, Record.close c ∈ k.records.queue → c.passage.Balances

/-- The axle accounts of both tracks balance. -/
def State.Balanced (s : State) : Prop := ∀ t, (s.tracks.get t).Balanced

/-- What a close leaves of an open passage p of track t, at the time `now` (R56 to R58): the track in IDLE, or DISABLED for that reason, with
no window, no step, an empty axle table and group-pending list; the wagon records it formed and then its close record behind the queue
as it stood; for a lost passage no record. -/
def TrackState.ClosedTo (k : TrackState) (t : Track) (p : Passage) (reason : CloseReason) (now : Word) (k' : TrackState) : Prop :=
  (k'.mode = if reason = .disabled then .disabled else .idle)
    ∧ k'.expected = none ∧ k'.timer = none ∧ k'.context = none ∧ k'.axles = .empty ∧ k'.group = [] ∧ k'.nextWagon = 0
    ∧ (∀ q, 1 ≤ q → q ≤ 4 → (k'.platforms.get q).window = none ∧ (k'.platforms.get q).step = none)
    ∧ k'.config = k.config ∧ k'.passageNumber = k.passageNumber ∧ k'.falseApproaches = k.falseApproaches
    ∧ k'.sequence = k.sequence ∧ k'.epoch = k.epoch ∧ k'.calibration = k.calibration
    ∧ (k'.points = if reason = .disabled then pointsCleared else k.points)
    ∧ (p.place = .lost → k'.records = k.records)
    ∧ (p.place = .reserved →
        ∃ (wagons : List Wagon) (f : Passage),
          (∀ w ∈ wagons, w.track = t ∧ w.passage = p.number)
            ∧ f.account =
                { p.account with
                  reason := some reason
                  closeTime := some now
                  axlesLeftOnBridge := satAdd 65535 p.axlesLeftOnBridge k.axles.realOnBridge
                  axlesBackedOut := satAdd 65535 p.axlesBackedOut k.axles.realBackedOut }
            ∧ k'.records =
                { k.records with
                  queue := k.records.queue ++ wagons.map .wagon ++ [.close ⟨t, f, k.records.lostSinceClose⟩]
                  lostSinceClose := 0 })

/-- suspended_total at a moment: the current suspension counted when the operation is SUSPENDED (R143 to R145). -/
def ZeroOperation.totalAt (z : ZeroOperation) (now : Word) : Nat :=
  if z.state = .suspended then z.suspendedTotal + (now - z.suspendStart).toNat else z.suspendedTotal

/-- The shared blocks after a zero operation has ended PREEMPTED with a cause, 0 HOLD_LIMIT or 1 DISABLED: the answer due in the slot of an
ORDER operation, the count and the alert of an AUTOMATIC one (R146, R182). -/
def Shared.afterPreemption (h : Shared) (z : ZeroOperation) (cause : Byte) : Shared :=
  match z.origin with
  | .order slot tag =>
    { h with
      orders := h.orders.pushAnswer
        ⟨slot, tag, .preempted, [cause] ++ le16 z.frames ++ le16 z.restarts ++ le32 (z.totalAt h.time / 1000), .zero⟩ }
  | .automatic =>
    { h with
      notice := h.notice ||| 0x04#6
      counters := { h.counters with autoZeroFailures := satInc 255 h.counters.autoZeroFailures } }

/-- The mean of a closing window's side has left the channel's valid zero offset by more than drift_limit kg (R109). -/
def Channel.DriftsFrom (x : Channel) (limit : Nat) (sum : Int) (count : Nat) : Prop :=
  x.zeroValid = true ∧ limit * 65536 < (roundDiv sum count - x.zeroOffset).natAbs * x.span

/-- What the drift check of a close finds on a track whose windows are open: a platform 1 to P whose window closes empty, long enough and
without marks, with a channel that has drifted; a drift_limit of 0 finds none (R32, R109). -/
def TrackState.Drifts (k : TrackState) (other : Occupancy) (limit : Nat) : Prop :=
  limit ≠ 0 ∧ ∃ q w, 1 ≤ q ∧ q ≤ 4 ∧ q ≤ k.config.platforms ∧ (k.platforms.get q).window = some w
    ∧ (∀ e ∈ k.axles.onBridge, e.platform ≠ q)
    ∧ 0 < w.sampleCount ∧ k.config.minWindowSamples ≤ w.sampleCount
    ∧ w.saturated = false ∧ w.gapped = false
    ∧ w.snapshotOccupied = false ∧ other.occupied = false ∧ other.epoch = w.snapshotEpoch
    ∧ ((k.calibration.get q).left.DriftsFrom limit w.sum.left w.sampleCount
      ∨ (k.calibration.get q).right.DriftsFrom limit w.sum.right w.sampleCount)

/-- What a close does to the zero engine: step 9's return to IDLE resumes a SUSPENDED operation, step 10 starts the automatic zero when
the engine is in NONE, with the model's suspend_start 0 (log 14), and an entry into DISABLED preempts (R143, R145, R147). -/
def Scene.ClosedZero (c : Scene) (reason : CloseReason) (k' : TrackState) (h' : Shared) : Prop :=
  (reason ≠ .disabled →
      h'.orders = c.sh.orders ∧ h'.counters = c.sh.counters
        ∧ (∀ z, c.trk.zero = some z →
            k'.zero
              = some
                  (if z.state = .suspended then
                    { z with state := .accumulating, suspendedTotal := z.totalAt c.sh.time, holdTimer := none }
                  else z))
        ∧ (c.trk.zero = none →
            k'.zero
              = if c.sh.options.autoZero = true ∧ (reason = .normal ∨ reason = .withdrawn) then
                  some
                    ⟨.accumulating, .automatic, c.sh.options.autoZeroCount, 0, ⟨⟨0, 0⟩, ⟨0, 0⟩, ⟨0, 0⟩, ⟨0, 0⟩⟩, 0,
                      c.sh.options.zeroHoldLimit, 0, 0, none, false⟩
                else none))
    ∧ (reason = .disabled →
        k'.zero = none
          ∧ (c.trk.zero = none → h'.orders = c.sh.orders ∧ h'.counters = c.sh.counters)
          ∧ (∀ z, c.trk.zero = some z →
              h'.orders = (c.sh.afterPreemption z 1).orders ∧ h'.counters = (c.sh.afterPreemption z 1).counters
                ∧ (z.origin = .automatic → h'.notice.getLsbD 2 = true)))

/-- What a close does to the capture unit: step 8 ends a recording that this track triggered, one that a wagon of this close started
included (R158, R160). -/
def Scene.ClosedCapture (c : Scene) (h' : Shared) : Prop :=
  (c.sh.capture.state ≠ .armed →
      h'.capture
        = if c.sh.capture.state = .recording ∧ c.sh.capture.triggerTrack = c.id then { c.sh.capture with taking := false }
          else c.sh.capture)
    ∧ (c.sh.capture.state = .armed →
        h'.capture = c.sh.capture
          ∨ ∃ scope passage number,
              h'.capture
                = { c.sh.capture with
                    state := .recording
                    triggerTrack := c.id
                    scope := scope
                    triggerPassage := passage
                    triggerWagon := number
                    written := 0
                    taking := false })

/-- What a close does beside the track (R56, steps 5, 6 and 8 to 10): only ALERT can rise in NOTICE, and it does when a drift is found, which the
close record shows as DRIFT; with no watch unit enabled nothing else raises it but the preemption of an automatic zero. Time base, options and
class table stay. -/
def Scene.ClosedEffects (c : Scene) (p : Passage) (reason : CloseReason) (k' : TrackState) (h' : Shared) : Prop :=
  h'.time = c.sh.time ∧ h'.options = c.sh.options ∧ h'.classes = c.sh.classes
    ∧ (h'.notice = c.sh.notice ∨ h'.notice = c.sh.notice ||| 0x04#6)
    ∧ (c.trk.Drifts c.other c.sh.options.driftLimit → h'.notice.getLsbD 2 = true)
    ∧ ((∀ u ∈ c.sh.watch.toList, u.enabled = false) →
        h'.watch = c.sh.watch
          ∧ (reason ≠ .disabled ∨ c.trk.zero = none → ¬ c.trk.Drifts c.other c.sh.options.driftLimit → h'.notice = c.sh.notice))
    ∧ (p.place = .reserved →
        ∃ earlier x, k'.records.queue = earlier ++ [.close x]
          ∧ (x.passage.flags.drift = true ↔ p.flags.drift = true ∨ c.trk.Drifts c.other c.sh.options.driftLimit))
    ∧ c.ClosedZero reason k' h' ∧ c.ClosedCapture h'

/-! ### Invariants -/

/-- The levels that a state other than FAULTED fixes (R7). -/
def PointState.levels : PointState → Heads Bool
  | .clear => ⟨false, false⟩
  | .lowOn => ⟨true, false⟩
  | .bothUp => ⟨true, true⟩
  | .highTail => ⟨false, true⟩
  | .highOn => ⟨false, true⟩
  | .bothDown => ⟨true, true⟩
  | .lowTail => ⟨true, false⟩
  | .faulted => ⟨false, false⟩

/-- A point's state fixes its levels, and a stuck timer runs exactly while its head is on and the point is not FAULTED
(R7, R8, R12, R13). -/
def Point.Sound (pt : Point) : Prop :=
  (pt.state ≠ .faulted → pt.level = pt.state.levels ∧ ∀ h, (pt.stuck.get h).isSome = pt.level.get h)
    ∧ (pt.state = .faulted → ∀ h, pt.stuck.get h = none)

/-- Every point of both tracks is sound. -/
def State.PointsSound (s : State) : Prop := ∀ t p, ((s.tracks.get t).points.get p).Sound

/-- A zero operation is in progress only on an enabled track, ACCUMULATING exactly in IDLE, its hold timer running exactly while
SUSPENDED (R137, R142, R143). -/
def TrackState.ZeroFits (k : TrackState) : Prop :=
  ∀ z, k.zero = some z →
    k.mode ≠ .disabled ∧ (z.state = .accumulating ↔ k.mode = .idle) ∧ z.holdTimer.isSome = decide (z.state = .suspended)

/-- What R16, R42, R43, R50, R58 and R137 tie to the track state: expected_direction is present exactly in APPROACH, a passage context
exactly in the four passage states, the track timer runs but in DISABLED and IDLE, the bridge is occupied exactly in CROSSING and STANDING,
the zero engine fits, and an enabled track is configured. -/
def TrackState.Coherent (k : TrackState) : Prop :=
  k.config.platforms ≤ 4
    ∧ (k.mode ≠ .disabled → 1 ≤ k.config.platforms)
    ∧ k.expected.isSome = decide (k.mode = .approach)
    ∧ k.context.isSome = k.mode.inPassage
    ∧ k.timer.isSome = !k.mode.atRest
    ∧ k.occupied = decide (k.mode = .crossing ∨ k.mode = .standing)
    ∧ k.ZeroFits

/-- The windows of R27 and R37: a platform has an open window exactly when the track is in APPROACH or in a passage and the platform is
one of its P; a step is pending only on a platform with a window, in a passage, and no last closed statistics stand in DISABLED
(R32, R37, R38). -/
def TrackState.WindowsMatch (k : TrackState) : Prop :=
  ∀ p, 1 ≤ p → p ≤ 4 →
    (k.platforms.get p).window.isSome = (!k.mode.atRest && decide (p ≤ k.config.platforms))
      ∧ ((k.platforms.get p).step.isSome = true → (k.platforms.get p).window.isSome = true ∧ k.mode.inPassage = true)
      ∧ (k.mode = .disabled → (k.platforms.get p).last = none)

/-- Outside a passage the axle table and the group-pending list are empty and next_wagon is 0 (R66, R75, R90, R117). -/
def TrackState.TablesEmpty (k : TrackState) : Prop :=
  k.mode.inPassage = false → k.axles = .empty ∧ k.group = [] ∧ k.nextWagon = 0

/-- Both tracks are coherent with windows that match; in STOPPED both are DISABLED and no access's result counts; in QUIET both are at rest without a
zero operation and no capture records; in HALTED no access is in flight (R63, R183, R184, R186, R187). -/
def State.Coherent (s : State) : Prop :=
  (∀ t, (s.tracks.get t).Coherent ∧ (s.tracks.get t).WindowsMatch)
    ∧ (s.regs.part = .stopped →
        (∀ t, (s.tracks.get t).mode = .disabled) ∧ ∀ a, s.bus.inFlight = some a → a.discarded = true)
    ∧ (s.regs.part = .quiet →
        (∀ t, (s.tracks.get t).mode.atRest = true ∧ (s.tracks.get t).zero = none) ∧ s.shared.capture.state ≠ .recording)
    ∧ (s.regs.part = .halted → s.bus.inFlight = none)

/-- The capacities of a track's collections and counters (R42, R70 to R72, R99, R120, R164). Between steps the group-pending list holds at
most 8 axles: the ninth of R120 is appended and grouped within one step. -/
def TrackState.Bounded (k : TrackState) : Prop :=
  k.axles.onBridge.length ≤ 32
    ∧ k.axles.backedOut.length ≤ 32
    ∧ k.axles.departed.length ≤ 8
    ∧ k.axles.lastSerial ≤ 65535
    ∧ (∀ r ∈ k.axles.records, r.estimates.length ≤ 8)
    ∧ k.group.length ≤ 8
    ∧ k.records.wagons ≤ 24
    ∧ k.records.placesInUse ≤ 2
    ∧ k.falseApproaches ≤ 255
    ∧ k.records.lostPassages ≤ 255
    ∧ k.records.lostSinceClose ≤ 65535

/-- A class entry that R112 allows: 1 to 8 axles. -/
def ClassEntry.Sound (e : ClassEntry) : Prop := 1 ≤ e.n ∧ e.n ≤ 8

/-- The capacities of the shared blocks (R6, R42, R112, R137, R151, R156, R177). -/
def Shared.Bounded (h : Shared) : Prop :=
  h.counters.badFrames ≤ 65535
    ∧ h.counters.edgeErrors ≤ 65535
    ∧ h.counters.pointFaults ≤ 65535
    ∧ h.counters.sequenceErrors ≤ 65535
    ∧ h.counters.autoZeroFailures ≤ 255
    ∧ h.classes.length = 16
    ∧ (∀ e ∈ h.classes, e.Sound)
    ∧ (∀ u ∈ h.watch.toList, u.hitCount ≤ 65535)
    ∧ h.capture.waiting.length ≤ 16
    ∧ h.orders.queue.length + (if h.orders.scan.isSome then 1 else 0) ≤ 8
    ∧ h.orders.scanPosition < 32
    ∧ ∀ x, h.orders.scan = some x → x.slot < 32

/-- Every capacity the spec states is kept. -/
def State.Bounded (s : State) : Prop :=
  (∀ t, (s.tracks.get t).Bounded) ∧ s.shared.Bounded ∧ s.pages.lent.length ≤ 16

/-- The counts of a passage context stay within the largest values of R87, R91, R129 and R130. -/
def Passage.CountsBounded (p : Passage) : Prop :=
  p.axlesCreated ≤ 65535 ∧ p.axlesDeparted ≤ 65535 ∧ p.axlesLeftOnBridge ≤ 65535 ∧ p.axlesBackedOut ≤ 65535
    ∧ p.ghostEntries ≤ 65535 ∧ p.wagonsFormed ≤ 65535 ∧ p.wagonsUnrecorded ≤ 65535 ∧ p.locomotives ≤ 65535
    ∧ p.freightTotal ≤ 4294967295

/-- The saturating counts of a track: those of its open passage and of its close records, the frames of its open windows (R27, R29), the zero
engine's restarts (R137), and the passage number (R42). -/
def TrackState.CountsBounded (k : TrackState) : Prop :=
  (∀ p, k.context = some p → p.CountsBounded)
    ∧ (∀ x, Record.close x ∈ k.records.queue → x.passage.CountsBounded)
    ∧ (∀ q w, (k.platforms.get q).window = some w → w.sampleCount ≤ 4294967295)
    ∧ (∀ z, k.zero = some z → z.restarts ≤ 65535)
    ∧ k.passageNumber ≤ 4294967295

/-- The saturating counts of both tracks. -/
def State.CountsBounded (s : State) : Prop := ∀ t, (s.tracks.get t).CountsBounded

/-- A pending step on this platform names a real axle (R38, R89). -/
def Platform.names (x : Platform) (serial : Nat) : Bool :=
  match x.step with
  | none => false
  | some st => !st.entry.ghost && st.entry.serial == serial

/-- The number of platforms whose pending step names a real axle (R89). -/
def Four.naming (x : Four Platform) (serial : Nat) : Nat := (x.toList.filter fun y => y.names serial).length

/-- The serials of the real axles on the bridge, in the backed-out stack and in the awaiting set (R66). -/
def AxleTable.standing (a : AxleTable) : List Nat :=
  (a.onBridge.filter fun e => !e.ghost).map (·.serial) ++ (a.backedOut.filter fun e => !e.ghost).map (·.serial) ++ a.awaiting

/-- The axle records are those of the real axles on the bridge, in the stack and awaiting, each in one of the three places; pending_steps is the
number of platforms whose step names the axle; no serial is above last_serial (R66, R67, R75, R89). -/
def AxleTable.Records (a : AxleTable) (x : Four Platform) : Prop :=
  a.standing.Nodup
    ∧ (∀ n, n ∈ a.standing ↔ ∃ r ∈ a.records, r.serial = n)
    ∧ (∀ r ∈ a.records, r.serial ≤ a.lastSerial ∧ r.pendingSteps = x.naming r.serial)
    ∧ ∀ n, a.lastSerial < n → x.naming n = 0

/-- The records agree with the places and the steps, and every awaiting axle still has a pending step (R73). -/
def TrackState.AxlesPlaced (k : TrackState) : Prop :=
  k.axles.Records k.platforms ∧ ∀ n ∈ k.axles.awaiting, 0 < k.platforms.naming n

/-- The axles of both tracks are placed. -/
def State.AxlesPlaced (s : State) : Prop := ∀ t, (s.tracks.get t).AxlesPlaced

/-- The addresses of the lent pages and of the current pages (R167). -/
def PageBlock.addresses (b : PageBlock) : List Word :=
  b.lent ++ (b.writers.a.current.map (·.address)).toList ++ (b.writers.b.current.map (·.address)).toList

/-- No address appears twice among the lent page list and the two tracks' current pages (R167). -/
def State.PagesDistinct (s : State) : Prop := s.pages.addresses.Nodup

end Sys2Proof.Machine
end

