-- ==== Sys2Proof/Certificates/Slice0/Obligations.lean ====
section
/-!
DEFINITION. Certificates/Slice0/Obligations.lean: the statements about the WM-2, each a proposition; none is proved here.
What a title calls the model's choice names its row of the assumption log.
-/
open Sys2Proof Sys2Proof.Machine

/-! ### Steps and time -/

/-- For every command i and state s, a step of s with i put in front of its queue is exec of i on s, the queue being the rest
(R5, R178). -/
def Obligations.StepRunsTheFrontCommand : Prop :=
  ∀ (i : Instr) (s : State), step { s with pending := i :: s.pending } = exec i s

/-- On an empty queue a step advances the time base by one microsecond when no timer has run out (R2), and otherwise queues
exactly the expiries that are due, in some order (the model's choice, logs 2 and 3) (R2, R3). -/
def Obligations.IdleStepTicksOrQueuesTheDueExpiries : Prop :=
  ∀ s : State, s.pending = [] →
    (s.dueExpiries = [] → step s = .next { s with shared := { s.shared with time := s.shared.time + 1 } })
      ∧ (s.dueExpiries ≠ [] →
          ∃ l, l.Perm s.dueExpiries
            ∧ step s = .next { s with pending := l, freeCount := s.freeCount + s.dueExpiries.length })

/-- An expiry is due exactly when its timer runs and the time base has advanced by its duration since its start, in a part
state that acts on it: stuck timers in RUNNING and QUIET, all others in RUNNING, the track timer by the track state (R3, R12,
R43, R63, R144, R177; log 21). An expiry command whose timer is stopped, has not run out or is not acted upon in the part
state leaves the state as it is (R3: a stopped timer does not expire; in HALTED no expiry is acted upon; log 1) (R3, R12,
R43, R63, R144, R177, R186). -/
def Obligations.ExpiriesHappenExactlyWhenTheirTimersHaveRunOut : Prop :=
  (∀ (s : State) (i : Instr),
     i ∈ s.dueExpiries ↔
       (∃ t p h, i = .stuckTimerExpiry t p h ∧ (s.regs.part = .running ∨ s.regs.part = .quiet)
           ∧ s.RunOut (((s.tracks.get t).points.get p).stuck.get h))
         ∨ (s.regs.part = .running
             ∧ ((∃ t, i = .approachTimeout t ∧ (s.tracks.get t).mode = .approach ∧ s.RunOut (s.tracks.get t).timer)
               ∨ (∃ t, i = .stallExpiry t ∧ (s.tracks.get t).mode = .crossing ∧ s.RunOut (s.tracks.get t).timer)
               ∨ (∃ t, i = .standingExpiry t ∧ (s.tracks.get t).mode = .standing ∧ s.RunOut (s.tracks.get t).timer)
               ∨ (∃ t, i = .settleExpiry t ∧ (s.tracks.get t).mode = .draining ∧ s.RunOut (s.tracks.get t).timer)
               ∨ (∃ t, i = .withdrawnExpiry t ∧ (s.tracks.get t).mode = .withdrawn ∧ s.RunOut (s.tracks.get t).timer)
               ∨ (∃ t z, i = .holdTimerExpiry t ∧ (s.tracks.get t).zero = some z ∧ s.RunOut z.holdTimer)
               ∨ (i = .scanTimerExpiry ∧ s.RunOut s.shared.orders.scanTimer))))
    ∧ (∀ (s : State) (i : Instr), IsExpiry i → i ∉ s.dueExpiries → exec i s = .next s)

/-- POWER_ON_RESET leaves every block as the reset tables give it: STOPPED, cause POWER, registers 0, time base 0, every
track configuration with its ten parameters 0, the capture unit DISARMED with nothing waiting, every store, table, queue and
list at its power-on value; the queue of commands and the model's own free counter stay (log 15; items without meaning take
the values of log 14) (R2, R18, R42, R104, R112, R137, R151, R156, R170, R177, R181, R187). -/
def Obligations.PowerOnResetLeavesTheResetValues : Prop :=
  (∀ s : State, exec .powerOnReset s = .next { State.reset with freeCount := s.freeCount, pending := s.pending })
    ∧ State.reset.regs = ⟨.stopped, .power, none, false, none, 0, 0, 0⟩
    ∧ State.reset.shared.time = 0 ∧ State.reset.shared.notice = 0 ∧ State.reset.shared.counters = ⟨0, 0, 0, 0, 0⟩
    ∧ State.reset.shared.options = ⟨10, false, 1024, 900, .mark, 200, false⟩
    ∧ State.reset.shared.classes = List.replicate 16 ⟨.off, 1, [], 0, 0, .wagon, 0, 0, 0, false⟩
    ∧ (∀ i, State.reset.shared.watch.get i = ⟨false, none, .grossAbove, 0, 0, .mark, .own, 0⟩)
    ∧ State.reset.shared.capture.state = .disarmed ∧ State.reset.shared.capture.taking = false
    ∧ State.reset.shared.capture.waiting = []
    ∧ State.reset.shared.orders = ⟨31, none, false, [], none, [], [], false, none⟩
    ∧ State.reset.pages = ⟨[], [], ⟨none, 0⟩, ⟨none, 0⟩⟩ ∧ State.reset.bus = ⟨none, .captureWriter⟩
    ∧ (∀ t : Track,
        (State.reset.tracks.get t).config = ⟨0, 0, 0, 0, 0, 0, 0, 0, 0, 0⟩
          ∧ (∀ p, (State.reset.tracks.get t).points.get p = ⟨.clear, ⟨false, false⟩, ⟨0, 0⟩, ⟨none, none⟩⟩)
          ∧ (State.reset.tracks.get t).mode = .disabled ∧ (State.reset.tracks.get t).expected = none
          ∧ (State.reset.tracks.get t).timer = none ∧ (State.reset.tracks.get t).passageNumber = 0
          ∧ (State.reset.tracks.get t).context = none ∧ (State.reset.tracks.get t).falseApproaches = 0
          ∧ (State.reset.tracks.get t).sequence = none ∧ (State.reset.tracks.get t).epoch = 0
          ∧ (∀ p, (State.reset.tracks.get t).platforms.get p = ⟨none, none, none⟩)
          ∧ (State.reset.tracks.get t).axles = ⟨[], [], [], [], [], [], 0, none, false⟩
          ∧ (State.reset.tracks.get t).group = [] ∧ (State.reset.tracks.get t).nextWagon = 0
          ∧ (State.reset.tracks.get t).zero = none
          ∧ (∀ p, (State.reset.tracks.get t).calibration.get p = ⟨⟨65536, 0, false, false⟩, ⟨65536, 0, false, false⟩⟩)
          ∧ (State.reset.tracks.get t).records = ⟨[], 0, 0, 0⟩)

/-- HARD_RESET leaves the power-on values with reset cause HARD; SOFT_RESET keeps ANCHOR, the track configurations, passage
numbers, calibration, class table, watch configurations and, with HOLD ON, the options; either marks an access in flight as
discarded (log 16; items without meaning take the values of log 14) (R18, R42, R104, R112, R151, R175, R179, R187). -/
def Obligations.HardAndSoftResetsKeepWhatTheirRulesKeep : Prop :=
  (∀ s : State,
      exec .hardReset s
        = .next
            { State.reset with
              regs := ⟨.stopped, .hard, none, false, none, 0, 0, 0⟩
              bus := ⟨s.bus.inFlight.map fun a => { a with discarded := true }, .captureWriter⟩
              freeCount := s.freeCount
              pending := s.pending })
    ∧ (∀ (s : State) (v : Word), v.getLsbD 1 = true →
        exec (.softReset v) s
          = .next
              { s with
                regs := ⟨.stopped, .soft, none, false, none, 0, 0, s.regs.anchor⟩
                shared :=
                  { Shared.initial with
                    options := if s.shared.options.hold then s.shared.options else .default
                    classes := s.shared.classes
                    watch := s.shared.watch.mapIdx fun _ u => { u with hitCount := 0 } }
                tracks :=
                  ⟨{ TrackState.initial with
                      config := s.tracks.a.config
                      passageNumber := s.tracks.a.passageNumber
                      calibration := s.tracks.a.calibration },
                    { TrackState.initial with
                      config := s.tracks.b.config
                      passageNumber := s.tracks.b.passageNumber
                      calibration := s.tracks.b.calibration }⟩
                pages := .empty
                bus := ⟨s.bus.inFlight.map fun a => { a with discarded := true }, .captureWriter⟩ })

/-! ### Registers -/

/-- RUN in STOPPED enters RUNNING, clears the start code and requests a scan when ANCHOR is a multiple of 4096, otherwise
sets BAD_ANCHOR; the write sets the notice mask in every case, and in another part state nothing else (R174, R177, R183). -/
def Obligations.RunStartsThePartOrReportsABadAnchor : Prop :=
  ∀ (s : State) (v : Word), v.getLsbD 0 = true → v.getLsbD 1 = false →
    (s.regs.part = .stopped → s.regs.anchor.toNat % 4096 = 0 →
        exec (.run v) s
          = .next
              (State.settle
                { s.withOrders (s.shared.orders.requestScan s.shared.time s.shared.options.scanInterval) with
                  regs := { s.regs with part := .running, badAnchor := false, noticeMask := v.extractLsb' 8 6 } }))
      ∧ (s.regs.part = .stopped → s.regs.anchor.toNat % 4096 ≠ 0 →
          exec (.run v) s = .next { s with regs := { s.regs with badAnchor := true, noticeMask := v.extractLsb' 8 6 } })
      ∧ (s.regs.part ≠ .stopped → exec (.run v) s = .next { s with regs := { s.regs with noticeMask := v.extractLsb' 8 6 } })

/-- A CONTROL write without SOFT_RESET sets the notice mask; ANCHOR takes a write in STOPPED only; a NOTICE write clears the
bits written 1; a write of a read-only register changes nothing. ATTENTION is ignored in STOPPED and HALTED, requests a scan
in RUNNING, and in QUIET wakes the part: RUNNING, wake cause ATTENTION, WAKE raised, both sequence states none, a scan
requested (R23, R174, R177, R181, R183, R185, R186, R182). -/
def Obligations.RegisterWritesTakeEffectByRegister : Prop :=
  (∀ (s : State) (v : Word),
     (v.getLsbD 1 = false → v.getLsbD 0 = false ∨ s.regs.part ≠ .stopped →
         exec (.noticeMaskWrite v) s = .next { s with regs := { s.regs with noticeMask := v.extractLsb' 8 6 } })
       ∧ exec (.anchorWrite v) s
           = .next (if s.regs.part = .stopped then { s with regs := { s.regs with anchor := v } } else s)
       ∧ exec (.noticeClear v) s
           = .next { s with shared := { s.shared with notice := s.shared.notice &&& ~~~(v.extractLsb' 0 6) } }
       ∧ (∀ offset, exec (.readOnlyRegisterWrite offset v) s = .next s))
    ∧ (∀ (s : State) (v : Word),
         (s.regs.part = .stopped ∨ s.regs.part = .halted → exec (.attention v) s = .next s)
           ∧ (s.regs.part = .running →
               exec (.attention v) s
                 = .next (State.settle (s.withOrders (s.shared.orders.requestScan s.shared.time s.shared.options.scanInterval))))
           ∧ (s.regs.part = .quiet →
               exec (.attention v) s
                 = .next
                     (State.settle
                       { s with
                         regs := { s.regs with part := .running, wakeCause := some .attention }
                         shared :=
                           { s.shared with
                             notice := s.shared.notice ||| 0x10#6
                             orders := s.shared.orders.requestScan s.shared.time s.shared.options.scanInterval }
                         tracks := ⟨{ s.tracks.a with sequence := none }, { s.tracks.b with sequence := none }⟩ })))

/-- IDENT, STATUS with its five fields, CONTROL, ANCHOR, ATTENTION, NOTICE and FAULT_ADDRESS read as R174 and the bit layouts
of R182 give (the model's read function, log 23); the IRQ line is asserted exactly while a bit set in NOTICE is set in the
notice mask (R181) (R174, R181, R182). -/
def Obligations.RegistersReadAsTheFormatsGive : Prop :=
  ∀ s : State,
    s.readRegister 0x00#8 = some 0x4C723201#32
      ∧ (∃ w, s.readRegister 0x04#8 = some w
          ∧ (w.toNat % 8 = match s.regs.part with
              | .stopped => 0
              | .running => 1
              | .quiet => 2
              | .halted => 3)
          ∧ (w.toNat / 16 % 4 = match s.regs.resetCause with
              | .power => 1
              | .hard => 2
              | .soft => 3)
          ∧ (w.toNat / 64 % 4 = match s.regs.wakeCause with
              | none => 0
              | some .attention => 1
              | some .detector => 2)
          ∧ (w.toNat / 256 % 16 = if s.regs.badAnchor then 1 else 0)
          ∧ (w.toNat / 65536 % 16 = match s.regs.faultCode with
              | none => 0
              | some .orderUnit => 1
              | some .pageWriterA => 2
              | some .pageWriterB => 3
              | some .captureWriter => 4))
      ∧ (∃ w, s.readRegister 0x08#8 = some w
          ∧ w.getLsbD 0 = decide (s.regs.part ≠ .stopped) ∧ w.getLsbD 1 = false ∧ w.extractLsb' 8 6 = s.regs.noticeMask)
      ∧ s.readRegister 0x0C#8 = some s.regs.anchor
      ∧ s.readRegister 0x10#8 = some 0#32
      ∧ s.readRegister 0x14#8 = some (s.shared.notice.setWidth 32)
      ∧ s.readRegister 0x18#8 = some s.regs.faultAddress
      ∧ (s.irq = true ↔ ∃ i, i < 6 ∧ s.shared.notice.getLsbD i = true ∧ s.regs.noticeMask.getLsbD i = true)

/-- A request starts a scan at the slot after the scan position, or sets the pending mark while one runs; a start leaves a
timer that still runs running (the model's reading, DEDUCED, log 27). A scan reads on with wrap until 32 slots are read or
the count of orders is 8; this count is taken when the next read becomes ready (the model's reading, DEDUCED, unsafe, log 9).
At its end the timer is started with the interval or left stopped for 0, and a pending mark is cleared and starts a new scan,
which ends at once, the timer started again, when 8 orders are queued. SCAN_TIMER_EXPIRY of a timer that has run out, in
RUNNING, stops the timer and requests a scan; nothing else changes but the step's end (R3, R177). -/
def Obligations.ScansStartGoOnAndEndByTheirRule : Prop :=
  (∀ (u : OrderUnit) (now : Word) (interval : Nat),
     (u.scan ≠ none → u.requestScan now interval = { u with pendingScan := true })
       ∧ (u.scan = none → u.queue.length < 8 →
           u.requestScan now interval
             = { u with
                 scan := some ⟨(u.scanPosition + 1) % 32, 31, none⟩
                 ready := u.ready ++ [.scanRead ((u.scanPosition + 1) % 32)] })
       ∧ (u.scan = none → 8 ≤ u.queue.length →
           u.requestScan now interval
             = { u with scanTimer := if interval = 0 then none else some ⟨now, interval * 1000⟩ })
       ∧ (∀ slot left, u.load < 8 → left ≠ 0 →
           u.continueScan now interval slot left
             = { u with scan := some ⟨(slot + 1) % 32, left - 1, none⟩, ready := u.ready ++ [.scanRead ((slot + 1) % 32)] })
       ∧ (∀ slot left, 8 ≤ u.load ∨ left = 0 → u.pendingScan = false →
           u.continueScan now interval slot left
             = { u with scan := none, scanTimer := if interval = 0 then none else some ⟨now, interval * 1000⟩ })
       ∧ (∀ slot left, 8 ≤ u.load ∨ left = 0 → u.pendingScan = true → u.queue.length < 8 →
           u.continueScan now interval slot left
             = { u with
                 pendingScan := false
                 scanTimer := if interval = 0 then none else some ⟨now, interval * 1000⟩
                 scan := some ⟨(u.scanPosition + 1) % 32, 31, none⟩
                 ready := u.ready ++ [.scanRead ((u.scanPosition + 1) % 32)] })
       ∧ (∀ slot left, 8 ≤ u.load ∨ left = 0 → u.pendingScan = true → 8 ≤ u.queue.length →
           u.continueScan now interval slot left
             = { u with
                 pendingScan := false
                 scan := none
                 scanTimer := if interval = 0 then none else some ⟨now, interval * 1000⟩ }))
    ∧ (∀ s : State, s.regs.part = .running → s.RunOut s.shared.orders.scanTimer →
         exec .scanTimerExpiry s
           = .next
               (State.settle
                 (s.withOrders
                   (({ s.shared.orders with scanTimer := none }).requestScan s.shared.time s.shared.options.scanInterval))))

/-! ### The detector link -/

/-- A head edge is ignored in HALTED, counted in bad_frames when its check fails or its code names no point of the track,
dropped for a DISABLED track, and in QUIET wakes the part (RUNNING, wake cause DETECTOR, WAKE raised, both sequence states
none, a scan requested) and is then processed as in RUNNING; a code names no point exactly when it is a boundary code above
BP (R1, R5, R6, R23, R177, R181, R182, R185). -/
def Obligations.HeadEdgeTestsComeInTheirOrder : Prop :=
  (∀ (s : State) (check : Bool) (t : Track) (p : PointCode) (h : Head) (l : Level),
    (s.regs.part = .halted → exec (.headEdgeMessage check t p h l) s = .next s)
      ∧ (s.regs.part ≠ .halted → check = false →
          exec (.headEdgeMessage check t p h l) s = .next { s with shared := s.shared.countBadFrame })
      ∧ (s.regs.part ≠ .halted → check = true → (s.tracks.get t).mode = .disabled →
          exec (.headEdgeMessage check t p h l) s = .next s)
      ∧ (s.regs.part ≠ .halted → check = true → (s.tracks.get t).mode ≠ .disabled →
          pointExists (s.tracks.get t).config.platforms p = false →
          exec (.headEdgeMessage check t p h l) s = .next { s with shared := s.shared.countBadFrame })
      ∧ (s.regs.part = .quiet → check = true → (s.tracks.get t).mode ≠ .disabled →
          pointExists (s.tracks.get t).config.platforms p = true →
          exec (.headEdgeMessage check t p h l) s
            = .next
                (State.settle
                  (State.onTrack
                    { s with
                      regs := { s.regs with part := .running, wakeCause := some .detector }
                      shared :=
                        { s.shared with
                          notice := s.shared.notice ||| 0x10#6
                          orders := s.shared.orders.requestScan s.shared.time s.shared.options.scanInterval }
                      tracks := ⟨{ s.tracks.a with sequence := none }, { s.tracks.b with sequence := none }⟩ }
                    t fun c => c.takeEdge p h l))))
    ∧ (∀ h : Shared, h.countBadFrame
        = { h with counters := { h.counters with badFrames := if h.counters.badFrames < 65535 then h.counters.badFrames + 1 else h.counters.badFrames } })
    ∧ (∀ P p, pointExists P p = false ↔ ∃ k, boundaryIndex p = some k ∧ P < k)
    ∧ [PointCode.B0, .B1, .B2, .B3, .B4].map boundaryIndex = [some 0, some 1, some 2, some 3, some 4]

/-- An edge that reports the level its head has counts edge_errors and nothing else; an edge that completes no pass changes
its own point alone; an edge that completes a pass hands it to the track's passage controller in the same command (R5, R8,
R11, R19). -/
def Obligations.AHeadEdgeReachesItsDecoder : Prop :=
  ∀ (s : State) (t : Track) (p : PointCode) (h : Head) (l : Level), s.EdgeReaches t p →
    let k := s.tracks.get t
    let pt := k.points.get p
    (pt.level.get h = levelOn l →
        exec (.headEdgeMessage true t p h l) s
          = .next
              (State.settle
                { s with shared := { s.shared with
                    counters := { s.shared.counters with edgeErrors := satInc 65535 s.shared.counters.edgeErrors } } }))
      ∧ (pt.level.get h ≠ levelOn l → pt.state = .faulted ∨ (pointNext pt.state h l).2 = none →
          exec (.headEdgeMessage true t p h l) s
            = .next
                (State.settle
                  (s.withTrack t
                    { k with points := k.points.set p (pt.edge s.shared.time (k.config.headStuckTime * 1000000) h l).1 })))
      ∧ (∀ d, pt.level.get h ≠ levelOn l → pt.state ≠ .faulted → (pointNext pt.state h l).2 = some d →
          ∃ q x, k.decodeEdge s.shared.time p h l = .changed q (some x) ∧ x.point = p ∧ x.direction = d
            ∧ exec (.headEdgeMessage true t p h l) s
                = .next (State.settle ((s.withTrack t { k with points := k.points.set p q }).onTrack t fun c => c.takePass x)))

/-- A level-changing edge updates level, on-time and stuck timer as R8 gives, then the state by the fourteen cells of R9, or
in FAULTED by R13: back to CLEAR when an off-edge leaves both levels off, and never a pass (R7, R8, R9, R13). -/
def Obligations.APointTakesAnEdgeByItsTables : Prop :=
  (∀ (pt : Point) (now : Word) (stuckTime : Nat) (h : Head) (l : Level), pt.level.get h ≠ levelOn l →
    let q := (pt.edge now stuckTime h l).1
    q.level = pt.level.set h (levelOn l)
      ∧ (l = .on → q.onTime = pt.onTime.set h now)
      ∧ (l = .off → q.onTime = pt.onTime)
      ∧ (l = .on → pt.state ≠ .faulted → q.stuck = pt.stuck.set h (some ⟨now, stuckTime⟩))
      ∧ (l = .on → pt.state = .faulted → q.stuck = pt.stuck)
      ∧ (l = .off → q.stuck = pt.stuck.set h none)
      ∧ (pt.state ≠ .faulted → (q.state, (pt.edge now stuckTime h l).2) = pointNext pt.state h l)
      ∧ (pt.state = .faulted →
          (pt.edge now stuckTime h l).2 = none
            ∧ q.state = if l = .off ∧ q.level.one = false ∧ q.level.two = false then .clear else .faulted))
    ∧ pointNext .clear .head1 .on = (.lowOn, none) ∧ pointNext .clear .head2 .on = (.highOn, none)
    ∧ pointNext .lowOn .head1 .off = (.clear, none) ∧ pointNext .lowOn .head2 .on = (.bothUp, none)
    ∧ pointNext .bothUp .head1 .off = (.highTail, none) ∧ pointNext .bothUp .head2 .off = (.lowOn, none)
    ∧ pointNext .highTail .head1 .on = (.bothUp, none) ∧ pointNext .highTail .head2 .off = (.clear, some .up)
    ∧ pointNext .highOn .head1 .on = (.bothDown, none) ∧ pointNext .highOn .head2 .off = (.clear, none)
    ∧ pointNext .bothDown .head1 .off = (.highOn, none) ∧ pointNext .bothDown .head2 .off = (.lowTail, none)
    ∧ pointNext .lowTail .head1 .off = (.clear, some .down) ∧ pointNext .lowTail .head2 .on = (.bothDown, none)

/-- A pass completed at a point has direction UP for the cell HIGH_TAIL, head 2 off, and DOWN for LOW_TAIL, head 1 off; its
time is the on-time of the second head reached; its speed is head_spacing x 36000 / interval rounded down when the interval
is from 1 to 2^31 - 1 and the result at most 1500, and absent otherwise; it is formed from the latest on-times (R10). -/
def Obligations.APassIsFormedFromTheLatestOnTimes : Prop :=
  (∀ (k : TrackState) (now : Word) (p : PointCode) (h : Head) (l : Level) (q : Point) (x : Pass),
    k.decodeEdge now p h l = .changed q (some x) →
    x.point = p
      ∧ ((x.direction = .up ∧ (k.points.get p).state = .highTail ∧ h = .head2 ∧ l = .off)
        ∨ (x.direction = .down ∧ (k.points.get p).state = .lowTail ∧ h = .head1 ∧ l = .off))
      ∧ q.state = .clear
      ∧ (x.direction = .up → x.time = q.onTime.two)
      ∧ (x.direction = .down → x.time = q.onTime.one)
      ∧ (∀ interval, interval = (if x.direction = .up then q.onTime.two - q.onTime.one else q.onTime.one - q.onTime.two).toNat →
          (1 ≤ interval → interval ≤ 2147483647 → k.config.headSpacing * 36000 / interval ≤ 1500 →
              x.speed = some (k.config.headSpacing * 36000 / interval))
            ∧ (interval = 0 → x.speed = none)
            ∧ (2147483648 ≤ interval → x.speed = none)
            ∧ (1500 < k.config.headSpacing * 36000 / interval → x.speed = none)))
    ∧ (∀ (k : TrackState) (now : Word) (p : PointCode),
        ((k.points.get p).state = .highTail → (k.points.get p).level.two = true →
            ∃ q x, k.decodeEdge now p .head2 .off = .changed q (some x) ∧ x.direction = .up)
          ∧ ((k.points.get p).state = .lowTail → (k.points.get p).level.one = true →
            ∃ q x, k.decodeEdge now p .head1 .off = .changed q (some x) ∧ x.direction = .down))

/-- STUCK_TIMER_EXPIRY of a timer that has run out, in RUNNING or QUIET, puts the point in FAULTED with both stuck timers
stopped, counts point_faults, raises ALERT and sets POINT_FAULT on an open passage; nothing else changes (R12, R6, R181,
R182). -/
def Obligations.AStuckHeadFaultsItsPoint : Prop :=
  ∀ (s : State) (t : Track) (p : PointCode) (h : Head),
    s.regs.part = .running ∨ s.regs.part = .quiet →
    s.RunOut (((s.tracks.get t).points.get p).stuck.get h) →
    let k := s.tracks.get t
    exec (.stuckTimerExpiry t p h) s
      = .next
          ({ s.withTrack t
              { k with
                points := k.points.set p { k.points.get p with state := .faulted, stuck := ⟨none, none⟩ }
                context := k.context.map fun x => { x with flags := { x.flags with pointFault := true } } } with
            shared :=
              { s.shared with
                notice := s.shared.notice ||| 0x04#6
                counters := { s.shared.counters with pointFaults := satInc 65535 s.shared.counters.pointFaults } } })

/-! ### The sample link -/

/-- A frame is ignored in HALTED, discarded uncounted in QUIET, and discarded and counted in bad_frames, which saturates at
65535, when its link check fails (a channel count outside 1 to 8 fails it, R21), its track is DISABLED or its channel count
is not 2P; a discarded or ignored frame changes nothing else; any other frame is accepted and taken by R23 and R24 (R22). -/
def Obligations.FrameTestsComeInTheirOrder : Prop :=
  ∀ (s : State) (check : Bool) (t : Track) (sequence : Byte) (channels : List ChannelEntry),
    let counted := { s with shared := { s.shared with
      counters := { s.shared.counters with
        badFrames := if s.shared.counters.badFrames < 65535 then s.shared.counters.badFrames + 1 else s.shared.counters.badFrames } } }
    (s.regs.part = .halted → exec (.sampleFrame check t sequence channels) s = .next s)
      ∧ (s.regs.part = .quiet → exec (.sampleFrame check t sequence channels) s = .next s)
      ∧ (s.regs.part ≠ .halted → s.regs.part ≠ .quiet →
          check = false ∨ channels.length = 0 ∨ 8 < channels.length →
          exec (.sampleFrame check t sequence channels) s = .next counted)
      ∧ (s.regs.part ≠ .halted → s.regs.part ≠ .quiet → (s.tracks.get t).mode = .disabled →
          exec (.sampleFrame check t sequence channels) s = .next counted)
      ∧ (s.regs.part ≠ .halted → s.regs.part ≠ .quiet → channels.length ≠ 2 * (s.tracks.get t).config.platforms →
          exec (.sampleFrame check t sequence channels) s = .next counted)
      ∧ (s.regs.part ≠ .halted → s.regs.part ≠ .quiet → check = true → 1 ≤ channels.length → channels.length ≤ 8 →
          (s.tracks.get t).mode ≠ .disabled → channels.length = 2 * (s.tracks.get t).config.platforms →
          exec (.sampleFrame check t sequence channels) s
            = .next (State.settle (s.onTrack t fun c => c.acceptFrame sequence channels)))

/-- An accepted frame sets the sequence state and adds each open window's two channel values, count and overrange mark; a gap
marks every open window GAPPED first; a full window adds nothing. In every state of the zero engine and the capture unit, the
engine is told of a gap first and then takes the frame (zeroGap and zeroFrame, whose effects O17 states), and the capture
unit takes it with its arrival stamp (takeFrame, whose effects O32 states); nothing else changes but the step's end (frame:
all other state of both tracks), and with the engine in NONE and taking clear neither changes. A gap found against a frame
from before a suspension marks the windows and does not restart the engine: zeroGap leaves such an operation as it is (the
model's reading of R140, DEDUCED, log 30) (R21, R22, R23, R24, R29, R139, R140, R159). -/
def Obligations.AnAcceptedFrameGoesToItsTracksWindows : Prop :=
  ∀ (s : State) (t : Track) (sequence : Byte) (channels : List ChannelEntry), s.FrameAccepted t channels →
    let k := s.tracks.get t
    let gap := match k.sequence with
      | none => false
      | some n => decide (sequence ≠ n + 1)
    let zeroed := (if gap then (s.scene t).zeroGap else s.scene t).zeroFrame channels
    ∃ windows : Four Platform,
      exec (.sampleFrame true t sequence channels) s
          = .next
              (State.settle
                { s.withTrack t { zeroed.trk with sequence := some sequence, platforms := windows } with
                  shared :=
                    { zeroed.sh with capture := s.shared.capture.takeFrame s.shared.time t sequence channels } })
        ∧ (k.zero = none → s.shared.capture.taking = false →
            exec (.sampleFrame true t sequence channels) s
              = .next (State.settle (s.withTrack t { k with sequence := some sequence, platforms := windows })))
        ∧ ∀ p, 1 ≤ p → p ≤ 4 →
            (windows.get p).last = (k.platforms.get p).last ∧ (windows.get p).step = (k.platforms.get p).step
              ∧ ((k.platforms.get p).window = none → (windows.get p).window = none)
              ∧ (∀ w, (k.platforms.get p).window = some w → w.sampleCount < 4294967295 →
                  (windows.get p).window
                    = some
                        { w with
                          sum :=
                            ⟨w.sum.left + (channels.getD (2 * p - 2) ⟨0, false⟩).value.toInt,
                              w.sum.right + (channels.getD (2 * p - 1) ⟨0, false⟩).value.toInt⟩
                          sampleCount := w.sampleCount + 1
                          saturated := w.saturated || (channels.getD (2 * p - 2) ⟨0, false⟩).overrange
                            || (channels.getD (2 * p - 1) ⟨0, false⟩).overrange
                          gapped := w.gapped || gap })
              ∧ (∀ w, (k.platforms.get p).window = some w → 4294967295 ≤ w.sampleCount →
                  (windows.get p).window = some { w with gapped := w.gapped || gap })

/-- SUSPENDED adds no frame and ignores gaps, but notes that a frame has come since it was entered; ACCUMULATING restarts at
a gap, unless the gap is found against the last frame before a suspension, with which the first frame after the resumption is
never compared (startsRun is the model's mark of that, DEDUCED, log 30), adds a clean frame, completes at the target with the
rounded means as zero offsets of the channels 1 to 2P and no other, and fails at the lowest-numbered overrange channel. A
completion of an ORDER operation makes its answer due: DONE with the eight zero offsets, those above 2P as 0, frames,
restarts and suspended_ms (in the byte widths that log 24 derives from R182: DEDUCED, unsafe); of an AUTOMATIC one nothing is
handed on (R139, R140, R141, R146, R182). -/
def Obligations.TheZeroEngineTakesFramesAndGaps : Prop :=
  ∀ (c : Scene) (z : ZeroOperation) (channels : List ChannelEntry), c.trk.zero = some z →
    (z.state = .suspended →
        c.zeroFrame channels = { c with trk := { c.trk with zero := some { z with startsRun := false } } } ∧ c.zeroGap = c)
      ∧ (z.state = .accumulating →
          (z.startsRun = true → c.zeroGap = c)
            ∧ (z.startsRun = false →
                c.zeroGap
                  = { c with trk := { c.trk with
                    zero := some
                      { z with sums := ⟨⟨0, 0⟩, ⟨0, 0⟩, ⟨0, 0⟩, ⟨0, 0⟩⟩, frames := 0, restarts := satInc 65535 z.restarts } } })
            ∧ ((∀ i, i < 2 * c.trk.config.platforms → (channels.getD i ⟨0, false⟩).overrange = false) →
                z.frames + 1 ≠ z.target →
                ∃ sums, c.zeroFrame channels = { c with trk := { c.trk with
                    zero := some { z with sums := sums, frames := z.frames + 1, startsRun := false } } }
                  ∧ ∀ p, 1 ≤ p → p ≤ 4 → p ≤ c.trk.config.platforms →
                      (sums.get p).left = (z.sums.get p).left + (channels.getD (2 * p - 2) ⟨0, false⟩).value.toInt
                        ∧ (sums.get p).right = (z.sums.get p).right + (channels.getD (2 * p - 1) ⟨0, false⟩).value.toInt)
            ∧ ((∀ i, i < 2 * c.trk.config.platforms → (channels.getD i ⟨0, false⟩).overrange = false) →
                z.frames + 1 = z.target → ∀ p, 1 ≤ p → p ≤ 4 →
                (c.zeroFrame channels).trk.zero = none
                  ∧ (z.origin = .automatic → (c.zeroFrame channels).sh = c.sh)
                  ∧ (∀ slot tag, z.origin = .order slot tag →
                      (c.zeroFrame channels).sh
                        = { c.sh with
                            orders := c.sh.orders.pushAnswer
                              ⟨slot, tag, .done,
                                ((List.range 8).map fun i =>
                                    le32i
                                      (if i < 2 * c.trk.config.platforms then
                                        (channelGet (c.zeroFrame channels).trk.calibration (i + 1)).zeroOffset
                                      else 0)).flatten
                                  ++ le16 z.target ++ le16 z.restarts ++ le32 (z.suspendedTotal / 1000),
                                .zero⟩ })
                  ∧ (p ≤ c.trk.config.platforms →
                      ((c.zeroFrame channels).trk.calibration.get p).left
                          = { (c.trk.calibration.get p).left with
                              zeroOffset :=
                                roundDiv ((z.sums.get p).left + (channels.getD (2 * p - 2) ⟨0, false⟩).value.toInt) z.target
                              zeroValid := true }
                        ∧ ((c.zeroFrame channels).trk.calibration.get p).right
                          = { (c.trk.calibration.get p).right with
                              zeroOffset :=
                                roundDiv ((z.sums.get p).right + (channels.getD (2 * p - 1) ⟨0, false⟩).value.toInt) z.target
                              zeroValid := true })
                  ∧ (c.trk.config.platforms < p →
                      (c.zeroFrame channels).trk.calibration.get p = c.trk.calibration.get p))
            ∧ (∀ i, i < 2 * c.trk.config.platforms → (channels.getD i ⟨0, false⟩).overrange = true →
                (∀ j, j < i → (channels.getD j ⟨0, false⟩).overrange = false) →
                c.zeroFrame channels = c.endZero z (.failed (i + 1))))

/-- roundDiv x d is a whole number nearest to x / d, and where two are equally near it is the one farther from zero. A side's
estimate is the signed difference of the means times the span over 65536, rounded and clamped to 32 bits. The zero offset
replaces a side of a short, empty before-window where zero_valid is set. An estimate is valid exactly when the five tests of
R96 pass on the windows used and both sides have means. A closing window hands its pending step to the estimator: a ghost's
step, or one whose axle record is gone, is dropped; otherwise the axle's record gets the valid estimate if it holds fewer
than 8, SPEED for a speed absent or out of range, CROSSTALK for a valid estimate through a marked window, and one pending
step fewer. A finalized axle's load is the rounded mean of its estimates in 10 kg units, 0 with LOW when negative, at most
65535, absent with NO_ESTIMATE for an empty list; it carries the record's serial, lead_spacing, entry speed and flags SPEED,
CROSSTALK, NO_LEAD and REENTERED as they stand (R32, R39, R41, R94, R95, R96, R97, R98, R99, R100, R102, R103). -/
def Obligations.EstimatesAndLoadsAreRoundedDifferences : Prop :=
  (∀ (x : Int) (d : Nat), 0 < d →
     2 * (roundDiv x d * d - x).natAbs ≤ d
       ∧ (2 * (roundDiv x d * d - x).natAbs = d → x.natAbs < (roundDiv x d * d).natAbs))
    ∧ ((∀ (b a : Int) (span : Nat),
           sideEstimate .entry (some b) (some a) span
               = some (max (-2147483648) (min 2147483647 (roundDiv ((a - b) * span) 65536)))
             ∧ sideEstimate .exit (some b) (some a) span
               = some (max (-2147483648) (min 2147483647 (roundDiv ((b - a) * span) 65536))))
         ∧ (∀ (g : Sign) (x : Option Int) (span : Nat), sideEstimate g none x span = none ∧ sideEstimate g x none span = none)
         ∧ (∀ (x : WindowStats) (mean : Option Int) (ch : Channel) (least : Nat),
             (x.sampleCount < least → x.empty = true → ch.zeroValid = true →
                 beforeSide x mean ch least = ⟨some ch.zeroOffset, true, false, false, false⟩)
               ∧ (least ≤ x.sampleCount ∨ x.empty = false ∨ ch.zeroValid = false →
                 beforeSide x mean ch least = ⟨mean, decide (least ≤ x.sampleCount), x.saturated, x.gapped, x.crosstalk⟩))
         ∧ (∀ (cfg : TrackConfig) (policy : CrosstalkPolicy) (ch : Rails Channel) (st : PendingStep) (after : WindowStats),
             let l := beforeSide st.before st.before.mean.left ch.left cfg.minWindowSamples
             let r := beforeSide st.before st.before.mean.right ch.right cfg.minWindowSamples
             let crosstalk := l.crosstalk = true ∨ r.crosstalk = true ∨ after.crosstalk = true
             ((stepEstimate cfg policy ch st after).2 = true ↔ crosstalk)
               ∧ ∀ e, (stepEstimate cfg policy ch st after).1 = some e ↔
                   (∃ v, st.speed = some v ∧ cfg.minSpeed ≤ v ∧ v ≤ cfg.maxSpeed)
                     ∧ l.long = true ∧ r.long = true ∧ cfg.minWindowSamples ≤ after.sampleCount
                     ∧ l.saturated = false ∧ r.saturated = false ∧ after.saturated = false
                     ∧ l.gapped = false ∧ r.gapped = false ∧ after.gapped = false
                     ∧ (policy = .mark ∨ ¬ crosstalk)
                     ∧ sideEstimate st.sign l.mean after.mean.left ch.left.span = some e.left
                     ∧ sideEstimate st.sign r.mean after.mean.right ch.right.span = some e.right)
         ∧ (∀ (r : AxleRecord) (cfg : TrackConfig) (speed : Option Nat) (e : Option (Rails Int)) (crosstalk : Bool),
             let q := r.takeEstimate cfg speed (e, crosstalk)
             q = { r with
                   estimates := q.estimates
                   flags := { r.flags with speed := q.flags.speed, crosstalk := q.flags.crosstalk }
                   pendingSteps := r.pendingSteps - 1 }
               ∧ (∀ v, e = some v → r.estimates.length < 8 → q.estimates = r.estimates ++ [v])
               ∧ (e = none ∨ 8 ≤ r.estimates.length → q.estimates = r.estimates)
               ∧ (q.flags.speed = true ↔ r.flags.speed = true ∨ ∀ v, speed = some v → v < cfg.minSpeed ∨ cfg.maxSpeed < v)
               ∧ (q.flags.crosstalk = true ↔ r.flags.crosstalk = true ∨ (e ≠ none ∧ crosstalk = true)))
         ∧ (∀ (c : Scene) (p : Nat) (st : PendingStep) (after : WindowStats),
             (st.entry.ghost = true → c.takeStep p st after = c)
               ∧ (st.entry.ghost = false →
                   c.takeStep p st after
                     = { c with
                         trk :=
                           { c.trk with
                             axles :=
                               { c.trk.axles with
                                 records :=
                                   c.trk.axles.records.map fun r =>
                                     if r.serial = st.entry.serial then
                                       r.takeEstimate c.trk.config st.speed
                                         (stepEstimate c.trk.config c.sh.options.crosstalkPolicy (c.trk.calibration.get p) st after)
                                     else r } } })
               ∧ ((∀ r ∈ c.trk.axles.records, r.serial ≠ st.entry.serial) → c.takeStep p st after = c))
         ∧ (∀ (c : Scene) (p : Nat) (w : Window) (x : WindowStats), 1 ≤ p → p ≤ 4 → (c.trk.platforms.get p).window = some w →
             (c.closeWindow p).trk.platforms.get p = ⟨none, some x, none⟩ →
             ((c.trk.platforms.get p).step = none → (c.closeWindow p).trk.axles = c.trk.axles)
               ∧ ∀ st, (c.trk.platforms.get p).step = some st → (c.closeWindow p).trk.axles = (c.takeStep p st x).trk.axles)
         ∧ (∀ (r : AxleRecord),
             r.finalize.serial = r.serial ∧ r.finalize.leadSpacing = r.leadSpacing ∧ r.finalize.speed = r.entrySpeed
               ∧ r.finalize.estimateCount = r.estimates.length
               ∧ r.finalize.flags.speed = r.flags.speed ∧ r.finalize.flags.crosstalk = r.flags.crosstalk
               ∧ r.finalize.flags.noLead = r.flags.noLead ∧ r.finalize.flags.reentered = r.flags.reentered
               ∧ (r.estimates = [] → r.finalize.load = none ∧ r.finalize.flags.noEstimate = true ∧ r.finalize.flags.low = false)
               ∧ (r.estimates ≠ [] →
                   r.finalize.load = some
                       ⟨min 65535 (roundDiv (r.estimates.map (·.left)).sum (10 * r.estimates.length)).toNat,
                         min 65535 (roundDiv (r.estimates.map (·.right)).sum (10 * r.estimates.length)).toNat⟩
                     ∧ r.finalize.flags.noEstimate = false
                     ∧ (r.finalize.flags.low = true ↔
                         roundDiv (r.estimates.map (·.left)).sum (10 * r.estimates.length) < 0
                           ∨ roundDiv (r.estimates.map (·.right)).sum (10 * r.estimates.length) < 0))))

/-! ### Passages -/

/-- APPROACH_TIMEOUT, the track timer having run out in APPROACH, returns the track to IDLE: expected_direction absent,
false_approaches incremented (saturating at 255, R42), windows discarded without statistics or flags, the zero engine told of
the return to IDLE (R143), passage_number, records and everything else unchanged (R46). -/
def Obligations.ApproachExpiryReturnsTheTrackToIdle : Prop :=
  ∀ (s : State) (t : Track),
    s.regs.part = .running → (s.tracks.get t).mode = .approach → s.RunOut (s.tracks.get t).timer →
    let k := s.tracks.get t
    exec (.approachTimeout t) s
      = .next
          (s.withTrack t
            { k with
              mode := .idle
              expected := none
              timer := none
              falseApproaches := if k.falseApproaches < 255 then k.falseApproaches + 1 else k.falseApproaches
              platforms :=
                ⟨{ k.platforms.first with window := none }, { k.platforms.second with window := none },
                  { k.platforms.third with window := none }, { k.platforms.fourth with window := none }⟩
              zero :=
                match k.zero with
                | none => none
                | some z =>
                  if z.state = .suspended then
                    some
                      { z with
                        state := .accumulating
                        suspendedTotal := z.suspendedTotal + (s.shared.time - z.suspendStart).toNat
                        holdTimer := none }
                  else some z })

/-- STALL_EXPIRY, the track timer having run out in CROSSING, enters STANDING and starts the track timer with standing_limit;
windows, pending steps, axle table, zero engine and everything else stay. STANDING_EXPIRY, SETTLE_EXPIRY and
WITHDRAWN_EXPIRY, the track timer having run out in their state, close the passage with reason STANDING, NORMAL or WITHDRAWN
by the close procedure (closePassage, whose steps O39 states): the track and its records as a close leaves them; DRIFT set
exactly when, and ALERT raised when, the drift check of the windows it closes finds a drift, the capture unit's recording by
this track ended, a suspended zero operation resumed and the automatic zero started where R147 says so (its suspend_start
before a first suspension is the model's 0, log 14); the other track, registers, pages, order unit, options and class table
unchanged (R51, R52, R53, R54, R55, R56, R57, R58, R109, R143, R147, R160). -/
def Obligations.TheTrackTimersExpiriesInAPassage : Prop :=
  (∀ (s : State) (t : Track),
     s.regs.part = .running → (s.tracks.get t).mode = .crossing → s.RunOut (s.tracks.get t).timer →
     exec (.stallExpiry t) s
       = .next
           (s.withTrack t
             { s.tracks.get t with
               mode := .standing
               timer := some ⟨s.shared.time, (s.tracks.get t).config.standingLimit * 1000000⟩ }))
    ∧ (∀ (s : State) (t : Track) (p : Passage), s.Coherent → (∀ e ∈ s.shared.classes, e.Sound) →
         s.regs.part = .running → (s.tracks.get t).context = some p → s.RunOut (s.tracks.get t).timer →
         ∀ (i : Instr) (reason : CloseReason),
           ((i = .standingExpiry t ∧ reason = .standing ∧ (s.tracks.get t).mode = .standing)
             ∨ (i = .settleExpiry t ∧ reason = .normal ∧ (s.tracks.get t).mode = .draining)
             ∨ (i = .withdrawnExpiry t ∧ reason = .withdrawn ∧ (s.tracks.get t).mode = .withdrawn)) →
           let u := s.onTrack t fun c => c.closePassage reason
           exec i s = .next (State.settle u)
             ∧ (s.tracks.get t).ClosedTo t p reason s.shared.time (u.tracks.get t)
             ∧ (s.scene t).ClosedEffects p reason (u.tracks.get t) u.shared
             ∧ u.tracks.get t.other = s.tracks.get t.other
             ∧ u.regs = s.regs ∧ u.pages = s.pages ∧ u.bus = s.bus ∧ u.pending = s.pending ∧ u.freeCount = s.freeCount
             ∧ u.shared.time = s.shared.time ∧ u.shared.options = s.shared.options ∧ u.shared.classes = s.shared.classes
             ∧ u.shared.orders = s.shared.orders)

/-- In IDLE an inward pass at LA or HA enters APPROACH with the track's windows opened and the timer started, the zero engine
being told; an outward one, any approach-point pass in APPROACH and in a passage changes nothing; in IDLE and APPROACH a
boundary pass that opens no passage counts a sequence error and nothing else (R28, R45, R47, R50). -/
def Obligations.PassesOutsideAPassage : Prop :=
  ∀ (c : Scene) (x : Pass),
    (c.trk.mode = .idle → (x.point = .LA ∧ x.direction = .up) ∨ (x.point = .HA ∧ x.direction = .down) →
        ∃ windows : Four Platform,
          c.takePass x
              = Scene.zeroLeavesIdle
                  { c with
                    trk :=
                      { c.trk with
                        mode := .approach
                        expected := some x.direction
                        timer := some ⟨c.sh.time, c.trk.config.approachTimeout * 1000000⟩
                        platforms := windows } }
            ∧ ∀ p, 1 ≤ p → p ≤ 4 →
                windows.get p
                  = if p ≤ c.trk.config.platforms then
                      { c.trk.platforms.get p with window := some ⟨⟨0, 0⟩, 0, false, false, c.other.occupied, c.other.epoch⟩ }
                    else c.trk.platforms.get p)
      ∧ (c.trk.mode = .idle → (x.point = .LA ∧ x.direction = .down) ∨ (x.point = .HA ∧ x.direction = .up) → c.takePass x = c)
      ∧ (c.trk.mode = .approach → x.point = .LA ∨ x.point = .HA → c.takePass x = c)
      ∧ (c.trk.mode.inPassage = true → x.point = .LA ∨ x.point = .HA → c.takePass x = c)
      ∧ (∀ k, c.trk.mode = .idle ∨ c.trk.mode = .approach → boundaryIndex x.point = some k →
          ¬ ((x.direction = .up ∧ k = 0) ∨ (x.direction = .down ∧ k = c.trk.config.platforms)) →
          c.takePass x
            = { c with
              sh := { c.sh with counters :=
                { c.sh.counters with sequenceErrors := satInc 65535 c.sh.counters.sequenceErrors } } })

/-- An ACCUMULATING operation is SUSPENDED, the hold timer running for what is left of hold_limit, or PREEMPTED at once when
nothing is left; NONE and SUSPENDED stay. The entry marks that no frame has come since (startsRun, log 30). An end leaves the
engine in NONE; an ORDER operation's answer becomes due in its slot with the end as its code and the fields of R146; an
AUTOMATIC one reports nothing when DONE and otherwise counts auto_zero_failures, saturating at 255, and raises ALERT. An
entry into DISABLED ends an operation PREEMPTED with cause DISABLED, the time of a current suspension counted, and does
nothing in NONE. The byte widths of the fields and the cause codes 0 and 1 are the model's deduction from R182 (log 24,
unsafe). HOLD_TIMER_EXPIRY of a timer that has run out, in RUNNING, ends the operation PREEMPTED with cause HOLD_LIMIT: the
engine is in NONE, an ORDER operation's answer with frames, restarts and suspended_ms is due, an AUTOMATIC one is counted and
raises ALERT; nothing else changes but the step's end (R137, R142, R144, R145, R146, R181, R182). -/
def Obligations.ZeroOperationsSuspendEndAndReport : Prop :=
  (∀ c : Scene,
     (c.trk.zero = none → c.zeroLeavesIdle = c)
       ∧ (∀ z, c.trk.zero = some z → z.state = .suspended → c.zeroLeavesIdle = c)
       ∧ (∀ z, c.trk.zero = some z → z.state = .accumulating → z.suspendedTotal < z.holdLimit * 1000000 →
           c.zeroLeavesIdle
             = { c with trk := { c.trk with
               zero := some
                 { z with
                   state := .suspended
                   suspendStart := c.sh.time
                   startsRun := true
                   holdTimer := some ⟨c.sh.time, z.holdLimit * 1000000 - z.suspendedTotal⟩ } } })
       ∧ (∀ z, c.trk.zero = some z → z.state = .accumulating → z.holdLimit * 1000000 ≤ z.suspendedTotal →
           c.zeroLeavesIdle = c.endZero { z with state := .suspended, suspendStart := c.sh.time, startsRun := true } (.preempted .holdLimit)))
    ∧ ((∀ (c : Scene) (z : ZeroOperation) (e : ZeroEnd) (slot : Nat) (tag : BitVec 16), z.origin = .order slot tag →
           c.endZero z e
             = { c with
                 trk := { c.trk with zero := none }
                 sh := { c.sh with
                   orders := c.sh.orders.pushAnswer
                     ⟨slot, tag, (z.answer c.trk.config.platforms e).1, (z.answer c.trk.config.platforms e).2, .zero⟩ } })
         ∧ (∀ (c : Scene) (z : ZeroOperation) (means : Four (Rails Int)), z.origin = .automatic →
             c.endZero z (.done means) = { c with trk := { c.trk with zero := none } })
         ∧ (∀ (c : Scene) (z : ZeroOperation) (e : ZeroEnd), z.origin = .automatic → (∀ means, e ≠ .done means) →
             c.endZero z e
               = { c with
                   trk := { c.trk with zero := none }
                   sh :=
                     { c.sh with
                       notice := c.sh.notice ||| 0x04#6
                       counters := { c.sh.counters with autoZeroFailures := satInc 255 c.sh.counters.autoZeroFailures } } })
         ∧ (∀ (z : ZeroOperation) (P : Nat) (means : Four (Rails Int)) (channel : Nat),
             z.answer P (.done means)
                 = (.done,
                     ((List.range 8).map fun i =>
                         le32i
                           (if i < 2 * P then (if i % 2 = 0 then (means.get (i / 2 + 1)).left else (means.get (i / 2 + 1)).right)
                           else 0)).flatten
                       ++ le16 z.target ++ le16 z.restarts ++ le32 (z.suspendedTotal / 1000))
               ∧ z.answer P (.failed channel)
                 = (.failed, [BitVec.ofNat 8 channel] ++ le16 z.frames ++ le16 z.restarts ++ le32 (z.suspendedTotal / 1000))
               ∧ z.answer P (.preempted .holdLimit)
                 = (.preempted, [0] ++ le16 z.frames ++ le16 z.restarts ++ le32 (z.suspendedTotal / 1000))
               ∧ z.answer P (.preempted .disabled)
                 = (.preempted, [1] ++ le16 z.frames ++ le16 z.restarts ++ le32 (z.suspendedTotal / 1000)))
         ∧ (∀ c : Scene,
             (c.trk.zero = none → c.zeroDisabled = c)
               ∧ ∀ z, c.trk.zero = some z →
                   c.zeroDisabled
                     = { c with
                         trk := { c.trk with zero := none }
                         sh := c.sh.afterPreemption z 1 })
         ∧ (∀ (h : Shared) (z : ZeroOperation) (cause : Byte),
             let total :=
               if z.state = .suspended then z.suspendedTotal + (h.time - z.suspendStart).toNat else z.suspendedTotal
             (∀ slot tag, z.origin = .order slot tag →
                 h.afterPreemption z cause
                   = { h with
                       orders := h.orders.pushAnswer
                         ⟨slot, tag, .preempted, [cause] ++ le16 z.frames ++ le16 z.restarts ++ le32 (total / 1000), .zero⟩ })
               ∧ (z.origin = .automatic →
                 h.afterPreemption z cause
                   = { h with
                       notice := h.notice ||| 0x04#6
                       counters := { h.counters with autoZeroFailures := satInc 255 h.counters.autoZeroFailures } })))
    ∧ (∀ (s : State) (t : Track) (z : ZeroOperation),
         s.regs.part = .running → (s.tracks.get t).zero = some z → s.RunOut z.holdTimer →
         let k := s.tracks.get t
         let total := z.suspendedTotal + (s.shared.time - z.suspendStart).toNat
         (∀ slot tag, z.origin = .order slot tag →
             exec (.holdTimerExpiry t) s
               = .next
                   (State.settle
                     ((s.withTrack t { k with zero := none }).withOrders
                       (s.shared.orders.pushAnswer
                         ⟨slot, tag, .preempted, [0] ++ le16 z.frames ++ le16 z.restarts ++ le32 (total / 1000), .zero⟩))))
           ∧ (z.origin = .automatic →
               exec (.holdTimerExpiry t) s
                 = .next
                     (State.settle
                       { s.withTrack t { k with zero := none } with
                         shared :=
                           { s.shared with
                             notice := s.shared.notice ||| 0x04#6
                             counters :=
                               { s.shared.counters with autoZeroFailures := satInc 255 s.shared.counters.autoZeroFailures } } })))

/-- UP at B0 or DOWN at BP in IDLE or APPROACH opens a passage. Its context holds the next number, the pass's direction and
time, the cause, NO_APPROACH exactly for DIRECT, UNZEROED exactly when a channel 1 to 2P has zero_valid clear, the marks of
the first platform's window that its entry pass closes, axles_created 1 and every other count 0; a close place is taken if
fewer than 2 are in use, otherwise the passage is lost and lost_passages and lost_since_close count it. The track is CROSSING
with the stall timer; axle 1 stands on the first platform with its record and one pending step, recorded ENTRY with that
window's statistics as its before-window; the epoch advances; next_wagon is 1. From IDLE every platform gets a window with
the other track's occupancy as its snapshot and the zero engine is told that the track left IDLE; from APPROACH the windows
and the engine are kept; the first platform's window is then opened again with the snapshot. Nothing else changes (R26, R28,
R31, R32, R38, R47, R48, R49, R66, R80, R142, R165). -/
def Obligations.APassageOpensWithItsEntryPass : Prop :=
  ∀ (c : Scene) (x : Pass) (k : Nat), c.trk.Coherent → c.trk.WindowsMatch → c.trk.TablesEmpty →
    c.trk.mode = .idle ∨ c.trk.mode = .approach → boundaryIndex x.point = some k →
    (x.direction = .up ∧ k = 0) ∨ (x.direction = .down ∧ k = c.trk.config.platforms) →
    let first := if x.direction = .up then 1 else c.trk.config.platforms
    let fresh : Window := ⟨⟨0, 0⟩, 0, false, false, c.other.occupied, c.other.epoch⟩
    let opened := fun q => if c.trk.mode = .idle ∧ q ≤ c.trk.config.platforms then some fresh else (c.trk.platforms.get q).window
    let unzeroed := ∃ q, 1 ≤ q ∧ q ≤ c.trk.config.platforms
      ∧ ((c.trk.calibration.get q).left.zeroValid = false ∨ (c.trk.calibration.get q).right.zeroValid = false)
    let free := c.trk.records.placesInUse < 2
    ∃ (p : Passage) (platforms : Four Platform) (w : Window) (before : WindowStats),
      c.takePass x
          = { c with
              trk :=
                { c.trk with
                  mode := .crossing
                  expected := none
                  timer := some ⟨c.sh.time, c.trk.config.stallTime * 1000⟩
                  context := some p
                  passageNumber := p.number
                  nextWagon := 1
                  epoch := c.trk.epoch + 1
                  axles :=
                    ⟨[⟨1, first, x.time, x.speed, none, [], 1, ⟨false, false, false, true, false, false⟩⟩],
                      [⟨1, false, first⟩], [], [], [], [], 1, some ⟨x.time, x.speed⟩, false⟩
                  platforms := platforms
                  records :=
                    { c.trk.records with
                      placesInUse := if free then c.trk.records.placesInUse + 1 else c.trk.records.placesInUse
                      lostPassages := if free then c.trk.records.lostPassages else satInc 255 c.trk.records.lostPassages
                      lostSinceClose :=
                        if free then c.trk.records.lostSinceClose else satInc 65535 c.trk.records.lostSinceClose }
                  zero := if c.trk.mode = .idle then c.zeroLeavesIdle.trk.zero else c.trk.zero }
              sh := if c.trk.mode = .idle then c.zeroLeavesIdle.sh else c.sh }
        ∧ p.number = (if 4294967295 ≤ c.trk.passageNumber then 1 else c.trk.passageNumber + 1)
        ∧ p.direction = x.direction ∧ p.openTime = x.time
        ∧ p.cause = (if c.trk.mode = .approach ∧ c.trk.expected = some x.direction then .approach else .direct)
        ∧ p.place = (if free then .reserved else .lost)
        ∧ (p.flags.noApproach = true ↔ p.cause = .direct) ∧ (p.flags.unzeroed = true ↔ unzeroed)
        ∧ p.flags.gapped = w.gapped ∧ p.flags.saturated = w.saturated ∧ p.flags.crosstalkSeen = before.crosstalk
        ∧ p.flags.drift = false ∧ p.flags.sequence = false ∧ p.flags.pointFault = false ∧ p.flags.reentry = false
        ∧ p.flags.recordLoss = false
        ∧ p.axlesCreated = 1 ∧ p.axlesDeparted = 0 ∧ p.axlesLeftOnBridge = 0 ∧ p.axlesBackedOut = 0
        ∧ p.ghostEntries = 0 ∧ p.wagonsFormed = 0 ∧ p.wagonsUnrecorded = 0 ∧ p.locomotives = 0 ∧ p.freightTotal = 0
        ∧ p.reason = none ∧ p.closeTime = none
        ∧ opened first = some w
        ∧ before
            = ⟨if w.sampleCount = 0 then ⟨none, none⟩
                else ⟨some (roundDiv w.sum.left w.sampleCount), some (roundDiv w.sum.right w.sampleCount)⟩,
              w.sampleCount, true, w.saturated, w.gapped,
              w.snapshotOccupied || c.other.occupied || c.other.epoch != w.snapshotEpoch⟩
        ∧ platforms.get first = ⟨some fresh, some before, some ⟨⟨1, false⟩, .entry, x.speed, before⟩⟩
        ∧ ∀ q, 1 ≤ q → q ≤ 4 → q ≠ first → platforms.get q = { c.trk.platforms.get q with window := opened q }

/-- A boundary pass of an open passage that causes no OVERFLOW is processed as one chain: the windows of the platforms it
bounds close in travel order, the awaiting axles without a pending step are finalized, those windows open again with the
other track's occupancy as their snapshot, the pass makes the move of its kind and records its steps, and the next track
state is chosen; every other platform stays. The axles are finalized in departure order: each leaves the awaiting set and the
records, joins the group-pending list and the matching loop runs. A recorded step stands on its platform with the moved
entry, the sign, the speed and the platform's last statistics, and raises pending_steps of a real axle by 1. A bridge with
entries makes CROSSING with the stall timer; one emptied from CROSSING or STANDING by a forward pass at exit makes DRAINING,
by a backward pass at entry WITHDRAWN, with their timers; an empty bridge leaves DRAINING and WITHDRAWN and their timer (R28,
R30, R31, R38, R43, R50, R76, R89, R100, R103, R119). -/
def Obligations.TheNextTrackStateFollowsTheBridge : Prop :=
  (∀ (c : Scene) (kind : PassKind),
       (c.trk.axles.onBridge ≠ [] →
           c.nextMode kind = { c with trk := { c.trk with mode := .crossing, timer := some ⟨c.sh.time, c.trk.config.stallTime * 1000⟩ } })
         ∧ (c.trk.axles.onBridge = [] → c.trk.mode = .crossing ∨ c.trk.mode = .standing →
             c.nextMode .forwardExit
                 = { c with trk := { c.trk with mode := .draining, timer := some ⟨c.sh.time, c.trk.config.settleTime * 1000⟩ } }
               ∧ c.nextMode .backwardEntry
                 = { c with trk :=
                     { c.trk with mode := .withdrawn, timer := some ⟨c.sh.time, c.trk.config.approachTimeout * 1000000⟩ } })
         ∧ (c.trk.axles.onBridge = [] → c.trk.mode = .draining ∨ c.trk.mode = .withdrawn → c.nextMode kind = c))
    ∧ (∀ (c : Scene) (p : Passage) (x : Pass) (k : Nat), c.trk.mode.inPassage = true → c.trk.context = some p →
      boundaryIndex x.point = some k → 1 ≤ c.trk.config.platforms → c.trk.config.platforms ≤ 4 → k ≤ c.trk.config.platforms →
      let P := c.trk.config.platforms
      let kind := classifyPass P p.direction k x.direction
      let bound := if k = 0 then [1] else if k = P then [P] else match p.direction with
        | .up => [k, k + 1]
        | .down => [k + 1, k]
      (kind = .forwardEntry →
          c.trk.axles.onBridge.length < 32 ∧ (c.trk.axles.backedOut ≠ [] ∨ c.trk.axles.lastSerial < 65535)) →
      c.takePass x
          = Scene.nextMode
              ((bound.foldl Scene.openWindow (bound.foldl Scene.closeWindow c).finalizeResolved).moveAndRecord p.direction x kind)
              kind
        ∧ (∀ q, q ∈ bound →
            ((c.takePass x).trk.platforms.get q).window
              = some ⟨⟨0, 0⟩, 0, false, false, c.other.occupied, c.other.epoch⟩)
        ∧ ∀ q, 1 ≤ q → q ≤ 4 → q ∉ bound → (c.takePass x).trk.platforms.get q = c.trk.platforms.get q)
    ∧ (∀ c : Scene,
        c.finalizeResolved
          = (c.trk.axles.awaiting.filter fun n =>
              match c.trk.axles.records.find? fun r => r.serial == n with
              | none => false
              | some r => decide (r.pendingSteps = 0)).foldl Scene.finalizeAxle c)
    ∧ (∀ (c : Scene) (n : Nat) (r : AxleRecord), (c.trk.axles.records.find? fun y => y.serial == n) = some r →
        c.finalizeAxle n
          = Scene.groupLoop
              { c with
                trk :=
                  { c.trk with
                    axles :=
                      { c.trk.axles with
                        records := c.trk.axles.records.filter fun y => y.serial != n
                        awaiting := c.trk.axles.awaiting.filter fun m => m != n }
                    group := c.trk.group ++ [r.finalize] } })
    ∧ (∀ (c : Scene) (d : Direction) (x : Pass),
        let P := c.trk.config.platforms
        let first := match d with
          | .up => 1
          | .down => P
        let last := match d with
          | .up => P
          | .down => 1
        let behind := fun k => match d with
          | .up => k
          | .down => k + 1
        let ahead := fun k => match d with
          | .up => k + 1
          | .down => k
        c.movePass d x .forwardEntry = some (c.enter first x) ∧ c.movePass d x .backwardEntry = c.backOut first
          ∧ (∀ k, c.movePass d x (.forwardMiddle k) = c.moveForward (behind k) (ahead k)
            ∧ c.movePass d x (.backwardMiddle k) = c.moveBackward (behind k) (ahead k))
          ∧ c.movePass d x .forwardExit = c.depart last ∧ c.movePass d x .backwardExit = c.ghostReturn last)
    ∧ (∀ (c : Scene) (d : Direction) (x : Pass) (kind : PassKind) (m : Moved), c.movePass d x kind = some m →
        c.moveAndRecord d x kind = m.steps.foldl (fun y g => y.recordStep m.entry x.speed g.1 g.2) m.scene)
    ∧ (∀ (c : Scene) (e : Entry) (speed : Option Nat) (p : Nat) (sign : Sign) (before : WindowStats),
        (c.trk.platforms.get p).last = some before →
        c.recordStep e speed p sign
          = { c with
              trk :=
                { c.trk with
                  platforms :=
                    c.trk.platforms.set p { c.trk.platforms.get p with step := some ⟨e, sign, speed, before⟩ }
                  axles :=
                    if e.ghost then c.trk.axles
                    else
                      { c.trk.axles with
                        records :=
                          c.trk.axles.records.map fun r =>
                            if r.serial = e.serial then { r with pendingSteps := r.pendingSteps + 1 } else r } } })

/-- A forward pass at exit takes the frontmost entry on the last platform into the departed ring, a real one into the
awaiting set and the count; at an intermediate point it moves the frontmost entry behind in place, and the record of a real
one with it; at entry it re-enters the top of the stack or creates the next serial at the rear, the epoch advancing when the
bridge was empty; an empty platform gives no move. A re-entry gives a real axle's record the first platform, the pass's time
and speed and the flag REENTERED, and the spacing reference the same time and speed when its serial is last_serial; a ghost's
changes neither. A created axle has a record with the pass's time and speed, no estimate and no pending step; its
lead_spacing is the mean speed times the interval over 360000, at most 65535, and 65535 for an interval of 2^31 or more; it
is absent, with NO_LEAD, for serial 1, after a discard and where either speed is absent. Each move changes nothing else (R26,
R67, R68, R69, R70, R77, R78, R79, R80, R83, R85). -/
def Obligations.ForwardPassesMoveTheFrontEntry : Prop :=
  (∀ (c : Scene) (p : Nat) (before after : List BridgeEntry) (e : BridgeEntry),
      c.trk.axles.onBridge = before ++ e :: after → (∀ y ∈ before, y.platform ≠ p) → e.platform = p →
      (∃ m, c.depart p = some m ∧ m.entry = ⟨e.serial, e.ghost⟩ ∧ m.steps = [(p, .exit)]
          ∧ m.scene
            = { c with
                trk :=
                  { c.trk with
                    axles :=
                      { c.trk.axles with
                        onBridge := before ++ after
                        departed := (⟨e.serial, e.ghost⟩ :: c.trk.axles.departed).take 8
                        awaiting := c.trk.axles.awaiting ++ (if e.ghost then [] else [e.serial]) }
                    context :=
                      if e.ghost then c.trk.context
                      else c.trk.context.map fun x => { x with axlesDeparted := satInc 65535 x.axlesDeparted } } })
        ∧ (∀ q, ∃ m, c.moveForward p q = some m ∧ m.entry = ⟨e.serial, e.ghost⟩ ∧ m.steps = [(p, .exit), (q, .entry)]
            ∧ m.scene
              = { c with
                  trk :=
                    { c.trk with
                      axles :=
                        { c.trk.axles with
                          onBridge := before ++ { e with platform := q } :: after
                          records :=
                            if e.ghost then c.trk.axles.records
                            else
                              c.trk.axles.records.map fun r =>
                                if r.serial = e.serial then { r with platform := q } else r } } }))
    ∧ (∀ (c : Scene) (p q : Nat), (∀ y ∈ c.trk.axles.onBridge, y.platform ≠ p) →
        c.depart p = none ∧ c.moveForward p q = none)
    ∧ (∀ (c : Scene) (p : Nat) (x : Pass) (e : Entry) (rest : List Entry), c.trk.axles.backedOut = e :: rest →
        (c.enter p x).entry = e ∧ (c.enter p x).steps = [(p, .entry)]
          ∧ (c.enter p x).scene
            = { c with
                trk :=
                  { c.trk with
                    epoch := if c.trk.axles.onBridge = [] then c.trk.epoch + 1 else c.trk.epoch
                    axles :=
                      { c.trk.axles with
                        onBridge := c.trk.axles.onBridge ++ [⟨e.serial, e.ghost, p⟩]
                        backedOut := rest
                        records :=
                          if e.ghost then c.trk.axles.records
                          else
                            c.trk.axles.records.map fun r =>
                              if r.serial = e.serial then
                                { r with
                                  platform := p
                                  entryTime := x.time
                                  entrySpeed := x.speed
                                  flags := { r.flags with reentered := true } }
                              else r
                        spacingReference :=
                          if e.ghost = false ∧ e.serial = c.trk.axles.lastSerial then some ⟨x.time, x.speed⟩
                          else c.trk.axles.spacingReference } } })
    ∧ (∀ (c : Scene) (p : Nat) (x : Pass), c.trk.axles.backedOut = [] →
        ∃ lead : Option Nat,
          (c.trk.axles.lastSerial = 0 ∨ c.trk.axles.discardSeen = true ∨ x.speed = none
              ∨ (∀ r, c.trk.axles.spacingReference = some r → r.speed = none) → lead = none)
            ∧ (∀ r v w, c.trk.axles.lastSerial ≠ 0 → c.trk.axles.discardSeen = false →
                c.trk.axles.spacingReference = some r → r.speed = some v → x.speed = some w →
                let interval := (x.time - r.time).toNat
                lead = some (if 2147483648 ≤ interval then 65535 else min 65535 ((v + w) / 2 * interval / 360000)))
            ∧ (c.enter p x).entry = ⟨c.trk.axles.lastSerial + 1, false⟩ ∧ (c.enter p x).steps = [(p, .entry)]
            ∧ (c.enter p x).scene
              = { c with
                  trk :=
                    { c.trk with
                      epoch := if c.trk.axles.onBridge = [] then c.trk.epoch + 1 else c.trk.epoch
                      axles :=
                        { c.trk.axles with
                          onBridge := c.trk.axles.onBridge ++ [⟨c.trk.axles.lastSerial + 1, false, p⟩]
                          lastSerial := c.trk.axles.lastSerial + 1
                          spacingReference := some ⟨x.time, x.speed⟩
                          records :=
                            c.trk.axles.records
                              ++ [⟨c.trk.axles.lastSerial + 1, p, x.time, x.speed, lead, [], 0,
                                ⟨false, false, false, lead.isNone, false, false⟩⟩] }
                      context := c.trk.context.map fun y => { y with axlesCreated := satInc 65535 y.axlesCreated } } })

/-- A backward pass at entry pushes the rearmost entry of the first platform on the stack, discarding the bottom of a full
one: discard_seen is set, and a real bottom joins the discarded set, loses its record and counts in axles_backed_out. At an
intermediate point it moves the rearmost entry ahead in place, and the record of a real one with it; at exit it brings back a
ghost of the newest departure, or of serial 0, sets REENTRY and counts it unless the departure was a ghost's, the epoch
advancing when the bridge was empty; an empty platform or a full bridge gives no move. Each move changes nothing else (R26,
R70, R74, R77, R81, R82, R84, R86, R87). -/
def Obligations.BackwardPassesMoveTheRearEntryOrReturnAGhost : Prop :=
  (∀ (c : Scene) (p : Nat) (before after : List BridgeEntry) (e : BridgeEntry),
      c.trk.axles.onBridge = before ++ e :: after → (∀ y ∈ after, y.platform ≠ p) → e.platform = p →
      (c.trk.axles.backedOut.length < 32 →
          ∃ m, c.backOut p = some m ∧ m.entry = ⟨e.serial, e.ghost⟩ ∧ m.steps = [(p, .exit)]
            ∧ m.scene
              = { c with
                  trk :=
                    { c.trk with
                      axles :=
                        { c.trk.axles with
                          onBridge := before ++ after
                          backedOut := ⟨e.serial, e.ghost⟩ :: c.trk.axles.backedOut } } })
        ∧ (∀ bottom rest, c.trk.axles.backedOut = rest ++ [bottom] → 31 ≤ rest.length →
            ∃ m, c.backOut p = some m ∧ m.entry = ⟨e.serial, e.ghost⟩ ∧ m.steps = [(p, .exit)]
              ∧ m.scene
                = { c with
                    trk :=
                      { c.trk with
                        axles :=
                          { c.trk.axles with
                            onBridge := before ++ after
                            backedOut := ⟨e.serial, e.ghost⟩ :: rest
                            discardSeen := true
                            discarded := c.trk.axles.discarded ++ (if bottom.ghost then [] else [bottom.serial])
                            records :=
                              if bottom.ghost then c.trk.axles.records
                              else c.trk.axles.records.filter fun r => r.serial != bottom.serial }
                        context :=
                          if bottom.ghost then c.trk.context
                          else c.trk.context.map fun y => { y with axlesBackedOut := satInc 65535 y.axlesBackedOut } } })
        ∧ (∀ q, ∃ m, c.moveBackward q p = some m ∧ m.entry = ⟨e.serial, e.ghost⟩ ∧ m.steps = [(p, .exit), (q, .entry)]
            ∧ m.scene
              = { c with
                  trk :=
                    { c.trk with
                      axles :=
                        { c.trk.axles with
                          onBridge := before ++ { e with platform := q } :: after
                          records :=
                            if e.ghost then c.trk.axles.records
                            else
                              c.trk.axles.records.map fun r =>
                                if r.serial = e.serial then { r with platform := q } else r } } }))
    ∧ (∀ (c : Scene) (p q : Nat), (∀ y ∈ c.trk.axles.onBridge, y.platform ≠ p) →
        c.backOut p = none ∧ c.moveBackward q p = none)
    ∧ (∀ (c : Scene) (p : Nat), 32 ≤ c.trk.axles.onBridge.length → c.ghostReturn p = none)
    ∧ (∀ (c : Scene) (p : Nat), c.trk.axles.onBridge.length < 32 →
        let returned := fun (serial : Nat) (rest : List Entry) (counted : Bool) =>
          { c with
            trk :=
              { c.trk with
                epoch := if c.trk.axles.onBridge = [] then c.trk.epoch + 1 else c.trk.epoch
                axles :=
                  { c.trk.axles with onBridge := ⟨serial, true, p⟩ :: c.trk.axles.onBridge, departed := rest }
                context :=
                  c.trk.context.map fun y =>
                    { y with
                      flags := { y.flags with reentry := true }
                      ghostEntries := if counted then satInc 65535 y.ghostEntries else y.ghostEntries } } }
        (∀ e rest, c.trk.axles.departed = e :: rest →
            ∃ m, c.ghostReturn p = some m ∧ m.entry = ⟨e.serial, true⟩ ∧ m.steps = [(p, .entry)]
              ∧ m.scene = returned e.serial rest (!e.ghost))
          ∧ (c.trk.axles.departed = [] →
            ∃ m, c.ghostReturn p = some m ∧ m.entry = ⟨0, true⟩ ∧ m.steps = [(p, .entry)] ∧ m.scene = returned 0 [] true))

/-- A pass that moves no entry counts a sequence error and sets the flag SEQUENCE, and changes nothing else there; a pass is
classified by its point and its direction against the passage's. A forward pass at the entry point that finds 32 entries on
the bridge, or an empty stack with serial 65535 used, closes the passage with reason OVERFLOW by the close procedure
(closePassage, whose steps O39 states), with what a close does to drift, capture unit and zero engine (R50, R55, R56, R57,
R76, R77, R78, R109, R143, R160). -/
def Obligations.PassesThatMoveNothing : Prop :=
  (∀ (c : Scene) (d : Direction) (x : Pass) (kind : PassKind),
     (c.movePass d x kind = none →
         c.moveAndRecord d x kind
           = { c with
               trk := { c.trk with context := c.trk.context.map fun p => { p with flags := { p.flags with sequence := true } } }
               sh := { c.sh with counters :=
                 { c.sh.counters with sequenceErrors := satInc 65535 c.sh.counters.sequenceErrors } } })
       ∧ (∀ k P, k ≤ P → 1 ≤ P →
           classifyPass P d k x.direction
             = if (d = .up ∧ k = 0) ∨ (d = .down ∧ k = P) then (if x.direction = d then .forwardEntry else .backwardEntry)
               else if (d = .up ∧ k = P) ∨ (d = .down ∧ k = 0) then (if x.direction = d then .forwardExit else .backwardExit)
               else if x.direction = d then .forwardMiddle k else .backwardMiddle k))
    ∧ (∀ (c : Scene) (p : Passage) (x : Pass) (k : Nat), c.trk.Coherent → c.trk.WindowsMatch → (∀ e ∈ c.sh.classes, e.Sound) →
         c.trk.mode.inPassage = true → c.trk.context = some p → boundaryIndex x.point = some k →
         classifyPass c.trk.config.platforms p.direction k x.direction = .forwardEntry →
         (32 ≤ c.trk.axles.onBridge.length ∨ (c.trk.axles.backedOut = [] ∧ 65535 ≤ c.trk.axles.lastSerial)) →
         c.takePass x = c.closePassage .overflow
           ∧ c.trk.ClosedTo c.id p .overflow c.sh.time (c.takePass x).trk
           ∧ c.ClosedEffects p .overflow (c.takePass x).trk (c.takePass x).sh)

/-- A window's close leaves its platform the rounded means, count, empty and mark items and the CROSSTALK test, no window and
no pending step, and carries the marks into the passage flags; other platforms stay (R32, R35, R39). -/
def Obligations.AClosingWindowLeavesItsStatistics : Prop :=
  ∀ (c : Scene) (p : Nat) (w : Window), 1 ≤ p → p ≤ 4 → (c.trk.platforms.get p).window = some w →
    (∃ x : WindowStats,
      (c.closeWindow p).trk.platforms.get p = ⟨none, some x, none⟩
        ∧ x.sampleCount = w.sampleCount ∧ x.saturated = w.saturated ∧ x.gapped = w.gapped
        ∧ (x.empty = true ↔ ∀ e ∈ c.trk.axles.onBridge, e.platform ≠ p)
        ∧ (x.crosstalk = true ↔
            w.snapshotOccupied = true ∨ c.other.occupied = true ∨ c.other.epoch ≠ w.snapshotEpoch)
        ∧ (w.sampleCount = 0 → x.mean = ⟨none, none⟩)
        ∧ (0 < w.sampleCount →
            x.mean = ⟨some (roundDiv w.sum.left w.sampleCount), some (roundDiv w.sum.right w.sampleCount)⟩)
        ∧ (∀ y, c.trk.context = some y →
            (c.closeWindow p).trk.context = some
              { y with flags :=
                { y.flags with
                  gapped := y.flags.gapped || x.gapped
                  saturated := y.flags.saturated || x.saturated
                  crosstalkSeen := y.flags.crosstalkSeen || x.crosstalk } }))
      ∧ (∀ q, 1 ≤ q → q ≤ 4 → q ≠ p → (c.closeWindow p).trk.platforms.get q = c.trk.platforms.get q)

/-! ### Weights, wagons and capture -/

/-- L is one more than the largest n of an entry that is not OFF, 2 when every entry is OFF, from 2 to 9; the matching loop
leaves fewer than L axles and the close flush none. An entry matches exactly when it is not OFF, at least n axles are
pending, in mode PATTERN the lead_spacing of each of the second to n-th is present and inside its pair, and the end gap holds
behind the n-th: the next serial exists, is not discarded and has a lead_spacing of at least end_gap_min, or no next serial
exists and the flush runs (the lead_spacing is read from the axle record or the pending list, log 18). The lowest matching
index is used; the loop takes a turn while L or more axles are pending and the flush while any is; a turn forms a wagon of
the first n axles by it, or of the head alone when none matches (R113, R118, R119, R120, R121, R122, R123, R124, R132). -/
def Obligations.TheLookaheadIsOneMoreThanTheLongestEntry : Prop :=
  (∀ classes : List ClassEntry, (∀ e ∈ classes, e.mode = .off) → lookahead classes = 2)
    ∧ (∀ (classes : List ClassEntry) (e : ClassEntry), e ∈ classes → e.mode ≠ .off → 1 ≤ e.n →
        (∀ f ∈ classes, f.mode ≠ .off → f.n ≤ e.n) → lookahead classes = e.n + 1)
    ∧ (∀ classes : List ClassEntry, (∀ e ∈ classes, e.Sound) → 2 ≤ lookahead classes ∧ lookahead classes ≤ 9)
    ∧ (∀ c : Scene, (∀ e ∈ c.sh.classes, e.Sound) → c.groupLoop.trk.group.length < lookahead c.sh.classes)
    ∧ (∀ c : Scene, (∀ e ∈ c.sh.classes, e.Sound) → c.closeFlush.trk.group = [])
    ∧ (∀ (k : TrackState) (flush : Bool) (least serial : Nat),
        k.endGapHolds flush least serial = true ↔
          ((serial = 65535 ∨ k.axles.lastSerial ≤ serial) ∧ flush = true)
            ∨ (serial ≠ 65535 ∧ serial < k.axles.lastSerial ∧ serial + 1 ∉ k.axles.discarded
              ∧ ∃ g, (match k.axles.records.find? fun r => r.serial == serial + 1 with
                  | some r => r.leadSpacing
                  | none => (k.group.find? fun x => x.serial == serial + 1).bind (·.leadSpacing)) = some g ∧ least ≤ g))
    ∧ (∀ (k : TrackState) (flush : Bool) (e : ClassEntry),
        k.matchesEntry flush e = true ↔
          e.mode ≠ .off ∧ e.n ≤ k.group.length
            ∧ (e.mode = .pattern → ∀ j pair x, j + 1 < e.n → e.pairs[j]? = some pair → k.group[j + 1]? = some x →
                ∃ g, x.leadSpacing = some g ∧ pair.min ≤ g ∧ g ≤ pair.max)
            ∧ ∃ x, k.group[e.n - 1]? = some x ∧ k.endGapHolds flush e.endGapMin x.serial = true)
    ∧ (∀ (k : TrackState) (flush : Bool) (classes : List ClassEntry),
        (∀ i, k.firstMatch flush classes = some i ↔
            (∃ e, classes[i]? = some e ∧ k.matchesEntry flush e = true)
              ∧ ∀ (j : Nat) f, j < i → classes[j]? = some f → k.matchesEntry flush f = false)
          ∧ (k.firstMatch flush classes = none ↔ ∀ e ∈ classes, k.matchesEntry flush e = false))
    ∧ (∀ (c : Scene) (flush : Bool) (p : Passage), c.trk.context = some p →
        (∀ i e, c.trk.firstMatch flush c.sh.classes = some i → c.sh.classes[i]? = some e →
            c.formNext flush
              = Scene.handOn
                  { c with trk := { c.trk with group := c.trk.group.drop e.n, nextWagon := c.trk.nextWagon + 1 } }
                  (formWagon c.id p.number c.trk.nextWagon (some (i, e)) (c.trk.group.take e.n) flush))
          ∧ (c.trk.firstMatch flush c.sh.classes = none →
            c.formNext flush
              = Scene.handOn
                  { c with trk := { c.trk with group := c.trk.group.drop 1, nextWagon := c.trk.nextWagon + 1 } }
                  (formWagon c.id p.number c.trk.nextWagon none (c.trk.group.take 1) flush)))
    ∧ (∀ c : Scene, (∀ e ∈ c.sh.classes, e.Sound) →
        (c.trk.group.length < lookahead c.sh.classes → c.groupLoop = c)
          ∧ (lookahead c.sh.classes ≤ c.trk.group.length → c.groupLoop = (c.formNext false).groupLoop)
          ∧ (c.trk.group = [] → c.closeFlush = c)
          ∧ (c.trk.group ≠ [] → c.closeFlush = (c.formNext true).closeFlush))

/-- A wagon's gross is the sum of the loads present, its shift percent 255 for no load and otherwise the rounded-down share
of the difference, its mean speed the rounded-down mean of the speeds present or absent, and its flags those of R125, R127
and R128, SPEED and CROSSTALK exactly when an axle carries them; an UNGROUPED wagon has class code 255 and no limit flag.
Handed on, a wagon first enters the passage totals, is then evaluated by the watch units, and its record as they leave it
joins the queue; with 24 wagon records queued it is dropped and counted with RECORD_LOSS; a lost passage queues none (R123,
R124, R125, R126, R127, R128, R129, R130, R165, R166). -/
def Obligations.AWagonsFiguresComeFromItsAxles : Prop :=
  (∀ (t : Track) (passage number : Nat) (entry : Option (Nat × ClassEntry)) (axles : List FinalAxle) (flush : Bool),
       let w := formWagon t passage number entry axles flush
       let speeds := axles.filterMap (·.speed)
       let left := ((axles.filterMap (·.load)).map (·.left)).sum
       let right := ((axles.filterMap (·.load)).map (·.right)).sum
       w.track = t ∧ w.passage = passage ∧ w.number = number ∧ w.axles = axles ∧ w.watchMask = 0
         ∧ w.gross = left + right
         ∧ (left + right = 0 → w.shift = 255)
         ∧ (0 < left + right → w.shift = (if right ≤ left then left - right else right - left) * 100 / (left + right))
         ∧ (speeds = [] → w.meanSpeed = none)
         ∧ (speeds ≠ [] → w.meanSpeed = some (speeds.sum / speeds.length))
         ∧ (w.flags.incomplete = true ↔ ∃ x ∈ axles, x.load = none)
         ∧ (w.flags.speed = true ↔ ∃ x ∈ axles, x.flags.speed = true)
         ∧ (w.flags.crosstalk = true ↔ ∃ x ∈ axles, x.flags.crosstalk = true)
         ∧ w.flags.flushed = flush ∧ w.flags.captureMissed = false
         ∧ (entry = none →
             w.classIndex = none ∧ w.classCode = 255 ∧ w.kind = .unknown ∧ w.flags.ungrouped = true
               ∧ w.flags.overGross = false ∧ w.flags.overAxle = false ∧ w.flags.sideShift = false)
         ∧ (∀ i e, entry = some (i, e) →
             w.classIndex = some i ∧ w.classCode = e.classCode ∧ w.kind = e.kind ∧ w.flags.ungrouped = false
               ∧ (w.flags.overGross = true ↔ e.grossLimit ≠ 0 ∧ e.grossLimit < w.gross)
               ∧ (w.flags.overAxle = true ↔
                   e.axleLimit ≠ 0 ∧ ∃ x ∈ axles, ∃ l, x.load = some l ∧ e.axleLimit < l.left + l.right)
               ∧ (w.flags.sideShift = true ↔ e.shiftLimit ≠ 0 ∧ 0 < w.gross ∧ e.shiftLimit < w.shift)))
    ∧ (∀ (c : Scene) (w : Wagon) (p : Passage), c.trk.context = some p →
        let counted :=
          { p with
            wagonsFormed := if p.wagonsFormed < 65535 then p.wagonsFormed + 1 else p.wagonsFormed
            locomotives :=
              if w.kind = .locomotive ∧ p.locomotives < 65535 then p.locomotives + 1 else p.locomotives
            freightTotal := if w.kind = .locomotive then p.freightTotal else min 4294967295 (p.freightTotal + w.gross) }
        let v := c.sh.evaluate w
        (p.place = .lost → c.handOn w = { c with sh := v.sh, trk := { c.trk with context := some counted } })
          ∧ (p.place = .reserved → (c.trk.records.queue.filter Record.isWagon).length < 24 →
              c.handOn w
                = { c with
                    sh := v.sh
                    trk :=
                      { c.trk with
                        context := some counted
                        records := { c.trk.records with queue := c.trk.records.queue ++ [.wagon v.wagon] } } })
          ∧ (p.place = .reserved → 24 ≤ (c.trk.records.queue.filter Record.isWagon).length →
              c.handOn w
                = { c with
                    sh := v.sh
                    trk :=
                      { c.trk with
                        context :=
                          some
                            { counted with
                              wagonsUnrecorded := if p.wagonsUnrecorded < 65535 then p.wagonsUnrecorded + 1 else p.wagonsUnrecorded
                              flags := { p.flags with recordLoss := true } } } }))

/-- A unit hits exactly when it is enabled, its track is ANY or the wagon's, and its condition holds by its row of R154; a
hit counts, saturating at 65535, and sets the unit's mark in the wagon's mask, and MARK raises ALERT; the first CAPTURE hit
starts a recording when ARMED and otherwise marks the wagon CAPTURE_MISSED; a later CAPTURE hit on the same wagon does
nothing more; a unit that does not hit changes nothing; the four units evaluate in index order (R154, R155, R158). -/
def Obligations.WatchUnitsCountMarkAndCapture : Prop :=
  (∀ (u : WatchUnit) (w : Wagon),
      u.hits w = true ↔
        u.enabled = true ∧ (u.track = none ∨ u.track = some w.track)
          ∧ match u.condition with
            | .grossAbove => u.value1 < w.gross
            | .axleAbove => ∃ x ∈ w.axles, ∃ l, x.load = some l ∧ u.value1 < l.left + l.right
            | .shiftAbove => 0 < w.gross ∧ u.value1 < w.shift
            | .speedOutside => ∃ x ∈ w.axles, ∀ v, x.speed = some v → v < u.value1 ∨ u.value2 < v
            | .classIs => w.classCode = u.value1
            | .ungrouped => w.flags.ungrouped = true)
    ∧ (∀ (v : Evaluation) (i : Nat), i < 4 →
        let u := v.sh.watch.get (i + 1)
        let mask := v.wagon.watchMask ||| (1#4 <<< i)
        let counted := v.sh.watch.set (i + 1) { u with hitCount := if u.hitCount < 65535 then u.hitCount + 1 else u.hitCount }
        (u.hits v.wagon = false → v.unit i = v)
          ∧ (u.hits v.wagon = true → u.action = .mark →
              v.unit i
                = { v with
                    wagon := { v.wagon with watchMask := mask }
                    sh := { v.sh with watch := counted, notice := v.sh.notice ||| 0x04#6 } })
          ∧ (u.hits v.wagon = true → u.action = .capture → v.captureHit = false → v.sh.capture.state = .armed →
              v.unit i
                = { v with
                    captureHit := true
                    wagon := { v.wagon with watchMask := mask }
                    sh :=
                      { v.sh with
                        watch := counted
                        capture :=
                          { v.sh.capture with
                            state := .recording
                            triggerTrack := v.wagon.track
                            scope := u.scope
                            triggerPassage := v.wagon.passage
                            triggerWagon := v.wagon.number
                            written := 0
                            taking := true } } })
          ∧ (u.hits v.wagon = true → u.action = .capture → v.captureHit = false → v.sh.capture.state ≠ .armed →
              v.unit i
                = { v with
                    captureHit := true
                    wagon := { v.wagon with watchMask := mask, flags := { v.wagon.flags with captureMissed := true } }
                    sh := { v.sh with watch := counted } })
          ∧ (u.hits v.wagon = true → u.action = .capture → v.captureHit = true →
              v.unit i = { v with wagon := { v.wagon with watchMask := mask }, sh := { v.sh with watch := counted } }))
    ∧ (∀ (h : Shared) (w : Wagon),
        h.evaluate w = ((((Evaluation.mk w h false).unit 0).unit 1).unit 2).unit 3)

/-- While taking is set a frame of a captured track forms an entry in slot written mod E unless 16 wait; the entry that
brings written to M ends the recording, as does the close of the trigger track; the oldest entry is written first, with the
bytes of R182's capture entry, and the header, with those of its capture header (wrapped as 1 for set and 0 for clear: the
model's choice, log 29, unsafe), only after the last. A completed entry write takes the oldest entry off the waiting entries;
a completed header write puts the unit in HELD and raises CAPTURE; nothing else changes but the step's end (R159, R160, R181,
R182). -/
def Obligations.RecordingsTakeWriteAndEnd : Prop :=
  (∀ (x : CaptureUnit) (now : Word) (t : Track) (sequence : Byte) (channels : List ChannelEntry),
     (x.taking = true → t = x.triggerTrack ∨ x.scope = .both → x.waiting.length < 16 →
         x.takeFrame now t sequence channels
           = { x with
               waiting := x.waiting ++ [⟨x.written % x.slots, now, t, sequence, channels⟩]
               written := x.written + 1
               taking := decide (x.written + 1 ≠ x.limit) })
       ∧ (x.taking = false ∨ (t ≠ x.triggerTrack ∧ x.scope = .own) ∨ 16 ≤ x.waiting.length →
           x.takeFrame now t sequence channels = x)
       ∧ x.closeOf t = (if x.state = .recording ∧ x.triggerTrack = t then { x with taking := false } else x)
       ∧ (∀ e l, x.waiting = e :: l →
           ∃ a, x.request = some a ∧ a.kind = .captureEntry ∧ a.address = x.area + 32 + 40 * BitVec.ofNat 32 e.slot
             ∧ a.data
                 = (le32 e.time.toNat
                     ++ [match e.track with
                         | .A => 0#8
                         | .B => 1#8, e.sequence, BitVec.ofNat 8 e.channels.length,
                       BitVec.ofNat 8 (maskOf (e.channels.map fun (y : ChannelEntry) => y.overrange))]
                     ++ (e.channels.map fun (y : ChannelEntry) => le32i y.value.toInt).flatten ++ List.replicate 40 0).take 40)
       ∧ (x.waiting = [] → x.state = .recording → x.taking = false →
           ∃ a, x.request = some a ∧ a.kind = .captureHeader ∧ a.address = x.area
             ∧ a.data
                 = [1#8, match x.triggerTrack with
                     | .A => 0#8
                     | .B => 1#8, if x.slots < x.written then 1#8 else 0#8, 0#8]
                   ++ le32 x.triggerPassage ++ le16 x.triggerWagon ++ le16 x.written
                   ++ le16 (if x.slots < x.written then x.written % x.slots else 0) ++ List.replicate 18 0)
       ∧ (x.waiting = [] → x.state ≠ .recording ∨ x.taking = true → x.request = none))
    ∧ ((∀ (s : State) (a : Access), s.Ends .captureEntry a →
           exec .captureEntryWriteDone s
             = .next
                 (State.settle
                   { s.withFreePort with
                   shared := { s.shared with capture :=
                     { s.shared.capture with waiting := s.shared.capture.waiting.tail } } }))
         ∧ (∀ (s : State) (a : Access), s.Ends .captureHeader a →
             exec .captureHeaderWriteDone s
               = .next
                   (State.settle
                     { s.withFreePort with shared :=
                       { s.shared with capture := { s.shared.capture with state := .held }, notice := s.shared.notice ||| 0x08#6 } })))

/-! ### Orders -/

/-- SET_OPTIONS replaces all seven options and restarts or stops the scan timer unless a scan runs, or answers INVALID and
stores nothing when a parameter lies outside its range; the ranges are those of R179 (log 25: any accepted order restarts the
timer) (R178, R179, R182). -/
def Obligations.SetOptionsReplacesAllOptions : Prop :=
  (∀ (s : State) (o : Order), s.Carries 0x01#8 o →
      (optionsOf o.params = none → exec .setOptions s = .next (s.answered o .invalid []))
        ∧ (∀ x, optionsOf o.params = some x →
            exec .setOptions s
              = .next
                  (State.answered
                    { s with
                      shared :=
                        { s.shared with
                          options := x
                          orders :=
                            { s.shared.orders with
                              scanTimer :=
                                if s.shared.orders.scan.isSome then s.shared.orders.scanTimer
                                else if x.scanInterval = 0 then none
                                else some ⟨s.shared.time, x.scanInterval * 1000⟩ } } }
                    o .done [])))
    ∧ (∀ (l : List Byte) (x : Options),
        optionsOf l = some x ↔
          x.scanInterval = nat16 l 0 ∧ boolOf (nat8 l 2) = some x.autoZero ∧ x.autoZeroCount = nat16 l 3
            ∧ x.zeroHoldLimit = nat16 l 5 ∧ policyOf (nat8 l 7) = some x.crosstalkPolicy ∧ x.driftLimit = nat16 l 8
            ∧ boolOf (nat8 l 10) = some x.hold
            ∧ x.scanInterval ≤ 1000 ∧ 64 ≤ x.autoZeroCount ∧ x.autoZeroCount ≤ 65535
            ∧ 60 ≤ x.zeroHoldLimit ∧ x.zeroHoldLimit ≤ 1800)

/-- REPORT answers DONE with the 48 bytes of R182's REPORT layout, quantities little-endian, masks with the first member in
bit 0, signed values in two's complement; READ_CALIBRATION answers the four spans, offsets and the two masks of a half, or
INVALID; an order of a kind outside the catalogue is answered INVALID; each changes nothing but its answer (R108, R178, R180,
R182). -/
def Obligations.ReportingOrdersChangeNothingButTheirAnswer : Prop :=
  (∀ (s : State) (o : Order), s.Carries 0x02#8 o → exec .report s = .next (s.answered o .done (reportFields s)))
    ∧ (∀ s : State,
        let track := fun k : TrackState =>
          [match k.mode with
            | .disabled => 0#8
            | .idle => 1#8
            | .approach => 2#8
            | .crossing => 3#8
            | .standing => 4#8
            | .draining => 5#8
            | .withdrawn => 6#8,
          match k.zero with
            | none => 0#8
            | some z => match z.state with
              | .accumulating => 1#8
              | .suspended => 2#8,
          BitVec.ofNat 8 k.records.placesInUse, BitVec.ofNat 8 (k.records.queue.filter Record.isWagon).length,
          BitVec.ofNat 8 k.axles.onBridge.length, BitVec.ofNat 8 k.axles.backedOut.length] ++ le32 k.passageNumber
        let locks := fun k : TrackState => (List.range 8).map fun i => (channelGet k.calibration (i + 1)).lock
        let h := s.shared
        reportFields s
            = track s.tracks.a ++ track s.tracks.b
              ++ [BitVec.ofNat 8 s.pages.lent.length,
                match h.capture.state with
                  | .disarmed => 0#8
                  | .armed => 1#8
                  | .recording => 2#8
                  | .held => 3#8,
                if h.options.hold then 1#8 else 0#8]
              ++ le16 (maskOf (h.classes.map (·.lock))) ++ le16 (maskOf (locks s.tracks.a ++ locks s.tracks.b))
              ++ le16 h.watch.first.hitCount ++ le16 h.watch.second.hitCount ++ le16 h.watch.third.hitCount
              ++ le16 h.watch.fourth.hitCount
              ++ [BitVec.ofNat 8 s.tracks.a.falseApproaches, BitVec.ofNat 8 s.tracks.b.falseApproaches]
              ++ le16 h.counters.badFrames ++ le16 h.counters.edgeErrors ++ le16 h.counters.pointFaults
              ++ le16 h.counters.sequenceErrors
              ++ [BitVec.ofNat 8 h.counters.autoZeroFailures, BitVec.ofNat 8 s.tracks.a.records.lostPassages,
                BitVec.ofNat 8 s.tracks.b.records.lostPassages]
          ∧ (reportFields s).length = 48)
    ∧ (∀ (l : List Bool) (i : Nat), (maskOf l).testBit i = l.getD i false)
    ∧ (∀ n : Nat,
        le16 n = [BitVec.ofNat 8 n, BitVec.ofNat 8 (n / 256)]
          ∧ le32 n = [BitVec.ofNat 8 n, BitVec.ofNat 8 (n / 256), BitVec.ofNat 8 (n / 65536), BitVec.ofNat 8 (n / 16777216)]
          ∧ le32i (n : Int) = le32 n ∧ (0 < n → n ≤ 2147483648 → le32i (-(n : Int)) = le32 (4294967296 - n)))
    ∧ (∀ (s : State) (o : Order) (t : Track) (high : Bool), s.Carries 0x21#8 o → trackOf (nat8 o.params 0) = some t →
        boolOf (nat8 o.params 1) = some high →
        exec .readCalibration s
          = .next
              (s.answered o .done
                (let l := halfChannels (s.tracks.get t).calibration high
                 (l.map fun x => le32 x.span).flatten ++ (l.map fun x => le32i x.zeroOffset).flatten
                  ++ [BitVec.ofNat 8 (maskOf (l.map (·.zeroValid))), BitVec.ofNat 8 (maskOf (l.map (·.lock)))])))
    ∧ (∀ (s : State) (o : Order), s.Carries 0x21#8 o →
        trackOf (nat8 o.params 0) = none ∨ boolOf (nat8 o.params 1) = none →
        exec .readCalibration s = .next (s.answered o .invalid []))
    ∧ (∀ (s : State) (o : Order), s.regs.part = .running → s.shared.orders.carrying = false →
        s.shared.orders.queue.head? = some o → o.kind ∉ catalogue →
        exec .unknownOrder s = .next (s.answered o .invalid []))

/-- READ_CLASS answers INVALID for an index outside 0 to 15 and otherwise DONE with the entry's fields as they stand when the
order is carried out, in the order of R116, pairs beyond n - 1 as 0; in every track state, and it changes nothing but the
answer (the lock as 1 for set and 0 for clear: the model's choice, log 29, unsafe) (R116, R178, R182). -/
def Obligations.ReadClassAnswersTheEntryAsItStands : Prop :=
  ∀ (s : State) (o : Order), s.Carries 0x31#8 o →
    (15 < nat8 o.params 0 → exec .readClass s = .next (s.answered o .invalid []))
      ∧ (∀ e, nat8 o.params 0 ≤ 15 → s.shared.classes[nat8 o.params 0]? = some e →
          exec .readClass s
            = .next
                (s.answered o .done
                  ([match e.mode with
                      | .off => 0
                      | .pattern => 1
                      | .count => 2, BitVec.ofNat 8 e.n]
                    ++ ((e.pairs.map fun (p : SpacingRange) => le16 p.min ++ le16 p.max).flatten ++ List.replicate 28 0).take 28
                    ++ le16 e.endGapMin
                    ++ [BitVec.ofNat 8 e.classCode,
                        match e.kind with
                          | .wagon => 0
                          | .locomotive => 1
                          | .other => 2
                          | .unknown => 3]
                    ++ le32 e.grossLimit ++ le16 e.axleLimit ++ [BitVec.ofNat 8 e.shiftLimit, if e.lock then 1 else 0])))

/-- QUIET is answered DONE when both tracks are IDLE or DISABLED, both zero engines in NONE, no capture records and the order
queue is empty, and BUSY otherwise; either way the part stays RUNNING and nothing else changes. When a QUIET order's ANSWERED
write completes, ANSWER is raised and the five conditions are tested: if all hold the part enters QUIET with the scan timer
stopped and the pending mark cleared, otherwise it stays RUNNING. An entry starts no access and leaves queued records,
current pages, the lent page list and waiting claims as they are; when a requester asks for the port at that moment, the
entry comes before the step's end or after it, with its claims and its grant (a free choice, log 13; claims are made in
QUIET, log 22) (R170, R171, R175, R178, R181, R182, R184). -/
def Obligations.QuietIsAnsweredAndEnteredByItsConditions : Prop :=
  (∀ (s : State) (o : Order), s.Carries 0x03#8 o →
     let rests := (∀ t, ((s.tracks.get t).mode = .idle ∨ (s.tracks.get t).mode = .disabled) ∧ (s.tracks.get t).zero = none)
       ∧ s.shared.capture.state ≠ .recording ∧ s.shared.orders.queue = [o]
     (¬ rests → exec .quiet s = .next (s.answered o .busy []))
       ∧ (rests →
           exec .quiet s
             = .next
                 (State.settle
                   (s.withOrders
                     { ({ s.shared.orders with queue := [] }).pushAnswer ⟨o.slot, o.tag, .done, [], .quiet⟩ with
                       carrying := true }))))
    ∧ (∀ (s : State) (a : Access) (x : Answer) (rest : List Answer), s.Ends .answered a → s.regs.part = .running →
         s.shared.orders.answers = x :: rest → x.owner = .quiet →
         let rests := (∀ t, ((s.tracks.get t).mode = .idle ∨ (s.tracks.get t).mode = .disabled) ∧ (s.tracks.get t).zero = none)
           ∧ s.shared.capture.state ≠ .recording ∧ s.shared.orders.queue = [] ∧ s.shared.orders.scan = none
         let orders : OrderUnit :=
           { s.shared.orders with
             answers := rest
             ready := if rest = [] then s.shared.orders.ready.tail else s.shared.orders.ready.tail ++ [.answerFields]
             carrying := false }
         let v : State :=
           { s.withFreePort with shared := { s.shared with notice := s.shared.notice ||| 0x01#6, orders := orders } }
         let quiet := fun y : State =>
           { y with
             regs := { y.regs with part := .quiet }
             shared := { y.shared with orders := { y.shared.orders with scanTimer := none, pendingScan := false } } }
         let drawn : State := { v with freeCount := v.freeCount + 1 }
         (¬ rests →
             exec .answeredWriteDone s = .next (State.settle v))
           ∧ (rests →
               ((∀ r, v.claimPages.servePages.request r = none) → exec .answeredWriteDone s = .next (quiet v).settle)
                 ∧ ((∃ r, v.claimPages.servePages.request r ≠ none) →
                     exec .answeredWriteDone s = .next (quiet drawn).settle
                       ∨ exec .answeredWriteDone s = .next (quiet drawn.settle)))
           ∧ (∀ y : State,
               (quiet y).settle.tracks = y.tracks ∧ (quiet y).settle.bus = y.bus
                 ∧ (quiet y).settle.pages.lent = y.pages.lent ∧ (quiet y).settle.pages.writers = y.pages.writers
                 ∧ ∃ made, (quiet y).settle.pages.claims = y.pages.claims ++ made)
           ∧ (rests →
               ∃ u, exec .answeredWriteDone s = .next u
                 ∧ u.regs = { s.regs with part := .quiet }
                 ∧ u.shared = { s.shared with
                     notice := s.shared.notice ||| 0x01#6
                     orders := { orders with scanTimer := none, pendingScan := false } }
                 ∧ u.tracks = s.tracks ∧ u.pending = s.pending
                 ∧ (u.bus.inFlight = none ∨ ∃ b, u.bus = ⟨some b, b.requester⟩)))

/-- SET_TRACK is answered INVALID for no track, BUSY for a track that is not DISABLED, INVALID when a parameter lies outside
its range, and otherwise stores the whole configuration and changes nothing else; the ranges are those of R17 (R17, R178,
R182). -/
def Obligations.SetTrackConfiguresADisabledTrack : Prop :=
  (∀ (s : State) (o : Order), s.Carries 0x10#8 o →
      (trackOf (nat8 o.params 0) = none → exec .setTrack s = .next (s.answered o .invalid []))
        ∧ (∀ t, trackOf (nat8 o.params 0) = some t → (s.tracks.get t).mode ≠ .disabled →
            exec .setTrack s = .next (s.answered o .busy []))
        ∧ (∀ t, trackOf (nat8 o.params 0) = some t → (s.tracks.get t).mode = .disabled → trackConfigOf o.params = none →
            exec .setTrack s = .next (s.answered o .invalid []))
        ∧ (∀ t c, trackOf (nat8 o.params 0) = some t → (s.tracks.get t).mode = .disabled → trackConfigOf o.params = some c →
            exec .setTrack s = .next ((s.withTrack t { s.tracks.get t with config := c }).answered o .done [])))
    ∧ (∀ (l : List Byte) (c : TrackConfig),
        trackConfigOf l = some c ↔
          c = ⟨nat8 l 1, nat16 l 2, nat16 l 4, nat16 l 6, nat16 l 8, nat16 l 10, nat16 l 12, nat16 l 14, nat8 l 16, nat8 l 17⟩
            ∧ 1 ≤ c.platforms ∧ c.platforms ≤ 4 ∧ 80 ≤ c.headSpacing ∧ c.headSpacing ≤ 400
            ∧ 1 ≤ c.minSpeed ∧ c.minSpeed ≤ c.maxSpeed ∧ c.maxSpeed ≤ 1500
            ∧ 1 ≤ c.approachTimeout ∧ c.approachTimeout ≤ 600 ∧ 500 ≤ c.stallTime ∧ c.stallTime ≤ 10000
            ∧ 1 ≤ c.standingLimit ∧ c.standingLimit ≤ 1800 ∧ 50 ≤ c.settleTime ∧ c.settleTime ≤ 60000
            ∧ 4 ≤ c.minWindowSamples ∧ c.minWindowSamples ≤ 255 ∧ 1 ≤ c.headStuckTime ∧ c.headStuckTime ≤ 60)

/-- ENABLE_TRACK brings a configured, DISABLED track to IDLE with the track timer stopped and the sequence state none, and
changes nothing else; no track is INVALID, an enabled or unconfigured track BUSY. DISABLE_TRACK leaves a DISABLED track as it
is, takes an IDLE or APPROACH track to DISABLED with its points CLEAR, timer stopped, statistics removed, in APPROACH windows
and expected_direction gone, and a zero operation in progress PREEMPTED with cause DISABLED before the order is answered (its
answer's widths: log 24), and force-closes an open passage with reason DISABLED by the close procedure (closePassage, whose
steps O39 states), with what a close does to drift, capture unit and zero engine; the answer carries the number of the
passage closed or 0 (R15, R23, R32, R37, R44, R56, R60, R109, R145, R146, R160, R178). -/
def Obligations.EnableAndDisableTrack : Prop :=
  (∀ (s : State) (o : Order), s.Carries 0x11#8 o →
     (trackOf (nat8 o.params 0) = none → exec .enableTrack s = .next (s.answered o .invalid []))
       ∧ (∀ t, trackOf (nat8 o.params 0) = some t →
           (s.tracks.get t).mode ≠ .disabled ∨ (s.tracks.get t).config.platforms = 0 →
           exec .enableTrack s = .next (s.answered o .busy []))
       ∧ (∀ t, trackOf (nat8 o.params 0) = some t → (s.tracks.get t).mode = .disabled →
           (s.tracks.get t).config.platforms ≠ 0 →
           exec .enableTrack s
             = .next
                 ((s.withTrack t { s.tracks.get t with mode := .idle, timer := none, sequence := none }).answered o .done [])))
    ∧ (∀ (s : State) (o : Order), s.Carries 0x12#8 o →
         (trackOf (nat8 o.params 0) = none → exec .disableTrack s = .next (s.answered o .invalid []))
           ∧ (∀ t, trackOf (nat8 o.params 0) = some t → (s.tracks.get t).mode = .disabled →
               exec .disableTrack s = .next (s.answered o .done [0, 0, 0, 0]))
           ∧ (∀ t, trackOf (nat8 o.params 0) = some t → (s.tracks.get t).mode = .idle ∨ (s.tracks.get t).mode = .approach →
               ∃ platforms : Four Platform,
                 exec .disableTrack s
                     = .next
                         (State.answered
                           { s.withTrack t
                               { s.tracks.get t with
                                 mode := .disabled
                                 expected := if (s.tracks.get t).mode = .approach then none else (s.tracks.get t).expected
                                 timer := none
                                 points := pointsCleared
                                 platforms := platforms
                                 zero := none } with
                             shared :=
                               match (s.tracks.get t).zero with
                               | none => s.shared
                               | some z => s.shared.afterPreemption z 1 }
                           o .done [0, 0, 0, 0])
                   ∧ ∀ p, 1 ≤ p → p ≤ 4 →
                       platforms.get p
                         = ⟨if (s.tracks.get t).mode = .approach then none else ((s.tracks.get t).platforms.get p).window, none, none⟩)
           ∧ (∀ t p, trackOf (nat8 o.params 0) = some t → s.Coherent → (∀ e ∈ s.shared.classes, e.Sound) →
               (s.tracks.get t).mode.inPassage = true → (s.tracks.get t).context = some p →
               let v :=
                 (s.withOrders { s.shared.orders with queue := s.shared.orders.queue.tail }).onTrack t fun c =>
                   c.closePassage .disabled
               exec .disableTrack s
                   = .next
                       (State.settle
                         (v.withOrders
                           { v.shared.orders.pushAnswer ⟨o.slot, o.tag, .done, le32 p.number, .order⟩ with carrying := true }))
                 ∧ ∃ u : State, exec .disableTrack s = .next (u.answered o .done (le32 p.number))
                 ∧ (s.tracks.get t).ClosedTo t p .disabled s.shared.time (u.tracks.get t)
                 ∧ (s.scene t).ClosedEffects p .disabled (u.tracks.get t) u.shared
                 ∧ u.tracks.get t.other = s.tracks.get t.other ∧ (u.tracks.get t).zero = none
                 ∧ u.regs = s.regs ∧ u.pages = s.pages ∧ u.bus = s.bus ∧ u.shared.orders.queue = s.shared.orders.queue))

/-- CLOSE_PASSAGE closes an open passage with reason ORDERED, with what a close does to drift, capture unit and zero engine,
and answers DONE with its number; without a passage it answers NOTHING and changes nothing; no track is INVALID. Every close
is one chain: the track timer stops, reason and close_time are recorded, the windows of platforms 1 to P close (each as O28
states, with its pending step to the estimator, O18), the awaiting axles are finalized in departure order (O24), the real
axles on the bridge and in the stack are counted and discarded, the grouper flushes (O29, O30), the drift check reads the
last closed statistics, the close record is formed from the context as it then stands and queued into a reserved place with
lost_since_close, a recording of this track ends (O32), and the passage is left for IDLE, with the zero engine's return and
the automatic zero, or for DISABLED with its effects (R36, R55, R56, R57, R59, R60, R90, R109, R143, R147, R166, R178). -/
def Obligations.ClosePassageClosesAnOpenPassage : Prop :=
  (∀ (s : State) (o : Order), s.Carries 0x13#8 o →
       (trackOf (nat8 o.params 0) = none → exec .closePassage s = .next (s.answered o .invalid []))
         ∧ (∀ t, trackOf (nat8 o.params 0) = some t → (s.tracks.get t).mode.inPassage = false →
             exec .closePassage s = .next (s.answered o .nothing []))
         ∧ (∀ t p, trackOf (nat8 o.params 0) = some t → s.Coherent → (∀ e ∈ s.shared.classes, e.Sound) →
             (s.tracks.get t).mode.inPassage = true → (s.tracks.get t).context = some p →
             let v :=
               (s.withOrders { s.shared.orders with queue := s.shared.orders.queue.tail }).onTrack t fun c =>
                 c.closePassage .ordered
             exec .closePassage s
                 = .next
                     (State.settle
                       (v.withOrders
                         { v.shared.orders.pushAnswer ⟨o.slot, o.tag, .done, le32 p.number, .order⟩ with carrying := true }))
               ∧ ∃ u : State, exec .closePassage s = .next (u.answered o .done (le32 p.number))
               ∧ (s.tracks.get t).ClosedTo t p .ordered s.shared.time (u.tracks.get t)
               ∧ (s.scene t).ClosedEffects p .ordered (u.tracks.get t) u.shared
               ∧ u.tracks.get t.other = s.tracks.get t.other
               ∧ u.regs = s.regs ∧ u.pages = s.pages ∧ u.bus = s.bus ∧ u.shared.orders = s.shared.orders))
    ∧ (∀ (c : Scene) (reason : CloseReason),
        let begun : Scene :=
          { c with
            trk :=
              { c.trk with
                timer := none
                context := c.trk.context.map fun p => { p with reason := some reason, closeTime := some c.sh.time } } }
        let closed := ([1, 2, 3, 4].filter fun q => decide (q ≤ c.trk.config.platforms)).foldl Scene.closeWindow begun
        let finalized := closed.trk.axles.awaiting.foldl Scene.finalizeAxle closed
        let recorded := finalized.disposeAxles.closeFlush.checkDrift.queueCloseRecord
        c.closePassage reason
          = Scene.endClose
              { recorded with sh := { recorded.sh with capture := recorded.sh.capture.closeOf c.id } } reason)
    ∧ (∀ c : Scene,
        let left := (c.trk.axles.onBridge.filter fun e => !e.ghost).map (·.serial)
        let backed := (c.trk.axles.backedOut.filter fun e => !e.ghost).map (·.serial)
        c.disposeAxles
          = { c with
              trk :=
                { c.trk with
                  axles :=
                    { c.trk.axles with
                      records := c.trk.axles.records.filter fun r => decide (r.serial ∉ left ++ backed)
                      onBridge := []
                      backedOut := []
                      departed := []
                      discarded := c.trk.axles.discarded ++ left ++ backed }
                  context :=
                    c.trk.context.map fun p =>
                      { p with
                        axlesLeftOnBridge := satAdd 65535 p.axlesLeftOnBridge left.length
                        axlesBackedOut := satAdd 65535 p.axlesBackedOut backed.length } } })
    ∧ (∀ n k : Nat, n ≤ 65535 → satAdd 65535 n k = min 65535 (n + k))
    ∧ (∀ c : Scene,
        let far := fun (ch : Channel) (mean : Option Int) =>
          ch.zeroValid = true ∧ ∃ m, mean = some m ∧ c.sh.options.driftLimit * 65536 < (m - ch.zeroOffset).natAbs * ch.span
        let drifted :=
          c.sh.options.driftLimit ≠ 0 ∧ ∃ q x, 1 ≤ q ∧ q ≤ 4 ∧ q ≤ c.trk.config.platforms
            ∧ (c.trk.platforms.get q).last = some x ∧ x.empty = true ∧ c.trk.config.minWindowSamples ≤ x.sampleCount
            ∧ x.saturated = false ∧ x.gapped = false ∧ x.crosstalk = false
            ∧ (far (c.trk.calibration.get q).left x.mean.left ∨ far (c.trk.calibration.get q).right x.mean.right)
        (¬ drifted → c.checkDrift = c)
          ∧ (drifted →
              c.checkDrift
                = { c with
                    trk := { c.trk with context := c.trk.context.map fun p => { p with flags := { p.flags with drift := true } } }
                    sh := { c.sh with notice := c.sh.notice ||| 0x04#6 } }))
    ∧ (∀ (c : Scene) (p : Passage), c.trk.context = some p →
        (p.place = .lost → c.queueCloseRecord = c)
          ∧ (p.place = .reserved →
              c.queueCloseRecord
                = { c with
                    trk :=
                      { c.trk with
                        records :=
                          { c.trk.records with
                            queue := c.trk.records.queue ++ [.close ⟨c.id, p, c.trk.records.lostSinceClose⟩]
                            lostSinceClose := 0 } } }))
    ∧ (∀ (c : Scene) (reason : CloseReason),
        let gone : TrackState := { c.trk with context := none, nextWagon := 0, axles := ⟨[], [], [], [], [], [], 0, none, false⟩ }
        (reason ≠ .disabled →
            c.endClose reason = Scene.autoZero (Scene.zeroReturnsToIdle { c with trk := { gone with mode := .idle } }) reason)
          ∧ (reason = .disabled →
              c.endClose reason
                = Scene.zeroDisabled
                    { c with
                      trk :=
                        { gone with
                          mode := .disabled
                          timer := none
                          points := pointsCleared
                          platforms := c.trk.platforms.mapIdx fun _ x => ⟨x.window, none, none⟩ } }))

/-- WRITE_SPAN writes the span, and the lock when asked, of one channel and changes nothing else; a parameter outside its
range is INVALID, a locked channel LOCKED, an open passage BUSY, in this order (R104, R105, R107, R178, R182). -/
def Obligations.WriteSpanWritesAnUnlockedChannel : Prop :=
  (∀ (s : State) (o : Order), s.Carries 0x20#8 o →
      (spanWriteOf o.params = none → exec .writeSpan s = .next (s.answered o .invalid []))
        ∧ (∀ w, spanWriteOf o.params = some w →
            let k := s.tracks.get w.track
            let ch := channelGet k.calibration w.channel
            (ch.lock = true → exec .writeSpan s = .next (s.answered o .locked []))
              ∧ (ch.lock = false → k.mode.inPassage = true → exec .writeSpan s = .next (s.answered o .busy []))
              ∧ (ch.lock = false → k.mode.inPassage = false →
                  ∃ store : Four (Rails Channel),
                    exec .writeSpan s = .next ((s.withTrack w.track { k with calibration := store }).answered o .done [])
                      ∧ channelGet store w.channel = { ch with span := w.span, lock := w.lock }
                      ∧ ∀ c, 1 ≤ c → c ≤ 8 → c ≠ w.channel → channelGet store c = channelGet k.calibration c)))
    ∧ (∀ (l : List Byte) (w : SpanWrite),
        spanWriteOf l = some w ↔
          trackOf (nat8 l 0) = some w.track ∧ w.channel = nat8 l 1 ∧ w.span = nat32 l 2 ∧ boolOf (nat8 l 6) = some w.lock
            ∧ 1 ≤ w.channel ∧ w.channel ≤ 8 ∧ 1 ≤ w.span ∧ w.span ≤ 16777216)

/-- ZERO starts an operation with the order's slot and tag, target count and the hold limit in force: ACCUMULATING in IDLE,
SUSPENDED with its hold timer otherwise, unanswered, the order off the queue and nothing else changed; no track and a count
below 64 are INVALID, a DISABLED track or a running operation BUSY (an operation's first suspend_start is the model's 0, log
14; startsRun is the model's mark of a suspension that no frame has followed, log 30) (R137, R138, R142, R178). -/
def Obligations.ZeroStartsAnOperation : Prop :=
  ∀ (s : State) (o : Order), s.Carries 0x22#8 o →
    (trackOf (nat8 o.params 0) = none → exec .zero s = .next (s.answered o .invalid []))
      ∧ (∀ t, trackOf (nat8 o.params 0) = some t →
          let k := s.tracks.get t
          let count := nat16 o.params 1
          let started : ZeroOperation :=
            ⟨.accumulating, .order o.slot o.tag, count, 0, ⟨⟨0, 0⟩, ⟨0, 0⟩, ⟨0, 0⟩, ⟨0, 0⟩⟩, 0, s.shared.options.zeroHoldLimit, 0, 0, none, false⟩
          (k.mode = .disabled ∨ k.zero ≠ none → exec .zero s = .next (s.answered o .busy []))
            ∧ (k.mode ≠ .disabled → k.zero = none → count < 64 → exec .zero s = .next (s.answered o .invalid []))
            ∧ (k.mode = .idle → k.zero = none → 64 ≤ count →
                exec .zero s
                  = .next
                      (State.settle
                        ((s.withTrack t { k with zero := some started }).withOrders
                          { s.shared.orders with queue := s.shared.orders.queue.tail })))
            ∧ (k.mode ≠ .disabled → k.mode ≠ .idle → k.zero = none → 64 ≤ count → 0 < s.shared.options.zeroHoldLimit →
                exec .zero s
                  = .next
                      (State.settle
                        ((s.withTrack t
                            { k with
                            zero := some
                              { started with
                                state := .suspended
                                suspendStart := s.shared.time
                                startsRun := true
                                holdTimer := some ⟨s.shared.time, s.shared.options.zeroHoldLimit * 1000000⟩ } }).withOrders
                          { s.shared.orders with queue := s.shared.orders.queue.tail }))))

/-- WRITE_CLASS replaces the whole content of one unlocked class entry and changes nothing else; a checked parameter outside
its range is INVALID and then a locked entry LOCKED; OFF stores the OFF content and checks only index, mode and lock; PATTERN
and COUNT check n, pairs 1 to n - 1, class code, kind and shift limit, and any entry in range is accepted and stored with its
lock, the order completing with DONE for every such parameter area over an unlocked entry (log 17: the table's order of
tests) (R112, R113, R114, R178, R182). -/
def Obligations.WriteClassReplacesAnUnlockedEntry : Prop :=
  (∀ (s : State) (o : Order), s.Carries 0x30#8 o →
      (classWriteOf o.params = none → exec .writeClass s = .next (s.answered o .invalid []))
        ∧ (∀ w e, classWriteOf o.params = some w → s.shared.classes[w.index]? = some e →
            (e.lock = true → exec .writeClass s = .next (s.answered o .locked []))
              ∧ (e.lock = false →
                  exec .writeClass s
                    = .next
                        (State.answered { s with shared := { s.shared with classes := s.shared.classes.set w.index w.entry } }
                          o .done []))))
    ∧ (∀ (l : List Byte) (w : ClassWrite),
        classWriteOf l = some w ↔
          w.index = nat8 l 0 ∧ w.index ≤ 15 ∧ boolOf (nat8 l 42) = some w.entry.lock
            ∧ ((nat8 l 1 = 0 ∧ w.entry = ⟨.off, 1, [], 0, 0, .wagon, 0, 0, 0, w.entry.lock⟩)
              ∨ (((nat8 l 1 = 1 ∧ w.entry.mode = .pattern) ∨ (nat8 l 1 = 2 ∧ w.entry.mode = .count))
                ∧ w.entry
                    = ⟨w.entry.mode, nat8 l 2,
                        (List.range (nat8 l 2 - 1)).map fun i => ⟨nat16 l (3 + 4 * i), nat16 l (5 + 4 * i)⟩,
                        nat16 l 31, nat8 l 33, w.entry.kind, nat32 l 35, nat16 l 39, nat8 l 41, w.entry.lock⟩
                ∧ ((nat8 l 34 = 0 ∧ w.entry.kind = .wagon) ∨ (nat8 l 34 = 1 ∧ w.entry.kind = .locomotive)
                  ∨ (nat8 l 34 = 2 ∧ w.entry.kind = .other))
                ∧ 1 ≤ nat8 l 2 ∧ nat8 l 2 ≤ 8 ∧ nat8 l 33 ≤ 254 ∧ nat8 l 41 ≤ 100
                ∧ ∀ i, i + 1 < nat8 l 2 → nat16 l (3 + 4 * i) ≤ nat16 l (5 + 4 * i))))
    ∧ (∀ (s : State) (o : Order) (e : ClassEntry) (lock : Bool), s.Carries 0x30#8 o →
        nat8 o.params 0 ≤ 15 → boolOf (nat8 o.params 42) = some lock →
        s.shared.classes[nat8 o.params 0]? = some e → e.lock = false →
        (nat8 o.params 1 = 0 →
            exec .writeClass s
              = .next
                  (State.answered
                    { s with shared := { s.shared with
                      classes := s.shared.classes.set (nat8 o.params 0) ⟨.off, 1, [], 0, 0, .wagon, 0, 0, 0, lock⟩ } }
                    o .done []))
          ∧ (∀ (mode : ClassMode) (kind : VehicleKind),
              (nat8 o.params 1 = 1 ∧ mode = .pattern) ∨ (nat8 o.params 1 = 2 ∧ mode = .count) →
              kindOf (nat8 o.params 34) = some kind →
              1 ≤ nat8 o.params 2 → nat8 o.params 2 ≤ 8 → nat8 o.params 33 ≤ 254 → nat8 o.params 41 ≤ 100 →
              (∀ i, i + 1 < nat8 o.params 2 → nat16 o.params (3 + 4 * i) ≤ nat16 o.params (5 + 4 * i)) →
              exec .writeClass s
                = .next
                    (State.answered
                      { s with shared := { s.shared with
                        classes :=
                          s.shared.classes.set (nat8 o.params 0)
                            ⟨mode, nat8 o.params 2,
                              (List.range (nat8 o.params 2 - 1)).map fun i =>
                                ⟨nat16 o.params (3 + 4 * i), nat16 o.params (5 + 4 * i)⟩,
                              nat16 o.params 31, nat8 o.params 33, kind, nat32 o.params 35, nat16 o.params 39,
                              nat8 o.params 41, lock⟩ } }
                      o .done [])))

/-- SET_WATCH replaces the whole configuration of one watch unit, its hit_count 0, and changes nothing else, the capture unit
included; a parameter outside the range that its condition gives is INVALID, and any in range is accepted: a value the
condition does not use is not checked and stored as 0 (R151, R152, R178, R182). -/
def Obligations.SetWatchReplacesAUnit : Prop :=
  (∀ (s : State) (o : Order), s.Carries 0x40#8 o →
      (watchWriteOf o.params = none → exec .setWatch s = .next (s.answered o .invalid []))
        ∧ (∀ w, watchWriteOf o.params = some w →
            exec .setWatch s
              = .next
                  (State.answered { s with shared := { s.shared with watch := s.shared.watch.set (w.unit + 1) w.value } }
                    o .done [])))
    ∧ (∀ (l : List Byte) (w : WatchWrite),
        watchWriteOf l = some w ↔
          w.unit = nat8 l 0 ∧ w.unit ≤ 3 ∧ w.value.hitCount = 0 ∧ boolOf (nat8 l 1) = some w.value.enabled
            ∧ ((nat8 l 2 = 0 ∧ w.value.track = some .A) ∨ (nat8 l 2 = 1 ∧ w.value.track = some .B)
              ∨ (nat8 l 2 = 2 ∧ w.value.track = none))
            ∧ ((nat8 l 10 = 0 ∧ w.value.action = .mark) ∨ (nat8 l 10 = 1 ∧ w.value.action = .capture))
            ∧ ((nat8 l 11 = 0 ∧ w.value.scope = .own) ∨ (nat8 l 11 = 1 ∧ w.value.scope = .both))
            ∧ match w.value.condition with
              | .grossAbove => nat8 l 3 = 0 ∧ w.value.value1 = nat32 l 4 ∧ w.value.value2 = 0
              | .axleAbove => nat8 l 3 = 1 ∧ w.value.value1 = nat32 l 4 ∧ w.value.value2 = 0 ∧ nat32 l 4 ≤ 131070
              | .shiftAbove => nat8 l 3 = 2 ∧ w.value.value1 = nat32 l 4 ∧ w.value.value2 = 0 ∧ nat32 l 4 ≤ 100
              | .speedOutside =>
                nat8 l 3 = 3 ∧ w.value.value1 = nat32 l 4 ∧ w.value.value2 = nat16 l 8 ∧ nat32 l 4 ≤ nat16 l 8 ∧ nat16 l 8 ≤ 1500
              | .classIs => nat8 l 3 = 4 ∧ w.value.value1 = nat32 l 4 ∧ w.value.value2 = 0 ∧ nat32 l 4 ≤ 255
              | .ungrouped => nat8 l 3 = 5 ∧ w.value.value1 = 0 ∧ w.value.value2 = 0)

/-- CLEAR_HITS answers DONE with the four hit counts as they stood before, and sets to 0 those of the units set in bits 0 to
3 of the mask; bits 4 to 7 are ignored, no configuration changes, and it is accepted in every state (R153). -/
def Obligations.ClearHitsReadsAllAndClearsTheNamedCounts : Prop :=
  ∀ (s : State) (o : Order), s.Carries 0x41#8 o →
    exec .clearHits s
      = .next
          (State.answered
            { s with
              shared :=
                { s.shared with
                  watch :=
                    ⟨if (o.params.getD 0 0).getLsbD 0 then { s.shared.watch.first with hitCount := 0 } else s.shared.watch.first,
                      if (o.params.getD 0 0).getLsbD 1 then { s.shared.watch.second with hitCount := 0 } else s.shared.watch.second,
                      if (o.params.getD 0 0).getLsbD 2 then { s.shared.watch.third with hitCount := 0 } else s.shared.watch.third,
                      if (o.params.getD 0 0).getLsbD 3 then { s.shared.watch.fourth with hitCount := 0 }
                      else s.shared.watch.fourth⟩ } }
            o .done
            (le16 s.shared.watch.first.hitCount ++ le16 s.shared.watch.second.hitCount ++ le16 s.shared.watch.third.hitCount
              ++ le16 s.shared.watch.fourth.hitCount))

/-- SET_CAPTURE takes area, E and M and arms the unit, or disarms it for entries 0, and changes nothing else; entries from 1
to 15 are INVALID, RECORDING is BUSY, and an area that is not a multiple of 8 or runs past 2^32 or a post_trigger below 16 is
INVALID, in this order (the items that lose their meaning keep their old values: the model's choice, log 31) (R156, R157,
R178, R182). -/
def Obligations.SetCaptureArmsOrDisarms : Prop :=
  ∀ (s : State) (o : Order), s.Carries 0x42#8 o →
    let address := nat32 o.params 0
    let entries := nat16 o.params 4
    let postTrigger := nat16 o.params 6
    (0 < entries → entries < 16 → exec .setCapture s = .next (s.answered o .invalid []))
      ∧ (entries = 0 ∨ 16 ≤ entries → s.shared.capture.state = .recording →
          exec .setCapture s = .next (s.answered o .busy []))
      ∧ (entries = 0 → s.shared.capture.state ≠ .recording →
          exec .setCapture s
            = .next
                (State.answered { s with shared := { s.shared with capture := { s.shared.capture with state := .disarmed } } }
                  o .done []))
      ∧ (16 ≤ entries → s.shared.capture.state ≠ .recording →
          address % 8 ≠ 0 ∨ 4294967296 < address + 32 + 40 * entries ∨ postTrigger < 16 →
          exec .setCapture s = .next (s.answered o .invalid []))
      ∧ (16 ≤ entries → s.shared.capture.state ≠ .recording →
          address % 8 = 0 → address + 32 + 40 * entries ≤ 4294967296 → 16 ≤ postTrigger →
          exec .setCapture s
            = .next
                (State.answered
                  { s with
                  shared := { s.shared with capture :=
                    { s.shared.capture with
                      state := .armed
                      area := BitVec.ofNat 32 address
                      slots := entries
                      limit := postTrigger } } }
                  o .done []))

/-- LEND_PAGE adds one page to the rear of the list and changes nothing else but what the step's end serves; an address that
is no multiple of 4096, in the list or a current page is INVALID, and a list of 16 NO_ROOM (R167, R168, R170, R178). -/
def Obligations.LendPageAddsAPageToTheList : Prop :=
  ∀ (s : State) (o : Order), s.Carries 0x50#8 o →
    let address := nat32 o.params 0
    (address % 4096 ≠ 0 → exec .lendPage s = .next (s.answered o .invalid []))
      ∧ (BitVec.ofNat 32 address ∈ s.pages.addresses → exec .lendPage s = .next (s.answered o .invalid []))
      ∧ (address % 4096 = 0 → BitVec.ofNat 32 address ∉ s.pages.addresses → 16 ≤ s.pages.lent.length →
          exec .lendPage s = .next (s.answered o .noRoom []))
      ∧ (address % 4096 = 0 → BitVec.ofNat 32 address ∉ s.pages.addresses → s.pages.lent.length < 16 →
          exec .lendPage s
            = .next
                (State.answered { s with pages := { s.pages with lent := s.pages.lent ++ [BitVec.ofNat 32 address] } } o .done []))

/-- RECLAIM_PAGES removes every lent page at once and makes its header writes ready one after the other (log 10), oldest page
first, the current pages staying; each writes the page's 32-byte header UNUSED, track A, bytes used 32, everything else 0, at
the page's address; after the last one the order's answer, DONE with the number removed, is due; an empty list is answered at
once. That the number takes one byte of the answer is the model's deduction from R182 (log 24, unsafe) (R167, R169, R178,
R182). -/
def Obligations.ReclaimPagesWritesEveryHeaderAndAnswers : Prop :=
  (∀ (s : State) (o : Order), s.Carries 0x51#8 o →
      (s.pages.lent = [] → exec .reclaimPages s = .next (s.answered o .done [0]))
        ∧ (s.pages.lent ≠ [] →
            exec .reclaimPages s
              = .next
                  (State.settle
                    { s.withOrders
                        { s.shared.orders with
                          queue := s.shared.orders.queue.tail
                          reclaim := some ⟨o.slot, o.tag, s.pages.lent, s.pages.lent.length⟩
                          ready := s.shared.orders.ready ++ [.reclaimHeader]
                          carrying := true } with
                      pages := { s.pages with lent := [] } })))
    ∧ (∀ (s : State) (a : Access) (r : Reclaim) (first : Word), s.Ends .reclaimHeader a → s.shared.orders.reclaim = some r →
        (∀ second rest, r.left = first :: second :: rest →
            exec .reclaimHeaderWriteDone s
              = .next
                  (State.settle
                    ((s.withFreePort).withOrders
                      { s.shared.orders with
                        reclaim := some { r with left := second :: rest }
                        ready := s.shared.orders.ready.tail ++ [.reclaimHeader] })))
          ∧ (r.left = [first] →
              exec .reclaimHeaderWriteDone s
                = .next
                    (State.settle
                      ((s.withFreePort).withOrders
                        (({ s.shared.orders with ready := s.shared.orders.ready.tail, reclaim := none }).pushAnswer
                          ⟨r.slot, r.tag, .done, [BitVec.ofNat 8 r.count], .order⟩)))))
    ∧ (∀ (u : OrderUnit) (anchor : Word) (r : Reclaim) (first : Word) (rest : List Word),
        u.reclaim = some r → r.left = first :: rest →
        u.access anchor .reclaimHeader
          = some
              ⟨.orderUnit, .reclaimHeader, first,
                [3, 0] ++ le16 0 ++ le32 0 ++ le16 0 ++ le16 32 ++ le16 0 ++ List.replicate 18 0, false⟩)

/-! ### Accesses -/

/-- A slot read as POSTED makes its TAKEN write ready with the order as read; any other slot is passed over; when the TAKEN
write completes the order joins the queue, the scan position becomes its slot and the scan goes on (log 9). The scan read of
slot k is a read at ANCHOR + 64 k, and its TAKEN write writes the one byte 2 there (that it covers the state byte alone is
the model's choice, log 11). The parameters of every order are read by these codes: A 0 and B 1; NO, OFF and LOW 0, YES, ON
and HIGH 1; MARK 0 and EXCLUDE 1; WAGON 0, LOCOMOTIVE 1 and OTHER 2; quantities of 1, 2 and 4 bytes little-endian; channel 2p
- 1 is platform p's left and 2p its right, LOW the channels 1 to 4 and HIGH 5 to 8; and the catalogue holds the seventeen
kinds of section 10.5 (R176, R177, R182, R29, R107, R108, R114, R178, R179). -/
def Obligations.AScanReadTakesAPostedSlot : Prop :=
  (∀ (s : State) (a : Access) (bytes : List Byte) (x : Scan), s.Ends .scanRead a → s.shared.orders.scan = some x →
      (bytes.getD 0 0 = 1#8 →
          exec (.scanReadDone bytes) s
            = .next
                (State.settle
                  ((s.withFreePort).withOrders
                    { s.shared.orders with
                      scan := some
                        { x with
                        take := some
                          ⟨x.slot, bytes.getD 1 0, bytes.getD 3 0 ++ bytes.getD 2 0, ((bytes.drop 16) ++ List.replicate 48 0).take 48⟩ }
                      ready := s.shared.orders.ready.tail ++ [.takenWrite x.slot] })))
        ∧ (bytes.getD 0 0 ≠ 1#8 →
            exec (.scanReadDone bytes) s
              = .next
                  (State.settle
                    ((s.withFreePort).withOrders
                      (({ s.shared.orders with ready := s.shared.orders.ready.tail }).continueScan s.shared.time
                        s.shared.options.scanInterval x.slot x.left)))))
    ∧ (∀ (s : State) (a : Access) (x : Scan) (o : Order), s.Ends .takenWrite a → s.shared.orders.scan = some x →
        x.take = some o →
        exec .takenWriteDone s
          = .next
              (State.settle
                ((s.withFreePort).withOrders
                  (({ s.shared.orders with
                      ready := s.shared.orders.ready.tail
                      queue := s.shared.orders.queue ++ [o]
                      scanPosition := x.slot
                      scan := some { x with take := none } }).continueScan s.shared.time s.shared.options.scanInterval
                        x.slot x.left))))
    ∧ (∀ (u : OrderUnit) (anchor : Word) (k : Nat),
        u.access anchor (.scanRead k) = some ⟨.orderUnit, .scanRead, anchor + 64 * BitVec.ofNat 32 k, [], false⟩
          ∧ u.access anchor (.takenWrite k) = some ⟨.orderUnit, .takenWrite, anchor + 64 * BitVec.ofNat 32 k, [2], false⟩)
    ∧ (∀ n : Nat,
        trackOf n = (if n = 0 then some .A else if n = 1 then some .B else none)
          ∧ boolOf n = (if n = 0 then some false else if n = 1 then some true else none)
          ∧ policyOf n = (if n = 0 then some .mark else if n = 1 then some .exclude else none)
          ∧ kindOf n = (if n = 0 then some .wagon else if n = 1 then some .locomotive else if n = 2 then some .other else none))
    ∧ (∀ (l : List Byte) (i : Nat),
        nat8 l i = (l.getD i 0).toNat
          ∧ nat16 l i = (l.getD i 0).toNat + 256 * (l.getD (i + 1) 0).toNat
          ∧ nat32 l i
            = (l.getD i 0).toNat + 256 * (l.getD (i + 1) 0).toNat + 65536 * (l.getD (i + 2) 0).toNat
              + 16777216 * (l.getD (i + 3) 0).toNat)
    ∧ (∀ x : Four (Rails Channel),
        (∀ p, 1 ≤ p → p ≤ 4 → channelGet x (2 * p - 1) = (x.get p).left ∧ channelGet x (2 * p) = (x.get p).right)
          ∧ halfChannels x false = [1, 2, 3, 4].map (channelGet x) ∧ halfChannels x true = [5, 6, 7, 8].map (channelGet x))
    ∧ catalogue
        = [0x01, 0x02, 0x03, 0x10, 0x11, 0x12, 0x13, 0x20, 0x21, 0x22, 0x30, 0x31, 0x40, 0x41, 0x42, 0x50, 0x51]

/-- When the answer fields are written the state write ANSWERED becomes ready; when it completes, ANSWER is raised, the
answer leaves the FIFO, the next one's fields become ready and an order's own answer lets the next order be carried out; the
accesses carry the fields and the state. The order unit asks for the access that became ready first; a due answer joins the
FIFO and makes its fields ready when no other is being written. (Which slot bytes the writes cover is the model's choice, log
11.) (R176, R177, R178, R181, R182). -/
def Obligations.AnAnswerIsWrittenInTwoAccesses : Prop :=
  (∀ (s : State) (a : Access), s.Ends .answerFields a →
      exec .answerFieldsWriteDone s
        = .next
            (State.settle
              ((s.withFreePort).withOrders
                { s.shared.orders with ready := s.shared.orders.ready.tail ++ [.answered] })))
    ∧ (∀ (s : State) (a : Access) (x : Answer) (rest : List Answer), s.Ends .answered a →
        s.shared.orders.answers = x :: rest → x.owner ≠ .quiet →
        exec .answeredWriteDone s
          = .next
              (State.settle
                { s.withFreePort with
                  shared :=
                    { s.shared with
                      notice := s.shared.notice ||| 0x01#6
                      orders :=
                        { s.shared.orders with
                          answers := rest
                          ready :=
                            if rest = [] then s.shared.orders.ready.tail else s.shared.orders.ready.tail ++ [.answerFields]
                          carrying := if x.owner = .zero then s.shared.orders.carrying else false } } }))
    ∧ (∀ (u : OrderUnit) (anchor : Word) (x : Answer), u.answers.head? = some x →
        (∃ a, u.access anchor .answerFields = some a ∧ a.kind = .answerFields
            ∧ a.address = anchor + 64 * BitVec.ofNat 32 x.slot + 2
            ∧ a.data = [BitVec.ofNat 8 x.tag.toNat, BitVec.ofNat 8 (x.tag.toNat / 256), match x.code with
                  | .done => 0#8
                  | .busy => 1#8
                  | .invalid => 2#8
                  | .locked => 3#8
                  | .noRoom => 4#8
                  | .nothing => 5#8
                  | .failed => 6#8
                  | .preempted => 7#8]
                ++ List.replicate 11 0 ++ (x.area ++ List.replicate 48 0).take 48)
          ∧ ∃ a, u.access anchor .answered = some a ∧ a.kind = .answered
            ∧ a.address = anchor + 64 * BitVec.ofNat 32 x.slot ∧ a.data = [3])
    ∧ (∀ (u : OrderUnit) (anchor : Word),
        (u.ready = [] → u.request anchor = none) ∧ ∀ x l, u.ready = x :: l → u.request anchor = u.access anchor x)
    ∧ (∀ (u : OrderUnit) (x : Answer),
        (u.answers = [] → u.pushAnswer x = { u with answers := [x], ready := u.ready ++ [.answerFields] })
          ∧ (u.answers ≠ [] → u.pushAnswer x = { u with answers := u.answers ++ [x] }))

/-- A page writer writes its queue's head record at the fill offset while it fits in the 4096-byte page, 64 bytes at most at
a time (log 12), and otherwise, or after a close record, the page's header; wagon and close records have the bytes of R182's
layouts. A record write that does not complete its record lets the next piece follow; one that does takes the record off its
queue, moves the fill offset, counts it and for a close record frees the close place and ends the page; a completed header
write returns the page, raises PAGE and, for an END page, sets page_sequence to 0 (R164, R170, R171, R172, R175, R181, R182).
-/
def Obligations.RecordsAreWrittenIntoPages : Prop :=
  ((∀ (w : PageWriter) (t : Track) (g : Page),
        (w.current = none → ∀ queue, w.request t queue = none)
          ∧ (w.current = some g → g.ended = false → w.request t [] = none)
          ∧ (∀ r rest, w.current = some g → g.ended = false → g.fill + r.size ≤ 4096 →
              ∃ a, w.request t (r :: rest) = some a ∧ a.kind = .recordWrite
                ∧ a.address = g.address + BitVec.ofNat 32 (g.fill + g.written) ∧ a.data = (r.bytes.drop g.written).take 64)
          ∧ (∀ queue, w.current = some g →
              g.ended = true ∨ (g.ended = false ∧ ∃ r rest, queue = r :: rest ∧ 4096 < g.fill + r.size) →
              ∃ a, w.request t queue = some a ∧ a.kind = .pageHeader ∧ a.address = g.address
                ∧ a.data
                    = [if g.ended then 2#8 else 1#8, match t with
                        | .A => 0#8
                        | .B => 1#8] ++ le16 w.sequence ++ le32 g.passage ++ le16 g.records ++ le16 g.fill ++ le16 g.firstWagon
                      ++ List.replicate 18 0))
     ∧ (∀ x : Wagon,
         (Record.wagon x).bytes
             = [1#8,
                 match x.track with
                   | .A => 0#8
                   | .B => 1#8,
                 BitVec.ofNat 8 x.axles.length,
                 match x.classIndex with
                   | none => 255#8
                   | some i => BitVec.ofNat 8 i]
               ++ le32 x.passage ++ le16 x.number
               ++ (match x.axles with
                 | [] => le16 0
                 | y :: _ => le16 y.serial)
               ++ [BitVec.ofNat 8 x.classCode,
                 match x.kind with
                   | .wagon => 0#8
                   | .locomotive => 1#8
                   | .other => 2#8
                   | .unknown => 3#8,
                 BitVec.ofNat 8 x.shift, x.watchMask.setWidth 8]
               ++ le32 x.gross
               ++ (match x.meanSpeed with
                 | none => le16 65535
                 | some v => le16 v)
               ++ le16
                 (maskOf
                   [x.flags.incomplete, x.flags.ungrouped, x.flags.overGross, x.flags.overAxle, x.flags.sideShift, x.flags.speed,
                     x.flags.crosstalk, x.flags.captureMissed, x.flags.flushed])
               ++ List.replicate 8 0
               ++ (x.axles.map fun (y : FinalAxle) =>
                 (match y.load with
                   | none => le16 0 ++ le16 0
                   | some l => le16 l.left ++ le16 l.right)
                 ++ (match y.speed with
                   | none => le16 65535
                   | some v => le16 v)
                 ++ [BitVec.ofNat 8 y.estimateCount,
                   BitVec.ofNat 8
                     (maskOf
                       [y.flags.noEstimate, y.flags.crosstalk, y.flags.speed, y.flags.noLead, y.flags.low,
                         y.flags.reentered])]).flatten
           ∧ (Record.wagon x).bytes.length = 32 + 8 * x.axles.length)
     ∧ (∀ x : CloseRecord,
         (Record.close x).bytes
             = [2#8,
                 match x.track with
                   | .A => 0#8
                   | .B => 1#8,
                 match x.passage.direction with
                   | .up => 0#8
                   | .down => 1#8,
                 match x.passage.cause with
                   | .approach => 0#8
                   | .direct => 1#8,
                 match x.passage.reason with
                   | none => 0#8
                   | some .normal => 0#8
                   | some .withdrawn => 1#8
                   | some .ordered => 2#8
                   | some .disabled => 3#8
                   | some .standing => 4#8
                   | some .overflow => 5#8,
                 0, 0, 0]
               ++ le32 x.passage.number ++ le32 x.passage.openTime.toNat
               ++ (match x.passage.closeTime with
                 | none => le32 0
                 | some v => le32 v.toNat)
               ++ le16 x.passage.axlesCreated ++ le16 x.passage.axlesDeparted ++ le16 x.passage.axlesLeftOnBridge
               ++ le16 x.passage.axlesBackedOut ++ le16 x.passage.ghostEntries
               ++ le16 x.passage.wagonsFormed ++ le16 x.passage.wagonsUnrecorded ++ le16 x.passage.locomotives
               ++ le32 x.passage.freightTotal ++ le16 x.passagesLost
               ++ le16
                 (maskOf
                   [x.passage.flags.noApproach, x.passage.flags.unzeroed, x.passage.flags.drift, x.passage.flags.crosstalkSeen,
                     x.passage.flags.sequence, x.passage.flags.pointFault, x.passage.flags.gapped, x.passage.flags.saturated,
                     x.passage.flags.reentry, x.passage.flags.recordLoss])
               ++ List.replicate 20 0
           ∧ (Record.close x).bytes.length = 64))
    ∧ ((∀ (s : State) (a : Access) (g : Page) (r : Record) (rest : List Record), s.Ends .recordWrite a →
           (s.pages.writers.get a.requester.track).current = some g →
           (s.tracks.get a.requester.track).records.queue = r :: rest →
           let t := a.requester.track
           let w := s.pages.writers.get t
           let size := match r with
             | .wagon x => 32 + 8 * x.axles.length
             | .close _ => 64
           (g.written + a.data.length < size →
               exec .recordWriteDone s
                 = .next
                     (State.settle
                       { s.withFreePort with pages := { s.pages with
                       writers := s.pages.writers.set t
                         { w with current := some { g with written := g.written + a.data.length } } } }))
             ∧ (∀ x, r = .wagon x → size ≤ g.written + a.data.length →
                 exec .recordWriteDone s
                   = .next
                       (State.settle
                         { (s.withFreePort).withTrack t
                             { s.tracks.get t with records := { (s.tracks.get t).records with queue := rest } } with
                           pages := { s.pages with
                           writers := s.pages.writers.set t
                             { w with
                             current := some
                               { g with
                                 fill := g.fill + size
                                 records := g.records + 1
                                 firstWagon := if g.firstWagon = 0 then x.number else g.firstWagon
                                 passage := x.passage
                                 written := 0
                                 ended := false } } } }))
             ∧ (∀ x, r = .close x → size ≤ g.written + a.data.length →
                 exec .recordWriteDone s
                   = .next
                       (State.settle
                         { (s.withFreePort).withTrack t
                             { s.tracks.get t with
                               records :=
                                 { (s.tracks.get t).records with
                                   queue := rest
                                   placesInUse := (s.tracks.get t).records.placesInUse - 1 } } with
                           pages := { s.pages with
                           writers := s.pages.writers.set t
                             { w with
                             current := some
                               { g with
                                 fill := g.fill + size
                                 records := g.records + 1
                                 passage := x.passage.number
                                 written := 0
                                 ended := true } } } })))
         ∧ (∀ (s : State) (a : Access) (g : Page), s.Ends .pageHeader a →
             (s.pages.writers.get a.requester.track).current = some g →
             exec .pageHeaderWriteDone s
               = .next
                   (State.settle
                     { s.withFreePort with
                       shared := { s.shared with notice := s.shared.notice ||| 0x02#6 }
                       pages := { s.pages with
                       writers := s.pages.writers.set a.requester.track
                         ⟨none, if g.ended then 0 else (s.pages.writers.get a.requester.track).sequence⟩ } })))

/-- A bus error halts the part with FAULT_ADDRESS, fault code and the FAULT notice, every block keeping its state; an access
that a reset discarded ends without effect, be it by completion or by bus error (R175, R186, R187). -/
def Obligations.ABusErrorHaltsThePart : Prop :=
  (∀ (s : State) (a : Access), s.bus.inFlight = some a → a.discarded = false →
      exec .busError s
        = .next
            { s.withFreePort with
              regs := { s.regs with part := .halted, faultCode := some a.requester, faultAddress := a.address }
              shared := { s.shared with notice := s.shared.notice ||| 0x20#6 } })
    ∧ (∀ (s : State) (a : Access) (bytes : List Byte), s.bus.inFlight = some a → a.discarded = true →
        exec .busError s = .next (State.settle s.withFreePort)
          ∧ (a.kind = .scanRead → exec (.scanReadDone bytes) s = .next (State.settle s.withFreePort))
          ∧ (a.kind = .takenWrite → exec .takenWriteDone s = .next (State.settle s.withFreePort))
          ∧ (a.kind = .answerFields → exec .answerFieldsWriteDone s = .next (State.settle s.withFreePort))
          ∧ (a.kind = .answered → exec .answeredWriteDone s = .next (State.settle s.withFreePort))
          ∧ (a.kind = .recordWrite → exec .recordWriteDone s = .next (State.settle s.withFreePort))
          ∧ (a.kind = .pageHeader → exec .pageHeaderWriteDone s = .next (State.settle s.withFreePort))
          ∧ (a.kind = .reclaimHeader → exec .reclaimHeaderWriteDone s = .next (State.settle s.withFreePort))
          ∧ (a.kind = .captureEntry → exec .captureEntryWriteDone s = .next (State.settle s.withFreePort))
          ∧ (a.kind = .captureHeader → exec .captureHeaderWriteDone s = .next (State.settle s.withFreePort)))

/-- What every step does last changes page lists and bus only: nothing in STOPPED and HALTED; in QUIET claims are made (R170;
the model's reading that a claim is made there, DEDUCED, log 22), no claim is served, even on a list that is not empty, and
no access starts (R171, R184); a busy port stays as it is. In RUNNING each writer with a record, no page and no waiting claim
makes one, behind those that wait; the claims are served in the order taken, each with the oldest lent page, page_sequence
advancing, while pages last, and the rest wait (log 8). A free port is granted to the first requester asking in the cyclic
order order unit, page writer A, page writer B, capture writer, starting after the last grantee, which it then is; when none
asks nothing changes (R170, R171, R175, R184, R186). -/
def Obligations.TheEndOfAStepServesClaimsAndGrantsThePort : Prop :=
  (∀ s : State,
     (s.settle = { s with pages := s.settle.pages, bus := s.settle.bus })
       ∧ (s.regs.part = .stopped ∨ s.regs.part = .halted → s.settle = s)
       ∧ (s.regs.part = .quiet →
           s.settle.bus = s.bus ∧ s.settle.pages.lent = s.pages.lent ∧ s.settle.pages.writers = s.pages.writers)
       ∧ (∀ a, s.bus.inFlight = some a → s.settle.bus = s.bus)
       ∧ (∀ t address rest, s.regs.part = .running → (s.tracks.get t).records.queue ≠ [] →
           (s.pages.writers.get t).current = none → s.pages.claims = [] → s.pages.lent = address :: rest →
           (s.tracks.get t.other).records.queue = [] ∨ (s.pages.writers.get t.other).current ≠ none →
           s.settle.pages
             = ⟨rest, [], s.pages.writers.set t
                 ⟨some ⟨address, 32, 0, 0, 0, 0, false⟩, (s.pages.writers.get t).sequence + 1⟩⟩))
    ∧ ((∀ s : State, s.bus.inFlight = none →
           ((∀ r, s.request r = none) → s.grant = s)
             ∧ (∀ (skipped later : List Requester) (r : Requester) (a : Access),
                 s.bus.lastGrantee.following = skipped ++ r :: later → (∀ q ∈ skipped, s.request q = none) →
                 s.request r = some a → s.grant = { s with bus := ⟨some a, r⟩ }))
         ∧ (∀ s : State, s.regs.part = .running → s.settle = s.claimPages.servePages.grant)
         ∧ (∀ r : Requester, r.following =
             match r with
             | .orderUnit => [.pageWriterA, .pageWriterB, .captureWriter, .orderUnit]
             | .pageWriterA => [.pageWriterB, .captureWriter, .orderUnit, .pageWriterA]
             | .pageWriterB => [.captureWriter, .orderUnit, .pageWriterA, .pageWriterB]
             | .captureWriter => [.orderUnit, .pageWriterA, .pageWriterB, .captureWriter]))
    ∧ (∀ s : State, s.regs.part = .running →
        let wants := fun t => decide ((s.tracks.get t).records.queue ≠ []
          ∧ (s.pages.writers.get t).current = none ∧ t ∉ s.pages.claims)
        let claims := s.pages.claims ++ [Track.A, .B].filter wants
        let give := fun (writers : PerTrack PageWriter) (t : Track) (address : Word) =>
          writers.set t ⟨some ⟨address, 32, 0, 0, 0, 0, false⟩, (writers.get t).sequence + 1⟩
        s.settle.pages
          = match claims, s.pages.lent with
            | [], _ => s.pages
            | _, [] => { s.pages with claims := claims }
            | t :: ts, [address] => ⟨[], ts, give s.pages.writers t address⟩
            | [t], address :: rest => ⟨rest, [], give s.pages.writers t address⟩
            | t :: u :: ts, address :: next :: rest => ⟨rest, ts, give (give s.pages.writers t address) u next⟩)
  ∧ (∀ s : State, s.regs.part = .quiet →
      let wants := fun t => decide ((s.tracks.get t).records.queue ≠ []
          ∧ (s.pages.writers.get t).current = none ∧ t ∉ s.pages.claims)
      s.settle.pages = { s.pages with claims := s.pages.claims ++ [Track.A, .B].filter wants })

/-! ### Invariants -/

/-- In HALTED every command but a reset leaves the part HALTED with all its state, and changes at most the notice mask and
NOTICE (R63, R181, R183, R186). -/
def Obligations.AHaltIsLeftByAResetOnly : Prop :=
  ∀ (s : State) (i : Instr), s.Coherent → s.regs.part = .halted → ¬ Resets i →
    ∃ u, exec i s = .next u
      ∧ u = { s with
          regs := { s.regs with noticeMask := u.regs.noticeMask }
          shared := { s.shared with notice := u.shared.notice } }

/-- No command but a power-on or hard reset changes the span or clears the lock of a locked channel, or changes a locked
class entry (R104, R105, R112, R115). -/
def Obligations.LocksHoldUntilAPowerOnOrHardReset : Prop :=
  ∀ (s u : State) (i : Instr), exec i s = .next u → ¬ ClearsStores i →
    (∀ t c, 1 ≤ c → c ≤ 8 → (channelGet (s.tracks.get t).calibration c).lock = true →
        (channelGet (u.tracks.get t).calibration c).lock = true
          ∧ (channelGet (u.tracks.get t).calibration c).span = (channelGet (s.tracks.get t).calibration c).span)
      ∧ (∀ (j : Nat) (e : ClassEntry), s.shared.classes[j]? = some e → e.lock = true → u.shared.classes[j]? = some e)

/-- In RUNNING a head edge, a frame or an expiry of one track always completes and changes nothing of the other track, nor
the registers (R11, R19, R61). -/
def Obligations.TheOtherTrackIsUntouched : Prop :=
  ∀ (s : State) (t : Track), s.regs.part = .running →
    ∀ i : Instr,
      ((∃ check p h l, i = .headEdgeMessage check t p h l) ∨ (∃ check n channels, i = .sampleFrame check t n channels)
        ∨ (∃ p h, i = .stuckTimerExpiry t p h) ∨ i = .approachTimeout t ∨ i = .stallExpiry t ∨ i = .standingExpiry t
        ∨ i = .settleExpiry t ∨ i = .withdrawnExpiry t ∨ i = .holdTimerExpiry t) →
      ∃ u, exec i s = .next u ∧ u.tracks.get t.other = s.tracks.get t.other ∧ u.regs = s.regs
        ∧ u.pending = s.pending ∧ u.freeCount = s.freeCount

/-- After a power-on reset the machine is coherent, within its capacities and largest counts, with sound points, distinct
pages, balanced axle accounts, axle records that agree with the places and steps, and empty tables (R187). -/
def Obligations.ResetMeetsEveryInvariant : Prop :=
  State.reset.Coherent ∧ State.reset.Bounded ∧ State.reset.PointsSound ∧ State.reset.PagesDistinct
    ∧ State.reset.Balanced ∧ State.reset.CountsBounded ∧ State.reset.AxlesPlaced ∧ ∀ t, (State.reset.tracks.get t).TablesEmpty

/-- If the track states, timers, contexts, windows, zero engines and part state fit together as R16, R27, R42, R43, R50, R58,
R63 and R137 say, they do so after any step (R16, R27, R37, R42, R43, R50, R58, R63, R137, R183, R184, R186). -/
def Obligations.EveryStepKeepsTheMachineCoherent : Prop :=
  ∀ s u : State, s.Coherent → step s = .next u → u.Coherent

/-- Every step keeps, each a part of its own: the capacities of State.Bounded (32 entries on the bridge and in the stack, 8
in the departed ring, 8 estimates of an axle, 8 axles of the group-pending list between steps, last_serial 65535, 24 wagon
records, 2 close places, false_approaches and lost_passages 255, lost_since_close 65535, the part-wide counters, hit_count
65535, 16 class entries of 1 to 8 axles, 16 waiting capture entries, 8 orders with the running scan, slots below 32, 16 lent
pages); the largest values of State.CountsBounded (the nine counts of an open passage and of a queued close record,
sample_count of an open window, restarts of a zero operation, the passage number); and, in a coherent machine,
State.AxlesPlaced: the axle records are those of the real axles on the bridge, in the stack and awaiting, each axle in one of
these places, pending_steps the number of platforms whose step names the axle, and an awaiting axle has a step. From the last
follow the 4 of the awaiting set and of pending_steps (R6, R42, R66, R70, R73, R89, R91, R112, R129, R164, R167, R177). -/
def Obligations.EveryStepKeepsTheCapacities : Prop :=
  (∀ s u : State, s.Bounded → step s = .next u → u.Bounded)
    ∧ (∀ s u : State, s.CountsBounded → step s = .next u → u.CountsBounded)
    ∧ (∀ s u : State, s.Coherent → s.AxlesPlaced → step s = .next u → u.AxlesPlaced)
    ∧ (∀ k : TrackState, k.AxlesPlaced →
        k.axles.awaiting.length ≤ 4 ∧ k.axles.awaiting.Nodup ∧ ∀ r ∈ k.axles.records, r.pendingSteps ≤ 4)

/-- Every point's state fixes its levels, and a stuck timer runs exactly while its head is on and the point is not FAULTED.
No address appears twice among the lent page list and the two tracks' current pages (R7, R8, R12, R13, R167, R168, R170). -/
def Obligations.EveryStepKeepsPointsSoundAndPagesDistinct : Prop :=
  (∀ s u : State, s.PointsSound → step s = .next u → u.PointsSound)
    ∧ (∀ s u : State, s.PagesDistinct → step s = .next u → u.PagesDistinct)

/-- At every step axles_created of an open passage is the number of axles departed, discarded, on the bridge and in the
stack; every close record in a queue balances; and outside a passage the axle table and the group-pending list are empty
(R66, R75, R90, R91, R117). -/
def Obligations.EveryAxleIsAccountedFor : Prop :=
  ∀ s u : State, s.Coherent → s.Bounded → (∀ t, (s.tracks.get t).TablesEmpty) → s.Balanced → step s = .next u →
    (∀ t, (u.tracks.get t).TablesEmpty) ∧ u.Balanced
end

