-- ==== Sys2Proof/Laws/State.lean ====
section
/-!
SUPPORT. Laws/State.lean: reading what was written, for the containers and for every named update of the state, one lemma per field.
-/
namespace Sys2Proof.Machine

/-! ### Containers -/

@[simp] theorem PerTrack.get_set_same {α : Type} (x : PerTrack α) (t : Track) (v : α) : (x.set t v).get t = v := by
  cases t <;> rfl

theorem PerTrack.get_set_ne {α : Type} (x : PerTrack α) {t u : Track} (v : α) (h : u ≠ t) : (x.set t v).get u = x.get u := by
  cases t <;> cases u <;> first | rfl | exact absurd rfl h

@[simp] theorem PerTrack.get_set_other {α : Type} (x : PerTrack α) (t : Track) (v : α) :
    (x.set t v).get t.other = x.get t.other := by
  cases t <;> rfl

@[simp] theorem PerTrack.set_get {α : Type} (x : PerTrack α) (t : Track) : x.set t (x.get t) = x := by
  cases t <;> rfl

@[simp] theorem PerTrack.set_set {α : Type} (x : PerTrack α) (t : Track) (v w : α) : (x.set t v).set t w = x.set t w := by
  cases t <;> rfl

/-- A property of both tracks' values is one of the written value and of the other track's. -/
theorem PerTrack.forall_set {α : Type} (P : α → Prop) (x : PerTrack α) (t : Track) (v : α)
    (h : ∀ u, P (x.get u)) (hv : P v) : ∀ u, P ((x.set t v).get u) := by
  intro u
  by_cases e : u = t
  · subst e; simpa using hv
  · simpa [PerTrack.get_set_ne _ _ e] using h u

theorem Track.eq_or_eq_other (t u : Track) : u = t ∨ u = t.other := by cases t <;> cases u <;> simp [Track.other]

@[simp] theorem Track.other_ne (t : Track) : t.other ≠ t := by cases t <;> simp [Track.other]

@[simp] theorem Track.other_other (t : Track) : t.other.other = t := by cases t <;> rfl

@[simp] theorem Heads.get_set_same {α : Type} (x : Heads α) (h : Head) (v : α) : (x.set h v).get h = v := by
  cases h <;> rfl

@[simp] theorem PerPoint.get_set_same {α : Type} (x : PerPoint α) (p : PointCode) (v : α) : (x.set p v).get p = v := by
  cases p <;> rfl

theorem PerPoint.get_set_ne {α : Type} (x : PerPoint α) {p q : PointCode} (v : α) (h : q ≠ p) :
    (x.set p v).get q = x.get q := by
  cases p <;> cases q <;> first | rfl | exact absurd rfl h

theorem PerPoint.forall_set {α : Type} (P : α → Prop) (x : PerPoint α) (p : PointCode) (v : α)
    (h : ∀ q, P (x.get q)) (hv : P v) : ∀ q, P ((x.set p v).get q) := by
  intro q
  by_cases e : q = p
  · subst e; simpa using hv
  · simpa [PerPoint.get_set_ne _ _ e] using h q

@[simp] theorem Four.get_set_same {α : Type} (x : Four α) (i : Nat) (v : α) : (x.set i v).get i = v := by
  rcases i with _ | _ | _ | _ | i <;> rfl

theorem Four.get_set_ne {α : Type} (x : Four α) {i j : Nat} (v : α) (h : i ≠ j) (hi : 1 ≤ i ∧ i ≤ 4) (hj : 1 ≤ j ∧ j ≤ 4) :
    (x.set i v).get j = x.get j := by
  have hi' : i = 1 ∨ i = 2 ∨ i = 3 ∨ i = 4 := by omega
  have hj' : j = 1 ∨ j = 2 ∨ j = 3 ∨ j = 4 := by omega
  rcases hi' with rfl | rfl | rfl | rfl <;> rcases hj' with rfl | rfl | rfl | rfl <;>
    first | rfl | exact absurd rfl h

theorem Four.get_mapIdx {α β : Type} (f : Nat → α → β) (x : Four α) {i : Nat} (h1 : 1 ≤ i) (h2 : i ≤ 4) :
    (x.mapIdx f).get i = f i (x.get i) := by
  have hi' : i = 1 ∨ i = 2 ∨ i = 3 ∨ i = 4 := by omega
  rcases hi' with rfl | rfl | rfl | rfl <;> rfl

/-! ### The view of one track -/

@[simp] theorem State.scene_id (s : State) (t : Track) : (s.scene t).id = t := rfl
@[simp] theorem State.scene_trk (s : State) (t : Track) : (s.scene t).trk = s.tracks.get t := rfl
@[simp] theorem State.scene_sh (s : State) (t : Track) : (s.scene t).sh = s.shared := rfl
@[simp] theorem State.scene_other (s : State) (t : Track) : (s.scene t).other = (s.tracks.get t.other).occupancy := rfl

@[simp] theorem State.onTrack_regs (s : State) (t : Track) (f : Scene → Scene) : (s.onTrack t f).regs = s.regs := rfl
@[simp] theorem State.onTrack_shared (s : State) (t : Track) (f : Scene → Scene) :
    (s.onTrack t f).shared = (f (s.scene t)).sh := rfl
@[simp] theorem State.onTrack_tracks (s : State) (t : Track) (f : Scene → Scene) :
    (s.onTrack t f).tracks = s.tracks.set t (f (s.scene t)).trk := rfl
@[simp] theorem State.onTrack_pages (s : State) (t : Track) (f : Scene → Scene) : (s.onTrack t f).pages = s.pages := rfl
@[simp] theorem State.onTrack_bus (s : State) (t : Track) (f : Scene → Scene) : (s.onTrack t f).bus = s.bus := rfl
@[simp] theorem State.onTrack_freeCount (s : State) (t : Track) (f : Scene → Scene) :
    (s.onTrack t f).freeCount = s.freeCount := rfl
@[simp] theorem State.onTrack_pending (s : State) (t : Track) (f : Scene → Scene) : (s.onTrack t f).pending = s.pending := rfl

@[simp] theorem Scene.modTrk_id (c : Scene) (f : TrackState → TrackState) : (c.modTrk f).id = c.id := rfl
@[simp] theorem Scene.modTrk_other (c : Scene) (f : TrackState → TrackState) : (c.modTrk f).other = c.other := rfl
@[simp] theorem Scene.modTrk_trk (c : Scene) (f : TrackState → TrackState) : (c.modTrk f).trk = f c.trk := rfl
@[simp] theorem Scene.modTrk_sh (c : Scene) (f : TrackState → TrackState) : (c.modTrk f).sh = c.sh := rfl
@[simp] theorem Scene.modShared_id (c : Scene) (f : Shared → Shared) : (c.modShared f).id = c.id := rfl
@[simp] theorem Scene.modShared_other (c : Scene) (f : Shared → Shared) : (c.modShared f).other = c.other := rfl
@[simp] theorem Scene.modShared_trk (c : Scene) (f : Shared → Shared) : (c.modShared f).trk = c.trk := rfl
@[simp] theorem Scene.modShared_sh (c : Scene) (f : Shared → Shared) : (c.modShared f).sh = f c.sh := rfl
@[simp] theorem Scene.raise_trk (c : Scene) (n : Notice) : (c.raise n).trk = c.trk := rfl
@[simp] theorem Scene.raise_sh (c : Scene) (n : Notice) : (c.raise n).sh = c.sh.raise n := rfl
@[simp] theorem Scene.raise_id (c : Scene) (n : Notice) : (c.raise n).id = c.id := rfl
@[simp] theorem Scene.raise_other (c : Scene) (n : Notice) : (c.raise n).other = c.other := rfl
@[simp] theorem Scene.setZero_trk (c : Scene) (z : Option ZeroOperation) : (c.setZero z).trk = { c.trk with zero := z } := rfl
@[simp] theorem Scene.setZero_sh (c : Scene) (z : Option ZeroOperation) : (c.setZero z).sh = c.sh := rfl
@[simp] theorem Scene.startTimer_trk (c : Scene) (d : Nat) :
    (c.startTimer d).trk = { c.trk with timer := some ⟨c.sh.time, d⟩ } := rfl
@[simp] theorem Scene.startTimer_sh (c : Scene) (d : Nat) : (c.startTimer d).sh = c.sh := rfl

/-! ### Named updates of the machine -/

@[simp] theorem State.modShared_regs (s : State) (f : Shared → Shared) : (s.modShared f).regs = s.regs := rfl
@[simp] theorem State.modShared_shared (s : State) (f : Shared → Shared) : (s.modShared f).shared = f s.shared := rfl
@[simp] theorem State.modShared_tracks (s : State) (f : Shared → Shared) : (s.modShared f).tracks = s.tracks := rfl
@[simp] theorem State.modShared_pages (s : State) (f : Shared → Shared) : (s.modShared f).pages = s.pages := rfl
@[simp] theorem State.modShared_bus (s : State) (f : Shared → Shared) : (s.modShared f).bus = s.bus := rfl
@[simp] theorem State.modShared_freeCount (s : State) (f : Shared → Shared) : (s.modShared f).freeCount = s.freeCount := rfl
@[simp] theorem State.modShared_pending (s : State) (f : Shared → Shared) : (s.modShared f).pending = s.pending := rfl

@[simp] theorem State.modRegs_regs (s : State) (f : Registers → Registers) : (s.modRegs f).regs = f s.regs := rfl
@[simp] theorem State.modRegs_shared (s : State) (f : Registers → Registers) : (s.modRegs f).shared = s.shared := rfl
@[simp] theorem State.modRegs_tracks (s : State) (f : Registers → Registers) : (s.modRegs f).tracks = s.tracks := rfl
@[simp] theorem State.modRegs_pages (s : State) (f : Registers → Registers) : (s.modRegs f).pages = s.pages := rfl
@[simp] theorem State.modRegs_bus (s : State) (f : Registers → Registers) : (s.modRegs f).bus = s.bus := rfl
@[simp] theorem State.modRegs_freeCount (s : State) (f : Registers → Registers) : (s.modRegs f).freeCount = s.freeCount := rfl
@[simp] theorem State.modRegs_pending (s : State) (f : Registers → Registers) : (s.modRegs f).pending = s.pending := rfl

@[simp] theorem State.modTrack_regs (s : State) (t : Track) (f : TrackState → TrackState) : (s.modTrack t f).regs = s.regs := rfl
@[simp] theorem State.modTrack_shared (s : State) (t : Track) (f : TrackState → TrackState) :
    (s.modTrack t f).shared = s.shared := rfl
@[simp] theorem State.modTrack_tracks (s : State) (t : Track) (f : TrackState → TrackState) :
    (s.modTrack t f).tracks = s.tracks.set t (f (s.tracks.get t)) := rfl
@[simp] theorem State.modTrack_pages (s : State) (t : Track) (f : TrackState → TrackState) :
    (s.modTrack t f).pages = s.pages := rfl
@[simp] theorem State.modTrack_bus (s : State) (t : Track) (f : TrackState → TrackState) : (s.modTrack t f).bus = s.bus := rfl
@[simp] theorem State.modTrack_pending (s : State) (t : Track) (f : TrackState → TrackState) :
    (s.modTrack t f).pending = s.pending := rfl

@[simp] theorem State.modWriter_regs (s : State) (t : Track) (f : PageWriter → PageWriter) : (s.modWriter t f).regs = s.regs := rfl
@[simp] theorem State.modWriter_shared (s : State) (t : Track) (f : PageWriter → PageWriter) :
    (s.modWriter t f).shared = s.shared := rfl
@[simp] theorem State.modWriter_tracks (s : State) (t : Track) (f : PageWriter → PageWriter) :
    (s.modWriter t f).tracks = s.tracks := rfl
@[simp] theorem State.modWriter_pages (s : State) (t : Track) (f : PageWriter → PageWriter) :
    (s.modWriter t f).pages = { s.pages with writers := s.pages.writers.set t (f (s.pages.writers.get t)) } := rfl
@[simp] theorem State.modWriter_bus (s : State) (t : Track) (f : PageWriter → PageWriter) : (s.modWriter t f).bus = s.bus := rfl
@[simp] theorem State.modWriter_pending (s : State) (t : Track) (f : PageWriter → PageWriter) :
    (s.modWriter t f).pending = s.pending := rfl

@[simp] theorem State.freePort_regs (s : State) : s.freePort.regs = s.regs := rfl
@[simp] theorem State.freePort_shared (s : State) : s.freePort.shared = s.shared := rfl
@[simp] theorem State.freePort_tracks (s : State) : s.freePort.tracks = s.tracks := rfl
@[simp] theorem State.freePort_pages (s : State) : s.freePort.pages = s.pages := rfl
@[simp] theorem State.freePort_inFlight (s : State) : s.freePort.bus.inFlight = none := rfl
@[simp] theorem State.freePort_pending (s : State) : s.freePort.pending = s.pending := rfl

@[simp] theorem Shared.modOrders_time (h : Shared) (f : OrderUnit → OrderUnit) : (h.modOrders f).time = h.time := rfl
@[simp] theorem Shared.modOrders_orders (h : Shared) (f : OrderUnit → OrderUnit) : (h.modOrders f).orders = f h.orders := rfl
@[simp] theorem Shared.modOrders_options (h : Shared) (f : OrderUnit → OrderUnit) : (h.modOrders f).options = h.options := rfl
@[simp] theorem Shared.modOrders_classes (h : Shared) (f : OrderUnit → OrderUnit) : (h.modOrders f).classes = h.classes := rfl
@[simp] theorem Shared.modOrders_watch (h : Shared) (f : OrderUnit → OrderUnit) : (h.modOrders f).watch = h.watch := rfl
@[simp] theorem Shared.modOrders_capture (h : Shared) (f : OrderUnit → OrderUnit) : (h.modOrders f).capture = h.capture := rfl
@[simp] theorem Shared.modOrders_notice (h : Shared) (f : OrderUnit → OrderUnit) : (h.modOrders f).notice = h.notice := rfl
@[simp] theorem Shared.modOrders_counters (h : Shared) (f : OrderUnit → OrderUnit) : (h.modOrders f).counters = h.counters := rfl
@[simp] theorem Shared.raise_orders (h : Shared) (n : Notice) : (h.raise n).orders = h.orders := rfl
@[simp] theorem Shared.raise_options (h : Shared) (n : Notice) : (h.raise n).options = h.options := rfl
@[simp] theorem Shared.raise_classes (h : Shared) (n : Notice) : (h.raise n).classes = h.classes := rfl
@[simp] theorem Shared.raise_capture (h : Shared) (n : Notice) : (h.raise n).capture = h.capture := rfl
@[simp] theorem Shared.raise_time (h : Shared) (n : Notice) : (h.raise n).time = h.time := rfl
@[simp] theorem Shared.raise_counters (h : Shared) (n : Notice) : (h.raise n).counters = h.counters := rfl
@[simp] theorem Shared.raise_watch (h : Shared) (n : Notice) : (h.raise n).watch = h.watch := rfl

/-! ### The bus: what the last part of every step leaves alone -/

/-- Making a claim changes the claims alone. -/
theorem State.claimPage_eq (s : State) (t : Track) :
    s.claimPage t = { s with pages := { s.pages with claims := (s.claimPage t).pages.claims } } := by
  unfold State.claimPage; split <;> rfl

/-- Granting changes the bus alone. -/
theorem State.grant_eq (s : State) : s.grant = { s with bus := s.grant.bus } := by
  unfold State.grant; split <;> rfl

/-- What every step does last changes the page block and the bus and nothing else. -/
theorem State.settle_eq (s : State) : s.settle = { s with pages := s.settle.pages, bus := s.settle.bus } := by
  unfold State.settle
  split
  · rw [State.grant_eq, State.servePages, State.claimPages, State.claimPage_eq, State.claimPage_eq s]
  · rw [State.claimPages, State.claimPage_eq, State.claimPage_eq s]
  · rfl
  · rfl

@[simp] theorem State.settle_regs (s : State) : s.settle.regs = s.regs := by rw [State.settle_eq]
@[simp] theorem State.settle_shared (s : State) : s.settle.shared = s.shared := by rw [State.settle_eq]
@[simp] theorem State.settle_tracks (s : State) : s.settle.tracks = s.tracks := by rw [State.settle_eq]
@[simp] theorem State.settle_freeCount (s : State) : s.settle.freeCount = s.freeCount := by rw [State.settle_eq]
@[simp] theorem State.settle_pending (s : State) : s.settle.pending = s.pending := by rw [State.settle_eq]

/-- In HALTED and STOPPED the last part of a step does nothing (R175). -/
theorem State.settle_of_not_active (s : State) (h : s.regs.part = .halted ∨ s.regs.part = .stopped) : s.settle = s := by
  unfold State.settle
  rcases h with h | h <;> rw [h]

end Sys2Proof.Machine
end

