-- ==== Sys2Proof/Laws/Scene.lean ====
section
/-!
SUPPORT. Laws/Scene.lean: what the rules about axles, windows, estimates and wagons leave alone: the control part of a track
(configuration, points, track state, timer, zero engine, calibration and the like). One lemma per function, cited by the
lemmas about passes and closes.
-/
namespace Sys2Proof.Machine

/-- A fold of updates that each keep a projection keeps it. -/
theorem foldl_keeps {α β γ : Type} (g : β → γ) (f : β → α → β) (h : ∀ b a, g (f b a) = g b) :
    ∀ (l : List α) (b : β), g (l.foldl f b) = g b
  | [], _ => rfl
  | a :: l, b => by rw [List.foldl_cons, foldl_keeps g f h l, h]

/-- A fold of updates that each keep a property keeps it. -/
theorem foldl_invariant {α β : Type} (P : β → Prop) (f : β → α → β) (h : ∀ b a, P b → P (f b a)) :
    ∀ (l : List α) (b : β), P b → P (l.foldl f b)
  | [], _, hb => hb
  | a :: l, b, hb => by rw [List.foldl_cons]; exact foldl_invariant P f h l _ (h b a hb)

/-- The control part of a track's view: what the axle table, the windows, the estimator and the grouper never change. -/
structure Control where
  id : Track
  other : Occupancy
  config : TrackConfig
  points : PerPoint Point
  mode : TrackMode
  expected : Option Direction
  timer : Option Timer
  passageNumber : Nat
  falseApproaches : Nat
  sequence : Option Byte
  zero : Option ZeroOperation
  calibration : Four (Rails Channel)
  isOpen : Bool
  time : Word
  options : Options
  classes : List ClassEntry
  orders : OrderUnit

def Scene.control (c : Scene) : Control where
  id := c.id
  other := c.other
  config := c.trk.config
  points := c.trk.points
  mode := c.trk.mode
  expected := c.trk.expected
  timer := c.trk.timer
  passageNumber := c.trk.passageNumber
  falseApproaches := c.trk.falseApproaches
  sequence := c.trk.sequence
  zero := c.trk.zero
  calibration := c.trk.calibration
  isOpen := c.trk.context.isSome
  time := c.sh.time
  options := c.sh.options
  classes := c.sh.classes
  orders := c.sh.orders

/-! ### Small updates -/

theorem control_modAxles (c : Scene) (f : AxleTable → AxleTable) : (c.modAxles f).control = c.control := rfl

theorem control_modPassage (c : Scene) (f : Passage → Passage) : (c.modPassage f).control = c.control := by
  simp [Scene.control, Scene.modPassage]

theorem control_modFlags (c : Scene) (f : PassageFlags → PassageFlags) : (c.modFlags f).control = c.control :=
  control_modPassage c _

theorem control_modPlatform (c : Scene) (p : Nat) (f : Platform → Platform) : (c.modPlatform p f).control = c.control := rfl

theorem control_modRecord (c : Scene) (n : Nat) (f : AxleRecord → AxleRecord) : (c.modRecord n f).control = c.control := rfl

theorem control_setBridge (c : Scene) (l : List BridgeEntry) : (c.setBridge l).control = c.control := rfl

theorem control_raise (c : Scene) (n : Notice) : (c.raise n).control = c.control := rfl

theorem control_countSequenceError (c : Scene) : (c.modShared Shared.countSequenceError).control = c.control := rfl

/-! ### Windows and estimates -/

theorem control_takeStep (c : Scene) (p : Nat) (st : PendingStep) (x : WindowStats) :
    (c.takeStep p st x).control = c.control := by
  unfold Scene.takeStep; split <;> rfl

theorem control_openWindow (c : Scene) (p : Nat) : (c.openWindow p).control = c.control := rfl

theorem control_openWindows (c : Scene) : c.openWindows.control = c.control := rfl

theorem control_discardWindows (c : Scene) : c.discardWindows.control = c.control := rfl

theorem control_addToWindows (c : Scene) (l : List ChannelEntry) : (c.addToWindows l).control = c.control := rfl

theorem control_markGapped (c : Scene) : c.markGapped.control = c.control := rfl

theorem control_closeWindow (c : Scene) (p : Nat) : (c.closeWindow p).control = c.control := by
  unfold Scene.closeWindow
  split
  · rfl
  · dsimp only
    split
    · rw [control_modFlags, control_modPlatform]
    · rw [control_takeStep, control_modFlags, control_modPlatform]

theorem control_recordStep (c : Scene) (e : Entry) (v : Option Nat) (p : Nat) (g : Sign) :
    (c.recordStep e v p g).control = c.control := by
  unfold Scene.recordStep
  split
  · rfl
  · dsimp only
    split
    · rw [control_modPlatform]
    · rw [control_modRecord, control_modPlatform]

/-! ### Moves -/

theorem control_createAxle (c : Scene) (p : Nat) (t : Word) (v : Option Nat) :
    (c.createAxle p t v).scene.control = c.control := by
  simp only [Scene.createAxle]
  rw [control_modPassage, control_setBridge, control_modAxles]

theorem control_reenter (c : Scene) (e : Entry) (l : List Entry) (p : Nat) (t : Word) (v : Option Nat) :
    (c.reenter e l p t v).scene.control = c.control := by
  simp only [Scene.reenter]
  rw [control_setBridge]
  split <;> rfl

theorem control_discardBottom (c : Scene) : c.discardBottom.control = c.control := by
  unfold Scene.discardBottom
  split
  · rfl
  · split
    · rfl
    · dsimp only
      split
      · rfl
      · rw [control_modPassage, control_modAxles, control_modAxles]

theorem control_movePass (c : Scene) (d : Direction) (x : Pass) (kind : PassKind) (m : Moved)
    (h : c.movePass d x kind = some m) : m.scene.control = c.control := by
  unfold Scene.movePass at h
  cases kind with
  | forwardEntry =>
    simp only [Option.some.injEq, Scene.enter] at h
    subst h
    split
    · rw [control_reenter]
    · rw [control_createAxle]
  | backwardEntry =>
    simp only [Scene.backOut, Option.map_eq_some_iff] at h
    obtain ⟨r, -, rfl⟩ := h
    show ((c.discardBottom.setBridge r.2).modAxles _).control = _
    rw [control_modAxles, control_setBridge, control_discardBottom]
  | forwardMiddle k =>
    simp only [Scene.moveForward, Option.map_eq_some_iff] at h
    obtain ⟨r, -, rfl⟩ := h
    simp only [Scene.placeRecord]
    split <;> rfl
  | backwardMiddle k =>
    simp only [Scene.moveBackward, Option.map_eq_some_iff] at h
    obtain ⟨r, -, rfl⟩ := h
    simp only [Scene.placeRecord]
    split <;> rfl
  | forwardExit =>
    simp only [Scene.depart, Option.map_eq_some_iff] at h
    obtain ⟨r, -, rfl⟩ := h
    dsimp only
    split
    · rfl
    · rw [control_modPassage]; rfl
  | backwardExit =>
    simp only [Scene.ghostReturn] at h
    split at h
    · exact absurd h (by simp)
    · simp only [Option.some.injEq] at h
      subst h
      dsimp only
      rw [control_modPassage, control_setBridge, control_modAxles]

theorem control_moveAndRecord (c : Scene) (d : Direction) (x : Pass) (kind : PassKind) :
    (c.moveAndRecord d x kind).control = c.control := by
  unfold Scene.moveAndRecord
  split
  · rw [control_modFlags, control_countSequenceError]
  · rename_i m h
    rw [foldl_keeps Scene.control _ (fun b a => control_recordStep b _ _ _ _)]
    exact control_movePass c d x kind m h

theorem control_disposeAxles (c : Scene) : c.disposeAxles.control = c.control := by
  simp only [Scene.disposeAxles]
  rw [control_modPassage, control_modAxles]

/-! ### Wagons -/

/-- The watch units change NOTICE, the hit counts and the capture unit, and of the wagon its marks. -/
theorem evaluate_keeps (h : Shared) (w : Wagon) :
    (h.evaluate w).sh.time = h.time ∧ (h.evaluate w).sh.options = h.options ∧ (h.evaluate w).sh.classes = h.classes
      ∧ (h.evaluate w).sh.orders = h.orders ∧ (h.evaluate w).sh.counters = h.counters := by
  have key : ∀ (v : Evaluation) (i : Nat),
      ((v.unit i).sh.time, (v.unit i).sh.options, (v.unit i).sh.classes, (v.unit i).sh.orders, (v.unit i).sh.counters)
        = (v.sh.time, v.sh.options, v.sh.classes, v.sh.orders, v.sh.counters) := by
    intro v i
    simp only [Evaluation.unit, Evaluation.act]
    split
    · split
      · rfl
      · split
        · rfl
        · split <;> rfl
    · rfl
  have := foldl_keeps (fun v : Evaluation => (v.sh.time, v.sh.options, v.sh.classes, v.sh.orders, v.sh.counters))
    Evaluation.unit key [0, 1, 2, 3] ⟨w, h, false⟩
  simp only [Prod.mk.injEq] at this
  exact this

theorem control_offerWagon (c : Scene) (w : Wagon) : (c.offerWagon w).control = c.control := by
  unfold Scene.offerWagon
  split
  · split
    · rfl
    · rw [control_modPassage]
  · rfl

theorem control_watchAndOffer (c : Scene) (w : Wagon) : (c.watchAndOffer w).control = c.control := by
  simp only [Scene.watchAndOffer]
  rw [control_offerWagon]
  obtain ⟨h1, h2, h3, h4, -⟩ := evaluate_keeps c.sh w
  simp [Scene.control, h1, h2, h3, h4]

theorem control_handOn (c : Scene) (w : Wagon) : (c.handOn w).control = c.control := by
  rw [Scene.handOn, control_watchAndOffer, control_modPassage]

theorem control_formNext (c : Scene) (flush : Bool) : (c.formNext flush).control = c.control := by
  simp only [Scene.formNext]
  rw [control_handOn]
  rfl

theorem control_groupTurns : ∀ (n : Nat) (c : Scene), (groupTurns n c).control = c.control
  | 0, _ => rfl
  | n + 1, c => by
    unfold groupTurns
    split
    · rfl
    · rw [control_groupTurns n, control_formNext]

theorem control_flushTurns : ∀ (n : Nat) (c : Scene), (flushTurns n c).control = c.control
  | 0, _ => rfl
  | n + 1, c => by
    unfold flushTurns
    split
    · rfl
    · rw [control_flushTurns n, control_formNext]

theorem control_groupLoop (c : Scene) : c.groupLoop.control = c.control := control_groupTurns _ c

theorem control_closeFlush (c : Scene) : c.closeFlush.control = c.control := control_flushTurns _ c

theorem control_finalizeAxle (c : Scene) (n : Nat) : (c.finalizeAxle n).control = c.control := by
  simp only [Scene.finalizeAxle]
  split
  · rfl
  · rw [control_groupLoop]; rfl

theorem control_finalizeResolved (c : Scene) : c.finalizeResolved.control = c.control :=
  foldl_keeps Scene.control _ control_finalizeAxle _ c

theorem control_finalizeAll (c : Scene) : c.finalizeAll.control = c.control :=
  foldl_keeps Scene.control _ control_finalizeAxle _ c

theorem control_checkDrift (c : Scene) : c.checkDrift.control = c.control := by
  unfold Scene.checkDrift
  split
  · rw [control_raise, control_modFlags]
  · rfl

theorem control_queueCloseRecord (c : Scene) : c.queueCloseRecord.control = c.control := by
  unfold Scene.queueCloseRecord
  split
  · rfl
  · split <;> rfl

/-! ### Passes and closes -/

theorem control_processPass (c : Scene) (d : Direction) (x : Pass) (kind : PassKind) :
    (c.processPass d x kind).control = c.control := by
  simp only [Scene.processPass]
  rw [control_moveAndRecord, foldl_keeps Scene.control _ control_openWindow, control_finalizeResolved,
    foldl_keeps Scene.control _ control_closeWindow]

theorem control_closeAllWindows (c : Scene) : c.closeAllWindows.control = c.control :=
  foldl_keeps Scene.control _ control_closeWindow _ c

theorem control_beginClose (c : Scene) (r : CloseReason) :
    (c.beginClose r).control = { c.control with timer := none } := by
  simp only [Scene.beginClose]
  rw [control_modPassage]
  rfl

theorem control_modCapture (c : Scene) (f : CaptureUnit → CaptureUnit) :
    (c.modShared fun h => h.modCapture f).control = c.control := rfl

theorem control_closeToStep8 (c : Scene) (r : CloseReason) :
    (c.closeToStep8 r).control = { c.control with timer := none } := by
  unfold Scene.closeToStep8
  extract_lets c1 c2
  rw [control_modCapture, control_queueCloseRecord, control_checkDrift, control_closeFlush, control_disposeAxles,
    control_finalizeAll, control_closeAllWindows, control_beginClose]

end Sys2Proof.Machine
end

