-- ==== Sys2Proof/Laws/Platforms.lean ====
section
/-!
SUPPORT. Laws/Platforms.lean: what changes a track's platforms (windows, last closed statistics, pending steps) and what leaves them
alone, one lemma per function.
-/
namespace Sys2Proof.Machine

/-! ### What leaves every platform alone -/

theorem platforms_modPassage (c : Scene) (f : Passage → Passage) :
    (c.modPassage f).trk.platforms = c.trk.platforms := rfl

theorem platforms_modFlags (c : Scene) (f : PassageFlags → PassageFlags) :
    (c.modFlags f).trk.platforms = c.trk.platforms := rfl

theorem platforms_takeStep (c : Scene) (p : Nat) (st : PendingStep) (x : WindowStats) :
    (c.takeStep p st x).trk.platforms = c.trk.platforms := by
  unfold Scene.takeStep; split <;> rfl

theorem platforms_discardBottom (c : Scene) : c.discardBottom.trk.platforms = c.trk.platforms := by
  unfold Scene.discardBottom
  split
  · rfl
  · split
    · rfl
    · dsimp only
      split <;> rfl

theorem platforms_reenter (c : Scene) (e : Entry) (l : List Entry) (p : Nat) (t : Word) (v : Option Nat) :
    (c.reenter e l p t v).scene.trk.platforms = c.trk.platforms := by
  simp only [Scene.reenter]
  split <;> rfl

theorem platforms_movePass (c : Scene) (d : Direction) (x : Pass) (kind : PassKind) (m : Moved)
    (h : c.movePass d x kind = some m) : m.scene.trk.platforms = c.trk.platforms := by
  unfold Scene.movePass at h
  cases kind with
  | forwardEntry =>
    simp only [Option.some.injEq, Scene.enter] at h
    subst h
    split
    · rw [platforms_reenter]
    · rfl
  | backwardEntry =>
    simp only [Scene.backOut, Option.map_eq_some_iff] at h
    obtain ⟨r, -, rfl⟩ := h
    exact platforms_discardBottom c
  | forwardMiddle k =>
    simp only [Scene.moveForward, Option.map_eq_some_iff] at h
    obtain ⟨r, -, rfl⟩ := h
    simp only [Scene.placeRecord]
    split <;> rfl
  | backwardMiddle k =>
    simp only [Scene.moveBackward, Option.map_eq_some_iff] at h
    obtain ⟨r, -, rfl⟩ := h
    simp only [Scene.placeRecord]
    split <;> rfl
  | forwardExit =>
    simp only [Scene.depart, Option.map_eq_some_iff] at h
    obtain ⟨r, -, rfl⟩ := h
    dsimp only
    split <;> rfl
  | backwardExit =>
    simp only [Scene.ghostReturn] at h
    split at h
    · exact absurd h (by simp)
    · simp only [Option.some.injEq] at h
      subst h
      rfl

theorem platforms_disposeAxles (c : Scene) : c.disposeAxles.trk.platforms = c.trk.platforms := rfl

theorem platforms_offerWagon (c : Scene) (w : Wagon) : (c.offerWagon w).trk.platforms = c.trk.platforms := by
  unfold Scene.offerWagon
  split
  · split <;> rfl
  · rfl

theorem platforms_formNext (c : Scene) (flush : Bool) : (c.formNext flush).trk.platforms = c.trk.platforms := by
  simp only [Scene.formNext, Scene.handOn, Scene.watchAndOffer]
  rw [platforms_offerWagon]
  rfl

theorem platforms_groupTurns : ∀ (n : Nat) (c : Scene), (groupTurns n c).trk.platforms = c.trk.platforms
  | 0, _ => rfl
  | n + 1, c => by
    unfold groupTurns
    split
    · rfl
    · rw [platforms_groupTurns n, platforms_formNext]

theorem platforms_flushTurns : ∀ (n : Nat) (c : Scene), (flushTurns n c).trk.platforms = c.trk.platforms
  | 0, _ => rfl
  | n + 1, c => by
    unfold flushTurns
    split
    · rfl
    · rw [platforms_flushTurns n, platforms_formNext]

theorem platforms_closeFlush (c : Scene) : c.closeFlush.trk.platforms = c.trk.platforms := platforms_flushTurns _ c

theorem platforms_finalizeAxle (c : Scene) (n : Nat) : (c.finalizeAxle n).trk.platforms = c.trk.platforms := by
  simp only [Scene.finalizeAxle]
  split
  · rfl
  · rw [Scene.groupLoop, platforms_groupTurns]; rfl

theorem platforms_finalizeResolved (c : Scene) : c.finalizeResolved.trk.platforms = c.trk.platforms :=
  foldl_keeps (fun c : Scene => c.trk.platforms) _ platforms_finalizeAxle _ c

theorem platforms_finalizeAll (c : Scene) : c.finalizeAll.trk.platforms = c.trk.platforms :=
  foldl_keeps (fun c : Scene => c.trk.platforms) _ platforms_finalizeAxle _ c

theorem platforms_checkDrift (c : Scene) : c.checkDrift.trk.platforms = c.trk.platforms := by
  unfold Scene.checkDrift
  split <;> rfl

theorem platforms_queueCloseRecord (c : Scene) : c.queueCloseRecord.trk.platforms = c.trk.platforms := by
  unfold Scene.queueCloseRecord
  split
  · rfl
  · split <;> rfl

/-! ### What opens, closes and records -/

/-- A closing window leaves its platform without a window and without a step, and no other platform changes. -/
theorem platforms_closeWindow (c : Scene) (p : Nat) :
    (c.closeWindow p).trk.platforms
      = match (c.trk.platforms.get p).window with
        | none => c.trk.platforms
        | some w => c.trk.platforms.set p ⟨none, some (w.stats (c.trk.occupants p).isEmpty c.other), none⟩ := by
  unfold Scene.closeWindow
  cases (c.trk.platforms.get p).window with
  | none => rfl
  | some w =>
    dsimp only
    split
    · rfl
    · rw [platforms_takeStep]; rfl

theorem platforms_openWindow (c : Scene) (p : Nat) :
    (c.openWindow p).trk.platforms
      = c.trk.platforms.set p { c.trk.platforms.get p with window := some (Window.opened c.other) } := rfl

/-- A recorded step changes the step of its platform at most. -/
theorem platforms_recordStep (c : Scene) (e : Entry) (v : Option Nat) (p : Nat) (g : Sign) :
    (c.recordStep e v p g).trk.platforms
      = match (c.trk.platforms.get p).last with
        | none => c.trk.platforms
        | some before => c.trk.platforms.set p { c.trk.platforms.get p with step := some ⟨e, g, v, before⟩ } := by
  unfold Scene.recordStep
  cases (c.trk.platforms.get p).last with
  | none => rfl
  | some w =>
    dsimp only
    split <;> simp [Scene.modRecord, Scene.modAxles, Scene.modPlatform]

/-! ### Which platforms have a window -/

/-- With P platforms and windows open, every platform 1 to P has a window and no other has, and a step is pending only where a window is
open (R27, R37). -/
def AllOpen (P : Nat) (x : Four Platform) : Prop :=
  ∀ p, 1 ≤ p → p ≤ 4 →
    (x.get p).window.isSome = decide (p ≤ P) ∧ ((x.get p).step.isSome = true → (x.get p).window.isSome = true)

/-- The same but for the platforms of a list, which may be without a window. -/
def OpenBut (P : Nat) (l : List Nat) (x : Four Platform) : Prop :=
  ∀ p, 1 ≤ p → p ≤ 4 →
    (p ∉ l → (x.get p).window.isSome = decide (p ≤ P))
      ∧ ((x.get p).window.isSome = true → p ≤ P)
      ∧ ((x.get p).step.isSome = true → (x.get p).window.isSome = true)

theorem AllOpen.openBut {P : Nat} {x : Four Platform} (h : AllOpen P x) (l : List Nat) : OpenBut P l x := by
  intro p h1 h4
  obtain ⟨a, b⟩ := h p h1 h4
  exact ⟨fun _ => a, fun hw => by simpa [a] using hw, b⟩

theorem OpenBut.allOpen {P : Nat} {x : Four Platform} (h : OpenBut P [] x) : AllOpen P x := by
  intro p h1 h4
  obtain ⟨a, -, b⟩ := h p h1 h4
  exact ⟨a (by simp), b⟩

theorem openBut_closeWindow {P : Nat} {l : List Nat} {c : Scene} {q : Nat} (h : OpenBut P l c.trk.platforms)
    (hq : q ∈ l) (h1 : 1 ≤ q) (h4 : q ≤ 4) : OpenBut P l (c.closeWindow q).trk.platforms := by
  rw [platforms_closeWindow]
  split
  · exact h
  · intro p hp1 hp4
    by_cases e : p = q
    · subst e
      simp [hq]
    · rw [Four.get_set_ne _ _ (Ne.symm e) ⟨h1, h4⟩ ⟨hp1, hp4⟩]
      exact h p hp1 hp4

theorem openBut_closeWindows {P : Nat} {l : List Nat} : ∀ (m : List Nat) (c : Scene), OpenBut P l c.trk.platforms →
    (∀ q ∈ m, q ∈ l ∧ 1 ≤ q ∧ q ≤ 4) → OpenBut P l (m.foldl Scene.closeWindow c).trk.platforms
  | [], _, h, _ => h
  | q :: m, c, h, hm => by
    obtain ⟨a, b, d⟩ := hm q (by simp)
    exact openBut_closeWindows m _ (openBut_closeWindow h a b d) fun r hr => hm r (by simp [hr])

theorem openBut_openWindow {P : Nat} {l : List Nat} {c : Scene} {q : Nat} (h : OpenBut P (q :: l) c.trk.platforms)
    (h1 : 1 ≤ q) (hP : q ≤ P) (h4 : q ≤ 4) : OpenBut P l (c.openWindow q).trk.platforms := by
  rw [platforms_openWindow]
  intro p hp1 hp4
  by_cases e : p = q
  · subst e
    simp [hP]
  · rw [Four.get_set_ne _ _ (Ne.symm e) ⟨h1, h4⟩ ⟨hp1, hp4⟩]
    obtain ⟨a, b⟩ := h p hp1 hp4
    exact ⟨fun hl => a (by simp [e, hl]), b⟩

theorem openBut_openWindows {P : Nat} : ∀ (m : List Nat) (c : Scene), OpenBut P m c.trk.platforms →
    (∀ q ∈ m, 1 ≤ q ∧ q ≤ P ∧ q ≤ 4) → AllOpen P (m.foldl Scene.openWindow c).trk.platforms
  | [], _, h, _ => h.allOpen
  | q :: m, c, h, hm => by
    obtain ⟨a, b, d⟩ := hm q (by simp)
    exact openBut_openWindows m _ (openBut_openWindow h a b d) fun r hr => hm r (by simp [hr])

theorem allOpen_recordStep {P : Nat} {c : Scene} {q : Nat} (e : Entry) (v : Option Nat) (g : Sign)
    (h : AllOpen P c.trk.platforms) (h1 : 1 ≤ q) (hP : q ≤ P) (h4 : q ≤ 4) :
    AllOpen P (c.recordStep e v q g).trk.platforms := by
  rw [platforms_recordStep]
  split
  · exact h
  · intro p hp1 hp4
    by_cases eq : p = q
    · subst eq
      simp [(h p hp1 hp4).1, hP]
    · rw [Four.get_set_ne _ _ (Ne.symm eq) ⟨h1, h4⟩ ⟨hp1, hp4⟩]
      exact h p hp1 hp4

theorem allOpen_recordSteps {P : Nat} (e : Entry) (v : Option Nat) : ∀ (l : List (Nat × Sign)) (c : Scene),
    AllOpen P c.trk.platforms → (∀ s ∈ l, 1 ≤ s.1 ∧ s.1 ≤ P ∧ s.1 ≤ 4) →
      AllOpen P (l.foldl (fun c s => c.recordStep e v s.1 s.2) c).trk.platforms
  | [], _, h, _ => h
  | s :: l, c, h, hl => by
    obtain ⟨a, b, d⟩ := hl s (by simp)
    exact allOpen_recordSteps e v l _ (allOpen_recordStep e v s.2 h a b d) fun r hr => hl r (by simp [hr])

/-- The steps a move records lie on the platforms the pass bounds (R76). -/
theorem movePass_steps (c : Scene) (d : Direction) (x : Pass) (kind : PassKind) (m : Moved)
    (h : c.movePass d x kind = some m) : ∀ s ∈ m.steps, s.1 ∈ boundPlatforms c.trk.config.platforms d kind := by
  unfold Scene.movePass at h
  cases kind with
  | forwardEntry =>
    simp only [Option.some.injEq, Scene.enter] at h
    subst h
    split <;> simp [Scene.reenter, Scene.createAxle, boundPlatforms]
  | backwardEntry =>
    simp only [Scene.backOut, Option.map_eq_some_iff] at h
    obtain ⟨r, -, rfl⟩ := h
    simp [boundPlatforms]
  | forwardMiddle k =>
    simp only [Scene.moveForward, Option.map_eq_some_iff] at h
    obtain ⟨r, -, rfl⟩ := h
    simp [boundPlatforms]
  | backwardMiddle k =>
    simp only [Scene.moveBackward, Option.map_eq_some_iff] at h
    obtain ⟨r, -, rfl⟩ := h
    simp [boundPlatforms]
  | forwardExit =>
    simp only [Scene.depart, Option.map_eq_some_iff] at h
    obtain ⟨r, -, rfl⟩ := h
    simp [boundPlatforms]
  | backwardExit =>
    simp only [Scene.ghostReturn] at h
    split at h
    · exact absurd h (by simp)
    · simp only [Option.some.injEq] at h
      subst h
      simp [boundPlatforms]

/-- The platforms a pass at a point of the track bounds are platforms of the track (R30). -/
theorem boundPlatforms_range {P : Nat} (passage d : Direction) {k : Nat} (hP : 1 ≤ P) (hk : k ≤ P) :
    ∀ q ∈ boundPlatforms P passage (classifyPass P passage k d), 1 ≤ q ∧ q ≤ P := by
  intro q hq
  unfold classifyPass at hq
  split at hq
  · split at hq <;> cases passage <;> simp [boundPlatforms, firstPlatform] at hq <;> omega
  · split at hq
    · split at hq <;> cases passage <;> simp [boundPlatforms, lastPlatform] at hq <;> omega
    · rename_i h1 h2
      split at hq <;> cases passage <;>
        simp [boundPlatforms, behindPlatform, aheadPlatform, entryIndex, exitIndex] at hq h1 h2 <;> omega

/-- A processed pass leaves every platform of the track with a window again (R31). -/
theorem allOpen_processPass {c : Scene} (d : Direction) (x : Pass) (kind : PassKind)
    (h : AllOpen c.trk.config.platforms c.trk.platforms) (h4 : c.trk.config.platforms ≤ 4)
    (hb : ∀ q ∈ boundPlatforms c.trk.config.platforms d kind, 1 ≤ q ∧ q ≤ c.trk.config.platforms) :
    AllOpen c.trk.config.platforms (c.processPass d x kind).trk.platforms := by
  simp only [Scene.processPass]
  let b := boundPlatforms c.trk.config.platforms d kind
  have hb' : ∀ q ∈ b, 1 ≤ q ∧ q ≤ c.trk.config.platforms ∧ q ≤ 4 := fun q hq => by
    obtain ⟨h1, h2⟩ := hb q hq; omega
  have closed : OpenBut c.trk.config.platforms b ((b.foldl Scene.closeWindow c).finalizeResolved).trk.platforms := by
    rw [platforms_finalizeResolved]
    exact openBut_closeWindows b c (h.openBut b) fun q hq => ⟨hq, (hb' q hq).1, (hb' q hq).2.2⟩
  have opened := openBut_openWindows b _ closed hb'
  have hc : ((b.foldl Scene.openWindow ((b.foldl Scene.closeWindow c).finalizeResolved))).trk.config = c.trk.config := by
    have e : ((b.foldl Scene.openWindow ((b.foldl Scene.closeWindow c).finalizeResolved))).control = c.control := by
      rw [foldl_keeps Scene.control _ control_openWindow, control_finalizeResolved,
        foldl_keeps Scene.control _ control_closeWindow]
    exact congrArg Control.config e
  unfold Scene.moveAndRecord
  split
  · rw [platforms_modFlags]; exact opened
  · rename_i m hm
    have hs := movePass_steps _ d x kind m hm
    rw [hc] at hs
    refine allOpen_recordSteps _ _ _ _ ?_ fun s hs' => hb' _ (hs s hs')
    rw [platforms_movePass _ d x kind m hm]
    exact opened

/-- Steps 1 and 2 of the close leave no platform with a window or a pending step (R36, R56). -/
theorem closeAllWindows_bare {c : Scene} (h : AllOpen c.trk.config.platforms c.trk.platforms) (p : Nat) (h1 : 1 ≤ p)
    (h4 : p ≤ 4) :
    (c.closeAllWindows.trk.platforms.get p).window = none ∧ (c.closeAllWindows.trk.platforms.get p).step = none := by
  have key : ∀ (m : List Nat) (c : Scene), (∀ q ∈ m, 1 ≤ q ∧ q ≤ 4) →
      (∀ q, 1 ≤ q → q ≤ 4 → q ∉ m → (c.trk.platforms.get q).window = none) →
      (∀ q, 1 ≤ q → q ≤ 4 → (c.trk.platforms.get q).step.isSome = true → (c.trk.platforms.get q).window.isSome = true) →
      ∀ q, 1 ≤ q → q ≤ 4 → ((m.foldl Scene.closeWindow c).trk.platforms.get q).window = none
        ∧ ((m.foldl Scene.closeWindow c).trk.platforms.get q).step = none := by
    intro m
    induction m with
    | nil =>
      intro c _ hw hs q hq1 hq4
      have hn := hw q hq1 hq4 (by simp)
      refine ⟨hn, ?_⟩
      cases e : (c.trk.platforms.get q).step with
      | none => exact e
      | some st =>
        have := hs q hq1 hq4 (by simp [e])
        rw [hn] at this
        exact absurd this (by simp)
    | cons r m ih =>
      intro c hm hw hs
      obtain ⟨hr1, hr4⟩ := hm r (by simp)
      refine ih _ (fun q hq => hm q (by simp [hq])) ?_ ?_
      · intro q hq1 hq4 hq
        rw [platforms_closeWindow]
        split
        · rename_i e
          by_cases eq : q = r
          · subst eq; exact e
          · exact hw q hq1 hq4 (by simp [eq, hq])
        · by_cases eq : q = r
          · subst eq; simp
          · rw [Four.get_set_ne _ _ (Ne.symm eq) ⟨hr1, hr4⟩ ⟨hq1, hq4⟩]
            exact hw q hq1 hq4 (by simp [eq, hq])
      · intro q hq1 hq4
        rw [platforms_closeWindow]
        split
        · exact hs q hq1 hq4
        · by_cases eq : q = r
          · subst eq; simp
          · rw [Four.get_set_ne _ _ (Ne.symm eq) ⟨hr1, hr4⟩ ⟨hq1, hq4⟩]
            exact hs q hq1 hq4
  refine key _ c ?_ ?_ (fun q hq1 hq4 => (h q hq1 hq4).2) p h1 h4
  · intro q hq
    simp only [List.mem_filter, List.mem_cons, List.not_mem_nil, or_false] at hq
    omega
  · intro q hq1 hq4 hq
    have := (h q hq1 hq4).1
    have hn : ¬ q ≤ c.trk.config.platforms := by
      intro hle
      apply hq
      simp only [List.mem_filter, List.mem_cons, List.not_mem_nil, or_false, decide_eq_true_eq]
      omega
    simpa [hn] using this

end Sys2Proof.Machine
end

