-- ==== Sys2Proof/Laws/Passages.lean ====
section
/-!
SUPPORT. Laws/Passages.lean: the zero engine's moves, the close procedure and a pass taken by the passage controller: what each leaves, and that
each keeps a track coherent with windows that match.
-/
namespace Sys2Proof.Machine

/-! ### The zero engine -/

/-- A hold timer that runs exactly while the operation is SUSPENDED. -/
def ZeroOperation.HoldFits (z : ZeroOperation) : Prop := z.holdTimer.isSome = decide (z.state = .suspended)

theorem endZero_trk (c : Scene) (z : ZeroOperation) (e : ZeroEnd) :
    (c.endZero z e).trk = { c.trk with zero := none } := by
  unfold Scene.endZero
  cases z.origin <;> cases e <;> rfl

theorem endZero_id (c : Scene) (z : ZeroOperation) (e : ZeroEnd) : (c.endZero z e).id = c.id := by
  unfold Scene.endZero
  cases z.origin <;> cases e <;> rfl

theorem suspendZero_trk (c : Scene) (z : ZeroOperation) :
    (c.suspendZero z).trk
      = { c.trk with
          zero :=
            if seconds z.holdLimit - z.suspendedTotal = 0 then none
            else some
              { z with
                state := .suspended
                suspendStart := c.now
                startsRun := true
                holdTimer := some ⟨c.now, seconds z.holdLimit - z.suspendedTotal⟩ } } := by
  simp only [Scene.suspendZero]
  split
  · rw [endZero_trk]
  · rfl

/-- Of the shared blocks the end of an operation changes NOTICE, auto_zero_failures, the answer FIFO and the ready accesses (R146). -/
theorem endZero_sh (c : Scene) (z : ZeroOperation) (e : ZeroEnd) :
    (c.endZero z e).sh
        = { c.sh with
            notice := (c.endZero z e).sh.notice
            counters := { c.sh.counters with autoZeroFailures := (c.endZero z e).sh.counters.autoZeroFailures }
            orders :=
              { c.sh.orders with
                answers := (c.endZero z e).sh.orders.answers
                ready := (c.endZero z e).sh.orders.ready } }
      ∧ (c.sh.counters.autoZeroFailures ≤ 255 → (c.endZero z e).sh.counters.autoZeroFailures ≤ 255) := by
  have sat : ∀ n, n ≤ 255 → satInc 255 n ≤ 255 := fun n hn => by unfold satInc; split <;> omega
  unfold Scene.endZero
  cases z.origin <;> cases e <;> exact ⟨rfl, fun h => by first | exact h | exact sat _ h⟩

/-- What the zero engine's moves keep of the shared blocks. -/
def Shared.EngineKept (h h' : Shared) : Prop :=
  h' = { h with
      notice := h'.notice
      counters := { h.counters with autoZeroFailures := h'.counters.autoZeroFailures }
      orders := { h.orders with answers := h'.orders.answers, ready := h'.orders.ready } }
    ∧ (h.counters.autoZeroFailures ≤ 255 → h'.counters.autoZeroFailures ≤ 255)

theorem Shared.EngineKept.refl (h : Shared) : h.EngineKept h := ⟨rfl, id⟩

theorem suspendZero_sh (c : Scene) (z : ZeroOperation) : c.sh.EngineKept (c.suspendZero z).sh := by
  simp only [Scene.suspendZero]
  split
  · exact endZero_sh c _ _
  · exact .refl _

theorem zeroLeavesIdle_sh (c : Scene) : c.sh.EngineKept c.zeroLeavesIdle.sh := by
  unfold Scene.zeroLeavesIdle
  split
  · exact .refl _
  · split
    · exact suspendZero_sh c _
    · exact .refl _

theorem zeroReturnsToIdle_sh (c : Scene) : c.zeroReturnsToIdle.sh = c.sh := by
  unfold Scene.zeroReturnsToIdle
  split
  · rfl
  · split <;> rfl

theorem zeroHoldExpires_sh (c : Scene) : c.sh.EngineKept c.zeroHoldExpires.sh := by
  unfold Scene.zeroHoldExpires
  split
  · exact .refl _
  · exact endZero_sh c _ _

theorem zeroDisabled_sh (c : Scene) : c.sh.EngineKept c.zeroDisabled.sh := by
  unfold Scene.zeroDisabled
  split
  · exact .refl _
  · split <;> exact endZero_sh c _ _

theorem autoZero_sh (c : Scene) (r : CloseReason) : (c.autoZero r).sh = c.sh := by
  unfold Scene.autoZero
  split <;> rfl

/-- Changing the zero engine alone: every other item of the track stays. -/
theorem zeroLeavesIdle_trk (c : Scene) :
    c.zeroLeavesIdle.trk = { c.trk with zero := c.zeroLeavesIdle.trk.zero } := by
  unfold Scene.zeroLeavesIdle
  split
  · rfl
  · split
    · rw [suspendZero_trk]
    · rfl

theorem zeroReturnsToIdle_trk (c : Scene) :
    c.zeroReturnsToIdle.trk = { c.trk with zero := c.zeroReturnsToIdle.trk.zero } := by
  unfold Scene.zeroReturnsToIdle
  split
  · rfl
  · split <;> rfl

theorem zeroHoldExpires_trk (c : Scene) : c.zeroHoldExpires.trk = { c.trk with zero := none } := by
  unfold Scene.zeroHoldExpires
  split
  · rename_i h
    show c.trk = { c.trk with zero := none }
    rw [← h]
  · rw [endZero_trk]

theorem zeroDisabled_trk (c : Scene) : c.zeroDisabled.trk = { c.trk with zero := none } := by
  unfold Scene.zeroDisabled
  split
  · rename_i h
    show c.trk = { c.trk with zero := none }
    rw [← h]
  · split <;> rw [endZero_trk]

theorem autoZero_trk (c : Scene) (r : CloseReason) :
    (c.autoZero r).trk = { c.trk with zero := (c.autoZero r).trk.zero } := by
  unfold Scene.autoZero
  split <;> rfl

/-- Out of IDLE an operation is SUSPENDED with its hold timer running, or has ended (R142). -/
theorem zeroLeavesIdle_fits (c : Scene) (h : ∀ z, c.trk.zero = some z → z.HoldFits) :
    ∀ z, c.zeroLeavesIdle.trk.zero = some z → z.state = .suspended ∧ z.HoldFits := by
  intro z hz
  unfold Scene.zeroLeavesIdle at hz
  split at hz
  · rename_i h0; rw [h0] at hz; exact absurd hz (by simp)
  · rename_i z0 h0
    split at hz
    · rw [suspendZero_trk] at hz
      dsimp only at hz
      split at hz
      · exact absurd hz (by simp)
      · simp only [Option.some.injEq] at hz
        subst hz
        exact ⟨rfl, rfl⟩
    · rename_i hs
      rw [h0] at hz
      simp only [Option.some.injEq] at hz
      subst hz
      exact ⟨hs, h _ h0⟩

/-- Back in IDLE an operation is ACCUMULATING with its hold timer stopped (R143). -/
theorem zeroReturnsToIdle_fits (c : Scene) (h : ∀ z, c.trk.zero = some z → z.HoldFits) :
    ∀ z, c.zeroReturnsToIdle.trk.zero = some z → z.state = .accumulating ∧ z.HoldFits := by
  intro z hz
  unfold Scene.zeroReturnsToIdle at hz
  split at hz
  · rename_i h0; rw [h0] at hz; exact absurd hz (by simp)
  · rename_i z0 h0
    split at hz
    · rename_i hs
      rw [h0] at hz
      simp only [Option.some.injEq] at hz
      subst hz
      exact ⟨hs, h _ h0⟩
    · simp only [Scene.setZero_trk, Option.some.injEq] at hz
      subst hz
      exact ⟨rfl, rfl⟩

theorem autoZero_fits (c : Scene) (r : CloseReason)
    (h : ∀ z, c.trk.zero = some z → z.state = .accumulating ∧ z.HoldFits) :
    ∀ z, (c.autoZero r).trk.zero = some z → z.state = .accumulating ∧ z.HoldFits := by
  intro z hz
  unfold Scene.autoZero at hz
  split at hz
  · simp only [Scene.setZero_trk, Option.some.injEq] at hz
    subst hz
    exact ⟨rfl, rfl⟩
  · exact h z hz

/-! ### The close procedure -/

/-- What a passage needs for its close: its zero operation, if any, has a fitting hold timer, and its windows are open. -/
structure Scene.InPassage (c : Scene) : Prop where
  atMost : c.trk.config.platforms ≤ 4
  atLeast : 1 ≤ c.trk.config.platforms
  expected : c.trk.expected = none
  context : c.trk.context.isSome = true
  timer : c.trk.timer.isSome = true
  mode : c.trk.mode.inPassage = true
  zero : ∀ z, c.trk.zero = some z → z.state = .suspended ∧ z.HoldFits
  windows : AllOpen c.trk.config.platforms c.trk.platforms

theorem inPassage_of_coherent {c : Scene} (hc : c.trk.Coherent) (hw : c.trk.WindowsMatch)
    (hm : c.trk.mode.inPassage = true) : c.InPassage := by
  obtain ⟨h1, h2, h3, h4, h5, -, h7⟩ := hc
  have hd : c.trk.mode ≠ .disabled := by intro e; rw [e] at hm; exact absurd hm (by decide)
  have ha : c.trk.mode ≠ .approach := by intro e; rw [e] at hm; exact absurd hm (by decide)
  have hi : c.trk.mode ≠ .idle := by intro e; rw [e] at hm; exact absurd hm (by decide)
  have hr : c.trk.mode.atRest = false := by cases e : c.trk.mode <;> rw [e] at hm <;> first | rfl | exact absurd hm (by decide)
  refine ⟨h1, h2 hd, ?_, by rw [h4, hm], by rw [h5, hr]; rfl, hm, ?_, ?_⟩
  · simpa [ha] using h3
  · intro z hz
    obtain ⟨-, b, e⟩ := h7 z hz
    refine ⟨?_, e⟩
    cases es : z.state with
    | accumulating => exact absurd (b.1 es) hi
    | suspended => rfl
  · intro p hp1 hp4
    obtain ⟨a, b, -⟩ := hw p hp1 hp4
    rw [hr] at a
    exact ⟨by simpa using a, fun h => (b h).1⟩

/-- The platforms as the close leaves them at step 8: no window, no step (R36, R56). -/
theorem closeToStep8_bare {c : Scene} (r : CloseReason) (h : AllOpen c.trk.config.platforms c.trk.platforms) (p : Nat)
    (h1 : 1 ≤ p) (h4 : p ≤ 4) :
    ((c.closeToStep8 r).trk.platforms.get p).window = none ∧ ((c.closeToStep8 r).trk.platforms.get p).step = none := by
  have e : (c.closeToStep8 r).trk.platforms = ((c.beginClose r).closeAllWindows).trk.platforms := by
    unfold Scene.closeToStep8
    extract_lets c1 c2
    rw [Scene.modShared_trk]
    show (Scene.queueCloseRecord _).trk.platforms = _
    rw [platforms_queueCloseRecord, platforms_checkDrift, platforms_closeFlush, platforms_disposeAxles,
      platforms_finalizeAll]
  rw [e]
  have hb : (c.beginClose r).trk.config = c.trk.config := rfl
  have hp : (c.beginClose r).trk.platforms = c.trk.platforms := rfl
  exact closeAllWindows_bare (c := c.beginClose r) (by rw [hb, hp]; exact h) p h1 h4

/-- The track a close leaves before the zero engine is told: mode, timer, context, tables (R56 step 9, R90). -/
theorem leavePassage_control (c : Scene) : c.leavePassage.control = { c.control with isOpen := false } := rfl

/-- Steps 9 and 10 leave the track IDLE, or DISABLED for that reason (R56, R60). -/
theorem endClose_keeps (c : Scene) (r : CloseReason) :
    (c.endClose r).trk.mode = (if r = .disabled then .disabled else .idle)
      ∧ (c.endClose r).trk.config = c.trk.config
      ∧ (c.endClose r).trk.expected = c.trk.expected
      ∧ (r ≠ .disabled → (c.endClose r).trk.timer = c.trk.timer)
      ∧ (r = .disabled → (c.endClose r).trk.timer = none)
      ∧ (c.endClose r).trk.context = none
      ∧ (c.endClose r).trk.axles = .empty
      ∧ (c.endClose r).trk.nextWagon = 0
      ∧ (c.endClose r).trk.group = c.trk.group
      ∧ (c.endClose r).trk.records = c.trk.records
      ∧ (c.endClose r).trk.passageNumber = c.trk.passageNumber
      ∧ (c.endClose r).trk.falseApproaches = c.trk.falseApproaches
      ∧ (c.endClose r).trk.sequence = c.trk.sequence
      ∧ (c.endClose r).trk.epoch = c.trk.epoch
      ∧ (c.endClose r).trk.calibration = c.trk.calibration
      ∧ (c.endClose r).trk.points = (if r = .disabled then pointsCleared else c.trk.points) := by
  unfold Scene.endClose
  split
  · rename_i h
    unfold Scene.enterDisabled
    rw [zeroDisabled_trk]
    exact ⟨rfl, rfl, rfl, fun e => absurd h e, fun _ => rfl, rfl, rfl, rfl, rfl, rfl, rfl, rfl, rfl, rfl, rfl, rfl⟩
  · rename_i h
    rw [autoZero_trk, zeroReturnsToIdle_trk]
    exact ⟨rfl, rfl, rfl, fun _ => rfl, fun e => absurd e h, rfl, rfl, rfl, rfl, rfl, rfl, rfl, rfl, rfl, rfl, rfl⟩

/-- Steps 9 and 10 leave the windows and steps as they are; entry into DISABLED removes steps and statistics (R60). -/
theorem endClose_platforms (c : Scene) (r : CloseReason) (p : Nat) (h1 : 1 ≤ p) (h4 : p ≤ 4) :
    ((c.endClose r).trk.platforms.get p).window = (c.trk.platforms.get p).window
      ∧ (r ≠ .disabled → ((c.endClose r).trk.platforms.get p) = c.trk.platforms.get p)
      ∧ (r = .disabled →
          ((c.endClose r).trk.platforms.get p).step = none ∧ ((c.endClose r).trk.platforms.get p).last = none) := by
  unfold Scene.endClose
  split
  · rename_i h
    unfold Scene.enterDisabled
    rw [zeroDisabled_trk]
    dsimp only
    rw [Scene.modTrk_trk]
    dsimp only
    rw [Four.get_mapIdx _ _ h1 h4]
    exact ⟨rfl, fun e => absurd h e, fun _ => ⟨rfl, rfl⟩⟩
  · rename_i h
    rw [autoZero_trk, zeroReturnsToIdle_trk]
    exact ⟨rfl, fun _ => rfl, fun e => absurd e h⟩

/-- The zero engine after steps 9 and 10 (R143, R145, R147). -/
theorem endClose_fits (c : Scene) (r : CloseReason) (h : ∀ z, c.trk.zero = some z → z.HoldFits) :
    ∀ z, (c.endClose r).trk.zero = some z → r ≠ .disabled ∧ z.state = .accumulating ∧ z.HoldFits := by
  intro z hz
  unfold Scene.endClose at hz
  split at hz
  · unfold Scene.enterDisabled at hz
    rw [zeroDisabled_trk] at hz
    exact absurd hz (by simp)
  · rename_i hr
    exact ⟨hr, autoZero_fits _ r
      (zeroReturnsToIdle_fits (c.leavePassage.modTrk fun k => { k with mode := .idle }) h) z hz⟩

/-- A close keeps the track coherent (R56, R58). -/
theorem closePassage_coherent {c : Scene} (h : c.InPassage) (r : CloseReason) :
    (c.closePassage r).trk.Coherent ∧ (c.closePassage r).trk.WindowsMatch := by
  have h8 := control_closeToStep8 c r
  have b8 := closeToStep8_bare r h.windows
  unfold Scene.closePassage
  revert h8 b8
  generalize c.closeToStep8 r = c8
  intro h8 b8
  have f1 : c8.trk.config = c.trk.config := congrArg Control.config h8
  have f2 : c8.trk.expected = c.trk.expected := congrArg Control.expected h8
  have f3 : c8.trk.timer = none := congrArg Control.timer h8
  have f4 : c8.trk.zero = c.trk.zero := congrArg Control.zero h8
  obtain ⟨hm, k1, k2, k3, k3', k4, k5, -⟩ := endClose_keeps c8 r
  refine ⟨⟨by rw [k1, f1]; exact h.atMost, fun _ => by rw [k1, f1]; exact h.atLeast, ?_, ?_, ?_, ?_, ?_⟩, ?_⟩
  · rw [k2, f2, h.expected, hm]; split <;> rfl
  · rw [k4, hm]; split <;> rfl
  · by_cases hr : r = .disabled
    · rw [k3' hr, hm, if_pos hr]; rfl
    · rw [k3 hr, f3, hm, if_neg hr]; rfl
  · rw [TrackState.occupied, k5, hm]; split <;> rfl
  · intro z hz
    obtain ⟨hr, a, b⟩ := endClose_fits c8 r (fun z hz => (h.zero z (by rw [← f4]; exact hz)).2) z hz
    rw [hm, if_neg hr]
    exact ⟨by simp, by simp [a], b⟩
  · intro p h1 h4
    obtain ⟨a, b⟩ := b8 p h1 h4
    obtain ⟨d1, d2, d3⟩ := endClose_platforms c8 r p h1 h4
    rw [d1, a, hm, k1]
    refine ⟨by split <;> rfl, ?_, ?_⟩
    · by_cases hr : r = .disabled
      · rw [(d3 hr).1]; simp
      · rw [d2 hr, b]; simp
    · split
      · rename_i hr; exact fun _ => (d3 hr).2
      · simp

/-! ### Passes of an open passage -/

theorem nextMode_platforms (c : Scene) (kind : PassKind) : (c.nextMode kind).trk.platforms = c.trk.platforms := by
  unfold Scene.nextMode
  split
  · rfl
  · split
    · split <;> rfl
    · rfl

theorem nextMode_keeps (c : Scene) (kind : PassKind) :
    (c.nextMode kind).trk = { c.trk with mode := (c.nextMode kind).trk.mode, timer := (c.nextMode kind).trk.timer } := by
  unfold Scene.nextMode
  split
  · rfl
  · split
    · split <;> rfl
    · rfl

/-- The next state of R50 is one of the four passage states, with the timer running, and agrees with the on-bridge list. -/
theorem nextMode_spec (c : Scene) (kind : PassKind) (hm : c.trk.mode.inPassage = true) (ht : c.trk.timer.isSome = true) :
    (c.nextMode kind).trk.mode.inPassage = true
      ∧ (c.nextMode kind).trk.timer.isSome = true
      ∧ c.trk.occupied = decide ((c.nextMode kind).trk.mode = .crossing ∨ (c.nextMode kind).trk.mode = .standing) := by
  unfold Scene.nextMode
  split
  · rename_i ho; exact ⟨rfl, rfl, by simp [ho]⟩
  · rename_i ho
    split
    · split <;> exact ⟨rfl, rfl, by simpa using ho⟩
    · rename_i hcs
      exact ⟨hm, ht, by simpa [hcs] using ho⟩

/-- A boundary pass of an open passage keeps the track coherent (R50, R76, R78). -/
theorem handPass_coherent {c : Scene} (h : c.InPassage) (d : Direction) (x : Pass) {k : Nat}
    (hk : k ≤ c.trk.config.platforms) :
    (c.handPass d x k).trk.Coherent ∧ (c.handPass d x k).trk.WindowsMatch := by
  unfold Scene.handPass
  extract_lets kind
  split
  · exact closePassage_coherent h .overflow
  · have hp := control_processPass c d x kind
    have hw := allOpen_processPass d x kind h.windows h.atMost (boundPlatforms_range d x.direction h.atLeast hk)
    revert hp hw
    generalize c.processPass d x kind = c1
    intro hp hw
    have f1 : c1.trk.config = c.trk.config := congrArg Control.config hp
    have f2 : c1.trk.expected = c.trk.expected := congrArg Control.expected hp
    have f3 : c1.trk.timer = c.trk.timer := congrArg Control.timer hp
    have f4 : c1.trk.zero = c.trk.zero := congrArg Control.zero hp
    have f5 : c1.trk.mode = c.trk.mode := congrArg Control.mode hp
    have f6 : c1.trk.context.isSome = c.trk.context.isSome := congrArg Control.isOpen hp
    obtain ⟨m1, m2, m3⟩ := nextMode_spec c1 kind (by rw [f5]; exact h.mode) (by rw [f3]; exact h.timer)
    have hd : (c1.nextMode kind).trk.mode ≠ .disabled := by intro e; rw [e] at m1; exact absurd m1 (by decide)
    have hi : (c1.nextMode kind).trk.mode ≠ .idle := by intro e; rw [e] at m1; exact absurd m1 (by decide)
    have ha : (c1.nextMode kind).trk.mode ≠ .approach := by intro e; rw [e] at m1; exact absurd m1 (by decide)
    have hr : (c1.nextMode kind).trk.mode.atRest = false := by
      cases e : (c1.nextMode kind).trk.mode <;> rw [e] at m1 <;> first | rfl | exact absurd m1 (by decide)
    have e1 : (c1.nextMode kind).trk.config = c1.trk.config := by rw [nextMode_keeps]
    have e2 : (c1.nextMode kind).trk.expected = c1.trk.expected := by rw [nextMode_keeps]
    have e3 : (c1.nextMode kind).trk.context = c1.trk.context := by rw [nextMode_keeps]
    have e4 : (c1.nextMode kind).trk.axles = c1.trk.axles := by rw [nextMode_keeps]
    have e5 : (c1.nextMode kind).trk.zero = c1.trk.zero := by rw [nextMode_keeps]
    refine ⟨⟨by rw [e1, f1]; exact h.atMost, fun _ => by rw [e1, f1]; exact h.atLeast, ?_, ?_, ?_, ?_, ?_⟩, ?_⟩
    · rw [e2, f2, h.expected]; simp [ha]
    · rw [e3, f6, h.context, m1]
    · rw [m2, hr]; rfl
    · rw [← m3, TrackState.occupied, TrackState.occupied, e4]
    · intro z hz
      rw [e5, f4] at hz
      obtain ⟨a, b⟩ := h.zero z hz
      exact ⟨hd, by simp [a, hi], b⟩
    · intro p h1 h4
      obtain ⟨a, b⟩ := hw p h1 h4
      rw [nextMode_platforms, e1, f1, hr]
      exact ⟨by simpa using a, fun h => ⟨b h, m1⟩, fun e => absurd e hd⟩

/-! ### Opening and approach -/

theorem openWindows_platforms (c : Scene) (p : Nat) (h1 : 1 ≤ p) (h4 : p ≤ 4) :
    c.openWindows.trk.platforms.get p
      = if p ≤ c.trk.config.platforms then { c.trk.platforms.get p with window := some (Window.opened c.other) }
        else c.trk.platforms.get p := by
  show (Four.mapIdx _ c.trk.platforms).get p = _
  rw [Four.get_mapIdx _ _ h1 h4]

/-- A track at rest whose windows match has every window open once they are opened (R28). -/
theorem openWindows_allOpen {c : Scene} (hw : ∀ p, 1 ≤ p → p ≤ 4 →
      (c.trk.platforms.get p).window = none ∧ (c.trk.platforms.get p).step = none) :
    AllOpen c.trk.config.platforms c.openWindows.trk.platforms := by
  intro p h1 h4
  obtain ⟨a, b⟩ := hw p h1 h4
  rw [openWindows_platforms c p h1 h4]
  split
  · rename_i h; simp [h, b]
  · rename_i h; simp [h, a, b]

theorem rest_bare {k : TrackState} (hw : k.WindowsMatch) (hr : k.mode.atRest = true) (p : Nat) (h1 : 1 ≤ p) (h4 : p ≤ 4) :
    (k.platforms.get p).window = none ∧ (k.platforms.get p).step = none := by
  obtain ⟨a, b, -⟩ := hw p h1 h4
  rw [hr] at a
  have hn : (k.platforms.get p).window = none := by simpa using a
  refine ⟨hn, ?_⟩
  cases e : (k.platforms.get p).step with
  | none => rfl
  | some st =>
    have := (b (by simp [e])).1
    rw [hn] at this
    exact absurd this (by simp)

/-- The moment after a passage has opened (R48 steps 1 to 5). -/
theorem openPassage_inPassage {c : Scene} (hc : c.trk.Coherent) (hw : c.trk.WindowsMatch) (x : Pass) (cause : OpenCause)
    (hm : c.trk.mode = .idle ∨ c.trk.mode = .approach) : (c.openPassage x cause).InPassage := by
  obtain ⟨h1, h2, -, -, -, -, h7⟩ := hc
  have hd : c.trk.mode ≠ .disabled := by rcases hm with e | e <;> rw [e] <;> simp
  have hz : ∀ z, c.trk.zero = some z → z.HoldFits := fun z hz => (h7 z hz).2.2
  unfold Scene.openPassage
  extract_lets fromIdle c1 c2 c3
  have z3 : c3.trk.zero = c.trk.zero := by
    show c1.trk.zero = _
    show (if fromIdle then c.openWindows else c).trk.zero = _
    split <;> rfl
  have g3 : c3.trk.config = c.trk.config := by
    show (if fromIdle then c.openWindows else c).trk.config = _
    split <;> rfl
  have w3 : AllOpen c.trk.config.platforms c3.trk.platforms := by
    show AllOpen _ (if fromIdle then c.openWindows else c).trk.platforms
    split
    · rename_i hi
      have hi' : c.trk.mode = .idle := hi
      exact openWindows_allOpen fun p a b => rest_bare hw (by rw [hi']; rfl) p a b
    · rename_i hi
      have ha : c.trk.mode = .approach := hm.resolve_left hi
      intro p a b
      obtain ⟨u, v, -⟩ := hw p a b
      rw [ha] at u
      exact ⟨by simpa [TrackMode.atRest] using u, fun h => (v h).1⟩
  have base : ∀ c' : Scene, c'.trk = { c3.trk with zero := c'.trk.zero } →
      (∀ z, c'.trk.zero = some z → z.state = .suspended ∧ z.HoldFits) → c'.InPassage := by
    intro c' e hz'
    refine ⟨?_, ?_, ?_, ?_, ?_, ?_, hz', ?_⟩
    · rw [e]; show c3.trk.config.platforms ≤ 4; rw [g3]; exact h1
    · rw [e]; show 1 ≤ c3.trk.config.platforms; rw [g3]; exact h2 hd
    · rw [e]; rfl
    · rw [e]; rfl
    · rw [e]; rfl
    · rw [e]; rfl
    · rw [e]; show AllOpen c3.trk.config.platforms c3.trk.platforms; rw [g3]; exact w3
  split
  · refine base _ (zeroLeavesIdle_trk c3) ?_
    exact zeroLeavesIdle_fits c3 fun z h => hz z (by rw [← z3]; exact h)
  · rename_i hi
    have ha : c.trk.mode = .approach := hm.resolve_left hi
    refine base _ rfl fun z h => ?_
    obtain ⟨-, b, e⟩ := h7 z (by rw [← z3]; exact h)
    refine ⟨?_, e⟩
    cases es : z.state with
    | accumulating => rw [ha] at b; exact absurd (b.1 es) (by simp)
    | suspended => rfl

theorem enterApproach_coherent {c : Scene} (hc : c.trk.Coherent) (hw : c.trk.WindowsMatch) (d : Direction)
    (hm : c.trk.mode = .idle) : (c.enterApproach d).trk.Coherent ∧ (c.enterApproach d).trk.WindowsMatch := by
  obtain ⟨h1, h2, -, h4, -, h6, h7⟩ := hc
  have hd : c.trk.mode ≠ .disabled := by rw [hm]; simp
  unfold Scene.enterApproach
  extract_lets c1
  have hz := zeroLeavesIdle_fits (c1.openWindows.startTimer (seconds c1.trk.config.approachTimeout))
    fun z hz => (h7 z hz).2.2
  rw [zeroLeavesIdle_trk]
  revert hz
  generalize (c1.openWindows.startTimer (seconds c1.trk.config.approachTimeout)).zeroLeavesIdle.trk.zero = z0
  intro hz
  refine ⟨⟨h1, fun _ => h2 hd, rfl, ?_, rfl, ?_, ?_⟩, ?_⟩
  · show c.trk.context.isSome = _; rw [h4, hm]; rfl
  · show c.trk.occupied = _; rw [h6, hm]; rfl
  · intro z h
    obtain ⟨a, b⟩ := hz z h
    have notDisabled : TrackMode.approach ≠ .disabled := by decide
    have notIdle : ¬ TrackMode.approach = .idle := by decide
    exact ⟨notDisabled, by rw [a]; exact ⟨fun e => absurd e (by decide), fun e => absurd e notIdle⟩, b⟩
  · intro p hp1 hp4
    have hb := rest_bare hw (by rw [hm]; rfl) p hp1 hp4
    have := openWindows_allOpen (c := c1) (fun p a b => rest_bare hw (by rw [hm]; rfl) p a b) p hp1 hp4
    have noStep : (c1.openWindows.trk.platforms.get p).step = none := by
      rw [openWindows_platforms c1 p hp1 hp4]
      split <;> exact hb.2
    refine ⟨?_, fun h => ?_, ?_⟩
    · exact this.1
    · have h' : (c1.openWindows.trk.platforms.get p).step.isSome = true := h
      rw [noStep] at h'
      exact absurd h' (by simp)
    · exact fun e => absurd (show TrackMode.approach = .disabled from e) (by decide)

theorem boundaryIndex_le {P : Nat} {p : PointCode} {k : Nat} (he : pointExists P p = true) (hb : boundaryIndex p = some k) :
    k ≤ P := by
  unfold pointExists at he
  rw [hb] at he
  simpa using he

/-- The passage controller keeps the track coherent at every pass of a point of the track (R45, R47, R50). -/
theorem takePass_coherent {c : Scene} (hc : c.trk.Coherent) (hw : c.trk.WindowsMatch) (x : Pass)
    (he : pointExists c.trk.config.platforms x.point = true) :
    (c.takePass x).trk.Coherent ∧ (c.takePass x).trk.WindowsMatch := by
  have opening : ∀ k cause, boundaryIndex x.point = some k → (c.trk.mode = .idle ∨ c.trk.mode = .approach) →
      ((c.openPassage x cause).handPass x.direction x k).trk.Coherent
        ∧ ((c.openPassage x cause).handPass x.direction x k).trk.WindowsMatch := by
    intro k cause hb hm
    refine handPass_coherent (openPassage_inPassage hc hw x cause hm) _ _ ?_
    have e : (c.openPassage x cause).trk.config = c.trk.config := by
      unfold Scene.openPassage
      extract_lets fromIdle c1 c2 c3
      have g3 : c3.trk.config = c.trk.config := by
        show (if fromIdle then c.openWindows else c).trk.config = _
        split <;> rfl
      split
      · rw [zeroLeavesIdle_trk]; exact g3
      · exact g3
    rw [e]
    exact boundaryIndex_le he hb
  have running : c.trk.mode.inPassage = true → ∀ k d, boundaryIndex x.point = some k →
      (c.handPass d x k).trk.Coherent ∧ (c.handPass d x k).trk.WindowsMatch :=
    fun hm k d hb => handPass_coherent (inPassage_of_coherent hc hw hm) _ _ (boundaryIndex_le he hb)
  unfold Scene.takePass
  split
  · exact ⟨hc, hw⟩
  · rename_i hm
    split
    · split
      · exact enterApproach_coherent hc hw _ hm
      · exact ⟨hc, hw⟩
    · rename_i k hb
      split
      · exact opening k _ hb (Or.inl hm)
      · exact ⟨hc, hw⟩
  · rename_i hm
    split
    · exact ⟨hc, hw⟩
    · rename_i k hb
      split
      · exact opening k _ hb (Or.inr hm)
      · exact ⟨hc, hw⟩
  · rename_i h1 h2 h3
    split
    · rename_i k p hb hcx
      refine running ?_ k _ hb
      cases e : c.trk.mode <;> first | rfl | exact absurd e (by assumption)
    · exact ⟨hc, hw⟩

/-! ### The other rules of one track -/

theorem discardWindows_platforms (c : Scene) (p : Nat) (h1 : 1 ≤ p) (h4 : p ≤ 4) :
    c.discardWindows.trk.platforms.get p = { c.trk.platforms.get p with window := none } := by
  show (Four.mapIdx _ c.trk.platforms).get p = _
  rw [Four.get_mapIdx _ _ h1 h4]

theorem approachExpires_coherent {c : Scene} (hc : c.trk.Coherent) (hw : c.trk.WindowsMatch)
    (hm : c.trk.mode = .approach) : (c.approachExpires).trk.Coherent ∧ (c.approachExpires).trk.WindowsMatch := by
  obtain ⟨h1, h2, -, h4, -, h6, h7⟩ := hc
  unfold Scene.approachExpires
  extract_lets c1
  have hz := zeroReturnsToIdle_fits c1.discardWindows fun z hz => (h7 z hz).2.2
  rw [zeroReturnsToIdle_trk]
  revert hz
  generalize c1.discardWindows.zeroReturnsToIdle.trk.zero = z0
  intro hz
  refine ⟨⟨h1, fun _ => h2 (by rw [hm]; decide), rfl, ?_, rfl, ?_, ?_⟩, ?_⟩
  · show c.trk.context.isSome = _; rw [h4, hm]; rfl
  · show c.trk.occupied = _; rw [h6, hm]; rfl
  · intro z h
    obtain ⟨a, b⟩ := hz z h
    exact ⟨fun e => absurd (show TrackMode.idle = .disabled from e) (by decide), ⟨fun _ => rfl, fun _ => a⟩, b⟩
  · intro p hp1 hp4
    have e : c1.discardWindows.trk.platforms.get p = { c.trk.platforms.get p with window := none } :=
      discardWindows_platforms c1 p hp1 hp4
    have noStep : (c.trk.platforms.get p).step.isSome = true → False := fun h => by
      have := ((hw p hp1 hp4).2.1 h).2
      rw [hm] at this
      exact absurd this (by decide)
    show (c1.discardWindows.trk.platforms.get p).window.isSome = _
      ∧ ((c1.discardWindows.trk.platforms.get p).step.isSome = true → _) ∧ _
    rw [e]
    exact ⟨rfl, fun h => (noStep h).elim, fun e => absurd (show TrackMode.idle = .disabled from e) (by decide)⟩

theorem enterDisabled_coherent {c : Scene} (h1 : c.trk.config.platforms ≤ 4) (h2 : c.trk.expected = none)
    (h3 : c.trk.context = none) (h4 : c.trk.axles.onBridge = [])
    (hw : ∀ p, 1 ≤ p → p ≤ 4 → (c.trk.platforms.get p).window = none) :
    c.enterDisabled.trk.Coherent ∧ c.enterDisabled.trk.WindowsMatch := by
  unfold Scene.enterDisabled
  extract_lets c1
  rw [zeroDisabled_trk]
  refine ⟨⟨h1, fun e => absurd rfl e, by rw [show c1.trk.expected = none from h2]; rfl,
    by rw [show c1.trk.context = none from h3]; rfl, rfl, ?_, fun z hz => absurd hz (by simp)⟩, ?_⟩
  · show (!c.trk.axles.onBridge.isEmpty) = _
    rw [h4]; rfl
  · intro p hp1 hp4
    have e : c1.trk.platforms.get p = { c.trk.platforms.get p with last := none, step := none } :=
      Four.get_mapIdx _ _ hp1 hp4
    show (c1.trk.platforms.get p).window.isSome = _ ∧ ((c1.trk.platforms.get p).step.isSome = true → _)
      ∧ (_ → (c1.trk.platforms.get p).last = none)
    rw [e]
    refine ⟨?_, by simp, fun _ => rfl⟩
    show (c.trk.platforms.get p).window.isSome = _
    rw [hw p hp1 hp4]; rfl

theorem not_occupied {k : TrackState} (h : k.occupied = false) : k.axles.onBridge = [] := by
  simpa [TrackState.occupied] using h

/-- DISABLE TRACK's effect keeps a track coherent (R60). -/
theorem disable_coherent {c : Scene} (hc : c.trk.Coherent) (hw : c.trk.WindowsMatch) :
    c.disable.trk.Coherent ∧ c.disable.trk.WindowsMatch := by
  have hc' := hc
  obtain ⟨h1, -, h3, h4, -, h6, -⟩ := hc'
  unfold Scene.disable
  split
  · exact ⟨hc, hw⟩
  · rename_i hm
    refine enterDisabled_coherent h1 ?_ ?_ ?_ ?_
    · rw [hm] at h3; simpa using h3
    · rw [hm] at h4; simpa [TrackMode.inPassage] using h4
    · exact not_occupied (by rw [h6, hm]; rfl)
    · exact fun p a b => (rest_bare hw (by rw [hm]; rfl) p a b).1
  · rename_i hm
    refine enterDisabled_coherent h1 rfl ?_ ?_ ?_
    · show c.trk.context = none
      rw [hm] at h4; simpa [TrackMode.inPassage] using h4
    · exact not_occupied (by show c.trk.occupied = false; rw [h6, hm]; rfl)
    · intro p a b
      show (c.discardWindows.trk.platforms.get p).window = none
      rw [discardWindows_platforms c p a b]
  · rename_i ha hb hd
    refine closePassage_coherent (inPassage_of_coherent hc hw ?_) .disabled
    cases e : c.trk.mode <;> first | rfl | exact absurd e (by assumption)

/-- ENABLE TRACK's effect keeps a configured track coherent (R44). -/
theorem enable_coherent {c : Scene} (hc : c.trk.Coherent) (hw : c.trk.WindowsMatch) (hm : c.trk.mode = .disabled)
    (hP : 1 ≤ c.trk.config.platforms) : c.enable.trk.Coherent ∧ c.enable.trk.WindowsMatch := by
  obtain ⟨h1, -, h3, h4, -, h6, h7⟩ := hc
  refine ⟨⟨h1, fun _ => hP, ?_, ?_, rfl, ?_, ?_⟩, ?_⟩
  · show c.trk.expected.isSome = _; rw [h3, hm]; rfl
  · show c.trk.context.isSome = _; rw [h4, hm]; rfl
  · show c.trk.occupied = _; rw [h6, hm]; rfl
  · intro z hz; exact absurd hm (h7 z hz).1
  · intro p a b
    obtain ⟨u, v⟩ := rest_bare hw (by rw [hm]; rfl) p a b
    show (c.trk.platforms.get p).window.isSome = _ ∧ _
    rw [u, show (c.enable.trk.platforms.get p).step = none from v]
    exact ⟨rfl, by simp, fun e => absurd (show TrackMode.idle = .disabled from e) (by decide)⟩

/-- A change of the zero engine alone, and of calibration, keeps a track coherent when the new operation fits. -/
theorem coherent_of_zero {k k' : TrackState} (hc : k.Coherent) (hw : k.WindowsMatch)
    (e : k' = { k with zero := k'.zero, calibration := k'.calibration }) (hz : k'.ZeroFits) :
    k'.Coherent ∧ k'.WindowsMatch := by
  obtain ⟨h1, h2, h3, h4, h5, h6, -⟩ := hc
  rw [e]
  rw [e] at hz
  exact ⟨⟨h1, h2, h3, h4, h5, h6, hz⟩, hw⟩

theorem zeroGap_trk (c : Scene) : c.zeroGap.trk = { c.trk with zero := c.zeroGap.trk.zero } := by
  unfold Scene.zeroGap
  split
  · rfl
  · split
    · rfl
    · split <;> rfl

theorem zeroGap_fits (c : Scene) (h : c.trk.ZeroFits) : c.zeroGap.trk.ZeroFits := by
  intro z hz
  rw [zeroGap_trk]
  show c.trk.mode ≠ _ ∧ (_ ↔ c.trk.mode = _) ∧ _
  unfold Scene.zeroGap at hz
  split at hz
  · rename_i h0; rw [h0] at hz; exact absurd hz (by simp)
  · rename_i z0 h0
    obtain ⟨a, b, d⟩ := h z0 h0
    split at hz
    · rw [h0] at hz
      simp only [Option.some.injEq] at hz
      subst hz
      exact ⟨a, b, d⟩
    · split at hz
      · rw [h0] at hz
        simp only [Option.some.injEq] at hz
        subst hz
        exact ⟨a, b, d⟩
      · simp only [Scene.setZero_trk, Option.some.injEq] at hz
        subst hz
        exact ⟨a, b, d⟩

theorem zeroFrame_trk (c : Scene) (l : List ChannelEntry) :
    (c.zeroFrame l).trk
      = { c.trk with zero := (c.zeroFrame l).trk.zero, calibration := (c.zeroFrame l).trk.calibration } := by
  unfold Scene.zeroFrame
  split
  · rfl
  · split
    · rfl
    · split
      · rw [endZero_trk]
      · dsimp only
        split
        · unfold Scene.completeZero
          rw [endZero_trk]; rfl
        · rfl

theorem zeroFrame_fits (c : Scene) (l : List ChannelEntry) (h : c.trk.ZeroFits) : (c.zeroFrame l).trk.ZeroFits := by
  intro z hz
  rw [zeroFrame_trk]
  show c.trk.mode ≠ _ ∧ (_ ↔ c.trk.mode = _) ∧ _
  unfold Scene.zeroFrame at hz
  split at hz
  · rename_i h0; rw [h0] at hz; exact absurd hz (by simp)
  · rename_i z0 h0
    obtain ⟨a, b, d⟩ := h z0 h0
    split at hz
    · simp only [Scene.setZero_trk, Option.some.injEq] at hz
      subst hz
      exact ⟨a, b, d⟩
    · split at hz
      · rw [endZero_trk] at hz; exact absurd hz (by simp)
      · dsimp only at hz
        split at hz
        · unfold Scene.completeZero at hz
          rw [endZero_trk] at hz; exact absurd hz (by simp)
        · simp only [Scene.setZero_trk, Option.some.injEq] at hz
          subst hz
          exact ⟨a, b, d⟩

theorem markGapped_coherent {c : Scene} (hc : c.trk.Coherent) (hw : c.trk.WindowsMatch) :
    c.markGapped.trk.Coherent ∧ c.markGapped.trk.WindowsMatch := by
  refine ⟨hc, fun p a b => ?_⟩
  obtain ⟨u, v, w⟩ := hw p a b
  have e : (c.markGapped).trk.platforms.get p = { c.trk.platforms.get p with window := (c.trk.platforms.get p).window.map fun w => { w with gapped := true } } :=
    Four.get_mapIdx _ _ a b
  show ((c.markGapped).trk.platforms.get p).window.isSome = _
    ∧ (((c.markGapped).trk.platforms.get p).step.isSome = true → ((c.markGapped).trk.platforms.get p).window.isSome = true ∧ _)
    ∧ (_ → ((c.markGapped).trk.platforms.get p).last = none)
  rw [e]
  exact ⟨by rw [Option.isSome_map]; exact u, by rw [Option.isSome_map]; exact v, w⟩

theorem addToWindows_coherent {c : Scene} (l : List ChannelEntry) (hc : c.trk.Coherent) (hw : c.trk.WindowsMatch) :
    (c.addToWindows l).trk.Coherent ∧ (c.addToWindows l).trk.WindowsMatch := by
  refine ⟨hc, fun p a b => ?_⟩
  obtain ⟨u, v, w⟩ := hw p a b
  have e : (c.addToWindows l).trk.platforms.get p = { c.trk.platforms.get p with window := (c.trk.platforms.get p).window.map (·.add (frameRails l p)) } :=
    Four.get_mapIdx _ _ a b
  show ((c.addToWindows l).trk.platforms.get p).window.isSome = _
    ∧ (((c.addToWindows l).trk.platforms.get p).step.isSome = true → ((c.addToWindows l).trk.platforms.get p).window.isSome = true ∧ _)
    ∧ (_ → ((c.addToWindows l).trk.platforms.get p).last = none)
  rw [e]
  exact ⟨by rw [Option.isSome_map]; exact u, by rw [Option.isSome_map]; exact v, w⟩

/-- An accepted frame keeps the track coherent (R23, R24). -/
theorem acceptFrame_coherent {c : Scene} (n : Byte) (l : List ChannelEntry) (hc : c.trk.Coherent)
    (hw : c.trk.WindowsMatch) : (c.acceptFrame n l).trk.Coherent ∧ (c.acceptFrame n l).trk.WindowsMatch := by
  unfold Scene.acceptFrame
  extract_lets c1 c2 c3 c4
  have s1 : c1.trk.Coherent ∧ c1.trk.WindowsMatch := by
    show (if gapBefore c.trk.sequence n then c.markGapped.zeroGap else c).trk.Coherent
      ∧ (if gapBefore c.trk.sequence n then c.markGapped.zeroGap else c).trk.WindowsMatch
    split
    · obtain ⟨a, b⟩ := markGapped_coherent hc hw
      exact coherent_of_zero a b (by rw [zeroGap_trk]) (zeroGap_fits _ a.2.2.2.2.2.2)
    · exact ⟨hc, hw⟩
  have s3 : c3.trk.Coherent ∧ c3.trk.WindowsMatch :=
    coherent_of_zero (k := c2.trk) s1.1 s1.2 (zeroFrame_trk c2 l) (zeroFrame_fits c2 l s1.1.2.2.2.2.2.2)
  exact addToWindows_coherent (c := c4) l s3.1 s3.2

end Sys2Proof.Machine
end

