-- ==== Sys2Proof/Laws/Tables.lean ====
section
/-!
SUPPORT. Laws/Tables.lean: the axle table's lists through the windows, the estimator and the grouper; the group-pending list through the
matching loop and the close flush.
-/
namespace Sys2Proof.Machine

/-! ### The lists of the axle table -/

/-- The part of the axle table that only moves change: everything but the records and the awaiting set. -/
def AxleTable.lists (a : AxleTable) : AxleTable := { a with records := [], awaiting := [] }

theorem lists_modFlags (c : Scene) (f : PassageFlags → PassageFlags) : (c.modFlags f).trk.axles = c.trk.axles := rfl

theorem lists_takeStep (c : Scene) (p : Nat) (st : PendingStep) (x : WindowStats) :
    (c.takeStep p st x).trk.axles.lists = c.trk.axles.lists := by
  unfold Scene.takeStep; split <;> rfl

theorem lists_closeWindow (c : Scene) (p : Nat) : (c.closeWindow p).trk.axles.lists = c.trk.axles.lists := by
  unfold Scene.closeWindow
  split
  · rfl
  · dsimp only
    split
    · rfl
    · rw [lists_takeStep]; rfl

theorem lists_recordStep (c : Scene) (e : Entry) (v : Option Nat) (p : Nat) (g : Sign) :
    (c.recordStep e v p g).trk.axles.lists = c.trk.axles.lists := by
  unfold Scene.recordStep
  split
  · rfl
  · dsimp only
    split <;> rfl

theorem axles_offerWagon (c : Scene) (w : Wagon) : (c.offerWagon w).trk.axles = c.trk.axles := by
  unfold Scene.offerWagon
  split
  · split <;> rfl
  · rfl

theorem axles_formNext (c : Scene) (flush : Bool) : (c.formNext flush).trk.axles = c.trk.axles := by
  simp only [Scene.formNext, Scene.handOn, Scene.watchAndOffer]
  rw [axles_offerWagon]
  rfl

theorem axles_groupTurns : ∀ (n : Nat) (c : Scene), (groupTurns n c).trk.axles = c.trk.axles
  | 0, _ => rfl
  | n + 1, c => by
    unfold groupTurns
    split
    · rfl
    · rw [axles_groupTurns n, axles_formNext]

theorem axles_flushTurns : ∀ (n : Nat) (c : Scene), (flushTurns n c).trk.axles = c.trk.axles
  | 0, _ => rfl
  | n + 1, c => by
    unfold flushTurns
    split
    · rfl
    · rw [axles_flushTurns n, axles_formNext]

theorem lists_finalizeAxle (c : Scene) (n : Nat) : (c.finalizeAxle n).trk.axles.lists = c.trk.axles.lists := by
  simp only [Scene.finalizeAxle]
  split
  · rfl
  · rw [Scene.groupLoop, axles_groupTurns]; rfl

theorem lists_finalizeResolved (c : Scene) : c.finalizeResolved.trk.axles.lists = c.trk.axles.lists :=
  foldl_keeps (fun c : Scene => c.trk.axles.lists) _ lists_finalizeAxle _ c

theorem lists_finalizeAll (c : Scene) : c.finalizeAll.trk.axles.lists = c.trk.axles.lists :=
  foldl_keeps (fun c : Scene => c.trk.axles.lists) _ lists_finalizeAxle _ c

theorem lists_openWindow (c : Scene) (p : Nat) : (c.openWindow p).trk.axles.lists = c.trk.axles.lists := rfl

/-- Stages 1 and 2 of a pass: the windows closed, the resolved axles finalized, the windows opened again (R31). -/
def Scene.turnWindows (c : Scene) (d : Direction) (kind : PassKind) : Scene :=
  (boundPlatforms c.trk.config.platforms d kind).foldl Scene.openWindow
    (((boundPlatforms c.trk.config.platforms d kind).foldl Scene.closeWindow c).finalizeResolved)

theorem processPass_eq (c : Scene) (d : Direction) (x : Pass) (kind : PassKind) :
    c.processPass d x kind = (c.turnWindows d kind).moveAndRecord d x kind := rfl

/-- Stages 1 and 2 move no entry (R31, R33). -/
theorem lists_turnWindows (c : Scene) (d : Direction) (kind : PassKind) :
    (c.turnWindows d kind).trk.axles.lists = c.trk.axles.lists := by
  unfold Scene.turnWindows
  rw [foldl_keeps (fun c : Scene => c.trk.axles.lists) _ lists_openWindow, lists_finalizeResolved,
    foldl_keeps (fun c : Scene => c.trk.axles.lists) _ lists_closeWindow]

theorem control_turnWindows (c : Scene) (d : Direction) (kind : PassKind) :
    (c.turnWindows d kind).control = c.control := by
  unfold Scene.turnWindows
  rw [foldl_keeps Scene.control _ control_openWindow, control_finalizeResolved,
    foldl_keeps Scene.control _ control_closeWindow]

/-! ### The group-pending list -/

theorem group_offerWagon (c : Scene) (w : Wagon) : (c.offerWagon w).trk.group = c.trk.group := by
  unfold Scene.offerWagon
  split
  · split <;> rfl
  · rfl

/-- The number of axles a turn of the loop removes from the head of the list (R119). -/
def Scene.turnSize (c : Scene) (flush : Bool) : Nat :=
  (((c.trk.firstMatch flush c.sh.classes).bind fun i => (c.sh.classes[i]?).map fun e => (i, e)).map fun e => e.2.n).getD 1

theorem group_formNext (c : Scene) (flush : Bool) :
    (c.formNext flush).trk.group = c.trk.group.drop (c.turnSize flush) := by
  simp only [Scene.formNext, Scene.handOn, Scene.watchAndOffer]
  rw [group_offerWagon]
  rfl

/-- Every turn removes at least one axle (R119). -/
theorem turnSize_pos (c : Scene) (flush : Bool) (h : ∀ e ∈ c.sh.classes, ClassEntry.Sound e) : 1 ≤ c.turnSize flush := by
  unfold Scene.turnSize
  cases hi : c.trk.firstMatch flush c.sh.classes with
  | none => simp
  | some i =>
    cases he : c.sh.classes[i]? with
    | none => simp [he]
    | some e =>
      simp only [Option.bind_some, he, Option.map_some, Option.getD_some]
      exact (h e (List.mem_of_getElem? he)).1

theorem classes_formNext (c : Scene) (flush : Bool) : (c.formNext flush).sh.classes = c.sh.classes :=
  congrArg Control.classes (control_formNext c flush)

/-- After the loop the list is shorter than the lookahead, given fuel for its length (R120). -/
theorem groupTurns_length : ∀ (n : Nat) (c : Scene), (∀ e ∈ c.sh.classes, ClassEntry.Sound e) → c.trk.group.length ≤ n →
    (groupTurns n c).trk.group.length < lookahead c.sh.classes
  | 0, c, _, hn => by
    unfold groupTurns lookahead; omega
  | n + 1, c, h, hn => by
    unfold groupTurns
    split
    · assumption
    · rw [← classes_formNext c false]
      refine groupTurns_length n _ (by rw [classes_formNext]; exact h) ?_
      have := turnSize_pos c false h
      rw [group_formNext, List.length_drop]; omega

theorem flushTurns_empty : ∀ (n : Nat) (c : Scene), (∀ e ∈ c.sh.classes, ClassEntry.Sound e) → c.trk.group.length ≤ n →
    (flushTurns n c).trk.group = []
  | 0, c, _, hn => by
    unfold flushTurns
    exact List.length_eq_zero_iff.1 (Nat.le_zero.1 hn)
  | n + 1, c, h, hn => by
    unfold flushTurns
    split
    · rename_i he; simpa using he
    · refine flushTurns_empty n _ (by rw [classes_formNext]; exact h) ?_
      have := turnSize_pos c true h
      rw [group_formNext, List.length_drop]; omega

/-- The close flush empties the list (R132). -/
theorem closeFlush_empty (c : Scene) (h : ∀ e ∈ c.sh.classes, ClassEntry.Sound e) : c.closeFlush.trk.group = [] :=
  flushTurns_empty _ c h (Nat.le_refl _)

theorem foldl_max_le {classes : List ClassEntry} {b : Nat} (h : ∀ e ∈ classes, e.n ≤ b) :
    ∀ m, m ≤ b → classes.foldl (fun m e => if e.mode = .off then m else max m e.n) m ≤ b := by
  induction classes with
  | nil => intro m hm; exact hm
  | cons e l ih =>
    intro m hm
    refine ih (fun e' he' => h e' (by simp [he'])) _ ?_
    have := h e (by simp)
    show (if e.mode = .off then m else max m e.n) ≤ b
    split <;> omega

/-- L is at most 9 (R118). -/
theorem lookahead_le (classes : List ClassEntry) (h : ∀ e ∈ classes, ClassEntry.Sound e) : lookahead classes ≤ 9 := by
  unfold lookahead
  have := foldl_max_le (fun e he => (h e he).2) 1 (by omega)
  omega

theorem groupLoop_length (c : Scene) (h : ∀ e ∈ c.sh.classes, ClassEntry.Sound e) : c.groupLoop.trk.group.length ≤ 8 := by
  have := groupTurns_length _ c h (Nat.le_refl _)
  have := lookahead_le _ h
  unfold Scene.groupLoop
  omega

theorem group_disposeAxles (c : Scene) : c.disposeAxles.trk.group = c.trk.group := rfl

theorem group_checkDrift (c : Scene) : c.checkDrift.trk.group = c.trk.group := by
  unfold Scene.checkDrift
  split <;> rfl

theorem group_queueCloseRecord (c : Scene) : c.queueCloseRecord.trk.group = c.trk.group := by
  unfold Scene.queueCloseRecord
  split
  · rfl
  · split <;> rfl

/-- At step 8 of the close the group-pending list is empty (R132). -/
theorem closeToStep8_group (c : Scene) (r : CloseReason) (h : ∀ e ∈ c.sh.classes, ClassEntry.Sound e) :
    (c.closeToStep8 r).trk.group = [] := by
  unfold Scene.closeToStep8
  extract_lets c1 c2
  rw [Scene.modShared_trk]
  show (Scene.queueCloseRecord _).trk.group = _
  rw [group_queueCloseRecord, group_checkDrift]
  refine closeFlush_empty _ ?_
  have e : (c1.finalizeAll.disposeAxles).sh.classes = c.sh.classes := by
    have : (c1.finalizeAll.disposeAxles).control = { c.control with timer := none } := by
      rw [control_disposeAxles, control_finalizeAll, control_closeAllWindows, control_beginClose]
    exact congrArg Control.classes this
  rw [e]; exact h

/-- A close leaves the tables empty (R66, R90, R117). -/
theorem closePassage_tablesEmpty (c : Scene) (r : CloseReason) (h : ∀ e ∈ c.sh.classes, ClassEntry.Sound e) :
    (c.closePassage r).trk.axles = .empty ∧ (c.closePassage r).trk.group = [] ∧ (c.closePassage r).trk.nextWagon = 0 := by
  obtain ⟨-, -, -, -, -, -, a, b, d, -⟩ := endClose_keeps (c.closeToStep8 r) r
  exact ⟨a, by rw [Scene.closePassage, d, closeToStep8_group c r h], b⟩

theorem tablesEmpty_of_inPassage {k : TrackState} (h : k.mode.inPassage = true) : k.TablesEmpty := fun e => by
  rw [h] at e; exact absurd e (by simp)

/-- A boundary pass leaves the track in a passage, or closed with its tables empty (R50, R55). -/
theorem handPass_tablesEmpty {c : Scene} (h : c.InPassage) (d : Direction) (x : Pass) (k : Nat)
    (hs : ∀ e ∈ c.sh.classes, ClassEntry.Sound e) : (c.handPass d x k).trk.TablesEmpty := by
  unfold Scene.handPass
  extract_lets kind
  split
  · exact fun _ => closePassage_tablesEmpty c .overflow hs
  · have hp := control_processPass c d x kind
    revert hp
    generalize c.processPass d x kind = c1
    intro hp
    have f3 : c1.trk.timer = c.trk.timer := congrArg Control.timer hp
    have f5 : c1.trk.mode = c.trk.mode := congrArg Control.mode hp
    exact tablesEmpty_of_inPassage
      (nextMode_spec c1 kind (by rw [f5]; exact h.mode) (by rw [f3]; exact h.timer)).1

theorem classes_openPassage (c : Scene) (x : Pass) (cause : OpenCause) :
    (c.openPassage x cause).sh.classes = c.sh.classes := by
  unfold Scene.openPassage
  extract_lets fromIdle c1 c2 c3
  have g3 : c3.sh = c.sh := by
    show (if fromIdle then c.openWindows else c).sh = _
    split <;> rfl
  split
  · rw [(zeroLeavesIdle_sh c3).1]
    show c3.sh.classes = _
    rw [g3]
  · rw [g3]

/-- A pass keeps the tables empty outside a passage (R66, R117). -/
theorem takePass_tablesEmpty {c : Scene} (hc : c.trk.Coherent) (hw : c.trk.WindowsMatch) (ht : c.trk.TablesEmpty)
    (hs : ∀ e ∈ c.sh.classes, ClassEntry.Sound e) (x : Pass) : (c.takePass x).trk.TablesEmpty := by
  have opening : ∀ k cause, (c.trk.mode = .idle ∨ c.trk.mode = .approach) →
      ((c.openPassage x cause).handPass x.direction x k).trk.TablesEmpty := by
    intro k cause hm
    refine handPass_tablesEmpty (openPassage_inPassage hc hw x cause hm) _ _ k ?_
    rw [classes_openPassage]
    exact hs
  unfold Scene.takePass
  split
  · exact ht
  · rename_i hm
    split
    · split
      · unfold Scene.enterApproach
        rw [zeroLeavesIdle_trk]
        exact fun _ => ht (by rw [hm]; rfl)
      · exact ht
    · split
      · exact opening _ _ (Or.inl hm)
      · exact ht
  · rename_i hm
    split
    · exact ht
    · split
      · exact opening _ _ (Or.inr hm)
      · exact ht
  · rename_i h1 h2 h3
    split
    · rename_i k p hb hcx
      refine handPass_tablesEmpty (inPassage_of_coherent hc hw ?_) _ _ _ hs
      cases e : c.trk.mode <;> first | rfl | exact absurd e (by assumption)
    · exact ht

end Sys2Proof.Machine
end

