-- ==== Sys2Proof/Laws/Capacities.lean ====
section
/-!
SUPPORT. Laws/Capacities.lean: every rule of one track keeps the capacities of the track and of the shared blocks.
-/
namespace Sys2Proof.Machine

/-- The capacities of a track and of the shared blocks. -/
def Scene.Bounded (c : Scene) : Prop := c.trk.Bounded ∧ c.sh.Bounded

theorem satInc_le {n m : Nat} (h : m ≤ n) : satInc n m ≤ n := by unfold satInc; split <;> omega

/-! ### The shared blocks -/

theorem bounded_raise {h : Shared} (n : Notice) (hb : h.Bounded) : (h.raise n).Bounded := hb

theorem bounded_countBadFrame {h : Shared} (hb : h.Bounded) : h.countBadFrame.Bounded := by
  obtain ⟨a, rest⟩ := hb
  exact ⟨satInc_le a, rest⟩

theorem bounded_countEdgeError {h : Shared} (hb : h.Bounded) : h.countEdgeError.Bounded := by
  obtain ⟨a, b, rest⟩ := hb
  exact ⟨a, satInc_le b, rest⟩

theorem bounded_countPointFault {h : Shared} (hb : h.Bounded) : h.countPointFault.Bounded := by
  obtain ⟨a, b, c, rest⟩ := hb
  exact ⟨a, b, satInc_le c, rest⟩

theorem bounded_countSequenceError {h : Shared} (hb : h.Bounded) : h.countSequenceError.Bounded := by
  obtain ⟨a, b, c, d, rest⟩ := hb
  exact ⟨a, b, c, satInc_le d, rest⟩

theorem bounded_engineKept {h h' : Shared} (e : h.EngineKept h') (hb : h.Bounded) : h'.Bounded := by
  obtain ⟨a, b, c, d, f, rest⟩ := hb
  rw [e.1]
  exact ⟨a, b, c, d, e.2 f, rest⟩

theorem bounded_modCapture {h : Shared} {f : CaptureUnit → CaptureUnit} (hb : h.Bounded)
    (hf : (f h.capture).waiting.length ≤ 16) : (h.modCapture f).Bounded := by
  obtain ⟨a, b, c, d, e, g, i, j, -, rest⟩ := hb
  exact ⟨a, b, c, d, e, g, i, j, hf, rest⟩

theorem watch_set_bounded {x : Four WatchUnit} (h : ∀ u ∈ x.toList, u.hitCount ≤ 65535) (i : Nat) {v : WatchUnit}
    (hv : v.hitCount ≤ 65535) : ∀ u ∈ (x.set i v).toList, u.hitCount ≤ 65535 := by
  simp only [Four.toList, List.mem_cons, List.not_mem_nil, or_false, forall_eq_or_imp, forall_eq] at h ⊢
  obtain ⟨a, b, c, d⟩ := h
  rcases i with _ | _ | _ | _ | i <;> exact ⟨by assumption, by assumption, by assumption, by assumption⟩

theorem watch_get_bounded {x : Four WatchUnit} (h : ∀ u ∈ x.toList, u.hitCount ≤ 65535) (i : Nat) :
    (x.get i).hitCount ≤ 65535 := by
  simp only [Four.toList, List.mem_cons, List.not_mem_nil, or_false, forall_eq_or_imp, forall_eq] at h
  obtain ⟨a, b, c, d⟩ := h
  rcases i with _ | _ | _ | _ | i <;> assumption

theorem bounded_unit {v : Evaluation} (i : Nat) (hb : v.sh.Bounded) : (v.unit i).sh.Bounded := by
  unfold Evaluation.unit
  extract_lets u
  split
  · have hw : ({ v.sh with watch := v.sh.watch.set (i + 1) { u with hitCount := satInc 65535 u.hitCount } } : Shared).Bounded := by
      obtain ⟨a, b, c, d, e, g, j, k, rest⟩ := hb
      exact ⟨a, b, c, d, e, g, j, watch_set_bounded k _ (satInc_le (watch_get_bounded k _)), rest⟩
    unfold Evaluation.act
    split
    · exact hw
    · split
      · exact hw
      · split
        · exact bounded_modCapture hw hw.2.2.2.2.2.2.2.2.1
        · exact hw
  · exact hb

theorem bounded_evaluate {h : Shared} (w : Wagon) (hb : h.Bounded) : (h.evaluate w).sh.Bounded :=
  foldl_invariant (fun v : Evaluation => v.sh.Bounded) Evaluation.unit (fun _ i hv => bounded_unit i hv) _ _ hb

theorem waiting_takeFrame {x : CaptureUnit} (now : Word) (t : Track) (n : Byte) (l : List ChannelEntry)
    (h : x.waiting.length ≤ 16) : (x.takeFrame now t n l).waiting.length ≤ 16 := by
  unfold CaptureUnit.takeFrame
  split
  · rename_i hc
    extract_lets y
    have hy : y.waiting.length ≤ 16 := by
      show (x.waiting ++ [_]).length ≤ 16
      rw [List.length_append, List.length_singleton]; omega
    split <;> exact hy
  · exact h

/-! ### Records and lists -/

theorem modRecord_bounded {a : AxleTable} {n : Nat} {f : AxleRecord → AxleRecord}
    (h : ∀ r ∈ a.records, r.estimates.length ≤ 8) (hf : ∀ r, r.estimates.length ≤ 8 → (f r).estimates.length ≤ 8) :
    ∀ r ∈ (a.modRecord n f).records, r.estimates.length ≤ 8 := by
  intro r hr
  simp only [AxleTable.modRecord, List.mem_map] at hr
  obtain ⟨q, hq, rfl⟩ := hr
  split
  · exact hf q (h q hq)
  · exact h q hq

theorem bounded_modRecord {c : Scene} {n : Nat} {f : AxleRecord → AxleRecord} (hb : c.Bounded)
    (hf : ∀ r, r.estimates.length ≤ 8 → (f r).estimates.length ≤ 8) : (c.modRecord n f).Bounded := by
  obtain ⟨⟨a, b, d, e, g, rest⟩, hs⟩ := hb
  exact ⟨⟨a, b, d, e, modRecord_bounded g hf, rest⟩, hs⟩

theorem bounded_takeStep {c : Scene} (p : Nat) (st : PendingStep) (x : WindowStats) (hb : c.Bounded) :
    (c.takeStep p st x).Bounded := by
  unfold Scene.takeStep
  split
  · exact hb
  · refine bounded_modRecord hb fun r hr => ?_
    unfold AxleRecord.takeEstimate
    dsimp only
    split
    · split
      · rw [List.length_append, List.length_singleton]; omega
      · exact hr
    · exact hr

theorem bounded_closeWindow {c : Scene} (p : Nat) (hb : c.Bounded) : (c.closeWindow p).Bounded := by
  unfold Scene.closeWindow
  split
  · exact hb
  · dsimp only
    split
    · exact hb
    · exact bounded_takeStep _ _ _ hb

theorem bounded_recordStep {c : Scene} (e : Entry) (v : Option Nat) (p : Nat) (g : Sign) (hb : c.Bounded) :
    (c.recordStep e v p g).Bounded := by
  unfold Scene.recordStep
  split
  · exact hb
  · dsimp only
    split
    · exact hb
    · exact bounded_modRecord hb fun r hr => hr

theorem wagons_append_wagon (q : RecordQueue) (w : Wagon) :
    ({ q with queue := q.queue ++ [.wagon w] } : RecordQueue).wagons = q.wagons + 1 := by
  simp only [RecordQueue.wagons, List.filter_append, List.length_append]; rfl

theorem wagons_append_close (q : RecordQueue) (x : CloseRecord) (n : Nat) :
    ({ q with queue := q.queue ++ [.close x], lostSinceClose := n } : RecordQueue).wagons = q.wagons := by
  simp only [RecordQueue.wagons, List.filter_append, List.length_append]; rfl

theorem bounded_offerWagon {c : Scene} (w : Wagon) (hb : c.Bounded) : (c.offerWagon w).Bounded := by
  unfold Scene.offerWagon
  split
  · split
    · rename_i hw
      obtain ⟨⟨a, b, d, e, g, i, j, rest⟩, hs⟩ := hb
      refine ⟨⟨a, b, d, e, g, i, ?_, rest⟩, hs⟩
      show RecordQueue.wagons { c.trk.records with queue := _ } ≤ 24
      rw [wagons_append_wagon]; omega
    · exact hb
  · exact hb

theorem bounded_formNext {c : Scene} (flush : Bool) (hb : c.Bounded) : (c.formNext flush).Bounded := by
  simp only [Scene.formNext, Scene.handOn, Scene.watchAndOffer]
  refine bounded_offerWagon _ ?_
  obtain ⟨⟨a, b, d, e, g, i, rest⟩, hs⟩ := hb
  refine ⟨⟨a, b, d, e, g, ?_, rest⟩, bounded_evaluate _ hs⟩
  show (c.trk.group.drop _).length ≤ 8
  rw [List.length_drop]; omega

/-- The same with a list of up to 9 axles, as an append leaves it (R120). -/
def Scene.BoundedButGroup (c : Scene) : Prop := ∃ l, ({ c with trk := { c.trk with group := l } } : Scene).Bounded

theorem Scene.Bounded.butGroup {c : Scene} (h : c.Bounded) : c.BoundedButGroup := ⟨c.trk.group, h⟩

theorem bounded_of_butGroup {c : Scene} (h : c.BoundedButGroup) (hg : c.trk.group.length ≤ 8) : c.Bounded := by
  obtain ⟨l, ⟨a, b, d, e, g, -, rest⟩, hs⟩ := h
  exact ⟨⟨a, b, d, e, g, hg, rest⟩, hs⟩

theorem butGroup_offerWagon {c : Scene} (w : Wagon) (hb : c.BoundedButGroup) : (c.offerWagon w).BoundedButGroup := by
  obtain ⟨l, ⟨a, b, d, e, g, i, j, rest⟩, hs⟩ := hb
  refine ⟨l, ?_⟩
  unfold Scene.offerWagon
  split
  · split
    · rename_i hw
      refine ⟨⟨a, b, d, e, g, i, ?_, rest⟩, hs⟩
      show RecordQueue.wagons { c.trk.records with queue := _ } ≤ 24
      rw [wagons_append_wagon]; omega
    · exact ⟨⟨a, b, d, e, g, i, j, rest⟩, hs⟩
  · exact ⟨⟨a, b, d, e, g, i, j, rest⟩, hs⟩

theorem butGroup_formNext {c : Scene} (flush : Bool) (hb : c.BoundedButGroup) : (c.formNext flush).BoundedButGroup := by
  obtain ⟨l, ht, hs⟩ := hb
  simp only [Scene.formNext, Scene.handOn, Scene.watchAndOffer]
  exact butGroup_offerWagon _ ⟨l, ht, bounded_evaluate _ hs⟩

theorem butGroup_groupTurns : ∀ (n : Nat) {c : Scene}, c.BoundedButGroup → (groupTurns n c).BoundedButGroup
  | 0, _, h => h
  | n + 1, c, h => by
    unfold groupTurns
    split
    · exact h
    · exact butGroup_groupTurns n (butGroup_formNext false h)

theorem bounded_flushTurns : ∀ (n : Nat) {c : Scene}, c.Bounded → (flushTurns n c).Bounded
  | 0, _, h => h
  | n + 1, c, h => by
    unfold flushTurns
    split
    · exact h
    · exact bounded_flushTurns n (bounded_formNext true h)

theorem bounded_finalizeAxle {c : Scene} (n : Nat) (hb : c.Bounded) : (c.finalizeAxle n).Bounded := by
  simp only [Scene.finalizeAxle]
  obtain ⟨⟨a, b, d, e, g, i, rest⟩, hs⟩ := hb
  have g' : ∀ r ∈ (c.trk.axles.dropRecord n).records, r.estimates.length ≤ 8 :=
    fun r hr => g r (List.mem_filter.1 hr).1
  split
  · exact ⟨⟨a, b, d, e, g', i, rest⟩, hs⟩
  · refine bounded_of_butGroup (butGroup_groupTurns _ ⟨[], ⟨a, b, d, e, g', by simp, rest⟩, hs⟩) ?_
    exact groupLoop_length _ hs.2.2.2.2.2.2.1

theorem bounded_finalizeResolved {c : Scene} (hb : c.Bounded) : c.finalizeResolved.Bounded :=
  foldl_invariant Scene.Bounded _ (fun _ n h => bounded_finalizeAxle n h) _ _ hb

theorem bounded_finalizeAll {c : Scene} (hb : c.Bounded) : c.finalizeAll.Bounded :=
  foldl_invariant Scene.Bounded _ (fun _ n h => bounded_finalizeAxle n h) _ _ hb

theorem bounded_turnWindows {c : Scene} (d : Direction) (kind : PassKind) (hb : c.Bounded) :
    (c.turnWindows d kind).Bounded := by
  unfold Scene.turnWindows
  refine foldl_invariant Scene.Bounded Scene.openWindow (fun _ _ h => h) _ _ ?_
  exact bounded_finalizeResolved (foldl_invariant Scene.Bounded _ (fun _ p h => bounded_closeWindow p h) _ _ hb)

/-! ### Moves -/

theorem takeFrontOn_length {p : Nat} : ∀ {l : List BridgeEntry} {r : BridgeEntry × List BridgeEntry},
    takeFrontOn p l = some r → r.2.length + 1 = l.length
  | [], _, h => by simp [takeFrontOn] at h
  | e :: l, r, h => by
    unfold takeFrontOn at h
    split at h
    · simp only [Option.some.injEq] at h; subst h; rfl
    · simp only [Option.map_eq_some_iff] at h
      obtain ⟨q, hq, rfl⟩ := h
      have := takeFrontOn_length hq
      simp only [List.length_cons]; omega

theorem moveFrontOn_length {p q : Nat} : ∀ {l : List BridgeEntry} {r : BridgeEntry × List BridgeEntry},
    moveFrontOn p q l = some r → r.2.length = l.length
  | [], _, h => by simp [moveFrontOn] at h
  | e :: l, r, h => by
    unfold moveFrontOn at h
    split at h
    · simp only [Option.some.injEq] at h; subst h; rfl
    · simp only [Option.map_eq_some_iff] at h
      obtain ⟨q, hq, rfl⟩ := h
      have := moveFrontOn_length hq
      simp only [List.length_cons]; omega

theorem takeRearOn_length {p : Nat} {l : List BridgeEntry} {r : BridgeEntry × List BridgeEntry}
    (h : takeRearOn p l = some r) : r.2.length + 1 = l.length := by
  simp only [takeRearOn, Option.map_eq_some_iff] at h
  obtain ⟨q, hq, rfl⟩ := h
  have := takeFrontOn_length hq
  simpa using this

theorem moveRearOn_length {p q : Nat} {l : List BridgeEntry} {r : BridgeEntry × List BridgeEntry}
    (h : moveRearOn p q l = some r) : r.2.length = l.length := by
  simp only [moveRearOn, Option.map_eq_some_iff] at h
  obtain ⟨q, hq, rfl⟩ := h
  have := moveFrontOn_length hq
  simpa using this

theorem bounded_setBridge {c : Scene} {l : List BridgeEntry} (hb : c.Bounded) (hl : l.length ≤ 32) :
    (c.setBridge l).Bounded := by
  obtain ⟨⟨-, rest⟩, hs⟩ := hb
  exact ⟨⟨hl, rest⟩, hs⟩

theorem discardBottom_spec {c : Scene} (hb : c.Bounded) :
    c.discardBottom.Bounded ∧ c.discardBottom.trk.axles.backedOut.length ≤ 31
      ∧ c.discardBottom.trk.axles.onBridge = c.trk.axles.onBridge := by
  unfold Scene.discardBottom
  split
  · rename_i h; exact ⟨hb, by omega, rfl⟩
  · rename_i h
    obtain ⟨⟨a, b, d, e, g, rest⟩, hs⟩ := hb
    split
    · rename_i hn
      rw [List.getLast?_eq_none_iff] at hn
      rw [hn] at h
      exact absurd (by simp : ([] : List Entry).length < 32) h
    · dsimp only
      have hd : c.trk.axles.backedOut.dropLast.length ≤ 31 := by rw [List.length_dropLast]; omega
      have hd' : c.trk.axles.backedOut.dropLast.length ≤ 32 := by omega
      split
      · exact ⟨⟨⟨a, hd', d, e, g, rest⟩, hs⟩, hd, rfl⟩
      · exact ⟨⟨⟨a, hd', d, e, fun r hr => g r (List.mem_filter.1 hr).1, rest⟩, hs⟩, hd, rfl⟩

/-- Every move keeps the capacities; an entry needs the OVERFLOW test to have passed (R70, R71, R78). -/
theorem bounded_movePass {c : Scene} (d : Direction) (x : Pass) (kind : PassKind) (m : Moved)
    (h : c.movePass d x kind = some m) (ho : kind = .forwardEntry → c.trk.axles.overflows = false) (hb : c.Bounded) :
    m.scene.Bounded := by
  unfold Scene.movePass at h
  cases kind with
  | forwardEntry =>
    simp only [Option.some.injEq, Scene.enter] at h
    have ho := ho rfl
    simp only [AxleTable.overflows, Bool.or_eq_false_iff, Bool.and_eq_false_iff, decide_eq_false_iff_not, Nat.not_le] at ho
    obtain ⟨h32, hser⟩ := ho
    obtain ⟨⟨a, b, e, f, g, rest⟩, hs⟩ := hb
    subst h
    split
    · rename_i en rs hbo
      simp only [Scene.reenter]
      rw [hbo] at b
      have b' : rs.length ≤ 32 := by simp only [List.length_cons] at b; omega
      split
      · refine ⟨⟨?_, b', e, f, g, rest⟩, hs⟩
        show (c.trk.axles.onBridge ++ [_]).length ≤ 32
        rw [List.length_append, List.length_singleton]; omega
      · have key : ∀ l : AxleTable, l.onBridge = c.trk.axles.onBridge → l.backedOut = rs → l.departed = c.trk.axles.departed →
            l.lastSerial = c.trk.axles.lastSerial → (∀ r ∈ l.records, r.estimates.length ≤ 8) →
            ∀ ep, (Scene.Bounded
              { c with trk := { c.trk with axles := { l with onBridge := l.onBridge ++ [⟨en.serial, en.ghost, firstPlatform c.trk.config.platforms d⟩] }, epoch := ep } }) := by
          intro l e1 e2 e3 e4 e5 ep
          refine ⟨⟨?_, by rw [← e2] at b'; exact b', by rw [← e3] at e; exact e, by rw [← e4] at f; exact f, e5, rest⟩, hs⟩
          show (l.onBridge ++ [_]).length ≤ 32
          rw [e1, List.length_append, List.length_singleton]; omega
        refine key (if en.serial = c.trk.axles.lastSerial then
            { (AxleTable.modRecord { c.trk.axles with backedOut := rs } en.serial fun r =>
                { r with
                  platform := firstPlatform c.trk.config.platforms d
                  entryTime := x.time
                  entrySpeed := x.speed
                  flags := { r.flags with reentered := true } }) with spacingReference := some ⟨x.time, x.speed⟩ }
          else (AxleTable.modRecord { c.trk.axles with backedOut := rs } en.serial fun r =>
                { r with
                  platform := firstPlatform c.trk.config.platforms d
                  entryTime := x.time
                  entrySpeed := x.speed
                  flags := { r.flags with reentered := true } })) ?_ ?_ ?_ ?_ ?_ _
        · split <;> rfl
        · split <;> rfl
        · split <;> rfl
        · split <;> rfl
        · split <;> exact modRecord_bounded g fun r hr => hr
    · rename_i hbo
      simp only [Scene.createAxle]
      rw [hbo] at hser
      have hser : c.trk.axles.lastSerial < 65535 := by simpa using hser
      refine ⟨⟨?_, b, e, hser, ?_, rest⟩, hs⟩
      · show (c.trk.axles.onBridge ++ [_]).length ≤ 32
        rw [List.length_append, List.length_singleton]; omega
      · intro r hr
        have hr : r ∈ c.trk.axles.records ++ [newRecord c.trk.axles (firstPlatform c.trk.config.platforms d) x.time x.speed] := hr
        rw [List.mem_append, List.mem_singleton] at hr
        rcases hr with hr | rfl
        · exact g r hr
        · simp [newRecord]
  | backwardEntry =>
    simp only [Scene.backOut, Option.map_eq_some_iff] at h
    obtain ⟨r, hr, rfl⟩ := h
    obtain ⟨hd, hl, ho⟩ := discardBottom_spec hb
    have := takeRearOn_length hr
    obtain ⟨⟨a, -, e, f, g, rest⟩, hs⟩ := hd
    rw [ho] at a
    refine ⟨⟨?_, ?_, e, f, g, rest⟩, hs⟩
    · show r.2.length ≤ 32
      omega
    · show (r.1.entry :: c.discardBottom.trk.axles.backedOut).length ≤ 32
      rw [List.length_cons]; omega
  | forwardMiddle k =>
    simp only [Scene.moveForward, Option.map_eq_some_iff] at h
    obtain ⟨r, hr, rfl⟩ := h
    have := moveFrontOn_length hr
    have h1 : (c.setBridge r.2).Bounded := bounded_setBridge hb (by rw [this]; exact hb.1.1)
    simp only [Scene.placeRecord]
    split
    · exact h1
    · exact bounded_modRecord h1 fun r hr => hr
  | backwardMiddle k =>
    simp only [Scene.moveBackward, Option.map_eq_some_iff] at h
    obtain ⟨r, hr, rfl⟩ := h
    have := moveRearOn_length hr
    have h1 : (c.setBridge r.2).Bounded := bounded_setBridge hb (by rw [this]; exact hb.1.1)
    simp only [Scene.placeRecord]
    split
    · exact h1
    · exact bounded_modRecord h1 fun r hr => hr
  | forwardExit =>
    simp only [Scene.depart, Option.map_eq_some_iff] at h
    obtain ⟨r, hr, rfl⟩ := h
    have := takeFrontOn_length hr
    obtain ⟨⟨a, b, e, f, g, rest⟩, hs⟩ := hb
    have hl : r.2.length ≤ 32 := by omega
    have ht : ((r.1.entry :: c.trk.axles.departed).take 8).length ≤ 8 := by rw [List.length_take]; omega
    dsimp only
    split
    · exact ⟨⟨hl, b, ht, f, g, rest⟩, hs⟩
    · exact ⟨⟨hl, b, ht, f, g, rest⟩, hs⟩
  | backwardExit =>
    simp only [Scene.ghostReturn] at h
    split at h
    · exact absurd h (by simp)
    · simp only [Option.some.injEq] at h
      subst h
      obtain ⟨⟨a, b, e, f, g, rest⟩, hs⟩ := hb
      have ht : c.trk.axles.departed.tail.length ≤ 8 := by rw [List.length_tail]; omega
      refine ⟨⟨?_, b, ht, f, g, rest⟩, hs⟩
      show (_ :: c.trk.axles.onBridge).length ≤ 32
      rw [List.length_cons]; omega

theorem bounded_moveAndRecord {c : Scene} (d : Direction) (x : Pass) (kind : PassKind)
    (ho : kind = .forwardEntry → c.trk.axles.overflows = false) (hb : c.Bounded) : (c.moveAndRecord d x kind).Bounded := by
  unfold Scene.moveAndRecord
  split
  · exact ⟨hb.1, bounded_countSequenceError hb.2⟩
  · rename_i m hm
    exact foldl_invariant Scene.Bounded _ (fun _ s h => bounded_recordStep _ _ s.1 s.2 h) _ _
      (bounded_movePass d x kind m hm ho hb)

theorem overflows_lists (a : AxleTable) : a.lists.overflows = a.overflows := rfl

theorem bounded_processPass {c : Scene} (d : Direction) (x : Pass) (kind : PassKind)
    (ho : kind = .forwardEntry → c.trk.axles.overflows = false) (hb : c.Bounded) : (c.processPass d x kind).Bounded := by
  rw [processPass_eq]
  refine bounded_moveAndRecord d x kind (fun e => ?_) (bounded_turnWindows d kind hb)
  rw [← overflows_lists, lists_turnWindows, overflows_lists]
  exact ho e

theorem bounded_nextMode {c : Scene} (kind : PassKind) (hb : c.Bounded) : (c.nextMode kind).Bounded := by
  unfold Scene.nextMode
  split
  · exact hb
  · split
    · split <;> exact hb
    · exact hb

/-! ### Closing and opening -/

theorem bounded_queueCloseRecord {c : Scene} (hb : c.Bounded) : c.queueCloseRecord.Bounded := by
  unfold Scene.queueCloseRecord
  split
  · exact hb
  · rename_i p hp
    split
    · obtain ⟨⟨a, b, d, e, g, i, j, k, l, m, -⟩, hs⟩ := hb
      refine ⟨⟨a, b, d, e, g, i, ?_, k, l, m, Nat.zero_le _⟩, hs⟩
      have := wagons_append_close c.trk.records ⟨c.id, p, c.trk.records.lostSinceClose⟩ 0
      rw [← this] at j
      exact j
    · exact hb

theorem bounded_disposeAxles {c : Scene} (hb : c.Bounded) : c.disposeAxles.Bounded := by
  obtain ⟨⟨-, -, -, e, g, rest⟩, hs⟩ := hb
  exact ⟨⟨Nat.zero_le _, Nat.zero_le _, Nat.zero_le _, e, fun r hr => g r (List.mem_filter.1 hr).1, rest⟩, hs⟩

theorem bounded_checkDrift {c : Scene} (hb : c.Bounded) : c.checkDrift.Bounded := by
  unfold Scene.checkDrift
  split <;> exact hb

theorem bounded_closeAllWindows {c : Scene} (hb : c.Bounded) : c.closeAllWindows.Bounded :=
  foldl_invariant Scene.Bounded _ (fun _ p h => bounded_closeWindow p h) _ c hb

theorem bounded_endCapture {c : Scene} (t : Track) (hb : c.Bounded) :
    (c.modShared fun h => h.modCapture (·.closeOf t)).Bounded := by
  refine ⟨hb.1, bounded_modCapture hb.2 ?_⟩
  show (if _ then _ else _ : CaptureUnit).waiting.length ≤ 16
  split <;> exact hb.2.2.2.2.2.2.2.2.2.1

theorem bounded_closeToStep8 {c : Scene} (r : CloseReason) (hb : c.Bounded) : (c.closeToStep8 r).Bounded := by
  have h0 : (c.beginClose r).Bounded := hb
  exact bounded_endCapture _ (bounded_queueCloseRecord (bounded_checkDrift (bounded_flushTurns _
    (bounded_disposeAxles (bounded_finalizeAll (bounded_closeAllWindows h0))))))

theorem bounded_leavePassage {c : Scene} (hb : c.Bounded) : c.leavePassage.Bounded := by
  obtain ⟨⟨-, -, -, -, -, rest⟩, hs⟩ := hb
  exact ⟨⟨Nat.zero_le _, Nat.zero_le _, Nat.zero_le _, Nat.zero_le _, fun r hr => absurd hr List.not_mem_nil, rest⟩, hs⟩

theorem bounded_enterDisabled {c : Scene} (hb : c.Bounded) : c.enterDisabled.Bounded := by
  unfold Scene.enterDisabled
  extract_lets c1
  refine ⟨?_, bounded_engineKept (zeroDisabled_sh c1) hb.2⟩
  rw [zeroDisabled_trk]
  exact hb.1

theorem bounded_endClose {c : Scene} (r : CloseReason) (hb : c.Bounded) : (c.endClose r).Bounded := by
  unfold Scene.endClose
  split
  · exact bounded_enterDisabled (bounded_leavePassage hb)
  · refine ⟨?_, ?_⟩
    · rw [autoZero_trk, zeroReturnsToIdle_trk]
      exact (bounded_leavePassage hb).1
    · rw [autoZero_sh, zeroReturnsToIdle_sh]
      exact hb.2

theorem bounded_closePassage {c : Scene} (r : CloseReason) (hb : c.Bounded) : (c.closePassage r).Bounded :=
  bounded_endClose r (bounded_closeToStep8 r hb)

theorem bounded_handPass {c : Scene} (d : Direction) (x : Pass) (k : Nat) (hb : c.Bounded) : (c.handPass d x k).Bounded := by
  unfold Scene.handPass
  extract_lets kind
  split
  · exact bounded_closePassage _ hb
  · rename_i h
    refine bounded_nextMode _ (bounded_processPass _ _ _ (fun e => ?_) hb)
    cases ho : c.trk.axles.overflows with
    | false => rfl
    | true => exact absurd ⟨e, ho⟩ h

theorem bounded_zeroLeavesIdle {c : Scene} (hb : c.Bounded) : c.zeroLeavesIdle.Bounded := by
  refine ⟨?_, bounded_engineKept (zeroLeavesIdle_sh c) hb.2⟩
  rw [zeroLeavesIdle_trk]
  exact hb.1

theorem bounded_openPassage {c : Scene} (x : Pass) (cause : OpenCause) (hb : c.Bounded) : (c.openPassage x cause).Bounded := by
  unfold Scene.openPassage
  extract_lets fromIdle c1 c2 c3
  have h1 : c1.Bounded := by
    show (if fromIdle then c.openWindows else c).Bounded
    split <;> exact hb
  have h3 : c3.Bounded := by
    obtain ⟨⟨a, b, d, e, g, i, j, k, l, m, n⟩, hs⟩ := h1
    have hq : c1.trk.records.requestPlace.1.queue = c1.trk.records.queue
        ∧ c1.trk.records.requestPlace.1.placesInUse ≤ 2 ∧ c1.trk.records.requestPlace.1.lostPassages ≤ 255
        ∧ c1.trk.records.requestPlace.1.lostSinceClose ≤ 65535 := by
      unfold RecordQueue.requestPlace
      split
      · rename_i h2; exact ⟨rfl, h2, m, n⟩
      · exact ⟨rfl, k, satInc_le m, satInc_le n⟩
    obtain ⟨q1, q2, q3, q4⟩ := hq
    refine ⟨⟨a, b, d, e, g, i, ?_, q2, l, q3, q4⟩, hs⟩
    show (List.filter _ c1.trk.records.requestPlace.1.queue).length ≤ 24
    rw [q1]; exact j
  split
  · exact bounded_zeroLeavesIdle h3
  · exact h3

/-- A pass keeps every capacity. -/
theorem bounded_takePass {c : Scene} (x : Pass) (hb : c.Bounded) : (c.takePass x).Bounded := by
  unfold Scene.takePass
  split
  · exact hb
  · split
    · split
      · exact bounded_zeroLeavesIdle (c := Scene.startTimer _ _) hb
      · exact hb
    · split
      · exact bounded_handPass _ _ _ (bounded_openPassage _ _ hb)
      · exact ⟨hb.1, bounded_countSequenceError hb.2⟩
  · split
    · exact hb
    · split
      · exact bounded_handPass _ _ _ (bounded_openPassage _ _ hb)
      · exact ⟨hb.1, bounded_countSequenceError hb.2⟩
  · split
    · exact bounded_handPass _ _ _ hb
    · exact hb

theorem bounded_takeEdge {c : Scene} (p : PointCode) (h : Head) (l : Level) (hb : c.Bounded) : (c.takeEdge p h l).Bounded := by
  unfold Scene.takeEdge
  split
  · exact ⟨hb.1, bounded_countEdgeError hb.2⟩
  · dsimp only
    split
    · exact hb
    · exact bounded_takePass _ hb

/-! ### The other rules of one track -/

theorem bounded_pointFault {c : Scene} (p : PointCode) (hb : c.Bounded) : (c.pointFault p).Bounded :=
  ⟨hb.1, bounded_countPointFault hb.2⟩

theorem bounded_approachExpires {c : Scene} (hb : c.Bounded) : c.approachExpires.Bounded := by
  unfold Scene.approachExpires
  extract_lets c1
  refine ⟨?_, ?_⟩
  · rw [zeroReturnsToIdle_trk]
    obtain ⟨⟨a, b, d, e, g, i, j, k, l, rest⟩, -⟩ := hb
    exact ⟨a, b, d, e, g, i, j, k, satInc_le l, rest⟩
  · rw [zeroReturnsToIdle_sh]
    exact hb.2

theorem bounded_zeroHoldExpires {c : Scene} (hb : c.Bounded) : c.zeroHoldExpires.Bounded := by
  refine ⟨?_, bounded_engineKept (zeroHoldExpires_sh c) hb.2⟩
  rw [zeroHoldExpires_trk]
  exact hb.1

theorem bounded_disable {c : Scene} (hb : c.Bounded) : c.disable.Bounded := by
  unfold Scene.disable
  split
  · exact hb
  · exact bounded_enterDisabled hb
  · exact bounded_enterDisabled (c := c.discardWindows.modTrk fun k => { k with expected := none }) hb
  · exact bounded_closePassage _ hb

theorem zeroGap_sh (c : Scene) : c.zeroGap.sh = c.sh := by
  unfold Scene.zeroGap
  split
  · rfl
  · split
    · rfl
    · split <;> rfl

theorem zeroFrame_sh (c : Scene) (l : List ChannelEntry) : c.sh.EngineKept (c.zeroFrame l).sh := by
  unfold Scene.zeroFrame
  split
  · exact .refl _
  · split
    · exact .refl _
    · split
      · exact endZero_sh c _ _
      · dsimp only
        split
        · unfold Scene.completeZero
          extract_lets means c1
          exact endZero_sh c1 _ _
        · exact .refl _

theorem bounded_acceptFrame {c : Scene} (n : Byte) (l : List ChannelEntry) (hb : c.Bounded) : (c.acceptFrame n l).Bounded := by
  unfold Scene.acceptFrame
  extract_lets c1 c2 c3 c4
  have h1 : c1.Bounded := by
    show (if gapBefore c.trk.sequence n then c.markGapped.zeroGap else c).Bounded
    split
    · refine ⟨?_, by rw [zeroGap_sh]; exact hb.2⟩
      rw [zeroGap_trk]; exact hb.1
    · exact hb
  have h3 : c3.Bounded := by
    refine ⟨?_, bounded_engineKept (zeroFrame_sh c2 l) h1.2⟩
    rw [show c3 = c2.zeroFrame l from rfl, zeroFrame_trk]; exact h1.1
  exact ⟨h3.1, bounded_modCapture h3.2 (waiting_takeFrame _ _ _ _ h3.2.2.2.2.2.2.2.2.2.1)⟩

end Sys2Proof.Machine
end

