-- ==== Sys2Proof/Laws/Awaiting.lean ====
section
/-!
SUPPORT. Laws/Awaiting.lean: every rule of one track keeps the axle records those of the real axles standing in the table, their pending_steps
the number of platforms that name them, and a pending step for every awaiting axle (R66, R67, R73, R89).
-/
namespace Sys2Proof.Machine

/-! ### Platforms that name an axle -/

/-- One platform's contribution to the number of platforms that name an axle. -/
def Platform.named (x : Platform) (n : Nat) : Nat := if x.names n then 1 else 0

theorem naming_eq (x : Four Platform) (n : Nat) :
    x.naming n = x.first.named n + x.second.named n + x.third.named n + x.fourth.named n := by
  unfold Four.naming Four.toList Platform.named
  simp only [List.filter_cons, List.filter_nil]
  split <;> split <;> split <;> split <;> rfl

theorem named_congr {x y : Platform} (h : x.step = y.step) (n : Nat) : x.named n = y.named n := by
  unfold Platform.named Platform.names
  rw [h]

theorem named_none {x : Platform} (h : x.step = none) (n : Nat) : x.named n = 0 := by
  unfold Platform.named Platform.names
  rw [h]; rfl

theorem named_some {x : Platform} {st : PendingStep} (h : x.step = some st) (n : Nat) :
    x.named n = if st.entry.ghost = false ∧ st.entry.serial = n then 1 else 0 := by
  unfold Platform.named Platform.names
  rw [h]
  simp only [Bool.and_eq_true, Bool.not_eq_true', beq_iff_eq]

theorem Four.get_cases {α : Type} (P : α → Prop) (x : Four α) (h : ∀ p, 1 ≤ p → p ≤ 4 → P (x.get p)) :
    P x.first ∧ P x.second ∧ P x.third ∧ P x.fourth :=
  ⟨h 1 (by omega) (by omega), h 2 (by omega) (by omega), h 3 (by omega) (by omega), h 4 (by omega) (by omega)⟩

/-- The number depends on the steps alone. -/
theorem naming_congr {x y : Four Platform} (h : ∀ p, 1 ≤ p → p ≤ 4 → (x.get p).step = (y.get p).step) (n : Nat) :
    x.naming n = y.naming n := by
  have a : x.first.step = y.first.step := h 1 (by omega) (by omega)
  have b : x.second.step = y.second.step := h 2 (by omega) (by omega)
  have c : x.third.step = y.third.step := h 3 (by omega) (by omega)
  have d : x.fourth.step = y.fourth.step := h 4 (by omega) (by omega)
  rw [naming_eq, naming_eq, named_congr a, named_congr b, named_congr c, named_congr d]

theorem naming_none {x : Four Platform} (h : ∀ p, 1 ≤ p → p ≤ 4 → (x.get p).step = none) (n : Nat) : x.naming n = 0 := by
  obtain ⟨a, b, c, d⟩ := Four.get_cases (fun y : Platform => y.step = none) x h
  rw [naming_eq, named_none a, named_none b, named_none c, named_none d]

theorem naming_set (x : Four Platform) {p : Nat} (v : Platform) (n : Nat) (h1 : 1 ≤ p) (h4 : p ≤ 4) :
    (x.set p v).naming n + (x.get p).named n = x.naming n + v.named n := by
  have hp : p = 1 ∨ p = 2 ∨ p = 3 ∨ p = 4 := by omega
  rw [naming_eq, naming_eq]
  rcases hp with rfl | rfl | rfl | rfl <;> simp only [Four.set, Four.get] <;> omega

/-- A platform's change of step changes the number by its own contribution. -/
theorem named_le_naming (x : Four Platform) {p : Nat} (n : Nat) (h1 : 1 ≤ p) (h4 : p ≤ 4) : (x.get p).named n ≤ x.naming n := by
  have hp : p = 1 ∨ p = 2 ∨ p = 3 ∨ p = 4 := by omega
  rw [naming_eq]
  rcases hp with rfl | rfl | rfl | rfl <;> simp only [Four.get] <;> omega

/-! ### The records -/

theorem AxleTable.Records.congr {a : AxleTable} {x y : Four Platform} (h : a.Records x) (e : ∀ n, y.naming n = x.naming n) :
    a.Records y := by
  obtain ⟨h1, h2, h3, h4⟩ := h
  exact ⟨h1, h2, fun r hr => by rw [e]; exact h3 r hr, fun n hn => by rw [e]; exact h4 n hn⟩

/-- A record's change of pending_steps with the platforms that name it. -/
theorem records_modRecord {a : AxleTable} {x y : Four Platform} (h : a.Records x) (n : Nat) (f : AxleRecord → AxleRecord)
    (hs : ∀ r, (f r).serial = r.serial) (ho : ∀ m, m ≠ n → y.naming m = x.naming m)
    (hn : ∀ r, r.pendingSteps = x.naming n → (f r).pendingSteps = y.naming n) (hl : a.lastSerial < n → y.naming n = 0) :
    (a.modRecord n f).Records y := by
  obtain ⟨h1, h2, h3, h4⟩ := h
  have mem : ∀ q, q ∈ (a.modRecord n f).records ↔ ∃ r ∈ a.records, (if r.serial = n then f r else r) = q := fun q => by
    simp only [AxleTable.modRecord, List.mem_map]
  have ser : ∀ r : AxleRecord, (if r.serial = n then f r else r).serial = r.serial := fun r => by
    split
    · exact hs r
    · rfl
  refine ⟨h1, fun m => ?_, fun q hq => ?_, fun m hm => ?_⟩
  · refine (h2 m).trans ⟨fun ⟨r, hr, e⟩ => ⟨_, (mem _).2 ⟨r, hr, rfl⟩, (ser r).trans e⟩, fun ⟨q, hq, e⟩ => ?_⟩
    obtain ⟨r, hr, rfl⟩ := (mem q).1 hq
    exact ⟨r, hr, (ser r).symm.trans e⟩
  · obtain ⟨r, hr, rfl⟩ := (mem q).1 hq
    obtain ⟨b, d⟩ := h3 r hr
    refine ⟨by rw [ser]; exact b, ?_⟩
    by_cases e : r.serial = n
    · rw [if_pos e, hs, e]
      rw [e] at d
      exact hn r d
    · rw [if_neg e, ho _ e]; exact d
  · by_cases e : m = n
    · subst e; exact hl hm
    · rw [ho m e]; exact h4 m hm

/-- The places change, the records keep their serials and counts. -/
theorem records_of_perm {a b : AxleTable} {x : Four Platform} (h : a.Records x) (hp : b.standing.Perm a.standing)
    (hl : b.lastSerial = a.lastSerial) (f : AxleRecord → AxleRecord)
    (hf : ∀ r, (f r).serial = r.serial ∧ (f r).pendingSteps = r.pendingSteps) (hr : b.records = a.records.map f) : b.Records x := by
  obtain ⟨h1, h2, h3, h4⟩ := h
  refine ⟨hp.nodup_iff.2 h1, fun m => ?_, fun q hq => ?_, by rw [hl]; exact h4⟩
  · rw [hp.mem_iff, h2 m, hr]
    refine ⟨fun ⟨r, hr, e⟩ => ⟨f r, List.mem_map.2 ⟨r, hr, rfl⟩, (hf r).1.trans e⟩, fun ⟨q, hq, e⟩ => ?_⟩
    obtain ⟨r, hr, rfl⟩ := List.mem_map.1 hq
    exact ⟨r, hr, (hf r).1.symm.trans e⟩
  · rw [hr] at hq
    obtain ⟨r, hr, rfl⟩ := List.mem_map.1 hq
    rw [(hf r).1, (hf r).2, hl]
    exact h3 r hr

/-- One axle leaves the table with its record. -/
theorem records_drop {a b : AxleTable} {x : Four Platform} (h : a.Records x) (n : Nat) (hd : b.standing.Nodup)
    (hm : ∀ m, m ∈ b.standing ↔ m ∈ a.standing ∧ m ≠ n) (hl : b.lastSerial = a.lastSerial)
    (hr : b.records = (a.dropRecord n).records) : b.Records x := by
  obtain ⟨h1, h2, h3, h4⟩ := h
  have mem : ∀ r, r ∈ b.records ↔ r ∈ a.records ∧ r.serial ≠ n := fun r => by
    rw [hr]
    simp only [AxleTable.dropRecord, List.mem_filter, bne_iff_ne]
  refine ⟨hd, fun m => ?_, fun r hr => by rw [hl]; exact h3 r ((mem r).1 hr).1, by rw [hl]; exact h4⟩
  rw [hm m, h2 m]
  exact ⟨fun ⟨⟨r, hr, e⟩, hne⟩ => ⟨r, (mem r).2 ⟨hr, by rw [e]; exact hne⟩, e⟩,
    fun ⟨r, hr, e⟩ => ⟨⟨r, ((mem r).1 hr).1, e⟩, by rw [← e]; exact ((mem r).1 hr).2⟩⟩

theorem AxleTable.Records.le_last {a : AxleTable} {x : Four Platform} (h : a.Records x) {n : Nat} (hn : n ∈ a.standing) :
    n ≤ a.lastSerial := by
  obtain ⟨r, hr, rfl⟩ := (h.2.1 n).1 hn
  exact (h.2.2.1 r hr).1

/-- A track has four platforms, and so an axle at most four pending steps (R67, R89). -/
theorem naming_le_four (x : Four Platform) (n : Nat) : x.naming n ≤ 4 := List.length_filter_le _ _

/-- The awaiting set never holds more than 4 axles (R73). -/
theorem awaiting_le_four {k : TrackState} (h : k.AxlesPlaced) : k.axles.awaiting.length ≤ 4 := by
  obtain ⟨⟨hd, -⟩, hw⟩ := h
  let names : List Nat := k.platforms.toList.map fun y => (y.step.map fun st => st.entry.serial).getD 0
  have hs : k.axles.awaiting ⊆ names := fun n hn => by
    have hp := hw n hn
    unfold Four.naming at hp
    obtain ⟨y, hy⟩ := List.exists_mem_of_length_pos hp
    rw [List.mem_filter] at hy
    refine List.mem_map.2 ⟨y, hy.1, ?_⟩
    have e := hy.2
    unfold Platform.names at e
    split at e
    · cases e
    · rename_i st hst
      simp only [Bool.and_eq_true, beq_iff_eq] at e
      rw [hst]; exact e.2
  have hn : k.axles.awaiting.Nodup := hd.sublist (List.sublist_append_right _ _)
  exact hn.length_le_of_subset hs

/-! ### Windows, estimates, finalization -/

/-- The records of a track agree with its places and steps. -/
def Scene.Filed (c : Scene) : Prop := c.trk.axles.Records c.trk.platforms

theorem axles_modFlags (c : Scene) (f : PassageFlags → PassageFlags) : (c.modFlags f).trk.axles = c.trk.axles := rfl

theorem lastSerial_modRecord (a : AxleTable) (n : Nat) (f : AxleRecord → AxleRecord) :
    (a.modRecord n f).lastSerial = a.lastSerial := rfl

theorem filed_closeWindow {c : Scene} {p : Nat} (h : c.Filed) (h1 : 1 ≤ p) (h4 : p ≤ 4) :
    (c.closeWindow p).Filed := by
  unfold Scene.Filed
  have hset := platforms_closeWindow c p
  cases e : (c.trk.platforms.get p).window with
  | none =>
    have hc : c.closeWindow p = c := by unfold Scene.closeWindow; rw [e]
    rw [hc]; exact h
  | some w =>
    rw [e] at hset
    dsimp only at hset
    have num := fun n => naming_set c.trk.platforms ⟨none, some (w.stats (c.trk.occupants p).isEmpty c.other), none⟩ n h1 h4
    rw [← hset] at num
    have new : ∀ n, Platform.named ⟨none, some (w.stats (c.trk.occupants p).isEmpty c.other), none⟩ n = 0 :=
      fun n => named_none rfl n
    cases hs : (c.trk.platforms.get p).step with
    | none =>
      have hax : (c.closeWindow p).trk.axles = c.trk.axles := by
        unfold Scene.closeWindow; rw [e, hs]; rfl
      rw [hax]
      refine h.congr fun n => ?_
      have := num n
      rw [new, named_none hs] at this
      exact this
    | some st =>
      cases hg : st.entry.ghost with
      | true =>
        have hax : (c.closeWindow p).trk.axles = c.trk.axles := by
          unfold Scene.closeWindow Scene.takeStep; rw [e, hs]; dsimp only; rw [if_pos hg]; rfl
        rw [hax]
        refine h.congr fun n => ?_
        have := num n
        rw [new, named_some hs, hg] at this
        simpa using this
      | false =>
        have hax : ∃ f, (∀ r : AxleRecord, (f r).serial = r.serial ∧ (f r).pendingSteps = r.pendingSteps - 1)
            ∧ (c.closeWindow p).trk.axles = c.trk.axles.modRecord st.entry.serial f := by
          unfold Scene.closeWindow Scene.takeStep
          rw [e, hs]
          dsimp only
          rw [if_neg (by rw [hg]; decide)]
          refine ⟨_, ?_, rfl⟩
          exact fun r => ⟨rfl, rfl⟩
        obtain ⟨f, hf, hax⟩ := hax
        rw [hax]
        have one := num st.entry.serial
        rw [new, named_some hs, if_pos ⟨hg, rfl⟩] at one
        refine records_modRecord h _ f (fun r => (hf r).1) (fun m hm => ?_) (fun r hr => ?_) fun hl => ?_
        · have := num m
          rw [new, named_some hs, if_neg (fun q => hm q.2.symm)] at this
          exact this
        · rw [(hf r).2, hr]; omega
        · have := h.2.2.2 _ hl
          omega

/-- A closed window leaves its platform without a step and with statistics. -/
theorem closeWindow_rests {c : Scene} {p q : Nat} (hp : 1 ≤ p ∧ p ≤ 4) (hq : 1 ≤ q ∧ q ≤ 4)
    (h : (p = q ∧ (c.trk.platforms.get q).window.isSome = true)
      ∨ ((c.trk.platforms.get q).step = none ∧ (c.trk.platforms.get q).last.isSome = true)) :
    ((c.closeWindow p).trk.platforms.get q).step = none ∧ ((c.closeWindow p).trk.platforms.get q).last.isSome = true := by
  rw [platforms_closeWindow]
  cases e : (c.trk.platforms.get p).window with
  | none =>
    rcases h with ⟨rfl, h⟩ | h
    · rw [e] at h; cases h
    · exact h
  | some w =>
    dsimp only
    by_cases eq : p = q
    · subst eq; simp
    · rw [Four.get_set_ne _ _ eq hp hq]
      rcases h with ⟨r, -⟩ | h
      · exact absurd r eq
      · exact h

theorem axles_finalizeAxle (c : Scene) (n : Nat) :
    (c.finalizeAxle n).trk.axles
      = { c.trk.axles.dropRecord n with awaiting := c.trk.axles.awaiting.filter (· != n) } := by
  simp only [Scene.finalizeAxle]
  split
  · rfl
  · rw [Scene.groupLoop, axles_groupTurns]; rfl

/-- An awaiting axle is neither on the bridge nor in the stack. -/
theorem filed_finalizeAxle {c : Scene} {n : Nat} (h : c.Filed) (hn : n ∈ c.trk.axles.awaiting) :
    (c.finalizeAxle n).Filed := by
  unfold Scene.Filed
  rw [platforms_finalizeAxle, axles_finalizeAxle]
  have hd := h.1
  unfold AxleTable.standing at hd
  rw [List.nodup_append] at hd
  obtain ⟨d1, d2, d3⟩ := hd
  have hst : AxleTable.standing { c.trk.axles.dropRecord n with awaiting := c.trk.axles.awaiting.filter (· != n) }
      = ((c.trk.axles.onBridge.filter fun e => !e.ghost).map (·.serial)
          ++ (c.trk.axles.backedOut.filter fun e => !e.ghost).map (·.serial)) ++ c.trk.axles.awaiting.filter (· != n) := rfl
  refine records_drop h n ?_ (fun m => ?_) rfl rfl
  · rw [hst]
    exact List.nodup_append.2 ⟨d1, d2.filter _, fun a ha b hb => d3 a ha b (List.mem_filter.1 hb).1⟩
  · rw [hst]
    unfold AxleTable.standing
    rw [List.mem_append, List.mem_append (s := _ ++ _), List.mem_filter, bne_iff_ne]
    constructor
    · rintro (hm | hm)
      · exact ⟨Or.inl hm, fun e => d3 m hm n hn e⟩
      · exact ⟨Or.inr hm.1, hm.2⟩
    · rintro ⟨hm | hm, hne⟩
      · exact Or.inl hm
      · exact Or.inr ⟨hm, hne⟩

/-- A platform that no window's close can bother: without a step, with statistics. -/
def Platform.Rests (x : Platform) : Prop := x.step = none ∧ x.last.isSome = true

theorem filed_closeWindows : ∀ (m : List Nat) (c : Scene), c.Filed → (∀ q ∈ m, 1 ≤ q ∧ q ≤ 4) →
    (m.foldl Scene.closeWindow c).Filed
  | [], _, h, _ => h
  | q :: m, c, h, hm => by
    obtain ⟨a, b⟩ := hm q (by simp)
    exact filed_closeWindows m _ (filed_closeWindow h a b) fun r hr => hm r (by simp [hr])

/-- Closing the windows of a list of platforms leaves each of them at rest. -/
theorem closeWindows_rest : ∀ (m : List Nat) (c : Scene) (q : Nat), (∀ r ∈ m, 1 ≤ r ∧ r ≤ 4) → 1 ≤ q ∧ q ≤ 4 →
    ((q ∈ m ∧ (c.trk.platforms.get q).window.isSome = true) ∨ (c.trk.platforms.get q).Rests) →
      ((m.foldl Scene.closeWindow c).trk.platforms.get q).Rests
  | [], _, _, _, _, h => by
    rcases h with ⟨h, -⟩ | h
    · cases h
    · exact h
  | r :: m, c, q, hm, hq, h => by
    have hr := hm r (by simp)
    refine closeWindows_rest m _ q (fun x hx => hm x (by simp [hx])) hq ?_
    by_cases e : r = q
    · refine Or.inr (closeWindow_rests hr hq ?_)
      rcases h with h | h
      · exact Or.inl ⟨e, h.2⟩
      · exact Or.inr h
    · rcases h with ⟨h1, h2⟩ | h
      · rw [List.mem_cons] at h1
        rcases h1 with h1 | h1
        · exact absurd h1.symm e
        · refine Or.inl ⟨h1, ?_⟩
          rw [platforms_closeWindow]
          split
          · exact h2
          · rw [Four.get_set_ne _ _ e hr hq]; exact h2
      · exact Or.inr (closeWindow_rests hr hq (Or.inr h))

theorem filed_finalizeAxles : ∀ (l : List Nat) (c : Scene), c.Filed → l.Nodup → (∀ n ∈ l, n ∈ c.trk.axles.awaiting) →
    (l.foldl Scene.finalizeAxle c).Filed
      ∧ (∀ n, n ∈ (l.foldl Scene.finalizeAxle c).trk.axles.awaiting → n ∈ c.trk.axles.awaiting ∧ n ∉ l)
  | [], c, h, _, _ => ⟨h, fun n hn => ⟨hn, List.not_mem_nil⟩⟩
  | a :: l, c, h, hd, hl => by
    rw [List.nodup_cons] at hd
    have hw : ∀ n, n ∈ (c.finalizeAxle a).trk.axles.awaiting ↔ n ∈ c.trk.axles.awaiting ∧ n ≠ a := fun n => by
      rw [axles_finalizeAxle]
      simp only [List.mem_filter, bne_iff_ne]
    obtain ⟨h1, h2⟩ := filed_finalizeAxles l _ (filed_finalizeAxle h (hl a (by simp))) hd.2
      (fun n hn => (hw n).2 ⟨hl n (by simp [hn]), fun e => hd.1 (e ▸ hn)⟩)
    refine ⟨h1, fun n hn => ?_⟩
    obtain ⟨g1, g2⟩ := h2 n hn
    obtain ⟨g3, g4⟩ := (hw n).1 g1
    exact ⟨g3, by simp [g4, g2]⟩

theorem awaiting_nodup {a : AxleTable} {x : Four Platform} (h : a.Records x) : a.awaiting.Nodup :=
  h.1.sublist (List.sublist_append_right _ _)

/-- After the finalizations at the end of stage 1 every awaiting axle still has a pending step (R73, R100). -/
theorem placed_finalizeResolved {c : Scene} (h : c.Filed) : c.finalizeResolved.trk.AxlesPlaced := by
  unfold Scene.finalizeResolved AxleTable.finalizable
  obtain ⟨h1, h2⟩ := filed_finalizeAxles (c.trk.axles.finalizable) c h ((awaiting_nodup h).filter _)
    (fun n hn => (List.mem_filter.1 hn).1)
  refine ⟨h1, fun n hn => ?_⟩
  have hp : c.finalizeResolved.trk.platforms = c.trk.platforms := platforms_finalizeResolved c
  show 0 < c.finalizeResolved.trk.platforms.naming n
  rw [hp]
  obtain ⟨g1, g2⟩ := h2 n hn
  have hst : n ∈ c.trk.axles.standing := List.mem_append_right _ g1
  obtain ⟨r, hr, er⟩ := (h.2.1 n).1 hst
  cases hf : c.trk.axles.find n with
  | none =>
    unfold AxleTable.find at hf
    rw [List.find?_eq_none] at hf
    exact absurd (by simpa using er) (hf r hr)
  | some q =>
    have hq := List.mem_of_find?_eq_some hf
    have eq : q.serial = n := by simpa using List.find?_some hf
    have hne : q.pendingSteps ≠ 0 := fun e => g2 (List.mem_filter.2 ⟨g1, by rw [hf]; simpa using e⟩)
    have := (h.2.2.1 q hq).2
    rw [eq] at this
    omega

/-- The same table and the same steps. -/
theorem placed_of_same {k k' : TrackState} (h : k.AxlesPlaced) (ha : k'.axles = k.axles)
    (hs : ∀ p, 1 ≤ p → p ≤ 4 → (k'.platforms.get p).step = (k.platforms.get p).step) : k'.AxlesPlaced := by
  have hn := fun n => naming_congr hs n
  refine ⟨?_, fun n hm => ?_⟩
  · rw [ha]; exact h.1.congr hn
  · rw [hn]
    rw [ha] at hm
    exact h.2 n hm

theorem openWindow_steps (c : Scene) {q : Nat} (hq : 1 ≤ q ∧ q ≤ 4) {p : Nat} (hp : 1 ≤ p ∧ p ≤ 4) :
    ((c.openWindow q).trk.platforms.get p).step = (c.trk.platforms.get p).step
      ∧ ((c.openWindow q).trk.platforms.get p).last = (c.trk.platforms.get p).last := by
  rw [platforms_openWindow]
  by_cases e : q = p
  · subst e; simp
  · rw [Four.get_set_ne _ _ e hq hp]; exact ⟨rfl, rfl⟩

theorem openWindows_steps : ∀ (m : List Nat) (c : Scene), (∀ q ∈ m, 1 ≤ q ∧ q ≤ 4) → ∀ p, 1 ≤ p ∧ p ≤ 4 →
    ((m.foldl Scene.openWindow c).trk.platforms.get p).step = (c.trk.platforms.get p).step
      ∧ ((m.foldl Scene.openWindow c).trk.platforms.get p).last = (c.trk.platforms.get p).last
      ∧ (m.foldl Scene.openWindow c).trk.axles = c.trk.axles
  | [], _, _, _, _ => ⟨rfl, rfl, rfl⟩
  | q :: m, c, hm, p, hp => by
    obtain ⟨a, b, d⟩ := openWindows_steps m (c.openWindow q) (fun r hr => hm r (by simp [hr])) p hp
    obtain ⟨e, f⟩ := openWindow_steps c (hm q (by simp)) hp
    exact ⟨a.trans e, b.trans f, d⟩

/-- Stages 1 and 2 of a pass leave the axles placed and the bound platforms at rest (R31). -/
theorem placed_turnWindows {c : Scene} (d : Direction) (kind : PassKind) (h : c.trk.AxlesPlaced)
    (hw : AllOpen c.trk.config.platforms c.trk.platforms) (h4 : c.trk.config.platforms ≤ 4)
    (hb : ∀ q ∈ boundPlatforms c.trk.config.platforms d kind, 1 ≤ q ∧ q ≤ c.trk.config.platforms) :
    (c.turnWindows d kind).trk.AxlesPlaced
      ∧ ∀ q ∈ boundPlatforms c.trk.config.platforms d kind, ((c.turnWindows d kind).trk.platforms.get q).Rests := by
  have hb' : ∀ q ∈ boundPlatforms c.trk.config.platforms d kind, 1 ≤ q ∧ q ≤ 4 := fun q hq => by
    obtain ⟨a, b⟩ := hb q hq; omega
  unfold Scene.turnWindows
  revert hb hb'
  generalize boundPlatforms c.trk.config.platforms d kind = b
  intro hb hb'
  have h1 := placed_finalizeResolved (filed_closeWindows b c h.1 hb')
  refine ⟨placed_of_same h1 (openWindows_steps b _ hb' 1 (by omega)).2.2
    fun p p1 p4 => (openWindows_steps b _ hb' p ⟨p1, p4⟩).1, fun q hq => ?_⟩
  obtain ⟨e1, e2, -⟩ := openWindows_steps b (b.foldl Scene.closeWindow c).finalizeResolved hb' q (hb' q hq)
  have hr := closeWindows_rest b c q hb' (hb' q hq)
    (Or.inl ⟨hq, by rw [(hw q (hb' q hq).1 (hb' q hq).2).1]; simpa using (hb q hq).2⟩)
  rw [← platforms_finalizeResolved] at hr
  exact ⟨e1.trans hr.1, by rw [e2]; exact hr.2⟩

/-! ### Moves -/

/-- The serials of the real entries of an on-bridge list. -/
def bridgeSerials (l : List BridgeEntry) : List Nat := (l.filter fun e => !e.ghost).map (·.serial)

/-- The serials of the real entries of a stack. -/
def stackSerials (l : List Entry) : List Nat := (l.filter fun e => !e.ghost).map (·.serial)

theorem standing_eq (a : AxleTable) : a.standing = bridgeSerials a.onBridge ++ stackSerials a.backedOut ++ a.awaiting := rfl

/-- The serial of an entry, when it is real. -/
def Entry.reals (e : Entry) : List Nat := if e.ghost then [] else [e.serial]

theorem bridgeSerials_cons (e : BridgeEntry) (l : List BridgeEntry) :
    bridgeSerials (e :: l) = e.entry.reals ++ bridgeSerials l := by
  unfold bridgeSerials Entry.reals BridgeEntry.entry
  cases h : e.ghost <;> simp [h]

theorem stackSerials_cons (e : Entry) (l : List Entry) : stackSerials (e :: l) = e.reals ++ stackSerials l := by
  unfold stackSerials Entry.reals
  cases h : e.ghost <;> simp [h]

theorem bridgeSerials_append (l m : List BridgeEntry) : bridgeSerials (l ++ m) = bridgeSerials l ++ bridgeSerials m := by
  simp [bridgeSerials]

theorem bridgeSerials_reverse (l : List BridgeEntry) : bridgeSerials l.reverse = (bridgeSerials l).reverse := by
  simp [bridgeSerials, List.filter_reverse]

theorem takeFrontOn_serials {p : Nat} : ∀ {l : List BridgeEntry} {r : BridgeEntry × List BridgeEntry},
    takeFrontOn p l = some r → (bridgeSerials l).Perm (r.1.entry.reals ++ bridgeSerials r.2)
  | [], _, h => by simp [takeFrontOn] at h
  | e :: l, r, h => by
    unfold takeFrontOn at h
    split at h
    · simp only [Option.some.injEq] at h
      subst h
      rw [bridgeSerials_cons]
    · simp only [Option.map_eq_some_iff] at h
      obtain ⟨q, hq, rfl⟩ := h
      have := takeFrontOn_serials hq
      dsimp only
      rw [bridgeSerials_cons, bridgeSerials_cons]
      refine (this.append_left _).trans ?_
      rw [← List.append_assoc, ← List.append_assoc]
      exact List.perm_append_comm.append_right _

theorem takeRearOn_serials {p : Nat} {l : List BridgeEntry} {r : BridgeEntry × List BridgeEntry}
    (h : takeRearOn p l = some r) : (bridgeSerials l).Perm (r.1.entry.reals ++ bridgeSerials r.2) := by
  simp only [takeRearOn, Option.map_eq_some_iff] at h
  obtain ⟨q, hq, rfl⟩ := h
  have := takeFrontOn_serials hq
  rw [bridgeSerials_reverse] at this
  dsimp only
  rw [bridgeSerials_reverse]
  exact (List.reverse_perm _).symm.trans (this.trans ((List.reverse_perm _).symm.append_left _))

theorem moveFrontOn_serials {p q : Nat} : ∀ {l : List BridgeEntry} {r : BridgeEntry × List BridgeEntry},
    moveFrontOn p q l = some r → bridgeSerials r.2 = bridgeSerials l ∧ ∀ n ∈ r.1.entry.reals, n ∈ bridgeSerials l
  | [], _, h => by simp [moveFrontOn] at h
  | e :: l, r, h => by
    unfold moveFrontOn at h
    split at h
    · simp only [Option.some.injEq] at h
      subst h
      dsimp only
      rw [bridgeSerials_cons, bridgeSerials_cons]
      exact ⟨rfl, fun n hn => List.mem_append_left _ hn⟩
    · simp only [Option.map_eq_some_iff] at h
      obtain ⟨x, hx, rfl⟩ := h
      obtain ⟨a, b⟩ := moveFrontOn_serials hx
      dsimp only
      rw [bridgeSerials_cons, bridgeSerials_cons, a]
      exact ⟨rfl, fun n hn => List.mem_append_right _ (b n hn)⟩

theorem moveRearOn_serials {p q : Nat} {l : List BridgeEntry} {r : BridgeEntry × List BridgeEntry}
    (h : moveRearOn p q l = some r) : bridgeSerials r.2 = bridgeSerials l ∧ ∀ n ∈ r.1.entry.reals, n ∈ bridgeSerials l := by
  simp only [moveRearOn, Option.map_eq_some_iff] at h
  obtain ⟨x, hx, rfl⟩ := h
  obtain ⟨a, b⟩ := moveFrontOn_serials hx
  dsimp only
  rw [bridgeSerials_reverse] at a b
  refine ⟨by rw [bridgeSerials_reverse, a, List.reverse_reverse], fun n hn => List.mem_reverse.1 (b n hn)⟩

/-- What a move leaves: the records agree, a real moved axle stands in the table, and the awaiting set gains at most the moved axle. -/
structure Moved.Places (m : Moved) (c : Scene) : Prop where
  filed : m.scene.Filed
  stands : ∀ n ∈ m.entry.reals, n ∈ m.scene.trk.axles.standing
  awaiting : ∀ n ∈ m.scene.trk.axles.awaiting, n ∈ c.trk.axles.awaiting ∨ n ∈ m.entry.reals

/-- A move that only carries entries from place to place. -/
theorem places_of_perm {c : Scene} {m : Moved} (h : c.Filed) (hpl : m.scene.trk.platforms = c.trk.platforms)
    (hp : m.scene.trk.axles.standing.Perm c.trk.axles.standing)
    (hl : m.scene.trk.axles.lastSerial = c.trk.axles.lastSerial) (f : AxleRecord → AxleRecord)
    (hf : ∀ r, (f r).serial = r.serial ∧ (f r).pendingSteps = r.pendingSteps)
    (hr : m.scene.trk.axles.records = c.trk.axles.records.map f) (hs : ∀ n ∈ m.entry.reals, n ∈ c.trk.axles.standing)
    (ha : ∀ n ∈ m.scene.trk.axles.awaiting, n ∈ c.trk.axles.awaiting ∨ n ∈ m.entry.reals) : m.Places c where
  filed := by
    unfold Scene.Filed
    rw [hpl]
    exact records_of_perm h hp hl f hf hr
  stands n hn := hp.mem_iff.2 (hs n hn)
  awaiting := ha

theorem standing_reenter {a : AxleTable} (e : Entry) (rest : List Entry) (p : Nat) (h : a.backedOut = e :: rest) :
    bridgeSerials (a.onBridge ++ [⟨e.serial, e.ghost, p⟩]) ++ stackSerials rest ++ a.awaiting = a.standing := by
  rw [standing_eq, h, bridgeSerials_append, stackSerials_cons, bridgeSerials_cons]
  simp [bridgeSerials, BridgeEntry.entry]

/-- What a re-entry does to the axle table (R79). -/
theorem axles_reenter (c : Scene) (e : Entry) (rest : List Entry) (p : Nat) (t : Word) (v : Option Nat) :
    ∃ (f : AxleRecord → AxleRecord) (sp : Option SpacingReference),
      (∀ r, (f r).serial = r.serial ∧ (f r).pendingSteps = r.pendingSteps)
        ∧ (c.reenter e rest p t v).scene.trk.axles
            = { c.trk.axles with
                records := c.trk.axles.records.map f
                onBridge := c.trk.axles.onBridge ++ [⟨e.serial, e.ghost, p⟩]
                backedOut := rest
                spacingReference := sp } := by
  have spacing : ∀ a : AxleTable,
      (if e.serial = a.lastSerial then { a with spacingReference := some ⟨t, v⟩ } else a)
        = { a with spacingReference := if e.serial = a.lastSerial then some ⟨t, v⟩ else a.spacingReference } := fun a => by
    split <;> rfl
  simp only [Scene.reenter]
  split
  · refine ⟨id, c.trk.axles.spacingReference, fun _ => ⟨rfl, rfl⟩, ?_⟩
    rw [List.map_id]; rfl
  · refine ⟨fun r => if r.serial = e.serial then
        { r with platform := p, entryTime := t, entrySpeed := v, flags := { r.flags with reentered := true } } else r,
      if e.serial = c.trk.axles.lastSerial then some ⟨t, v⟩ else c.trk.axles.spacingReference, fun r => ?_, ?_⟩
    · dsimp only
      split <;> exact ⟨rfl, rfl⟩
    · exact congrArg (fun a : AxleTable => { a with onBridge := a.onBridge ++ [(⟨e.serial, e.ghost, p⟩ : BridgeEntry)] })
        (spacing (AxleTable.modRecord { c.trk.axles with backedOut := rest } e.serial fun r =>
          { r with platform := p, entryTime := t, entrySpeed := v, flags := { r.flags with reentered := true } }))

theorem places_reenter {c : Scene} (e : Entry) (rest : List Entry) (p : Nat) (t : Word) (v : Option Nat) (h : c.Filed)
    (hb : c.trk.axles.backedOut = e :: rest) : (c.reenter e rest p t v).Places c := by
  obtain ⟨f, sp, hf, hax⟩ := axles_reenter c e rest p t v
  refine places_of_perm h (platforms_reenter c e rest p t v) (List.Perm.of_eq ?_) (by rw [hax]) f hf (by rw [hax]) ?_ ?_
  · rw [hax]
    exact standing_reenter e rest p hb
  · intro n hn
    rw [standing_eq, hb, stackSerials_cons]
    exact List.mem_append_left _ (List.mem_append_right _ (List.mem_append_left _ hn))
  · intro n hn
    rw [hax] at hn
    exact Or.inl hn

theorem places_createAxle {c : Scene} (p : Nat) (t : Word) (v : Option Nat) (h : c.Filed) :
    (c.createAxle p t v).Places c := by
  obtain ⟨h1, h2, h3, h4⟩ := h
  have hle : ∀ n ∈ c.trk.axles.standing, n ≤ c.trk.axles.lastSerial := fun n hn => by
    obtain ⟨r, hr, rfl⟩ := (h2 n).1 hn
    exact (h3 r hr).1
  have hst : (c.createAxle p t v).scene.trk.axles.standing
      = bridgeSerials c.trk.axles.onBridge ++ ((c.trk.axles.lastSerial + 1) :: (stackSerials c.trk.axles.backedOut ++ c.trk.axles.awaiting)) := by
    show bridgeSerials (c.trk.axles.onBridge ++ [_]) ++ stackSerials c.trk.axles.backedOut ++ c.trk.axles.awaiting = _
    rw [bridgeSerials_append, bridgeSerials_cons]
    simp [bridgeSerials, BridgeEntry.entry, Entry.reals, newRecord]
  have hperm : (c.createAxle p t v).scene.trk.axles.standing.Perm ((c.trk.axles.lastSerial + 1) :: c.trk.axles.standing) := by
    rw [hst, standing_eq, List.append_assoc]
    exact List.perm_middle
  have hmem : ∀ n, n ∈ (c.createAxle p t v).scene.trk.axles.standing ↔ n = c.trk.axles.lastSerial + 1 ∨ n ∈ c.trk.axles.standing :=
    fun n => by rw [hperm.mem_iff, List.mem_cons]
  have hrec : (c.createAxle p t v).scene.trk.axles.records = c.trk.axles.records ++ [newRecord c.trk.axles p t v] := rfl
  have hlast : (c.createAxle p t v).scene.trk.axles.lastSerial = c.trk.axles.lastSerial + 1 := rfl
  have hpl : (c.createAxle p t v).scene.trk.platforms = c.trk.platforms := rfl
  refine ⟨⟨?_, fun n => ?_, fun r hr => ?_, fun n hn => ?_⟩, fun n hn => ?_, fun n hn => Or.inl hn⟩
  · rw [hperm.nodup_iff, List.nodup_cons]
    exact ⟨fun hn => by have := hle _ hn; omega, h1⟩
  · rw [hmem, hrec]
    constructor
    · rintro (rfl | hn)
      · exact ⟨_, List.mem_append_right _ (List.mem_singleton.2 rfl), rfl⟩
      · obtain ⟨r, hr, e⟩ := (h2 n).1 hn
        exact ⟨r, List.mem_append_left _ hr, e⟩
    · rintro ⟨r, hr, rfl⟩
      rcases List.mem_append.1 hr with hr | hr
      · exact Or.inr ((h2 _).2 ⟨r, hr, rfl⟩)
      · rw [List.mem_singleton] at hr
        subst hr
        exact Or.inl rfl
  · rw [hrec] at hr
    rw [hlast, hpl]
    rcases List.mem_append.1 hr with hr | hr
    · obtain ⟨a, b⟩ := h3 r hr
      exact ⟨by omega, b⟩
    · rw [List.mem_singleton] at hr
      subst hr
      exact ⟨Nat.le_refl _, (h4 _ (Nat.lt_succ_self _)).symm⟩
  · rw [hlast] at hn
    rw [hpl]
    exact h4 n (by omega)
  · rw [hmem]
    have hn : n ∈ [c.trk.axles.lastSerial + 1] := hn
    exact Or.inl (List.mem_singleton.1 hn)

theorem filed_discardBottom {c : Scene} (h : c.Filed) :
    c.discardBottom.Filed ∧ c.discardBottom.trk.axles.onBridge = c.trk.axles.onBridge
      ∧ c.discardBottom.trk.axles.awaiting = c.trk.axles.awaiting := by
  unfold Scene.discardBottom
  split
  · exact ⟨h, rfl, rfl⟩
  · split
    · exact ⟨h, rfl, rfl⟩
    · rename_i e he
      have hl : c.trk.axles.backedOut = c.trk.axles.backedOut.dropLast ++ [e] := by
        obtain ⟨hne, hx⟩ := List.getLast?_eq_some_iff.1 he |>.imp fun _ h => h
        rw [hx]; simp
      have hs : stackSerials c.trk.axles.backedOut = stackSerials c.trk.axles.backedOut.dropLast ++ e.reals := by
        rw [hl]
        simp only [List.dropLast_concat]
        unfold stackSerials Entry.reals
        rw [List.filter_append]
        cases hg : e.ghost <;> simp [hg]
      dsimp only
      split
      · rename_i hg
        refine ⟨?_, rfl, rfl⟩
        refine records_of_perm h (List.Perm.of_eq ?_) rfl id (fun _ => ⟨rfl, rfl⟩) (List.map_id _).symm
        show bridgeSerials c.trk.axles.onBridge ++ stackSerials c.trk.axles.backedOut.dropLast ++ c.trk.axles.awaiting = c.trk.axles.standing
        rw [standing_eq, hs]
        simp [Entry.reals, hg]
      · rename_i hg
        refine ⟨?_, rfl, rfl⟩
        have hr : e.reals = [e.serial] := by unfold Entry.reals; rw [if_neg hg]
        have hst : c.trk.axles.standing.Perm (e.serial ::
            (bridgeSerials c.trk.axles.onBridge ++ stackSerials c.trk.axles.backedOut.dropLast ++ c.trk.axles.awaiting)) := by
          rw [standing_eq, hs, hr]
          simp only [List.append_assoc, List.singleton_append]
          exact (List.perm_middle.append_left _).trans List.perm_middle
        have hd := hst.nodup_iff.1 h.1
        rw [List.nodup_cons] at hd
        refine records_drop (n := e.serial) h hd.2 (fun m => ?_) rfl rfl
        show m ∈ bridgeSerials c.trk.axles.onBridge ++ stackSerials c.trk.axles.backedOut.dropLast ++ c.trk.axles.awaiting ↔ _
        rw [hst.mem_iff, List.mem_cons]
        exact ⟨fun hm => ⟨Or.inr hm, fun e => hd.1 (e ▸ hm)⟩, fun ⟨hm, hne⟩ => hm.resolve_left hne⟩

/-- Every move keeps the records with the places (R76 to R86). -/
theorem places_movePass {c : Scene} (d : Direction) (x : Pass) (kind : PassKind) (m : Moved)
    (hm : c.movePass d x kind = some m) (h : c.Filed) : m.Places c := by
  have placed : ∀ (e : BridgeEntry) (l : List BridgeEntry) (p q : Nat) (steps : List (Nat × Sign)),
      bridgeSerials l = bridgeSerials c.trk.axles.onBridge → (∀ n ∈ e.entry.reals, n ∈ bridgeSerials c.trk.axles.onBridge) →
      (⟨(c.setBridge l).placeRecord e q, e.entry, steps⟩ : Moved).Places c := by
    intro e l p q steps hl he
    have hs : ∀ n ∈ e.entry.reals, n ∈ c.trk.axles.standing := fun n hn =>
      List.mem_append_left _ (List.mem_append_left _ (he n hn))
    have hst : bridgeSerials l ++ stackSerials c.trk.axles.backedOut ++ c.trk.axles.awaiting = c.trk.axles.standing := by
      rw [hl]; rfl
    unfold Scene.placeRecord
    split
    · exact places_of_perm (m := ⟨c.setBridge l, e.entry, steps⟩) h rfl (List.Perm.of_eq hst) rfl id (fun _ => ⟨rfl, rfl⟩)
        (List.map_id _).symm hs fun n hn => Or.inl hn
    · refine places_of_perm (m := ⟨(c.setBridge l).modRecord e.serial _, e.entry, steps⟩) h rfl (List.Perm.of_eq hst) rfl
        (fun r => if r.serial = e.serial then { r with platform := q } else r) (fun r => ?_) rfl hs fun n hn => Or.inl hn
      split <;> exact ⟨rfl, rfl⟩
  unfold Scene.movePass at hm
  cases kind with
  | forwardEntry =>
    simp only [Option.some.injEq, Scene.enter] at hm
    subst hm
    split
    · rename_i e rest hb
      exact places_reenter e rest _ _ _ h hb
    · exact places_createAxle _ _ _ h
  | backwardEntry =>
    simp only [Scene.backOut, Option.map_eq_some_iff] at hm
    obtain ⟨r, hr, rfl⟩ := hm
    obtain ⟨h1, h2, h3⟩ := filed_discardBottom h
    have hp := takeRearOn_serials hr
    have hperm : (bridgeSerials r.2 ++ stackSerials (r.1.entry :: c.discardBottom.trk.axles.backedOut)
        ++ c.discardBottom.trk.axles.awaiting).Perm c.discardBottom.trk.axles.standing := by
      rw [standing_eq, stackSerials_cons, h2]
      refine List.Perm.append_right _ ?_
      rw [← List.append_assoc]
      exact (List.perm_append_comm.trans hp.symm).append_right _
    have hin : ∀ n ∈ r.1.entry.reals, n ∈ c.discardBottom.trk.axles.standing := fun n hn =>
      hperm.mem_iff.1 (List.mem_append_left _ (List.mem_append_right _ (by rw [stackSerials_cons]; exact List.mem_append_left _ hn)))
    obtain ⟨g1, g2, g3⟩ := places_of_perm (c := c.discardBottom)
      (m := ⟨(c.discardBottom.setBridge r.2).modAxles fun a => { a with backedOut := r.1.entry :: a.backedOut }, r.1.entry,
        [(firstPlatform c.trk.config.platforms d, .exit)]⟩) h1 rfl hperm rfl id (fun _ => ⟨rfl, rfl⟩) (List.map_id _).symm hin
      fun n hn => Or.inl hn
    exact ⟨g1, g2, fun n hn => by rw [← h3]; exact g3 n hn⟩
  | forwardMiddle k =>
    simp only [Scene.moveForward, Option.map_eq_some_iff] at hm
    obtain ⟨r, hr, rfl⟩ := hm
    obtain ⟨a, b⟩ := moveFrontOn_serials hr
    exact placed r.1 r.2 0 _ _ a b
  | backwardMiddle k =>
    simp only [Scene.moveBackward, Option.map_eq_some_iff] at hm
    obtain ⟨r, hr, rfl⟩ := hm
    obtain ⟨a, b⟩ := moveRearOn_serials hr
    exact placed r.1 r.2 0 _ _ a b
  | forwardExit =>
    simp only [Scene.depart, Option.map_eq_some_iff] at hm
    obtain ⟨r, hr, rfl⟩ := hm
    have hp := takeFrontOn_serials hr
    have hin : ∀ n ∈ r.1.entry.reals, n ∈ c.trk.axles.standing := fun n hn =>
      List.mem_append_left _ (List.mem_append_left _ (hp.mem_iff.2 (List.mem_append_left _ hn)))
    split
    · rename_i hg
      have hr0 : r.1.entry.reals = [] := if_pos hg
      rw [hr0] at hp
      refine places_of_perm (m := ⟨_, r.1.entry, _⟩) h rfl ?_ rfl id (fun _ => ⟨rfl, rfl⟩) (List.map_id _).symm hin
        fun n hn => Or.inl hn
      exact (hp.symm.append_right _).append_right _
    · rename_i hg
      have hr0 : r.1.entry.reals = [r.1.serial] := if_neg hg
      refine places_of_perm (m := ⟨_, r.1.entry, _⟩) h rfl ?_ rfl id (fun _ => ⟨rfl, rfl⟩) (List.map_id _).symm hin
        fun n hn => ?_
      · rw [hr0] at hp
        show (bridgeSerials r.2 ++ stackSerials c.trk.axles.backedOut ++ (c.trk.axles.awaiting ++ [r.1.serial])).Perm _
        rw [standing_eq, ← List.append_assoc]
        refine List.perm_append_comm.trans ?_
        rw [← List.append_assoc, ← List.append_assoc]
        exact (hp.symm.append_right _).append_right _
      · have hn : n ∈ c.trk.axles.awaiting ++ [r.1.serial] := hn
        rw [hr0]
        exact List.mem_append.1 hn
  | backwardExit =>
    simp only [Scene.ghostReturn] at hm
    split at hm
    · exact absurd hm (by simp)
    · simp only [Option.some.injEq] at hm
      subst hm
      refine places_of_perm h rfl (List.Perm.of_eq ?_) rfl id (fun _ => ⟨rfl, rfl⟩) (List.map_id _).symm
        (fun n hn => absurd hn (by simp [Entry.reals])) fun n hn => Or.inl hn
      show bridgeSerials (_ :: c.trk.axles.onBridge) ++ stackSerials c.trk.axles.backedOut ++ c.trk.axles.awaiting = c.trk.axles.standing
      rw [bridgeSerials_cons]
      rfl

/-! ### Steps recorded -/

/-- A step recorded on a platform at rest: the records follow, no axle is named by fewer platforms, and a real entry's axle is named (R38,
R89). -/
theorem filed_recordStep {c : Scene} {e : Entry} (v : Option Nat) {p : Nat} (g : Sign) (h : c.Filed) (h1 : 1 ≤ p) (h4 : p ≤ 4)
    (hr : (c.trk.platforms.get p).Rests) (he : ∀ n ∈ e.reals, n ≤ c.trk.axles.lastSerial) :
    (c.recordStep e v p g).Filed ∧ (c.recordStep e v p g).trk.axles.awaiting = c.trk.axles.awaiting
      ∧ (c.recordStep e v p g).trk.axles.lastSerial = c.trk.axles.lastSerial
      ∧ (∀ n, c.trk.platforms.naming n ≤ (c.recordStep e v p g).trk.platforms.naming n)
      ∧ (∀ n ∈ e.reals, 0 < (c.recordStep e v p g).trk.platforms.naming n)
      ∧ ∀ q, 1 ≤ q → q ≤ 4 → q ≠ p → (c.trk.platforms.get q).Rests → ((c.recordStep e v p g).trk.platforms.get q).Rests := by
  obtain ⟨hstep, hlast⟩ := hr
  obtain ⟨before, hb⟩ := Option.isSome_iff_exists.1 hlast
  have hset := platforms_recordStep c e v p g
  rw [hb] at hset
  dsimp only at hset
  have num := fun n => naming_set c.trk.platforms { c.trk.platforms.get p with step := some ⟨e, g, v, before⟩ } n h1 h4
  rw [← hset] at num
  have new : ∀ n, Platform.named { c.trk.platforms.get p with step := some ⟨e, g, v, before⟩ } n
      = if e.ghost = false ∧ e.serial = n then 1 else 0 := fun n => named_some (st := ⟨e, g, v, before⟩) rfl n
  have old : ∀ n, (c.trk.platforms.get p).named n = 0 := fun n => named_none hstep n
  have hrest : ∀ q, 1 ≤ q → q ≤ 4 → q ≠ p → (c.trk.platforms.get q).Rests →
      ((c.recordStep e v p g).trk.platforms.get q).Rests := fun q q1 q4 hq hx => by
    rw [hset, Four.get_set_ne _ _ (Ne.symm hq) ⟨h1, h4⟩ ⟨q1, q4⟩]; exact hx
  have hle : ∀ n, c.trk.platforms.naming n ≤ (c.recordStep e v p g).trk.platforms.naming n := fun n => by
    have := num n
    rw [old] at this
    omega
  cases hg : e.ghost with
  | true =>
    have hax : (c.recordStep e v p g).trk.axles = c.trk.axles := by
      unfold Scene.recordStep; rw [hb]; dsimp only; rw [if_pos hg]; rfl
    have hno : e.reals = [] := by unfold Entry.reals; rw [if_pos hg]
    refine ⟨?_, by rw [hax], by rw [hax], hle, fun n hn => absurd (hno ▸ hn) List.not_mem_nil, hrest⟩
    unfold Scene.Filed
    rw [hax]
    refine h.congr fun n => ?_
    have := num n
    rw [new, old, hg] at this
    simpa using this
  | false =>
    have hax : (c.recordStep e v p g).trk.axles
        = c.trk.axles.modRecord e.serial fun r => { r with pendingSteps := r.pendingSteps + 1 } := by
      unfold Scene.recordStep; rw [hb]; dsimp only; rw [if_neg (by rw [hg]; decide)]; rfl
    have hre : e.reals = [e.serial] := by unfold Entry.reals; rw [if_neg (by rw [hg]; decide)]
    have one := num e.serial
    rw [new, old, if_pos ⟨hg, rfl⟩] at one
    refine ⟨?_, by rw [hax]; rfl, by rw [hax]; rfl, hle, fun n hn => ?_, hrest⟩
    · unfold Scene.Filed
      rw [hax]
      refine records_modRecord h _ _ (fun _ => rfl) (fun m hm => ?_) (fun r hr => ?_) fun hl => ?_
      · have := num m
        rw [new, old, if_neg (fun q => hm q.2.symm)] at this
        exact this
      · show r.pendingSteps + 1 = _
        rw [hr]; omega
      · have := he e.serial (by rw [hre]; exact List.mem_singleton.2 rfl)
        omega
    · rw [hre, List.mem_singleton] at hn
      subst hn
      omega

theorem filed_recordSteps {e : Entry} (v : Option Nat) : ∀ (l : List (Nat × Sign)) (c : Scene), c.Filed →
    (l.map (·.1)).Nodup → (∀ s ∈ l, 1 ≤ s.1 ∧ s.1 ≤ 4 ∧ (c.trk.platforms.get s.1).Rests) →
    (∀ n ∈ e.reals, n ≤ c.trk.axles.lastSerial) →
      (l.foldl (fun c s => c.recordStep e v s.1 s.2) c).Filed
        ∧ (l.foldl (fun c s => c.recordStep e v s.1 s.2) c).trk.axles.awaiting = c.trk.axles.awaiting
        ∧ (∀ n, c.trk.platforms.naming n ≤ (l.foldl (fun c s => c.recordStep e v s.1 s.2) c).trk.platforms.naming n)
        ∧ (l ≠ [] → ∀ n ∈ e.reals, 0 < (l.foldl (fun c s => c.recordStep e v s.1 s.2) c).trk.platforms.naming n)
  | [], _, h, _, _, _ => ⟨h, rfl, fun _ => Nat.le_refl _, fun h => absurd rfl h⟩
  | s :: l, c, h, hd, hl, he => by
    obtain ⟨s1, s4, hr⟩ := hl s (by simp)
    rw [List.map_cons, List.nodup_cons] at hd
    obtain ⟨a1, a2, a3, a4, a5, a6⟩ := filed_recordStep v s.2 h s1 s4 hr he
    obtain ⟨b1, b2, b3, -⟩ := filed_recordSteps v l _ a1 hd.2
      (fun q hq => by
        obtain ⟨q1, q4, hx⟩ := hl q (by simp [hq])
        exact ⟨q1, q4, a6 q.1 q1 q4 (fun e => hd.1 (e ▸ List.mem_map_of_mem hq)) hx⟩)
      (fun n hn => by rw [a3]; exact he n hn)
    exact ⟨b1, b2.trans a2, fun n => Nat.le_trans (a4 n) (b3 n), fun _ n hn => Nat.lt_of_lt_of_le (a5 n hn) (b3 n)⟩

/-- A move records one step, or two on different platforms (R76). -/
theorem movePass_steps_nodup (c : Scene) (d : Direction) (x : Pass) (kind : PassKind) (m : Moved)
    (h : c.movePass d x kind = some m) : (m.steps.map (·.1)).Nodup ∧ m.steps ≠ [] := by
  unfold Scene.movePass at h
  cases kind with
  | forwardEntry =>
    simp only [Option.some.injEq, Scene.enter] at h
    subst h
    split <;> simp [Scene.reenter, Scene.createAxle]
  | backwardEntry =>
    simp only [Scene.backOut, Option.map_eq_some_iff] at h
    obtain ⟨r, -, rfl⟩ := h
    simp
  | forwardMiddle k =>
    simp only [Scene.moveForward, Option.map_eq_some_iff] at h
    obtain ⟨r, -, rfl⟩ := h
    cases d <;> simp [behindPlatform, aheadPlatform]
  | backwardMiddle k =>
    simp only [Scene.moveBackward, Option.map_eq_some_iff] at h
    obtain ⟨r, -, rfl⟩ := h
    cases d <;> simp [behindPlatform, aheadPlatform]
  | forwardExit =>
    simp only [Scene.depart, Option.map_eq_some_iff] at h
    obtain ⟨r, -, rfl⟩ := h
    simp
  | backwardExit =>
    simp only [Scene.ghostReturn] at h
    split at h
    · exact absurd h (by simp)
    · simp only [Option.some.injEq] at h
      subst h
      simp

/-- A processed pass keeps the axles placed (R31). -/
theorem placed_processPass {c : Scene} (d : Direction) (x : Pass) (kind : PassKind) (h : c.trk.AxlesPlaced)
    (hw : AllOpen c.trk.config.platforms c.trk.platforms) (h4 : c.trk.config.platforms ≤ 4)
    (hb : ∀ q ∈ boundPlatforms c.trk.config.platforms d kind, 1 ≤ q ∧ q ≤ c.trk.config.platforms) :
    (c.processPass d x kind).trk.AxlesPlaced := by
  rw [processPass_eq]
  obtain ⟨h1, h2⟩ := placed_turnWindows d kind h hw h4 hb
  have hcfg : (c.turnWindows d kind).trk.config = c.trk.config := congrArg Control.config (control_turnWindows c d kind)
  revert h1 h2 hcfg
  generalize c.turnWindows d kind = c1
  intro h1 h2 hcfg
  unfold Scene.moveAndRecord
  split
  · exact placed_of_same h1 rfl fun _ _ _ => rfl
  · rename_i m hm
    obtain ⟨p1, p2, p3⟩ := places_movePass d x kind m hm h1.1
    have hpl := platforms_movePass c1 d x kind m hm
    obtain ⟨n1, n2⟩ := movePass_steps_nodup c1 d x kind m hm
    have hs := movePass_steps c1 d x kind m hm
    rw [hcfg] at hs
    obtain ⟨r1, r2, r3, r4⟩ := filed_recordSteps (e := m.entry) x.speed m.steps m.scene p1 n1
      (fun s hs' => by
        have hq := hs s hs'
        obtain ⟨a, b⟩ := hb _ hq
        refine ⟨a, by omega, ?_⟩
        rw [hpl]
        exact h2 _ hq)
      (fun n hn => p1.le_last (p2 n hn))
    refine ⟨r1, fun n hn => ?_⟩
    rw [r2] at hn
    rcases p3 n hn with hn | hn
    · refine Nat.lt_of_lt_of_le ?_ (r3 n)
      rw [hpl]
      exact h1.2 n hn
    · exact r4 n2 n hn

/-! ### The passage controller -/

theorem placed_empty {k : TrackState} (ha : k.axles = .empty) (hs : ∀ p, 1 ≤ p → p ≤ 4 → (k.platforms.get p).step = none) :
    k.AxlesPlaced := by
  refine ⟨?_, fun n hn => ?_⟩
  · rw [ha]
    exact ⟨List.nodup_nil, fun n => ⟨fun h => absurd h List.not_mem_nil, fun ⟨r, hr, _⟩ => absurd hr List.not_mem_nil⟩,
      fun r hr => absurd hr List.not_mem_nil, fun n _ => naming_none hs n⟩
  · rw [ha] at hn
    exact absurd hn List.not_mem_nil

/-- A close leaves an empty table and no pending step (R36, R90). -/
theorem placed_closePassage {c : Scene} (r : CloseReason) (h : c.InPassage) : (c.closePassage r).trk.AxlesPlaced := by
  obtain ⟨-, -, -, -, -, -, ha, -⟩ := endClose_keeps (c.closeToStep8 r) r
  refine placed_empty ha fun p p1 p4 => ?_
  obtain ⟨-, hs⟩ := closeToStep8_bare r h.windows p p1 p4
  obtain ⟨-, h1, h2⟩ := endClose_platforms (c.closeToStep8 r) r p p1 p4
  by_cases hr : r = .disabled
  · exact (h2 hr).1
  · exact (congrArg Platform.step (h1 hr)).trans hs

theorem placed_nextMode {c : Scene} (kind : PassKind) (h : c.trk.AxlesPlaced) : (c.nextMode kind).trk.AxlesPlaced := by
  unfold Scene.nextMode
  split
  · exact h
  · split
    · split <;> exact h
    · exact h

theorem placed_handPass {c : Scene} (d : Direction) (x : Pass) {k : Nat} (h : c.InPassage) (hp : c.trk.AxlesPlaced)
    (hk : k ≤ c.trk.config.platforms) : (c.handPass d x k).trk.AxlesPlaced := by
  unfold Scene.handPass
  extract_lets kind
  split
  · exact placed_closePassage _ h
  · exact placed_nextMode _ (placed_processPass d x kind hp h.windows h.atMost (boundPlatforms_range d x.direction h.atLeast hk))

theorem openWindows_keeps_steps (c : Scene) {p : Nat} (p1 : 1 ≤ p) (p4 : p ≤ 4) :
    (c.openWindows.trk.platforms.get p).step = (c.trk.platforms.get p).step := by
  unfold Scene.openWindows
  rw [Scene.modTrk_trk, Four.get_mapIdx _ _ p1 p4]
  split <;> rfl

/-- The opening of a passage changes no axle and no step (R48). -/
theorem placed_openPassage {c : Scene} (x : Pass) (cause : OpenCause) (h : c.trk.AxlesPlaced) :
    (c.openPassage x cause).trk.AxlesPlaced ∧ (c.openPassage x cause).trk.config = c.trk.config := by
  unfold Scene.openPassage
  extract_lets fromIdle c1 c2 c3
  have h1 : c1.trk.AxlesPlaced ∧ c1.trk.config = c.trk.config := by
    show (if fromIdle then c.openWindows else c).trk.AxlesPlaced ∧ (if fromIdle then c.openWindows else c).trk.config = _
    split
    · exact ⟨placed_of_same h rfl fun _ p1 p4 => openWindows_keeps_steps c p1 p4, rfl⟩
    · exact ⟨h, rfl⟩
  have h3 : c3.trk.AxlesPlaced ∧ c3.trk.config = c.trk.config := h1
  split
  · rw [zeroLeavesIdle_trk]; exact h3
  · exact h3

/-- A pass keeps the axles placed. -/
theorem placed_takePass {c : Scene} (hc : c.trk.Coherent) (hw : c.trk.WindowsMatch) (h : c.trk.AxlesPlaced) (x : Pass)
    (he : pointExists c.trk.config.platforms x.point = true) : (c.takePass x).trk.AxlesPlaced := by
  have opening : ∀ k cause, boundaryIndex x.point = some k → (c.trk.mode = .idle ∨ c.trk.mode = .approach) →
      ((c.openPassage x cause).handPass x.direction x k).trk.AxlesPlaced := fun k cause hb hm => by
    obtain ⟨a, b⟩ := placed_openPassage (c := c) x cause h
    exact placed_handPass _ _ (openPassage_inPassage hc hw x cause hm) a (by rw [b]; exact boundaryIndex_le he hb)
  unfold Scene.takePass
  split
  · exact h
  · rename_i hm
    split
    · split
      · unfold Scene.enterApproach
        rw [zeroLeavesIdle_trk]
        exact placed_of_same h rfl fun _ p1 p4 =>
          openWindows_keeps_steps (c.modTrk fun k => { k with mode := .approach, expected := some x.direction }) p1 p4
      · exact h
    · rename_i k hb
      split
      · exact opening k .direct hb (Or.inl hm)
      · exact h
  · rename_i hm
    split
    · exact h
    · rename_i k hb
      split
      · exact opening k _ hb (Or.inr hm)
      · exact h
  · rename_i h1 h2 h3
    split
    · rename_i k p hb hcx
      refine placed_handPass _ _ (inPassage_of_coherent hc hw ?_) h (boundaryIndex_le he hb)
      cases e : c.trk.mode <;> first | rfl | exact absurd e (by assumption)
    · exact h

/-- A change of every platform that keeps its step. -/
theorem placed_mapPlatforms {k : TrackState} (f : Nat → Platform → Platform) (h : k.AxlesPlaced)
    (hf : ∀ p x, (f p x).step = x.step) : ({ k with platforms := k.platforms.mapIdx f } : TrackState).AxlesPlaced := by
  refine placed_of_same h rfl fun p p1 p4 => ?_
  show ((k.platforms.mapIdx f).get p).step = _
  rw [Four.get_mapIdx _ _ p1 p4, hf]

theorem placed_markGapped {c : Scene} (h : c.trk.AxlesPlaced) : c.markGapped.trk.AxlesPlaced :=
  placed_mapPlatforms _ h fun _ _ => rfl

theorem placed_addToWindows {c : Scene} (l : List ChannelEntry) (h : c.trk.AxlesPlaced) : (c.addToWindows l).trk.AxlesPlaced :=
  placed_mapPlatforms _ h fun _ _ => rfl

theorem placed_zero {k : TrackState} (x : Option ZeroOperation) (h : k.AxlesPlaced) :
    ({ k with zero := x } : TrackState).AxlesPlaced := h

theorem placed_zeroGap {c : Scene} (h : c.trk.AxlesPlaced) : c.zeroGap.trk.AxlesPlaced := by
  rw [zeroGap_trk]; exact h

theorem placed_zeroFrame {c : Scene} (l : List ChannelEntry) (h : c.trk.AxlesPlaced) : (c.zeroFrame l).trk.AxlesPlaced := by
  rw [zeroFrame_trk]; exact h

theorem placed_acceptFrame {c : Scene} (n : Byte) (l : List ChannelEntry) (h : c.trk.AxlesPlaced) :
    (c.acceptFrame n l).trk.AxlesPlaced := by
  unfold Scene.acceptFrame
  extract_lets c1 c2 c3 c4
  have h1 : c1.trk.AxlesPlaced := by
    unfold c1
    split
    · exact placed_zeroGap (placed_markGapped h)
    · exact h
  have h2 : c2.trk.AxlesPlaced := h1
  have h3 : c3.trk.AxlesPlaced := placed_zeroFrame l h2
  have h4 : c4.trk.AxlesPlaced := h3
  exact placed_addToWindows l h4

/-- Without a passage no step is pending, and the end of APPROACH leaves it so (R37, R46). -/
theorem placed_approachExpires {c : Scene} (h : c.trk.AxlesPlaced) : c.approachExpires.trk.AxlesPlaced := by
  unfold Scene.approachExpires
  extract_lets c1
  rw [zeroReturnsToIdle_trk]
  refine placed_of_same h rfl fun p p1 p4 => ?_
  show ((c1.discardWindows).trk.platforms.get p).step = _
  unfold Scene.discardWindows
  rw [Scene.modTrk_trk, Four.get_mapIdx _ _ p1 p4]
  rfl

theorem placed_enterDisabled {c : Scene} (h : c.trk.AxlesPlaced)
    (hs : ∀ p, 1 ≤ p → p ≤ 4 → (c.trk.platforms.get p).step = none) : c.enterDisabled.trk.AxlesPlaced := by
  unfold Scene.enterDisabled
  rw [zeroDisabled_trk]
  refine placed_of_same h rfl fun p p1 p4 => ?_
  dsimp only
  rw [Scene.modTrk_trk, hs p p1 p4]
  dsimp only
  rw [Four.get_mapIdx _ _ p1 p4]

/-- DISABLE TRACK keeps the axles placed (R60). -/
theorem placed_disable {c : Scene} (hc : c.trk.Coherent) (hw : c.trk.WindowsMatch) (h : c.trk.AxlesPlaced) :
    c.disable.trk.AxlesPlaced := by
  have hs : c.trk.mode.inPassage = false → ∀ p, 1 ≤ p → p ≤ 4 → (c.trk.platforms.get p).step = none := fun hm p p1 p4 => by
    cases e : (c.trk.platforms.get p).step with
    | none => rfl
    | some st =>
      have := ((hw p p1 p4).2.1 (by rw [e]; rfl)).2
      rw [hm] at this
      cases this
  unfold Scene.disable
  split
  · exact h
  · rename_i hm
    exact placed_enterDisabled h (hs (by rw [hm]; rfl))
  · rename_i hm
    have hd : ∀ p, 1 ≤ p → p ≤ 4 → (c.discardWindows.trk.platforms.get p).step = (c.trk.platforms.get p).step := fun p p1 p4 => by
      unfold Scene.discardWindows
      rw [Scene.modTrk_trk, Four.get_mapIdx _ _ p1 p4]
    have h1 : (c.discardWindows.modTrk fun k => { k with expected := none }).trk.AxlesPlaced := placed_of_same h rfl hd
    exact placed_enterDisabled h1 fun p p1 p4 => (hd p p1 p4).trans (hs (by rw [hm]; rfl) p p1 p4)
  · rename_i h1 h2 h3
    refine placed_closePassage _ (inPassage_of_coherent hc hw ?_)
    cases e : c.trk.mode <;> first | rfl | exact absurd e (by assumption)

theorem placed_startZero {c : Scene} (o : Order) (n : Nat) (h : c.trk.AxlesPlaced) : (c.startZero o n).trk.AxlesPlaced := by
  unfold Scene.startZero
  extract_lets z
  split
  · exact placed_zero _ h
  · rw [suspendZero_trk]; exact placed_zero _ h

/-- A head edge keeps the axles placed. -/
theorem placed_takeEdge {c : Scene} (hc : c.trk.Coherent) (hw : c.trk.WindowsMatch) (hp : c.trk.AxlesPlaced)
    (p : PointCode) (h : Head) (l : Level) (he : pointExists c.trk.config.platforms p = true) : (c.takeEdge p h l).trk.AxlesPlaced := by
  unfold Scene.takeEdge
  split
  · exact hp
  · rename_i pt x hd
    dsimp only
    split
    · exact hp
    · rename_i x
      refine placed_takePass (c := c.modTrk fun k => { k with points := k.points.set p pt }) hc hw hp x ?_
      have : x.point = p := by
        unfold TrackState.decodeEdge at hd
        dsimp only at hd
        split at hd
        · cases hd
        · simp only [EdgeResult.changed.injEq] at hd
          obtain ⟨-, h2⟩ := hd
          rw [Option.map_eq_some_iff] at h2
          obtain ⟨d, -, rfl⟩ := h2
          cases d <;> rfl
      rw [this]; exact he

/-- A track that a reset leaves at its initial tables (R66, R187). -/
theorem placed_initial (k : TrackState) (ha : k.axles = .empty) (hp : k.platforms = TrackState.initial.platforms) :
    k.AxlesPlaced :=
  placed_empty ha fun p p1 p4 => by
    rw [hp]
    have hp : p = 1 ∨ p = 2 ∨ p = 3 ∨ p = 4 := by omega
    rcases hp with rfl | rfl | rfl | rfl <;> rfl

theorem placed_setTrack {s u : State} (h : s.AxlesPlaced) (t : Track) (k : TrackState) (hk : k.AxlesPlaced)
    (hu : u.tracks = s.tracks.set t k) : u.AxlesPlaced := by
  unfold State.AxlesPlaced
  rw [hu]
  exact PerTrack.forall_set TrackState.AxlesPlaced _ _ _ h hk

end Sys2Proof.Machine
end

