-- ==== Sys2Proof/Laws/Machine.lean ====
section
/-!
SUPPORT. Laws/Machine.lean: the order unit's queue and scan, the page block, and what the end of every step keeps.
-/
namespace Sys2Proof.Machine

/-! ### The order unit (R177) -/

/-- The order queue with the running scan never exceeds 8; the scan position and the slot being read are slots (R177). -/
def OrderUnit.Fits (u : OrderUnit) : Prop :=
  u.queue.length + (if u.scan.isSome then 1 else 0) ≤ 8 ∧ u.scanPosition < 32 ∧ ∀ x, u.scan = some x → x.slot < 32

theorem Shared.Bounded.fits {h : Shared} (hb : h.Bounded) : h.orders.Fits := hb.2.2.2.2.2.2.2.2.2

theorem bounded_modOrders {h : Shared} {f : OrderUnit → OrderUnit} (hb : h.Bounded) (hf : (f h.orders).Fits) :
    (h.modOrders f).Bounded := by
  obtain ⟨a, b, c, d, e, g, i, j, k, -⟩ := hb
  exact ⟨a, b, c, d, e, g, i, j, k, hf⟩

theorem fits_pushAnswer {u : OrderUnit} (a : Answer) (h : u.Fits) : (u.pushAnswer a).Fits := h

theorem slotAfter_lt (k : Nat) : slotAfter k < 32 := Nat.mod_lt _ (by omega)

theorem fits_stopScan {u : OrderUnit} (now : Word) (n : Nat) (h : u.queue.length ≤ 8) (hp : u.scanPosition < 32) :
    (u.stopScan now n).Fits :=
  ⟨by show u.queue.length + 0 ≤ 8; omega, hp, fun _ e => absurd (show none = some _ from e) (by simp)⟩

theorem length_le_load (u : OrderUnit) : u.queue.length ≤ u.load := by unfold OrderUnit.load; omega

theorem fits_readSlot {u : OrderUnit} (slot left : Nat) (h : u.queue.length < 8) (hp : u.scanPosition < 32)
    (hs : slot < 32) : (u.readSlot slot left).Fits :=
  ⟨by show u.queue.length + 1 ≤ 8; omega, hp, fun x e => by
    have e : some (⟨slot, left, none⟩ : Scan) = some x := e
    simp only [Option.some.injEq] at e
    subst e; exact hs⟩

theorem fits_startScan {u : OrderUnit} (now : Word) (n : Nat) (h : u.queue.length ≤ 8) (hp : u.scanPosition < 32) :
    (u.startScan now n).Fits := by
  unfold OrderUnit.startScan
  split
  · exact fits_stopScan now n h hp
  · have := length_le_load u
    exact fits_readSlot _ _ (by omega) hp (slotAfter_lt _)

theorem fits_endScan {u : OrderUnit} (now : Word) (n : Nat) (h : u.queue.length ≤ 8) (hp : u.scanPosition < 32) :
    (u.endScan now n).Fits := by
  unfold OrderUnit.endScan
  split
  · exact fits_startScan now n h hp
  · exact fits_stopScan now n h hp

theorem Fits.length {u : OrderUnit} (h : u.Fits) : u.queue.length ≤ 8 := by have := h.1; omega

theorem fits_requestScan {u : OrderUnit} (now : Word) (n : Nat) (h : u.Fits) : (u.requestScan now n).Fits := by
  unfold OrderUnit.requestScan
  split
  · exact h
  · exact fits_startScan now n (Fits.length h) h.2.1

theorem fits_continueScan {u : OrderUnit} (now : Word) (n slot left : Nat) (h : u.queue.length ≤ 8)
    (hp : u.scanPosition < 32) : (u.continueScan now n slot left).Fits := by
  unfold OrderUnit.continueScan
  split
  · exact fits_endScan now n h hp
  · rename_i hn
    have := length_le_load u
    exact fits_readSlot _ _ (by omega) hp (slotAfter_lt _)

theorem fits_scanReadDone {u : OrderUnit} (now : Word) (n : Nat) (bytes : List Byte) (h : u.Fits) :
    (u.scanReadDone now n bytes).Fits := by
  unfold OrderUnit.scanReadDone
  extract_lets v
  have hv : v.Fits := h
  split
  · exact hv
  · rename_i x hx
    split
    · have := h.1
      rw [show u.scan = some x from hx] at this
      refine ⟨this, h.2.1, fun y e => ?_⟩
      simp only [Option.some.injEq] at e
      subst e
      exact h.2.2 x hx
    · exact fits_continueScan _ _ _ _ (Fits.length hv) hv.2.1

/-- A taken order joins a queue that has room for it. -/
theorem fits_takenWriteDone {u : OrderUnit} (now : Word) (n : Nat) (h : u.Fits) : (u.takenWriteDone now n).Fits := by
  unfold OrderUnit.takenWriteDone
  extract_lets v
  have hv : v.Fits := h
  split
  · exact hv
  · rename_i x hx
    split
    · exact hv
    · have := h.1
      rw [show u.scan = some x from hx] at this
      simp only [Option.isSome_some, if_true] at this
      refine fits_continueScan _ _ _ _ ?_ (h.2.2 x hx)
      show (u.queue ++ [_]).length ≤ 8
      rw [List.length_append, List.length_singleton]; omega

theorem fits_answerFieldsDone {u : OrderUnit} (h : u.Fits) : u.answerFieldsDone.Fits := h

theorem fits_answeredDone {u : OrderUnit} (h : u.Fits) : u.answeredDone.Fits := by
  unfold OrderUnit.answeredDone
  split <;> exact h

theorem fits_reclaimHeaderDone {u : OrderUnit} (h : u.Fits) : u.reclaimHeaderDone.Fits := by
  unfold OrderUnit.reclaimHeaderDone
  extract_lets v
  split
  · exact h
  · split <;> exact h

theorem fits_pop {u : OrderUnit} (h : u.Fits) : ({ u with queue := u.queue.tail } : OrderUnit).Fits := by
  refine ⟨?_, h.2⟩
  have := h.1
  show u.queue.tail.length + _ ≤ 8
  rw [List.length_tail]
  show u.queue.length - 1 + (if u.scan.isSome then 1 else 0) ≤ 8
  omega

/-! ### The page block (R167, R170) -/

theorem serve_lent (b : PageBlock) : b.serve.lent.length ≤ b.lent.length := by
  unfold PageBlock.serve
  split
  · rename_i h; rw [h]; simp
  · exact Nat.le_refl _

theorem addresses_eq (b : PageBlock) :
    b.addresses = b.lent ++ (b.writers.a.current.map (·.address)).toList ++ (b.writers.b.current.map (·.address)).toList := rfl

theorem nodup_append_iff {α : Type} {l m : List α} :
    (l ++ m).Nodup ↔ l.Nodup ∧ m.Nodup ∧ ∀ a ∈ l, a ∉ m := by
  rw [List.nodup_append]
  constructor
  · rintro ⟨a, b, c⟩; exact ⟨a, b, fun x hx hy => c x hx x hy rfl⟩
  · rintro ⟨a, b, c⟩; exact ⟨a, b, fun x hx y hy e => c x hx (e ▸ hy)⟩

/-- Serving a claim moves an address from the list to a writer (R170). -/
theorem serve_distinct {b : PageBlock} (h : b.addresses.Nodup) : b.serve.addresses.Nodup := by
  unfold PageBlock.serve
  split
  · rename_i t ts address rest hc hl
    rw [addresses_eq, hl] at h
    simp only [List.cons_append, List.nodup_cons, List.mem_append, not_or, nodup_append_iff] at h
    obtain ⟨⟨⟨h1, h2⟩, h3⟩, ⟨h4, h5, h6⟩, h7, h8⟩ := h
    cases t with
    | A =>
      simp only [addresses_eq, PerTrack.set, Option.map_some, Option.toList_some, Page.claimed, nodup_append_iff,
        List.mem_append, List.mem_singleton]
      refine ⟨⟨h4, by simp, fun a ha e => h1 (e ▸ ha)⟩, h7, ?_⟩
      rintro a (ha | rfl)
      · exact h8 a (Or.inl ha)
      · exact h3
    | B =>
      simp only [addresses_eq, PerTrack.set, Option.map_some, Option.toList_some, Page.claimed, nodup_append_iff,
        List.mem_append, List.mem_singleton]
      refine ⟨⟨h4, h5, h6⟩, by simp, ?_⟩
      rintro a (ha | ha) e
      · exact h1 (e ▸ ha)
      · exact h2 (e ▸ ha)
  · exact h

/-! ### The end of every step -/

theorem claimPage_lent (s : State) (t : Track) :
    (s.claimPage t).pages.lent = s.pages.lent ∧ (s.claimPage t).pages.writers = s.pages.writers := by
  unfold State.claimPage; split <;> exact ⟨rfl, rfl⟩

theorem claimPages_lent (s : State) : s.claimPages.pages.lent = s.pages.lent ∧ s.claimPages.pages.writers = s.pages.writers := by
  obtain ⟨a, b⟩ := claimPage_lent s .A
  obtain ⟨c, d⟩ := claimPage_lent (s.claimPage .A) .B
  exact ⟨c.trans a, d.trans b⟩

theorem grant_pages (s : State) : s.grant.pages = s.pages := by rw [State.grant_eq]

/-- The end of a step lengthens no page list and keeps the addresses distinct (R167, R170). -/
theorem settle_pages (s : State) :
    s.settle.pages.lent.length ≤ s.pages.lent.length
      ∧ (s.PagesDistinct → s.settle.PagesDistinct) := by
  obtain ⟨a, b⟩ := claimPages_lent s
  have e : s.claimPages.pages.addresses = s.pages.addresses := by rw [addresses_eq, a, b]; rfl
  unfold State.settle
  split
  · refine ⟨?_, fun h => ?_⟩
    · rw [grant_pages]
      show s.claimPages.pages.serve.serve.lent.length ≤ _
      have := serve_lent s.claimPages.pages
      have := serve_lent s.claimPages.pages.serve
      rw [a] at *
      omega
    · show (s.claimPages.servePages.grant.pages.addresses).Nodup
      rw [grant_pages]
      exact serve_distinct (serve_distinct (by rw [e]; exact h))
  · refine ⟨Nat.le_of_eq (congrArg List.length a), fun h => ?_⟩
    show s.claimPages.pages.addresses.Nodup
    rw [e]; exact h
  · exact ⟨Nat.le_refl _, id⟩
  · exact ⟨Nat.le_refl _, id⟩

/-- Outside RUNNING the end of a step starts no access (R175). -/
theorem settle_bus (s : State) (h : s.regs.part ≠ .running) : s.settle.bus = s.bus := by
  unfold State.settle
  split
  · rename_i e; exact absurd e h
  · rw [State.claimPages, State.claimPage_eq, State.claimPage_eq s]
  · rfl
  · rfl

theorem bounded_settle {s : State} (h : s.Bounded) : s.settle.Bounded := by
  obtain ⟨a, b, c⟩ := h
  have := (settle_pages s).1
  exact ⟨by rw [State.settle_tracks]; exact a, by rw [State.settle_shared]; exact b, by omega⟩

theorem coherent_settle {s : State} (h : s.Coherent) : s.settle.Coherent := by
  obtain ⟨a, b, c, d⟩ := h
  refine ⟨by rw [State.settle_tracks]; exact a, ?_, ?_, ?_⟩
  · intro e
    rw [State.settle_regs] at e
    rw [State.settle_tracks, settle_bus s (by rw [e]; decide)]
    exact b e
  · intro e
    rw [State.settle_regs] at e
    rw [State.settle_tracks, State.settle_shared]
    exact c e
  · intro e
    rw [State.settle_regs] at e
    rw [settle_bus s (by rw [e]; decide)]
    exact d e

theorem pointsSound_settle {s : State} (h : s.PointsSound) : s.settle.PointsSound := by
  intro t p
  rw [State.settle_tracks]
  exact h t p

/-- A rule of one track in RUNNING keeps the machine coherent if it keeps the track so. -/
theorem coherent_onTrack {s : State} (h : s.Coherent) (hr : s.regs.part = .running) (t : Track) (f : Scene → Scene)
    (hf : (f (s.scene t)).trk.Coherent ∧ (f (s.scene t)).trk.WindowsMatch) : (s.onTrack t f).Coherent := by
  obtain ⟨a, -, -, -⟩ := h
  refine ⟨PerTrack.forall_set (fun k : TrackState => k.Coherent ∧ k.WindowsMatch) _ _ _ a hf, ?_, ?_, ?_⟩ <;>
    exact fun e => absurd (hr.symm.trans e) (by decide)

theorem bounded_onTrack {s : State} (h : s.Bounded) (t : Track) (f : Scene → Scene)
    (hf : (s.scene t).Bounded → (f (s.scene t)).Bounded) : (s.onTrack t f).Bounded := by
  obtain ⟨a, b, c⟩ := h
  obtain ⟨d, e⟩ := hf ⟨a t, b⟩
  exact ⟨PerTrack.forall_set TrackState.Bounded _ _ _ a d, e, c⟩

end Sys2Proof.Machine
end

