-- ==== Sys2Proof/Laws/Chain.lean ====
section
/-!
SUPPORT. Laws/Chain.lean: what the shared operations do, said once: an accepted frame, a boundary pass of an open passage, the turns of the
grouper, the close procedure, a step's claims.
-/
namespace Sys2Proof.Machine

/-! ### An accepted frame -/

/-- A track with other platforms and another sequence state, of which the zero engine reads neither. -/
def Scene.view (c : Scene) (P : Four Platform) (q : Option Byte) : Scene := { c with trk := { c.trk with platforms := P, sequence := q } }

theorem endZero_view (c : Scene) (P q) (z e) : (Scene.view c P q).endZero z e = Scene.view (c.endZero z e) P q := by
  unfold Scene.endZero
  cases z.origin with
  | order s t => rfl
  | automatic => cases e <;> rfl

theorem zeroGap_view (c : Scene) (P q) : (Scene.view c P q).zeroGap = Scene.view c.zeroGap P q := by
  unfold Scene.zeroGap
  have : (Scene.view c P q).trk.zero = c.trk.zero := rfl
  rw [this]
  cases c.trk.zero with
  | none => rfl
  | some z =>
    cases hz : z.state with
    | accumulating => cases hr : z.startsRun <;> simp only [hz, hr] <;> rfl
    | suspended => simp only [hz]

theorem completeZero_view (c : Scene) (P q z) : (Scene.view c P q).completeZero z = Scene.view (c.completeZero z) P q := by
  unfold Scene.completeZero
  exact endZero_view
    (c.modTrk fun k =>
      { k with calibration := k.calibration.mapIdx fun p x =>
        if p ≤ k.config.platforms then
          let mean := (z.sums.mapIdx fun _ (x : Rails Int) => x.map fun v => roundDiv v z.target).get p
          ⟨{ x.left with zeroOffset := mean.left, zeroValid := true }, { x.right with zeroOffset := mean.right, zeroValid := true }⟩
        else x }) P q z (.done (z.sums.mapIdx fun _ (x : Rails Int) => x.map fun v => roundDiv v z.target))

theorem zeroFrame_view (c : Scene) (P q l) : (Scene.view c P q).zeroFrame l = Scene.view (c.zeroFrame l) P q := by
  unfold Scene.zeroFrame
  have h1 : (Scene.view c P q).trk.zero = c.trk.zero := rfl
  have h2 : (Scene.view c P q).trk.config = c.trk.config := rfl
  rw [h1, h2]
  cases c.trk.zero with
  | none => rfl
  | some z =>
    cases hz : z.state
    · simp only [hz]
      split
      · exact endZero_view _ _ _ _ _
      · split
        · exact completeZero_view _ _ _ _
        · rfl
    · simp only [hz]
      rfl

theorem zeroFrame_id (c : Scene) (l) : (c.zeroFrame l).id = c.id := by
  unfold Scene.zeroFrame
  split
  · rfl
  · split
    · rfl
    · split
      · exact endZero_id _ _ _
      · dsimp only
        split
        · unfold Scene.completeZero
          exact endZero_id _ _ _
        · rfl

theorem zeroGap_id (c : Scene) : c.zeroGap.id = c.id := by
  unfold Scene.zeroGap
  split
  · rfl
  · split
    · rfl
    · split <;> rfl

/-- What an accepted frame does after the zero engine: the capture unit takes it and the windows add it. -/
theorem accept_after (z : Scene) (P : Four Platform) (c : Scene) (n : Byte) (l : List ChannelEntry) (h1 : z.sh.capture = c.sh.capture)
   (h2 : z.sh.time = c.sh.time) (h3 : z.id = c.id) :
    ((Scene.view z P (some n)).modShared fun h =>
        h.modCapture (·.takeFrame (Scene.view z P (some n)).now (Scene.view z P (some n)).id n l)).addToWindows l
     = { z with
      trk := { z.trk with sequence := some n, platforms := P.mapIdx fun p x => { x with window := x.window.map (·.add (frameRails l p)) } }
      sh := { z.sh with capture := c.sh.capture.takeFrame c.sh.time c.id n l } } := by
  rw [← h1, ← h2, ← h3]
  rfl

/-- An accepted frame, part by part: the zero engine sees the gap and the frame, the sequence state takes the number, the windows
are marked and add it, and the capture unit takes it; no part reads what another writes (R23, R24, R29, R139, R140, R159). -/
theorem acceptFrame_eq (c : Scene) (n : Byte) (l : List ChannelEntry) :
    c.acceptFrame n l
      = { (if gapBefore c.trk.sequence n then c.zeroGap else c).zeroFrame l with
          trk :=
            { ((if gapBefore c.trk.sequence n then c.zeroGap else c).zeroFrame l).trk with
              sequence := some n
              platforms := ((if gapBefore c.trk.sequence n then c.markGapped else c).addToWindows l).trk.platforms }
          sh :=
            { ((if gapBefore c.trk.sequence n then c.zeroGap else c).zeroFrame l).sh with
              capture := c.sh.capture.takeFrame c.sh.time c.id n l } } := by
  unfold Scene.acceptFrame
  by_cases hg : gapBefore c.trk.sequence n = true
  · simp only [hg, if_true]
    have e : (c.markGapped.zeroGap.modTrk fun k => { k with sequence := some n })
        = Scene.view c.zeroGap c.markGapped.trk.platforms (some n) := by
      have : c.markGapped = Scene.view c c.markGapped.trk.platforms c.trk.sequence := rfl
      rw [this, zeroGap_view]; rfl
    rw [e, zeroFrame_view]
    rw [accept_after _ _ c]
    · rfl
    · rw [(zeroFrame_sh c.zeroGap l).1, zeroGap_sh]
    · rw [(zeroFrame_sh c.zeroGap l).1, zeroGap_sh]
    · rw [zeroFrame_id, zeroGap_id]
  · simp only [hg]
    simp only [Bool.false_eq_true, if_false] at *
    rw [show (c.modTrk fun k => { k with sequence := some n }) = Scene.view c c.trk.platforms (some n) from rfl, zeroFrame_view]
    rw [accept_after _ _ c]
    · rfl
    · rw [(zeroFrame_sh c l).1]
    · rw [(zeroFrame_sh c l).1]
    · rw [zeroFrame_id]

/-! ### A boundary pass of an open passage -/

/-- A recorded step stands on its own platform and keeps every window (R38). -/
theorem platforms_step (c : Scene) (e : Entry) (v : Option Nat) (p : Nat) (g : Sign)
    (hp : 1 ≤ p ∧ p ≤ 4) (q : Nat) (hq : 1 ≤ q ∧ q ≤ 4) :
    ((c.recordStep e v p g).trk.platforms.get q).window = (c.trk.platforms.get q).window
     ∧ (q ≠ p → (c.recordStep e v p g).trk.platforms.get q = c.trk.platforms.get q) := by
  rw [platforms_recordStep]
  split
  · exact ⟨rfl, fun _ => rfl⟩
  · by_cases h : q = p
    · subst h; simp
    · rw [Four.get_set_ne _ _ (Ne.symm h) hp hq]; exact ⟨rfl, fun _ => rfl⟩

theorem platforms_steps (e : Entry) (v : Option Nat) (q : Nat) (hq : 1 ≤ q ∧ q ≤ 4) : ∀ (l : List (Nat × Sign)) (c : Scene),
    (∀ s ∈ l, 1 ≤ s.1 ∧ s.1 ≤ 4) →
      ((l.foldl (fun c s => c.recordStep e v s.1 s.2) c).trk.platforms.get q).window = (c.trk.platforms.get q).window
      ∧ ((∀ s ∈ l, q ≠ s.1) → (l.foldl (fun c s => c.recordStep e v s.1 s.2) c).trk.platforms.get q = c.trk.platforms.get q)
  | [], _, _ => ⟨rfl, fun _ => rfl⟩
  | s :: l, c, hl => by
    have a := platforms_step c e v s.1 s.2 (hl s (by simp)) q hq
    have b := platforms_steps e v q hq l (c.recordStep e v s.1 s.2) fun r hr => hl r (by simp [hr])
    refine ⟨b.1.trans a.1, fun h => (b.2 fun r hr => h r (by simp [hr])).trans (a.2 (h s (by simp)))⟩

/-- Opening the windows of a list of platforms (R28). -/
theorem platforms_openWindows (q : Nat) (hq : 1 ≤ q ∧ q ≤ 4) : ∀ (m : List Nat) (c : Scene), (∀ r ∈ m, 1 ≤ r ∧ r ≤ 4) →
    (q ∉ m → (m.foldl Scene.openWindow c).trk.platforms.get q = c.trk.platforms.get q)
     ∧ ((q ∈ m ∨ (c.trk.platforms.get q).window = some (Window.opened c.other)) →
        ((m.foldl Scene.openWindow c).trk.platforms.get q).window = some (Window.opened c.other))
  | [], _, _ => ⟨fun _ => rfl, fun h => by simpa using h⟩
  | r :: m, c, hl => by
    have b := platforms_openWindows q hq m (c.openWindow r) fun r hr => hl r (by simp [hr])
    have ho : (c.openWindow r).other = c.other := rfl
    rw [ho] at b
    by_cases e : q = r
    · subst e
      refine ⟨fun h => absurd (by simp) h, fun _ => b.2 (Or.inr ?_)⟩
      rw [platforms_openWindow]; simp
    · have hg : (c.openWindow r).trk.platforms.get q = c.trk.platforms.get q := by
        rw [platforms_openWindow, Four.get_set_ne _ _ (Ne.symm e) (hl r (by simp)) hq]
      rw [hg] at b
      refine ⟨fun h => b.1 fun hm => h (by simp [hm]), fun h => b.2 ?_⟩
      simpa [e] using h

/-- The platforms that a processed pass bounds have new windows; the others stay (R31). -/
theorem platforms_processPass (c : Scene) (d : Direction) (x : Pass) (kind : PassKind)
    (hb : ∀ q ∈ boundPlatforms c.trk.config.platforms d kind, 1 ≤ q ∧ q ≤ 4) (q : Nat) (hq : 1 ≤ q ∧ q ≤ 4) :
    (q ∈ boundPlatforms c.trk.config.platforms d kind →
        ((c.processPass d x kind).trk.platforms.get q).window = some (Window.opened c.other))
    ∧ (q ∉ boundPlatforms c.trk.config.platforms d kind → (c.processPass d x kind).trk.platforms.get q = c.trk.platforms.get q) := by
  rw [processPass_eq]
  have hturn : (q ∈ boundPlatforms c.trk.config.platforms d kind →
        ((c.turnWindows d kind).trk.platforms.get q).window = some (Window.opened c.other))
    ∧ (q ∉ boundPlatforms c.trk.config.platforms d kind → (c.turnWindows d kind).trk.platforms.get q = c.trk.platforms.get q) := by
    unfold Scene.turnWindows
    generalize boundPlatforms c.trk.config.platforms d kind = m at *
    have b := platforms_openWindows q hq m ((m.foldl Scene.closeWindow c).finalizeResolved) hb
    have ho : ((m.foldl Scene.closeWindow c).finalizeResolved).other = c.other := by
      have := (control_finalizeResolved (m.foldl Scene.closeWindow c)).trans (foldl_keeps Scene.control _ control_closeWindow m c)
      exact congrArg Control.other this
    rw [ho] at b
    refine ⟨fun h => b.2 (Or.inl h), fun h => (b.1 h).trans ?_⟩
    rw [platforms_finalizeResolved]
    have key : ∀ (m : List Nat) (c : Scene), (∀ r ∈ m, 1 ≤ r ∧ r ≤ 4) → q ∉ m →
        (m.foldl Scene.closeWindow c).trk.platforms.get q = c.trk.platforms.get q := by
      intro m
      induction m with
      | nil => intro c _ _; rfl
      | cons r m ih =>
        intro c hl hm
        rw [List.foldl_cons, ih _ (fun s hs => hl s (by simp [hs])) (fun hh => hm (by simp [hh])), platforms_closeWindow]
        split
        · rfl
        · exact Four.get_set_ne _ _ (fun e => hm (by simp [e])) (hl r (by simp)) hq
    exact key m c hb h
  have hc : (c.turnWindows d kind).trk.config = c.trk.config := congrArg Control.config (control_turnWindows c d kind)
  unfold Scene.moveAndRecord
  split
  · rw [platforms_modFlags]; exact hturn
  · rename_i m hm
    have hs := movePass_steps _ d x kind m hm
    rw [hc] at hs
    have b := platforms_steps m.entry x.speed q hq m.steps m.scene fun s hs' => hb _ (hs s hs')
    rw [platforms_movePass _ d x kind m hm] at b
    refine ⟨fun h => b.1.trans (hturn.1 h), fun h => (b.2 fun s hs' e => h (e ▸ hs s hs')).trans (hturn.2 h)⟩

/-- The platforms a boundary bounds, in travel order (R31, R76). -/
theorem boundPlatforms_classifyPass (P k : Nat) (d e : Direction) (hP : 1 ≤ P) : boundPlatforms P d (classifyPass P d k e)
   = if k = 0 then [1] else if k = P then [P] else match d with
        | .up => [k, k + 1]
        | .down => [k + 1, k] := by
  unfold classifyPass
  cases d <;> simp only [entryIndex, exitIndex]
  · by_cases h0 : k = 0
    · cases e <;> simp [h0, boundPlatforms, firstPlatform]
    · by_cases hk : k = P
      · subst hk; cases e <;> simp [h0, boundPlatforms, lastPlatform]
      · cases e <;> simp [h0, hk, boundPlatforms, behindPlatform, aheadPlatform]
  · by_cases h0 : k = 0
    · have : ¬ (0 = P) := by omega
      cases e <;> simp [h0, this, boundPlatforms, lastPlatform]
    · by_cases hk : k = P
      · have : ¬ (P = 0) := by omega
        cases e <;> simp [hk, this, boundPlatforms, firstPlatform]
      · cases e <;> simp [h0, hk, boundPlatforms, behindPlatform, aheadPlatform]

/-- A boundary pass of an open passage that does not overflow is processed, and the next track state chosen (R50, R76). -/
theorem takePass_open (c : Scene) (p : Passage) (x : Pass) (k : Nat) (hm : c.trk.mode.inPassage = true) (hp : c.trk.context = some p)
    (hb : boundaryIndex x.point = some k)
    (ho : ¬ (classifyPass c.trk.config.platforms p.direction k x.direction = .forwardEntry ∧ c.trk.axles.overflows = true)) :
    c.takePass x
      = (c.processPass p.direction x (classifyPass c.trk.config.platforms p.direction k x.direction)).nextMode
          (classifyPass c.trk.config.platforms p.direction k x.direction) := by
  have hh : c.takePass x = c.handPass p.direction x k := by
    unfold Scene.takePass
    cases hmm : c.trk.mode <;> rw [hmm] at hm <;> simp [TrackMode.inPassage] at hm <;> simp only [hb, hp]
  rw [hh]
  unfold Scene.handPass
  rw [if_neg ho]

/-! ### The turns of the grouper -/

/-- The length of the list bounds the turns: more of them change nothing (R119). -/
theorem groupTurns_fuel : ∀ (n m : Nat) (c : Scene), (∀ e ∈ c.sh.classes, ClassEntry.Sound e) →
    c.trk.group.length ≤ n → c.trk.group.length ≤ m →
    groupTurns n c = groupTurns m c
  | 0, 0, _, _, _, _ => rfl
  | 0, m + 1, c, h, hn, _ => by
    have : c.trk.group.length < lookahead c.sh.classes := by unfold lookahead; omega
    simp [groupTurns, this]
  | n + 1, 0, c, h, _, hm => by
    have : c.trk.group.length < lookahead c.sh.classes := by unfold lookahead; omega
    simp [groupTurns, this]
  | n + 1, m + 1, c, h, hn, hm => by
    unfold groupTurns
    split
    · rfl
    · have := turnSize_pos c false h
      refine groupTurns_fuel n m _ (by rw [classes_formNext]; exact h) ?_ ?_ <;> rw [group_formNext, List.length_drop] <;> omega

/-- The length of the list bounds the turns of the close flush (R132). -/
theorem flushTurns_fuel : ∀ (n m : Nat) (c : Scene), (∀ e ∈ c.sh.classes, ClassEntry.Sound e) →
    c.trk.group.length ≤ n → c.trk.group.length ≤ m →
    flushTurns n c = flushTurns m c
  | 0, 0, _, _, _, _ => rfl
  | 0, m + 1, c, h, hn, _ => by
    have : c.trk.group = [] := List.length_eq_zero_iff.1 (by omega)
    simp [flushTurns, this]
  | n + 1, 0, c, h, _, hm => by
    have : c.trk.group = [] := List.length_eq_zero_iff.1 (by omega)
    simp [flushTurns, this]
  | n + 1, m + 1, c, h, hn, hm => by
    unfold flushTurns
    split
    · rfl
    · have := turnSize_pos c true h
      refine flushTurns_fuel n m _ (by rw [classes_formNext]; exact h) ?_ ?_ <;> rw [group_formNext, List.length_drop] <;> omega

/-- The loop ends at a list shorter than the lookahead, and otherwise forms a wagon and goes on (R119). -/
theorem groupLoop_eq (c : Scene) (h : ∀ e ∈ c.sh.classes, ClassEntry.Sound e) :
    c.groupLoop = if c.trk.group.length < lookahead c.sh.classes then c else (c.formNext false).groupLoop := by
  cases hn : c.trk.group.length with
  | zero => simp [Scene.groupLoop, hn, groupTurns, lookahead]
  | succ n =>
    have hp := turnSize_pos c false h
    split
    · rename_i hl
      simp [Scene.groupLoop, hn, groupTurns, hl]
    · rename_i hl
      unfold Scene.groupLoop
      conv => lhs; rw [hn]; unfold groupTurns
      rw [hn, if_neg hl]
      refine groupTurns_fuel _ _ _ (by rw [classes_formNext]; exact h) ?_ (Nat.le_refl _)
      rw [group_formNext, List.length_drop]; omega

/-- The close flush ends at an empty list, and otherwise forms a wagon and goes on (R132). -/
theorem closeFlush_eq (c : Scene) (h : ∀ e ∈ c.sh.classes, ClassEntry.Sound e) :
    c.closeFlush = if c.trk.group = [] then c else (c.formNext true).closeFlush := by
  unfold Scene.closeFlush
  cases hg : c.trk.group with
  | nil => rfl
  | cons a l =>
    have hp := turnSize_pos c true h
    rw [if_neg (List.cons_ne_nil a l)]
    conv => lhs; rw [List.length_cons]; unfold flushTurns
    rw [hg, if_neg (by simp)]
    refine flushTurns_fuel _ _ _ (by rw [classes_formNext]; exact h) ?_ (Nat.le_refl _)
    rw [group_formNext, List.length_drop, hg, List.length_cons]; omega

/-! ### The close procedure -/

/-- The close procedure as one chain of its steps (R56). -/
theorem closePassage_eq (c : Scene) (r : CloseReason) (begun closed finalized recorded : Scene) (h1 : begun = c.beginClose r)
    (h2 : closed = begun.closeAllWindows) (h3 : finalized = closed.finalizeAll)
    (h4 : recorded = finalized.disposeAxles.closeFlush.checkDrift.queueCloseRecord) :
    c.closePassage r = (recorded.modShared fun h => h.modCapture (·.closeOf c.id)).endClose r := by
  have hcl : c.closeToStep8 r = recorded.modShared fun h => h.modCapture (·.closeOf recorded.id) := by
    rw [h4, h3, h2, h1]; rfl
  have hid : recorded.id = c.id := by
    have h := control_closeToStep8 c r
    rw [hcl] at h
    exact congrArg Control.id h
  unfold Scene.closePassage
  rw [hcl, hid]

/-! ### Claims -/

/-- Claiming appends each track that has a record, no page and no waiting claim, A before B (R170). -/
theorem claimPages_pages (s : State) :
    s.claimPages.pages
      = { s.pages with
          claims :=
            s.pages.claims
              ++ [Track.A, .B].filter fun t =>
                decide ((s.tracks.get t).records.queue ≠ [] ∧ (s.pages.writers.get t).current = none ∧ t ∉ s.pages.claims) } := by
  unfold State.claimPages State.claimPage
  by_cases ha : (s.tracks.get .A).records.queue ≠ [] ∧ (s.pages.writers.get .A).current = none ∧ Track.A ∉ s.pages.claims <;>
  by_cases hb : (s.tracks.get .B).records.queue ≠ [] ∧ (s.pages.writers.get .B).current = none ∧ Track.B ∉ s.pages.claims <;>
  simp [ha, hb]

end Sys2Proof.Machine
end

