-- ==== Sys2Proof/Laws/Ledger.lean ====
section
/-!
SUPPORT. Laws/Ledger.lean: the axle accounts of a passage (R91) and the records a track queues (R130, R166) through the windows, the
estimator, the grouper, the moves and the close procedure.
-/
namespace Sys2Proof.Machine

/-! ### What windows, estimator and grouper leave of the accounts -/

/-- The lists of the axle table, the account of the open passage and the epoch: what only moves and the disposal change. -/
def Scene.ledger (c : Scene) : AxleTable × Option Passage × BitVec 16 :=
  (c.trk.axles.lists, c.trk.context.map Passage.account, c.trk.epoch)

theorem ledger_modPassage (c : Scene) (f : Passage → Passage) (h : ∀ p, (f p).account = p.account) :
    (c.modPassage f).ledger = c.ledger := by
  show (_, (c.trk.context.map f).map Passage.account, _) = (_, c.trk.context.map Passage.account, _)
  rw [Option.map_map]
  have e : Passage.account ∘ f = Passage.account := funext h
  rw [e]
  rfl

theorem ledger_modFlags (c : Scene) (f : PassageFlags → PassageFlags)
    (h : ∀ g, (f g).noApproach = g.noApproach ∧ (f g).unzeroed = g.unzeroed) : (c.modFlags f).ledger = c.ledger :=
  ledger_modPassage c _ fun p => by
    unfold Passage.account
    dsimp only
    rw [(h p.flags).1, (h p.flags).2]

theorem ledger_addMarks (c : Scene) (x : WindowStats) : (c.modFlags (·.addMarks x)).ledger = c.ledger :=
  ledger_modFlags c _ fun _ => ⟨rfl, rfl⟩

theorem ledger_takeStep (c : Scene) (p : Nat) (st : PendingStep) (x : WindowStats) : (c.takeStep p st x).ledger = c.ledger := by
  unfold Scene.takeStep; split <;> rfl

theorem ledger_closeWindow (c : Scene) (p : Nat) : (c.closeWindow p).ledger = c.ledger := by
  unfold Scene.closeWindow
  split
  · rfl
  · dsimp only
    split
    · rw [ledger_addMarks]; rfl
    · rw [ledger_takeStep, ledger_addMarks]; rfl

theorem ledger_openWindow (c : Scene) (p : Nat) : (c.openWindow p).ledger = c.ledger := rfl

theorem ledger_recordStep (c : Scene) (e : Entry) (v : Option Nat) (p : Nat) (g : Sign) :
    (c.recordStep e v p g).ledger = c.ledger := by
  unfold Scene.recordStep
  split
  · rfl
  · dsimp only
    split <;> rfl

theorem ledger_offerWagon (c : Scene) (w : Wagon) : (c.offerWagon w).ledger = c.ledger := by
  unfold Scene.offerWagon
  split
  · split
    · rfl
    · exact ledger_modPassage c _ fun _ => rfl
  · rfl

theorem ledger_handOn (c : Scene) (w : Wagon) : (c.handOn w).ledger = c.ledger := by
  unfold Scene.handOn Scene.watchAndOffer
  rw [ledger_offerWagon]
  exact ledger_modPassage c _ fun _ => rfl

theorem ledger_formNext (c : Scene) (flush : Bool) : (c.formNext flush).ledger = c.ledger := by
  simp only [Scene.formNext]
  rw [ledger_handOn]
  rfl

theorem ledger_groupTurns : ∀ (n : Nat) (c : Scene), (groupTurns n c).ledger = c.ledger
  | 0, _ => rfl
  | n + 1, c => by
    unfold groupTurns
    split
    · rfl
    · rw [ledger_groupTurns n, ledger_formNext]

theorem ledger_flushTurns : ∀ (n : Nat) (c : Scene), (flushTurns n c).ledger = c.ledger
  | 0, _ => rfl
  | n + 1, c => by
    unfold flushTurns
    split
    · rfl
    · rw [ledger_flushTurns n, ledger_formNext]

theorem ledger_finalizeAxle (c : Scene) (n : Nat) : (c.finalizeAxle n).ledger = c.ledger := by
  simp only [Scene.finalizeAxle]
  split
  · rfl
  · rw [Scene.groupLoop, ledger_groupTurns]; rfl

theorem ledger_finalizeResolved (c : Scene) : c.finalizeResolved.ledger = c.ledger :=
  foldl_keeps Scene.ledger _ ledger_finalizeAxle _ c

theorem ledger_finalizeAll (c : Scene) : c.finalizeAll.ledger = c.ledger :=
  foldl_keeps Scene.ledger _ ledger_finalizeAxle _ c

theorem ledger_turnWindows (c : Scene) (d : Direction) (kind : PassKind) : (c.turnWindows d kind).ledger = c.ledger := by
  unfold Scene.turnWindows
  rw [foldl_keeps Scene.ledger _ ledger_openWindow, ledger_finalizeResolved, foldl_keeps Scene.ledger _ ledger_closeWindow]

theorem ledger_closeAllWindows (c : Scene) : c.closeAllWindows.ledger = c.ledger :=
  foldl_keeps Scene.ledger _ ledger_closeWindow _ c

theorem ledger_checkDrift (c : Scene) : c.checkDrift.ledger = c.ledger := by
  unfold Scene.checkDrift
  split
  · exact ledger_modFlags c (fun f => { f with drift := true }) fun _ => ⟨rfl, rfl⟩
  · rfl

/-! ### The records queued -/

/-- The wagon records that a part of a pass or a close appends to the queue: of this track and its open passage, none when the passage is
lost (R165, R166). -/
def Scene.Queues (c c' : Scene) : Prop :=
  ∃ ws : List Wagon,
    c'.trk.records = { c.trk.records with queue := c.trk.records.queue ++ ws.map .wagon }
      ∧ (∀ w ∈ ws, w.track = c.id ∧ some w.passage = c.trk.context.map (·.number))
      ∧ (c.trk.hasPlace = false → ws = [])
      ∧ c'.id = c.id ∧ c'.trk.context.map Passage.account = c.trk.context.map Passage.account

theorem hasPlace_of_account {k k' : TrackState} (h : k'.context.map Passage.account = k.context.map Passage.account) :
    k'.hasPlace = k.hasPlace := by
  have e : ∀ j : TrackState, j.hasPlace = ((j.context.map Passage.account).map fun p => decide (p.place = .reserved)).getD false := by
    intro j; unfold TrackState.hasPlace; cases j.context <;> rfl
  rw [e, e, h]

theorem number_of_account {k k' : TrackState} (h : k'.context.map Passage.account = k.context.map Passage.account) :
    k'.context.map (·.number) = k.context.map (·.number) := by
  have e : ∀ j : TrackState, j.context.map (·.number) = (j.context.map Passage.account).map (·.number) := by
    intro j; cases j.context <;> rfl
  rw [e, e, h]

theorem Scene.Queues.trans {a b c : Scene} (h : a.Queues b) (g : b.Queues c) : a.Queues c := by
  obtain ⟨u, u1, u2, u3, u4, u5⟩ := h
  obtain ⟨v, v1, v2, v3, v4, v5⟩ := g
  refine ⟨u ++ v, ?_, ?_, ?_, v4.trans u4, v5.trans u5⟩
  · rw [v1, u1]; simp
  · intro w hw
    rcases List.mem_append.1 hw with hw | hw
    · exact u2 w hw
    · have := v2 w hw
      rw [u4, number_of_account u5] at this
      exact this
  · intro hp
    rw [u3 hp, v3 (by rw [hasPlace_of_account u5]; exact hp)]
    rfl

theorem Scene.Queues.of_records {c c' : Scene} (h : c'.trk.records = c.trk.records) (hi : c'.id = c.id)
    (ha : c'.ledger = c.ledger) : c.Queues c' :=
  ⟨[], by rw [h]; simp, fun _ h => absurd h (by simp), fun _ => rfl, hi, congrArg (·.2.1) ha⟩

theorem Scene.Queues.refl (c : Scene) : c.Queues c := .of_records rfl rfl rfl

theorem queues_foldl {α : Type} (f : Scene → α → Scene) (h : ∀ (c : Scene) (a : α), c.Queues (f c a)) :
    ∀ (l : List α) (c : Scene), c.Queues (l.foldl f c)
  | [], c => .refl c
  | a :: l, c => (h c a).trans (queues_foldl f h l (f c a))

theorem closeWindow_records (c : Scene) (p : Nat) : (c.closeWindow p).trk.records = c.trk.records := by
  unfold Scene.closeWindow
  split
  · rfl
  · dsimp only
    split
    · rfl
    · unfold Scene.takeStep; split <;> rfl

theorem queues_closeWindow (c : Scene) (p : Nat) : c.Queues (c.closeWindow p) :=
  .of_records (closeWindow_records c p) (congrArg Control.id (control_closeWindow c p)) (ledger_closeWindow c p)

theorem queues_offerWagon (c : Scene) (w : Wagon) (h : w.track = c.id)
    (hn : c.trk.hasPlace = true → some w.passage = c.trk.context.map (·.number)) : c.Queues (c.offerWagon w) := by
  have ha := congrArg (·.2.1) (ledger_offerWagon c w)
  have hi : (c.offerWagon w).id = c.id := congrArg Control.id (control_offerWagon c w)
  refine ⟨if c.trk.hasPlace ∧ c.trk.records.wagons < 24 then [w] else [], ?_, ?_, ?_, hi, ha⟩
  · unfold Scene.offerWagon
    split
    · split
      · rename_i h1 h2; rw [if_pos ⟨h1, h2⟩]; rfl
      · rename_i h1 h2; rw [if_neg (fun e => h2 e.2)]; simp [Scene.modPassage, Scene.modTrk]
    · rename_i h1; rw [if_neg (fun e => h1 e.1)]; simp
  · intro x hx
    split at hx
    · rename_i hp
      rw [List.mem_singleton] at hx
      subst hx
      exact ⟨h, hn hp.1⟩
    · exact absurd hx (by simp)
  · intro hp; rw [if_neg]; rintro ⟨e, -⟩; rw [hp] at e; exact absurd e (by simp)

theorem evaluation_unit_wagon (v : Evaluation) (i : Nat) :
    (v.unit i).wagon.track = v.wagon.track ∧ (v.unit i).wagon.passage = v.wagon.passage := by
  unfold Evaluation.unit
  extract_lets u
  split
  · unfold Evaluation.act
    split
    · exact ⟨rfl, rfl⟩
    · split
      · exact ⟨rfl, rfl⟩
      · split <;> exact ⟨rfl, rfl⟩
  · exact ⟨rfl, rfl⟩

/-- The watch units leave the wagon's track and passage as they are (R155). -/
theorem evaluate_wagon (h : Shared) (w : Wagon) :
    (h.evaluate w).wagon.track = w.track ∧ (h.evaluate w).wagon.passage = w.passage := by
  unfold Shared.evaluate
  exact foldl_invariant (fun v : Evaluation => v.wagon.track = w.track ∧ v.wagon.passage = w.passage) _
    (fun v i e => ⟨(evaluation_unit_wagon v i).1.trans e.1, (evaluation_unit_wagon v i).2.trans e.2⟩) _ _ ⟨rfl, rfl⟩

theorem queues_handOn (c : Scene) (w : Wagon) (h : w.track = c.id) (hn : w.passage = c.trk.passageOpen) :
    c.Queues (c.handOn w) := by
  have hl : (c.modPassage (·.countWagon w)).ledger = c.ledger := ledger_modPassage c _ fun _ => rfl
  refine (Scene.Queues.of_records (c := c) (c' := c.modPassage (·.countWagon w)) rfl rfl hl).trans ?_
  show (c.modPassage (·.countWagon w)).Queues ((c.modPassage (·.countWagon w)).watchAndOffer w)
  unfold Scene.watchAndOffer
  extract_lets v
  obtain ⟨e1, e2⟩ := evaluate_wagon (c.modPassage (·.countWagon w)).sh w
  refine (Scene.Queues.of_records (c := c.modPassage (·.countWagon w))
    (c' := { c.modPassage (·.countWagon w) with sh := v.sh }) rfl rfl rfl).trans ?_
  refine queues_offerWagon _ _ (e1.trans h) ?_
  intro hp
  have e3 : v.wagon.passage = w.passage := e2
  rw [e3, hn]
  show some ((c.trk.context.map (·.number)).getD 0) = (c.trk.context.map (·.countWagon w)).map (·.number)
  have hp' : c.trk.hasPlace = true := by
    have : (c.modPassage (·.countWagon w)).trk.hasPlace = true := hp
    rwa [hasPlace_of_account (congrArg (·.2.1) hl)] at this
  unfold TrackState.hasPlace at hp'
  cases hc : c.trk.context with
  | none => rw [hc] at hp'; exact absurd hp' (by simp)
  | some p => rfl

theorem queues_formNext (c : Scene) (flush : Bool) : c.Queues (c.formNext flush) := by
  simp only [Scene.formNext]
  refine Scene.Queues.trans ?_ (queues_handOn (c.modTrk _) _ rfl rfl)
  exact .of_records rfl rfl rfl

theorem queues_groupTurns : ∀ (n : Nat) (c : Scene), c.Queues (groupTurns n c)
  | 0, c => .refl c
  | n + 1, c => by
    unfold groupTurns
    split
    · exact .refl c
    · exact (queues_formNext c false).trans (queues_groupTurns n _)

theorem queues_flushTurns : ∀ (n : Nat) (c : Scene), c.Queues (flushTurns n c)
  | 0, c => .refl c
  | n + 1, c => by
    unfold flushTurns
    split
    · exact .refl c
    · exact (queues_formNext c true).trans (queues_flushTurns n _)

theorem queues_finalizeAxle (c : Scene) (n : Nat) : c.Queues (c.finalizeAxle n) := by
  simp only [Scene.finalizeAxle]
  split
  · exact .of_records rfl rfl rfl
  · refine Scene.Queues.trans ?_ (queues_groupTurns _ _)
    exact .of_records rfl rfl rfl

theorem queues_turnWindows (c : Scene) (d : Direction) (kind : PassKind) : c.Queues (c.turnWindows d kind) := by
  unfold Scene.turnWindows
  refine Scene.Queues.trans ?_ (queues_foldl Scene.openWindow (fun c p => .of_records rfl rfl rfl) _ _)
  exact (queues_foldl _ queues_closeWindow (boundPlatforms c.trk.config.platforms d kind) c).trans
    (queues_foldl _ queues_finalizeAxle _ _)

/-! ### The moves (R76 to R87) -/

/-- The open passage's axle counts agree with the lists (R91). -/
def Scene.Fair (c : Scene) : Prop :=
  ∀ p, c.trk.context = some p →
    p.axlesCreated = c.trk.axles.lastSerial ∧ c.trk.axles.lastSerial ≤ 65535 ∧ p.axlesLeftOnBridge = 0
      ∧ p.axlesCreated = p.axlesDeparted + p.axlesBackedOut + c.trk.axles.realOnBridge + c.trk.axles.realBackedOut

theorem fair_of_ledger {c c' : Scene} (h : c'.ledger = c.ledger) (hf : c.Fair) : c'.Fair := by
  intro p hp
  have ha : c'.trk.axles.lists = c.trk.axles.lists := congrArg (·.1) h
  have hc : c'.trk.context.map Passage.account = c.trk.context.map Passage.account := congrArg (·.2.1) h
  rw [hp] at hc
  cases hq : c.trk.context with
  | none => rw [hq] at hc; exact absurd hc (by simp)
  | some q =>
    rw [hq] at hc
    simp only [Option.map_some, Option.some.injEq] at hc
    obtain ⟨f1, f2, f3, f4⟩ := hf q hq
    have e1 := congrArg Passage.axlesCreated hc
    change p.axlesCreated = q.axlesCreated at e1
    have e2 := congrArg Passage.axlesDeparted hc
    change p.axlesDeparted = q.axlesDeparted at e2
    have e3 := congrArg Passage.axlesBackedOut hc
    change p.axlesBackedOut = q.axlesBackedOut at e3
    have e4 := congrArg Passage.axlesLeftOnBridge hc
    change p.axlesLeftOnBridge = q.axlesLeftOnBridge at e4
    have g1 := congrArg AxleTable.lastSerial ha
    change c'.trk.axles.lastSerial = c.trk.axles.lastSerial at g1
    have g2 := congrArg AxleTable.realOnBridge ha
    change c'.trk.axles.realOnBridge = c.trk.axles.realOnBridge at g2
    have g3 := congrArg AxleTable.realBackedOut ha
    change c'.trk.axles.realBackedOut = c.trk.axles.realBackedOut at g3
    rw [g1, g2, g3, e1, e2, e3, e4]
    exact ⟨f1, f2, f3, f4⟩

theorem takeFrontOn_real {p : Nat} : ∀ {l : List BridgeEntry} {r : BridgeEntry × List BridgeEntry},
    takeFrontOn p l = some r →
      (l.filter fun e => !e.ghost).length = (r.2.filter fun e => !e.ghost).length + (if r.1.ghost then 0 else 1)
  | [], _, h => absurd h (by simp [takeFrontOn])
  | e :: l, r, h => by
    unfold takeFrontOn at h
    split at h
    · simp only [Option.some.injEq] at h
      subst h
      cases hg : e.ghost <;> simp [hg]
    · cases ht : takeFrontOn p l with
      | none => rw [ht] at h; exact absurd h (by simp)
      | some q =>
        rw [ht] at h
        simp only [Option.map_some, Option.some.injEq] at h
        subst h
        have := takeFrontOn_real ht
        cases hg : e.ghost <;> simp [hg] at * <;> omega

theorem moveFrontOn_real {p q : Nat} : ∀ {l : List BridgeEntry} {r : BridgeEntry × List BridgeEntry},
    moveFrontOn p q l = some r → (r.2.filter fun e => !e.ghost).length = (l.filter fun e => !e.ghost).length
  | [], _, h => absurd h (by simp [moveFrontOn])
  | e :: l, r, h => by
    unfold moveFrontOn at h
    split at h
    · simp only [Option.some.injEq] at h
      subst h
      cases hg : e.ghost <;> simp [hg]
    · cases ht : moveFrontOn p q l with
      | none => rw [ht] at h; exact absurd h (by simp)
      | some g =>
        rw [ht] at h
        simp only [Option.map_some, Option.some.injEq] at h
        subst h
        have := moveFrontOn_real ht
        cases hg : e.ghost <;> simp [hg] at * <;> omega

theorem filter_reverse_length {α : Type} (f : α → Bool) (l : List α) : (l.reverse.filter f).length = (l.filter f).length := by
  rw [List.filter_reverse, List.length_reverse]

theorem takeRearOn_real {p : Nat} {l : List BridgeEntry} {r : BridgeEntry × List BridgeEntry} (h : takeRearOn p l = some r) :
    (l.filter fun e => !e.ghost).length = (r.2.filter fun e => !e.ghost).length + (if r.1.ghost then 0 else 1) := by
  unfold takeRearOn at h
  cases ht : takeFrontOn p l.reverse with
  | none => rw [ht] at h; exact absurd h (by simp)
  | some q =>
    rw [ht] at h
    simp only [Option.map_some, Option.some.injEq] at h
    subst h
    have := takeFrontOn_real ht
    rw [filter_reverse_length] at this
    rw [filter_reverse_length]
    exact this

theorem moveRearOn_real {p q : Nat} {l : List BridgeEntry} {r : BridgeEntry × List BridgeEntry}
    (h : moveRearOn p q l = some r) : (r.2.filter fun e => !e.ghost).length = (l.filter fun e => !e.ghost).length := by
  unfold moveRearOn at h
  cases ht : moveFrontOn p q l.reverse with
  | none => rw [ht] at h; exact absurd h (by simp)
  | some g =>
    rw [ht] at h
    simp only [Option.map_some, Option.some.injEq] at h
    subst h
    have := moveFrontOn_real ht
    rw [filter_reverse_length] at this
    rw [filter_reverse_length]
    exact this

theorem satInc_of_lt {m n : Nat} (h : n < m) : satInc m n = n + 1 := if_pos h

theorem fair_createAxle {c : Scene} (p : Nat) (t : Word) (v : Option Nat) (h : c.Fair)
    (hs : c.trk.axles.lastSerial < 65535) : (c.createAxle p t v).scene.Fair := by
  intro q hq
  unfold Scene.createAxle at hq
  dsimp only at hq
  simp only [Scene.modPassage, Scene.modTrk, Scene.setBridge, Scene.modAxles] at hq
  cases hc : c.trk.context with
  | none => rw [hc] at hq; exact absurd hq (by simp)
  | some o =>
    rw [hc] at hq
    simp only [Option.map_some, Option.some.injEq] at hq
    subst hq
    obtain ⟨f1, f2, f3, f4⟩ := h o hc
    refine ⟨?_, ?_, f3, ?_⟩
    · show satInc 65535 o.axlesCreated = c.trk.axles.lastSerial + 1
      rw [satInc_of_lt (by omega)]; omega
    · show c.trk.axles.lastSerial + 1 ≤ 65535
      omega
    · show satInc 65535 o.axlesCreated = o.axlesDeparted + o.axlesBackedOut
        + ((c.trk.axles.onBridge ++ [_]).filter fun e : BridgeEntry => !e.ghost).length + c.trk.axles.realBackedOut
      rw [satInc_of_lt (by omega), List.filter_append, List.length_append]
      have : c.trk.axles.realOnBridge = (c.trk.axles.onBridge.filter fun e => !e.ghost).length := rfl
      simp
      omega

theorem fair_reenter {c : Scene} (e : Entry) (rest : List Entry) (p : Nat) (t : Word) (v : Option Nat) (h : c.Fair)
    (hb : c.trk.axles.backedOut = e :: rest) : (c.reenter e rest p t v).scene.Fair := by
  have key : ∀ c' : Scene, c'.trk.context = c.trk.context → c'.trk.axles.lastSerial = c.trk.axles.lastSerial →
      c'.trk.axles.onBridge = c.trk.axles.onBridge ++ [⟨e.serial, e.ghost, p⟩] → c'.trk.axles.backedOut = rest → c'.Fair := by
    intro c' h1 h2 h3 h4 q hq
    rw [h1] at hq
    obtain ⟨f1, f2, f3, f4⟩ := h q hq
    rw [h2]
    refine ⟨f1, f2, f3, ?_⟩
    unfold AxleTable.realOnBridge AxleTable.realBackedOut at *
    rw [h3, h4]
    rw [hb] at f4
    cases hg : e.ghost <;> simp [hg] at * <;> omega
  unfold Scene.reenter
  dsimp only
  refine key _ ?_ ?_ ?_ ?_
  · split <;> rfl
  · split
    · rfl
    · show (if e.serial = _ then _ else _ : AxleTable).lastSerial = _
      split <;> rfl
  · split
    · rfl
    · show (if e.serial = _ then _ else _ : AxleTable).onBridge ++ _ = _
      split <;> rfl
  · split
    · rfl
    · show (if e.serial = _ then _ else _ : AxleTable).backedOut = _
      split <;> rfl

/-- The discard of the stack's bottom keeps the accounts, the bridge and, with room made, at most 31 entries (R82). -/
theorem fair_discardBottom {c : Scene} (h : c.Fair) :
    c.discardBottom.Fair ∧ c.discardBottom.trk.axles.onBridge = c.trk.axles.onBridge := by
  unfold Scene.discardBottom
  split
  · exact ⟨h, rfl⟩
  · split
    · exact ⟨h, rfl⟩
    · rename_i e he
      have hl : c.trk.axles.backedOut = c.trk.axles.backedOut.dropLast ++ [e] := by
        have hne : c.trk.axles.backedOut ≠ [] := by
          intro e0; rw [e0] at he; exact absurd he (by simp)
        have := List.dropLast_concat_getLast hne
        rw [List.getLast?_eq_some_getLast hne, Option.some.injEq] at he
        rw [he] at this
        exact this.symm
      have hcount : c.trk.axles.realBackedOut
          = (c.trk.axles.backedOut.dropLast.filter fun e => !e.ghost).length + (if e.ghost then 0 else 1) := by
        unfold AxleTable.realBackedOut
        conv => lhs; rw [hl]
        rw [List.filter_append, List.length_append]
        cases hg : e.ghost <;> simp [hg]
      dsimp only
      cases hg : e.ghost with
      | true =>
        simp only [if_true]
        refine ⟨fun q hq => ?_, rfl⟩
        obtain ⟨f1, f2, f3, f4⟩ := h q hq
        refine ⟨f1, f2, f3, ?_⟩
        show _ = _ + c.trk.axles.realOnBridge + (c.trk.axles.backedOut.dropLast.filter fun e => !e.ghost).length
        rw [hg] at hcount
        simp only [if_true] at hcount
        omega
      | false =>
        simp only [Bool.false_eq_true, if_false]
        refine ⟨fun q hq => ?_, rfl⟩
        simp only [Scene.modPassage, Scene.modTrk, Scene.modAxles] at hq
        cases hc : c.trk.context with
        | none => rw [hc] at hq; exact absurd hq (by simp)
        | some o =>
          rw [hc] at hq
          simp only [Option.map_some, Option.some.injEq] at hq
          subst hq
          obtain ⟨f1, f2, f3, f4⟩ := h o hc
          refine ⟨f1, f2, f3, ?_⟩
          show o.axlesCreated = o.axlesDeparted + satInc 65535 o.axlesBackedOut + c.trk.axles.realOnBridge
            + (c.trk.axles.backedOut.dropLast.filter fun e => !e.ghost).length
          rw [hg] at hcount
          simp only [Bool.false_eq_true, if_false] at hcount
          rw [satInc_of_lt (by omega)]
          omega

/-- A scene whose lists and open passage are those of a fair one, but for the bridge list, with as many real entries. -/
theorem fair_of_bridge {c c' : Scene} (h : c.Fair) (h1 : c'.trk.context = c.trk.context)
    (h2 : c'.trk.axles.lastSerial = c.trk.axles.lastSerial) (h3 : c'.trk.axles.backedOut = c.trk.axles.backedOut)
    (h4 : c'.trk.axles.realOnBridge = c.trk.axles.realOnBridge) : c'.Fair := by
  intro q hq
  rw [h1] at hq
  obtain ⟨f1, f2, f3, f4⟩ := h q hq
  unfold AxleTable.realBackedOut at *
  rw [h2, h4, h3]
  exact ⟨f1, f2, f3, f4⟩

/-- Every move keeps the accounts (R91): a creation only below serial 65535. -/
theorem fair_movePass {c : Scene} (d : Direction) (x : Pass) (kind : PassKind) (m : Moved) (h : c.Fair)
    (hs : kind = .forwardEntry → c.trk.axles.overflows = false) (hm : c.movePass d x kind = some m) : m.scene.Fair := by
  unfold Scene.movePass at hm
  dsimp only at hm
  cases kind with
  | forwardEntry =>
    simp only [Option.some.injEq] at hm
    subst hm
    have ho := hs rfl
    unfold Scene.enter
    split
    · rename_i e rest hb; exact fair_reenter e rest _ _ _ h hb
    · rename_i hb
      refine fair_createAxle _ _ _ h ?_
      unfold AxleTable.overflows at ho
      rw [hb] at ho
      simp at ho
      omega
  | backwardEntry =>
    simp only [Scene.backOut] at hm
    cases ht : takeRearOn (firstPlatform c.trk.config.platforms d) c.trk.axles.onBridge with
    | none => rw [ht] at hm; exact absurd hm (by simp)
    | some r =>
      rw [ht] at hm
      simp only [Option.map_some, Option.some.injEq] at hm
      subst hm
      obtain ⟨hf, hbr⟩ := fair_discardBottom h
      intro q hq
      obtain ⟨f1, f2, f3, f4⟩ := hf q hq
      refine ⟨f1, f2, f3, ?_⟩
      have := takeRearOn_real ht
      show q.axlesCreated = q.axlesDeparted + q.axlesBackedOut + (r.2.filter fun e => !e.ghost).length
        + ((r.1.entry :: c.discardBottom.trk.axles.backedOut).filter fun e => !e.ghost).length
      unfold AxleTable.realOnBridge AxleTable.realBackedOut at f4
      rw [hbr] at f4
      have hg : r.1.entry.ghost = r.1.ghost := rfl
      cases e : r.1.ghost <;> rw [e] at this hg <;> simp [hg] at * <;> omega
  | forwardMiddle k =>
    simp only [Scene.moveForward] at hm
    cases ht : moveFrontOn (behindPlatform k d) (aheadPlatform k d) c.trk.axles.onBridge with
    | none => rw [ht] at hm; exact absurd hm (by simp)
    | some r =>
      rw [ht] at hm
      simp only [Option.map_some, Option.some.injEq] at hm
      subst hm
      unfold Scene.placeRecord
      have := moveFrontOn_real ht
      split <;> exact fair_of_bridge h rfl rfl rfl this
  | backwardMiddle k =>
    simp only [Scene.moveBackward] at hm
    cases ht : moveRearOn (aheadPlatform k d) (behindPlatform k d) c.trk.axles.onBridge with
    | none => rw [ht] at hm; exact absurd hm (by simp)
    | some r =>
      rw [ht] at hm
      simp only [Option.map_some, Option.some.injEq] at hm
      subst hm
      unfold Scene.placeRecord
      have := moveRearOn_real ht
      split <;> exact fair_of_bridge h rfl rfl rfl this
  | forwardExit =>
    simp only [Scene.depart] at hm
    cases ht : takeFrontOn (lastPlatform c.trk.config.platforms d) c.trk.axles.onBridge with
    | none => rw [ht] at hm; exact absurd hm (by simp)
    | some r =>
      rw [ht] at hm
      simp only [Option.map_some, Option.some.injEq] at hm
      subst hm
      have hr := takeFrontOn_real ht
      cases hg : r.1.ghost with
      | true =>
        rw [hg] at hr
        simp only [if_true] at hr ⊢
        exact fair_of_bridge h rfl rfl rfl hr.symm
      | false =>
        rw [hg] at hr
        simp only [Bool.false_eq_true, if_false] at hr ⊢
        intro q hq
        simp only [Scene.modPassage, Scene.modTrk, Scene.modAxles, Scene.setBridge] at hq
        cases hc : c.trk.context with
        | none => rw [hc] at hq; exact absurd hq (by simp)
        | some o =>
          rw [hc] at hq
          simp only [Option.map_some, Option.some.injEq] at hq
          subst hq
          obtain ⟨f1, f2, f3, f4⟩ := h o hc
          refine ⟨f1, f2, f3, ?_⟩
          show o.axlesCreated = satInc 65535 o.axlesDeparted + o.axlesBackedOut
            + (r.2.filter fun e => !e.ghost).length + c.trk.axles.realBackedOut
          have e : c.trk.axles.realOnBridge = (c.trk.axles.onBridge.filter fun e => !e.ghost).length := rfl
          rw [satInc_of_lt (by omega)]
          omega
  | backwardExit =>
    dsimp only at hm
    unfold Scene.ghostReturn at hm
    split at hm
    · exact absurd hm (by simp)
    · simp only [Option.some.injEq] at hm
      subst hm
      intro q hq
      simp only [Scene.modPassage, Scene.modTrk, Scene.modAxles, Scene.setBridge] at hq
      cases hc : c.trk.context with
      | none => rw [hc] at hq; exact absurd hq (by simp)
      | some o =>
        rw [hc] at hq
        simp only [Option.map_some, Option.some.injEq] at hq
        subst hq
        exact h o hc

theorem fair_recordSteps (e : Entry) (v : Option Nat) : ∀ (l : List (Nat × Sign)) (c : Scene), c.Fair →
    (l.foldl (fun c s => c.recordStep e v s.1 s.2) c).Fair
  | [], _, h => h
  | s :: l, c, h => fair_recordSteps e v l _ (fair_of_ledger (ledger_recordStep c e v s.1 s.2) h)

theorem fair_processPass {c : Scene} (d : Direction) (x : Pass) (kind : PassKind) (h : c.Fair)
    (hs : kind = .forwardEntry → c.trk.axles.overflows = false) : (c.processPass d x kind).Fair := by
  rw [processPass_eq]
  have h1 := fair_of_ledger (ledger_turnWindows c d kind) h
  have h2 := congrArg AxleTable.overflows (lists_turnWindows c d kind)
  change (c.turnWindows d kind).trk.axles.overflows = c.trk.axles.overflows at h2
  unfold Scene.moveAndRecord
  split
  · exact fair_of_ledger (ledger_modFlags _ (fun f => { f with sequence := true }) fun _ => ⟨rfl, rfl⟩) h1
  · rename_i m hm
    exact fair_recordSteps _ _ _ _ (fair_movePass d x kind m h1 (fun e => h2.trans (hs e)) hm)

theorem nextMode_ledger (c : Scene) (kind : PassKind) : (c.nextMode kind).ledger = c.ledger := by
  unfold Scene.nextMode
  split
  · rfl
  · split
    · split <;> rfl
    · rfl

/-! ### The close (R56, R57, R90) -/

theorem satAdd_eq {m n k : Nat} (h : n + k ≤ m) : satAdd m n k = n + k := by
  unfold satAdd; split <;> omega

/-- What the disposal writes into the account (R90). -/
theorem disposeAxles_context (c : Scene) :
    c.disposeAxles.trk.context
      = c.trk.context.map fun p =>
          { p with
            axlesLeftOnBridge := satAdd 65535 p.axlesLeftOnBridge c.trk.axles.realOnBridge
            axlesBackedOut := satAdd 65535 p.axlesBackedOut c.trk.axles.realBackedOut } := by
  unfold Scene.disposeAxles AxleTable.realOnBridge AxleTable.realBackedOut
  simp only [Scene.modPassage, Scene.modTrk, Scene.modAxles, List.length_map]

/-- The records and the account at step 7 of a close (R56, R57): wagon records of the passage, then its close record; none of a lost
passage. -/
theorem closeToStep8_records {c : Scene} (r : CloseReason) {p : Passage} (hc : c.trk.context = some p) :
    (c.closeToStep8 r).trk.epoch = c.trk.epoch
      ∧ (p.place = .lost → (c.closeToStep8 r).trk.records = c.trk.records)
      ∧ (p.place = .reserved →
          ∃ (ws : List Wagon) (f : Passage),
            (∀ w ∈ ws, w.track = c.id ∧ w.passage = p.number)
              ∧ f.account =
                  { p.account with
                    reason := some r
                    closeTime := some c.now
                    axlesLeftOnBridge := satAdd 65535 p.axlesLeftOnBridge c.trk.axles.realOnBridge
                    axlesBackedOut := satAdd 65535 p.axlesBackedOut c.trk.axles.realBackedOut }
              ∧ (c.closeToStep8 r).trk.records =
                  { c.trk.records with
                    queue := c.trk.records.queue ++ ws.map .wagon ++ [.close ⟨c.id, f, c.trk.records.lostSinceClose⟩]
                    lostSinceClose := 0 }) := by
  let q : Passage := { p with reason := some r, closeTime := some c.now }
  have b0 : (c.beginClose r).trk.context = some q := by
    show c.trk.context.map _ = _
    rw [hc]; rfl
  -- up to the disposal
  have g1 : (c.beginClose r).Queues ((c.beginClose r).closeAllWindows.finalizeAll) :=
    (queues_foldl _ queues_closeWindow _ _).trans (queues_foldl _ queues_finalizeAxle _ _)
  have l1 : ((c.beginClose r).closeAllWindows.finalizeAll).ledger = (c.beginClose r).ledger := by
    rw [ledger_finalizeAll, ledger_closeAllWindows]
  unfold Scene.closeToStep8
  dsimp only
  rw [Scene.modShared_trk]
  revert g1 l1
  generalize (c.beginClose r).closeAllWindows.finalizeAll = c1
  intro g1 l1
  have a1 : c1.trk.axles.lists = c.trk.axles.lists := congrArg (·.1) l1
  have r1 := congrArg AxleTable.realOnBridge a1
  change c1.trk.axles.realOnBridge = c.trk.axles.realOnBridge at r1
  have r2 := congrArg AxleTable.realBackedOut a1
  change c1.trk.axles.realBackedOut = c.trk.axles.realBackedOut at r2
  have e1 : c1.trk.epoch = c.trk.epoch := congrArg (·.2.2) l1
  obtain ⟨ws1, w1, w2, w3, w4, w5⟩ := g1
  have k1 : c1.trk.context.map Passage.account = some q.account := by rw [w5, b0]; rfl
  -- the disposal
  have hd : c1.disposeAxles.trk.context.map Passage.account = some
      { q.account with
        axlesLeftOnBridge := satAdd 65535 p.axlesLeftOnBridge c.trk.axles.realOnBridge
        axlesBackedOut := satAdd 65535 p.axlesBackedOut c.trk.axles.realBackedOut } := by
    rw [disposeAxles_context]
    cases h1 : c1.trk.context with
    | none => rw [h1] at k1; exact absurd k1 (by simp)
    | some o =>
      rw [h1] at k1
      simp only [Option.map_some, Option.some.injEq] at k1 ⊢
      have v1 := congrArg Passage.axlesLeftOnBridge k1
      change o.axlesLeftOnBridge = p.axlesLeftOnBridge at v1
      have v2 := congrArg Passage.axlesBackedOut k1
      change o.axlesBackedOut = p.axlesBackedOut at v2
      rw [v1, v2, r1, r2, ← k1]
      rfl
  have rd : c1.disposeAxles.trk.records = c1.trk.records := rfl
  have ed : c1.disposeAxles.trk.epoch = c.trk.epoch := e1
  have id1 : c1.disposeAxles.id = c.id := w4
  -- the flush and the drift check
  have g2 : c1.disposeAxles.Queues c1.disposeAxles.closeFlush := queues_flushTurns _ _
  have l2 : c1.disposeAxles.closeFlush.ledger = c1.disposeAxles.ledger := ledger_flushTurns _ _
  revert hd rd ed id1 g2 l2
  generalize c1.disposeAxles = c2
  intro hd rd ed id1 g2 l2
  have l3 := ledger_checkDrift c2.closeFlush
  have r3 : c2.closeFlush.checkDrift.trk.records = c2.closeFlush.trk.records := by
    unfold Scene.checkDrift; split <;> rfl
  have i3 : c2.closeFlush.checkDrift.id = c2.closeFlush.id := by
    unfold Scene.checkDrift; split <;> rfl
  obtain ⟨ws2, v1, v2, v3, v4, v5⟩ := g2
  revert l2 l3 r3 i3 v1 v4 v5
  generalize c2.closeFlush.checkDrift = c4
  generalize c2.closeFlush = c3
  intro l2 l3 r3 i3 v1 v4 v5
  have k4 : c4.trk.context.map Passage.account = c2.trk.context.map Passage.account :=
    (congrArg (·.2.1) l3).trans v5
  have e4 : c4.trk.epoch = c.trk.epoch := ((congrArg (·.2.2) l3).trans (congrArg (·.2.2) l2)).trans ed
  have recs : c4.trk.records = { c.trk.records with queue := c.trk.records.queue ++ (ws1 ++ ws2).map .wagon } := by
    rw [r3, v1, rd, w1]
    show ({ (c.beginClose r).trk.records with queue := _ } : RecordQueue) = _
    simp only [List.map_append, List.append_assoc]
    rfl
  have id4 : c4.id = c.id := i3.trans (v4.trans id1)
  have n2 : c2.trk.context.map (·.number) = some p.number := by
    have : ∀ o : Option Passage, o.map (·.number) = (o.map Passage.account).map (·.number) := by
      intro o; cases o <;> rfl
    rw [this, hd]; rfl
  have pl2 : c2.trk.hasPlace = decide (p.place = .reserved) := by
    unfold TrackState.hasPlace
    cases h2 : c2.trk.context with
    | none => rw [h2] at hd; exact absurd hd (by simp)
    | some o =>
      rw [h2] at hd
      simp only [Option.map_some, Option.some.injEq] at hd
      have := congrArg Passage.place hd
      change o.place = p.place at this
      show decide (o.place = .reserved) = _
      rw [this]
  have pl0 : (c.beginClose r).trk.hasPlace = decide (p.place = .reserved) := by
    unfold TrackState.hasPlace; rw [b0]
  cases h4 : c4.trk.context with
  | none => rw [h4, hd] at k4; exact absurd k4 (by simp)
  | some f =>
    rw [h4, hd] at k4
    simp only [Option.map_some, Option.some.injEq] at k4
    have fp := congrArg Passage.place k4
    change f.place = p.place at fp
    unfold Scene.queueCloseRecord
    rw [h4]
    dsimp only
    refine ⟨?_, ?_, ?_⟩
    · split
      · exact e4
      · exact e4
    · intro hl
      have hl' : f.place ≠ .reserved := by rw [fp, hl]; decide
      rw [if_neg hl', recs, w3 (by rw [pl0, hl]; rfl), v3 (by rw [pl2, hl]; rfl)]
      simp
    · intro hr
      have hr' : f.place = .reserved := by rw [fp, hr]
      rw [if_pos hr']
      refine ⟨ws1 ++ ws2, f, ?_, k4, ?_⟩
      · intro w hw
        rcases List.mem_append.1 hw with hw | hw
        · have := w2 w hw
          rw [b0] at this
          exact ⟨this.1, Option.some.inj this.2⟩
        · have := v2 w hw
          rw [n2] at this
          exact ⟨this.1.trans id1, Option.some.inj this.2⟩
      · show ({ c4.trk.records with
            queue := c4.trk.records.queue ++ [.close ⟨c4.id, f, c4.trk.records.lostSinceClose⟩]
            lostSinceClose := 0 } : RecordQueue) = _
        rw [recs, id4]

/-- A close of an open passage leaves a track whose accounts balance, its new close record included (R91). -/
theorem balanced_closePassage {c : Scene} (r : CloseReason) (h : c.trk.Balanced) (hf : c.Fair) (hc : c.trk.context.isSome = true) :
    (c.closePassage r).trk.Balanced := by
  obtain ⟨-, -, -, -, -, k6, -, -, -, k10, -⟩ := endClose_keeps (c.closeToStep8 r) r
  refine ⟨fun p hp => ?_, ?_⟩
  · rw [Scene.closePassage, k6] at hp; exact absurd hp (by simp)
  · cases hp : c.trk.context with
    | none => rw [hp] at hc; exact absurd hc (by simp)
    | some p =>
      obtain ⟨-, hl, hr⟩ := closeToStep8_records r hp
      rw [Scene.closePassage, k10]
      cases hpl : p.place with
      | lost => rw [hl hpl]; exact h.2
      | reserved =>
        obtain ⟨ws, f, -, hfa, hrec⟩ := hr hpl
        obtain ⟨f1, f2, f3, f4⟩ := hf p hp
        have e1 := congrArg Passage.axlesCreated hfa
        have e2 := congrArg Passage.axlesDeparted hfa
        have e3 := congrArg Passage.axlesLeftOnBridge hfa
        have e4 := congrArg Passage.axlesBackedOut hfa
        change f.axlesCreated = p.axlesCreated at e1
        change f.axlesDeparted = p.axlesDeparted at e2
        change f.axlesLeftOnBridge = satAdd 65535 p.axlesLeftOnBridge c.trk.axles.realOnBridge at e3
        change f.axlesBackedOut = satAdd 65535 p.axlesBackedOut c.trk.axles.realBackedOut at e4
        rw [satAdd_eq (by omega)] at e3 e4
        intro x hx
        rw [hrec] at hx
        simp only [List.mem_append, List.mem_map, List.mem_singleton] at hx
        rcases hx with (hx | ⟨w, -, hx⟩) | hx
        · exact h.2 x hx
        · exact absurd hx (by simp)
        · simp only [Record.close.injEq] at hx
          subst hx
          show f.axlesCreated = f.axlesDeparted + f.axlesLeftOnBridge + f.axlesBackedOut
          omega

/-- Everything a close leaves of its track (R56 to R58). -/
theorem closePassage_closedTo {c : Scene} (r : CloseReason) (h : c.InPassage) {p : Passage} (hp : c.trk.context = some p)
    (hs : ∀ e ∈ c.sh.classes, ClassEntry.Sound e) : c.trk.ClosedTo c.id p r c.now (c.closePassage r).trk := by
  have h8 := control_closeToStep8 c r
  have b8 := closeToStep8_bare r h.windows
  obtain ⟨e8, l8, r8⟩ := closeToStep8_records r hp
  have t8 := closePassage_tablesEmpty c r hs
  have f1 : (c.closeToStep8 r).trk.config = c.trk.config := congrArg Control.config h8
  have f2 : (c.closeToStep8 r).trk.expected = c.trk.expected := congrArg Control.expected h8
  have f3 : (c.closeToStep8 r).trk.timer = none := congrArg Control.timer h8
  have f4 : (c.closeToStep8 r).trk.passageNumber = c.trk.passageNumber := congrArg Control.passageNumber h8
  have f5 : (c.closeToStep8 r).trk.falseApproaches = c.trk.falseApproaches := congrArg Control.falseApproaches h8
  have f6 : (c.closeToStep8 r).trk.sequence = c.trk.sequence := congrArg Control.sequence h8
  have f7 : (c.closeToStep8 r).trk.calibration = c.trk.calibration := congrArg Control.calibration h8
  have f8 : (c.closeToStep8 r).trk.points = c.trk.points := congrArg Control.points h8
  obtain ⟨k1, k2, k3, k4, k5, k6, -, -, -, k7, k8, k9, k10, k11, k12, k13⟩ := endClose_keeps (c.closeToStep8 r) r
  refine ⟨k1, k3.trans (f2.trans h.expected), ?_, k6, t8.1, t8.2.1, t8.2.2, ?_, k2.trans f1, k8.trans f4, k9.trans f5,
    k10.trans f6, k11.trans e8, k12.trans f7, ?_, fun e => k7.trans (l8 e), fun e => ?_⟩
  · by_cases hr : r = .disabled
    · exact k5 hr
    · exact (k4 hr).trans f3
  · intro q h1 h4
    obtain ⟨a, b⟩ := b8 q h1 h4
    obtain ⟨d1, d2, d3⟩ := endClose_platforms (c.closeToStep8 r) r q h1 h4
    refine ⟨d1.trans a, ?_⟩
    by_cases hr : r = .disabled
    · exact (d3 hr).1
    · show (((c.closeToStep8 r).endClose r).trk.platforms.get q).step = none
      rw [d2 hr]; exact b
  · show ((c.closeToStep8 r).endClose r).trk.points = _
    rw [k13, f8]
  · obtain ⟨ws, f, w1, w2, w3⟩ := r8 e
    exact ⟨ws, f, w1, w2, k7.trans w3⟩

/-- What a close leaves of the shared blocks: time base, options, class table and, but for the answer of a zero operation that entry into
DISABLED ends, the order unit. -/
theorem closePassage_shared (c : Scene) (r : CloseReason) :
    (c.closePassage r).sh.time = c.sh.time ∧ (c.closePassage r).sh.options = c.sh.options
      ∧ (c.closePassage r).sh.classes = c.sh.classes
      ∧ (r ≠ .disabled → (c.closePassage r).sh.orders = c.sh.orders)
      ∧ (c.closePassage r).sh.orders.queue = c.sh.orders.queue := by
  have h8 := control_closeToStep8 c r
  unfold Scene.closePassage
  revert h8
  generalize c.closeToStep8 r = c8
  intro h8
  have f1 : c8.sh.time = c.sh.time := congrArg Control.time h8
  have f2 : c8.sh.options = c.sh.options := congrArg Control.options h8
  have f3 : c8.sh.classes = c.sh.classes := congrArg Control.classes h8
  have f4 : c8.sh.orders = c.sh.orders := congrArg Control.orders h8
  by_cases hr : r = .disabled
  · have key : ∀ d : Scene, d.sh = c8.sh → (d.zeroDisabled.sh.time = c.sh.time ∧ d.zeroDisabled.sh.options = c.sh.options
        ∧ d.zeroDisabled.sh.classes = c.sh.classes ∧ d.zeroDisabled.sh.orders.queue = c.sh.orders.queue) := by
      intro d hd
      have e := (zeroDisabled_sh d).1
      rw [hd] at e
      have f5 : c8.sh.orders.queue = c.sh.orders.queue := by rw [f4]
      rw [e]
      exact ⟨f1, f2, f3, f5⟩
    unfold Scene.endClose
    rw [if_pos hr]
    unfold Scene.enterDisabled
    extract_lets d
    obtain ⟨a, b, e, f⟩ := key d rfl
    exact ⟨a, b, e, fun h => absurd hr h, f⟩
  · have e : (c8.endClose r).sh = c8.sh := by
      unfold Scene.endClose
      rw [if_neg hr, autoZero_sh, zeroReturnsToIdle_sh]
      rfl
    rw [e]
    exact ⟨f1, f2, f3, fun _ => f4, by rw [f4]⟩

/-- No close record is appended by a pass that closes nothing. -/
theorem closes_of_queues {c c' : Scene} (h : c.Queues c')
    (hb : ∀ x, Record.close x ∈ c.trk.records.queue → x.passage.Balances) :
    ∀ x, Record.close x ∈ c'.trk.records.queue → x.passage.Balances := by
  obtain ⟨ws, e, -⟩ := h
  intro x hx
  rw [e] at hx
  simp only [List.mem_append, List.mem_map] at hx
  rcases hx with hx | ⟨w, -, hx⟩
  · exact hb x hx
  · exact absurd hx (by simp)

theorem recordStep_records (c : Scene) (e : Entry) (v : Option Nat) (p : Nat) (g : Sign) :
    (c.recordStep e v p g).trk.records = c.trk.records := by
  unfold Scene.recordStep
  split
  · rfl
  · dsimp only
    split <;> rfl

theorem discardBottom_records (c : Scene) : c.discardBottom.trk.records = c.trk.records := by
  unfold Scene.discardBottom
  split
  · rfl
  · split
    · rfl
    · dsimp only
      split <;> rfl

theorem movePass_records (c : Scene) (d : Direction) (x : Pass) (kind : PassKind) (m : Moved)
    (hm : c.movePass d x kind = some m) : m.scene.trk.records = c.trk.records := by
  unfold Scene.movePass at hm
  dsimp only at hm
  cases kind with
  | forwardEntry =>
    simp only [Option.some.injEq] at hm
    subst hm
    unfold Scene.enter
    split
    · unfold Scene.reenter
      dsimp only
      split <;> rfl
    · rfl
  | backwardEntry =>
    simp only [Scene.backOut, Option.map_eq_some_iff] at hm
    obtain ⟨r, -, rfl⟩ := hm
    exact discardBottom_records c
  | forwardMiddle k =>
    simp only [Scene.moveForward, Option.map_eq_some_iff] at hm
    obtain ⟨r, -, rfl⟩ := hm
    unfold Scene.placeRecord
    dsimp only
    split <;> rfl
  | backwardMiddle k =>
    simp only [Scene.moveBackward, Option.map_eq_some_iff] at hm
    obtain ⟨r, -, rfl⟩ := hm
    unfold Scene.placeRecord
    dsimp only
    split <;> rfl
  | forwardExit =>
    simp only [Scene.depart, Option.map_eq_some_iff] at hm
    obtain ⟨r, -, rfl⟩ := hm
    dsimp only
    split <;> rfl
  | backwardExit =>
    dsimp only at hm
    unfold Scene.ghostReturn at hm
    split at hm
    · exact absurd hm (by simp)
    · simp only [Option.some.injEq] at hm
      subst hm
      rfl

theorem moveAndRecord_records (c : Scene) (d : Direction) (x : Pass) (kind : PassKind) :
    (c.moveAndRecord d x kind).trk.records = c.trk.records := by
  unfold Scene.moveAndRecord
  split
  · rfl
  · rename_i m hm
    rw [foldl_keeps (fun c : Scene => c.trk.records) _
      (fun c (s : Nat × Sign) => recordStep_records c m.entry x.speed s.1 s.2)]
    exact movePass_records c d x kind m hm

theorem nextMode_records (c : Scene) (kind : PassKind) : (c.nextMode kind).trk.records = c.trk.records := by
  unfold Scene.nextMode
  split
  · rfl
  · split
    · split <;> rfl
    · rfl

/-- A boundary pass keeps the accounts (R91). -/
theorem balanced_handPass {c : Scene} (d : Direction) (x : Pass) (k : Nat) (h : c.trk.Balanced)
    (hc : c.trk.context.isSome = true) : (c.handPass d x k).trk.Balanced := by
  unfold Scene.handPass
  extract_lets kind
  split
  · exact balanced_closePassage _ h h.1 hc
  · rename_i ho
    have hf := fair_processPass (c := c) d x kind h.1 (fun e => by
      cases hv : c.trk.axles.overflows with
      | false => rfl
      | true => exact absurd ⟨e, hv⟩ ho)
    refine ⟨fair_of_ledger (nextMode_ledger _ _) hf, ?_⟩
    rw [nextMode_records, processPass_eq, moveAndRecord_records]
    exact closes_of_queues (queues_turnWindows c d kind) h.2

theorem openPassage_context (c : Scene) (x : Pass) (cause : OpenCause) :
    (c.openPassage x cause).trk.context
        = some (Passage.opened (nextPassageNumber c.trk.passageNumber) x.direction cause x.time
            c.trk.records.requestPlace.2 c.trk.unzeroed)
      ∧ (c.openPassage x cause).trk.axles = c.trk.axles
      ∧ (c.openPassage x cause).trk.records = c.trk.records.requestPlace.1 := by
  unfold Scene.openPassage
  extract_lets fromIdle c1 c2 c3
  have g : c3.trk.context = some (Passage.opened (nextPassageNumber c.trk.passageNumber) x.direction cause x.time
            c.trk.records.requestPlace.2 c.trk.unzeroed)
      ∧ c3.trk.axles = c.trk.axles ∧ c3.trk.records = c.trk.records.requestPlace.1 := by
    by_cases hi : c.trk.mode = .idle
    · have e1 : c1 = c.openWindows := if_pos hi
      show c2.trk.context = _ ∧ c2.trk.axles = _ ∧ c2.trk.records = _
      simp only [c2, e1]
      exact ⟨rfl, rfl, rfl⟩
    · have e1 : c1 = c := if_neg hi
      show c2.trk.context = _ ∧ c2.trk.axles = _ ∧ c2.trk.records = _
      simp only [c2, e1]
      exact ⟨rfl, rfl, rfl⟩
  split
  · rw [zeroLeavesIdle_trk]; exact g
  · exact g

theorem requestPlace_queue (q : RecordQueue) : q.requestPlace.1.queue = q.queue := by
  unfold RecordQueue.requestPlace; split <;> rfl

theorem balanced_openPassage {c : Scene} (x : Pass) (cause : OpenCause) (h : c.trk.Balanced) (ht : c.trk.axles = .empty) :
    (c.openPassage x cause).trk.Balanced := by
  obtain ⟨a, b, d⟩ := openPassage_context c x cause
  refine ⟨fun p hp => ?_, by rw [d, requestPlace_queue]; exact h.2⟩
  rw [a] at hp
  simp only [Option.some.injEq] at hp
  subst hp
  rw [b, ht]
  exact ⟨rfl, by decide, rfl, rfl⟩

/-- A pass keeps the accounts (R91). -/
theorem balanced_takePass {c : Scene} (x : Pass) (h : c.trk.Balanced) (ht : c.trk.TablesEmpty) :
    (c.takePass x).trk.Balanced := by
  have opening : ∀ k cause, c.trk.mode.inPassage = false →
      ((c.openPassage x cause).handPass x.direction x k).trk.Balanced := by
    intro k cause hm
    refine balanced_handPass _ _ _ (balanced_openPassage x cause h (ht hm).1) ?_
    rw [(openPassage_context c x cause).1]; rfl
  unfold Scene.takePass
  split
  · exact h
  · rename_i hm
    split
    · split
      · unfold Scene.enterApproach
        rw [zeroLeavesIdle_trk]
        exact h
      · exact h
    · split
      · exact opening _ _ (by rw [hm]; rfl)
      · exact h
  · rename_i hm
    split
    · exact h
    · split
      · exact opening _ _ (by rw [hm]; rfl)
      · exact h
  · split
    · rename_i k p hb hcx
      exact balanced_handPass _ _ _ h (by rw [hcx]; rfl)
    · exact h

theorem balanced_takeEdge {c : Scene} (p : PointCode) (h : Head) (l : Level) (hb : c.trk.Balanced)
    (ht : c.trk.TablesEmpty) : (c.takeEdge p h l).trk.Balanced := by
  unfold Scene.takeEdge
  split
  · exact hb
  · split
    · exact hb
    · exact balanced_takePass _ hb ht

/-- Only the context, the tables and the records carry the accounts. -/
theorem balanced_of_eq {k k' : TrackState} (h : k.Balanced) (h1 : k'.context = k.context) (h2 : k'.axles = k.axles)
    (h3 : k'.records = k.records) : k'.Balanced := by
  unfold TrackState.Balanced at *
  rw [h1, h2, h3]; exact h

theorem balanced_pointFault {c : Scene} (p : PointCode) (hb : c.trk.Balanced) : (c.pointFault p).trk.Balanced := by
  refine ⟨fair_of_ledger (c := c) ?_ hb.1, hb.2⟩
  exact (ledger_modFlags (c.modTrk fun k => { k with points := k.points.set p (k.points.get p).fault })
    (fun f => { f with pointFault := true }) fun _ => ⟨rfl, rfl⟩).trans rfl

theorem balanced_disable {c : Scene} (hb : c.trk.Balanced) (hc : c.trk.Coherent) : c.disable.trk.Balanced := by
  unfold Scene.disable
  split
  · exact hb
  · unfold Scene.enterDisabled
    rw [zeroDisabled_trk]
    exact hb
  · unfold Scene.enterDisabled
    rw [zeroDisabled_trk]
    exact hb
  · refine balanced_closePassage _ hb hb.1 ?_
    rw [hc.2.2.2.1]
    cases e : c.trk.mode <;> first | rfl | exact absurd e (by assumption)

/-- What opening a passage keeps and sets beside its context, its table and its records (R47, R48). -/
theorem openPassage_rest (c : Scene) (x : Pass) (cause : OpenCause) :
    (c.openPassage x cause).trk.config = c.trk.config
    ∧ (c.openPassage x cause).trk.calibration = c.trk.calibration
    ∧ (c.openPassage x cause).trk.falseApproaches = c.trk.falseApproaches
    ∧ (c.openPassage x cause).trk.sequence = c.trk.sequence
    ∧ (c.openPassage x cause).trk.mode = .crossing ∧ (c.openPassage x cause).trk.nextWagon = 1
    ∧ (c.openPassage x cause).trk.expected = none
    ∧ (c.openPassage x cause).trk.epoch = c.trk.epoch
    ∧ (c.openPassage x cause).trk.passageNumber = nextPassageNumber c.trk.passageNumber
    ∧ (c.openPassage x cause).sh.time = c.sh.time := by
  unfold Scene.openPassage
  extract_lets fromIdle c1 c2 c3
  have h1 : c1.trk = { c.trk with platforms := c1.trk.platforms } ∧ c1.sh = c.sh := by
    simp only [c1]; split
    · exact ⟨rfl, rfl⟩
    · exact ⟨rfl, rfl⟩
  obtain ⟨h1, hs⟩ := h1
  have h3 : c3.trk = { c.trk with
      platforms := c3.trk.platforms, passageNumber := c3.trk.passageNumber, context := c3.trk.context,
      records := c3.trk.records, expected := none, mode := .crossing, nextWagon := 1, timer := c3.trk.timer } := by
    simp only [c3, c2, Scene.startTimer, Scene.modTrk]
    rw [h1]
  have hn : c3.trk.passageNumber = nextPassageNumber c.trk.passageNumber := by
    show nextPassageNumber c1.trk.passageNumber = _; rw [h1]
  have ht : c3.sh = c.sh := hs
  split
  · rw [zeroLeavesIdle_trk, (zeroLeavesIdle_sh c3).1]
    dsimp only
    rw [hn, ht, h3]
    exact ⟨rfl, rfl, rfl, rfl, rfl, rfl, rfl, rfl, rfl, rfl⟩
  · rw [hn, ht, h3]
    exact ⟨rfl, rfl, rfl, rfl, rfl, rfl, rfl, rfl, rfl, rfl⟩

theorem closeWindow_nextWagon (c : Scene) (p : Nat) : (c.closeWindow p).trk.nextWagon = c.trk.nextWagon
      ∧ (c.closeWindow p).trk.axles.awaiting = c.trk.axles.awaiting := by
  unfold Scene.closeWindow
  split
  · exact ⟨rfl, rfl⟩
  · dsimp only
    split
    · exact ⟨rfl, rfl⟩
    · unfold Scene.takeStep; split <;> exact ⟨rfl, rfl⟩

theorem recordStep_nextWagon (c : Scene) (e : Entry) (v : Option Nat) (p : Nat) (g : Sign) :
    (c.recordStep e v p g).trk.nextWagon = c.trk.nextWagon
      ∧ (c.recordStep e v p g).trk.passageNumber = c.trk.passageNumber := by
  unfold Scene.recordStep
  split
  · exact ⟨rfl, rfl⟩
  · dsimp only
    split <;> exact ⟨rfl, rfl⟩

end Sys2Proof.Machine
end

