-- ==== Sys2Proof/Laws/Closes.lean ====
section
/-!
SUPPORT. Laws/Closes.lean: what a close does beside its track: to NOTICE and the watch units, to the capture unit, to the zero engine, and the
drift it finds (R56, R109, R143 to R147, R155, R160).
-/
namespace Sys2Proof.Machine

/-! ### What the watch units do to the shared blocks -/

/-- What evaluations of wagons of track t do to the shared blocks (R155): NOTICE gains ALERT at most, disabled units do nothing, and an ARMED
capture unit may start a recording triggered by t. -/
structure Shared.Evaluated (t : Track) (h h' : Shared) : Prop where
  counters : h'.counters = h.counters
  notice : h'.notice = h.notice ∨ h'.notice = h.notice ||| 0x04#6
  disabled : (∀ u ∈ h.watch.toList, u.enabled = false) → h'.watch = h.watch ∧ h'.notice = h.notice
  notArmed : h.capture.state ≠ .armed → h'.capture = h.capture
  armed : h.capture.state = .armed →
    h'.capture = h.capture
      ∨ ∃ scope passage number,
          h'.capture
            = { h.capture with
                state := .recording
                triggerTrack := t
                scope := scope
                triggerPassage := passage
                triggerWagon := number
                written := 0
                taking := true }

theorem Shared.Evaluated.refl (t : Track) (h : Shared) : h.Evaluated t h :=
  ⟨rfl, .inl rfl, fun _ => ⟨rfl, rfl⟩, fun _ => rfl, fun _ => .inl rfl⟩

theorem alert_twice (n : BitVec 6) : n ||| 0x04#6 ||| 0x04#6 = n ||| 0x04#6 := by
  rw [BitVec.or_assoc, BitVec.or_self]

theorem alert_bit (n : BitVec 6) : (n ||| 0x04#6).getLsbD 2 = true := by
  rw [BitVec.getLsbD_or, show (0x04#6).getLsbD 2 = true from rfl, Bool.or_true]

theorem Shared.Evaluated.trans {t : Track} {a b c : Shared} (h : a.Evaluated t b) (g : b.Evaluated t c) : a.Evaluated t c where
  counters := g.counters.trans h.counters
  notice := by
    rcases h.notice with e | e <;> rcases g.notice with f | f <;> rw [f, e]
    · exact .inl rfl
    · exact .inr rfl
    · exact .inr rfl
    · exact .inr (alert_twice _)
  disabled := fun hd => by
    obtain ⟨e1, e2⟩ := h.disabled hd
    obtain ⟨f1, f2⟩ := g.disabled (by rw [e1]; exact hd)
    exact ⟨f1.trans e1, f2.trans e2⟩
  notArmed := fun hs => by
    have e := h.notArmed hs
    rw [g.notArmed (by rw [e]; exact hs), e]
  armed := fun hs => by
    rcases h.armed hs with e | ⟨x, y, z, e⟩
    · rcases g.armed (by rw [e]; exact hs) with f | ⟨x, y, z, f⟩
      · exact .inl (f.trans e)
      · rw [e] at f; exact .inr ⟨x, y, z, f⟩
    · have hb : b.capture.state ≠ .armed := by rw [e]; simp
      exact .inr ⟨x, y, z, (g.notArmed hb).trans e⟩

theorem Four.mem_toList_get {α : Type} (x : Four α) (i : Nat) : x.get i ∈ x.toList := by
  rcases i with _ | _ | _ | _ | i <;> simp [Four.get, Four.toList]

theorem evaluated_unit (v : Evaluation) (i : Nat) : v.sh.Evaluated v.wagon.track (v.unit i).sh := by
  unfold Evaluation.unit
  extract_lets u
  split
  · rename_i hit
    have he : ¬ ∀ y ∈ v.sh.watch.toList, y.enabled = false := fun hd => by
      have h := hd u (Four.mem_toList_get _ _)
      unfold WatchUnit.hits at hit
      rw [h] at hit
      exact absurd hit (by simp)
    unfold Evaluation.act
    split
    · exact ⟨rfl, .inr rfl, fun hd => absurd hd he, fun _ => rfl, fun _ => .inl rfl⟩
    · split
      · exact ⟨rfl, .inl rfl, fun hd => absurd hd he, fun _ => rfl, fun _ => .inl rfl⟩
      · split
        · rename_i ha
          exact ⟨rfl, .inl rfl, fun hd => absurd hd he, fun hn => absurd ha hn, fun _ => .inr ⟨_, _, _, rfl⟩⟩
        · exact ⟨rfl, .inl rfl, fun hd => absurd hd he, fun _ => rfl, fun _ => .inl rfl⟩
  · exact .refl _ _

theorem evaluated_evaluate (h : Shared) (w : Wagon) : h.Evaluated w.track (h.evaluate w).sh := by
  have key : ∀ (l : List Nat) (v : Evaluation), v.sh.Evaluated v.wagon.track (l.foldl Evaluation.unit v).sh := by
    intro l
    induction l with
    | nil => exact fun v => .refl _ _
    | cons i l ih =>
      intro v
      have h := ih (v.unit i)
      rw [(evaluation_unit_wagon v i).1] at h
      exact (evaluated_unit v i).trans h
  exact key [0, 1, 2, 3] ⟨w, h, false⟩

/-! ### Through the steps of the close -/

theorem sh_offerWagon (c : Scene) (w : Wagon) : (c.offerWagon w).sh = c.sh := by
  unfold Scene.offerWagon
  split
  · split <;> rfl
  · rfl

theorem evaluated_formNext (c : Scene) (flush : Bool) : c.sh.Evaluated c.id (c.formNext flush).sh := by
  unfold Scene.formNext
  extract_lets index entry n w c1
  unfold Scene.handOn Scene.watchAndOffer
  extract_lets v
  rw [sh_offerWagon]
  exact evaluated_evaluate c.sh w

theorem evaluated_groupTurns : ∀ (n : Nat) (c : Scene), c.sh.Evaluated c.id (groupTurns n c).sh
  | 0, c => .refl _ _
  | n + 1, c => by
    unfold groupTurns
    split
    · exact .refl _ _
    · have h := evaluated_groupTurns n (c.formNext false)
      rw [show (c.formNext false).id = c.id from congrArg Control.id (control_formNext c false)] at h
      exact (evaluated_formNext c false).trans h

theorem evaluated_flushTurns : ∀ (n : Nat) (c : Scene), c.sh.Evaluated c.id (flushTurns n c).sh
  | 0, c => .refl _ _
  | n + 1, c => by
    unfold flushTurns
    split
    · exact .refl _ _
    · have h := evaluated_flushTurns n (c.formNext true)
      rw [show (c.formNext true).id = c.id from congrArg Control.id (control_formNext c true)] at h
      exact (evaluated_formNext c true).trans h

theorem evaluated_finalizeAxle (c : Scene) (n : Nat) : c.sh.Evaluated c.id (c.finalizeAxle n).sh := by
  simp only [Scene.finalizeAxle]
  split
  · exact .refl _ _
  · rename_i r h
    exact evaluated_groupTurns _ (((c.modAxles _).modTrk _ : Scene))

theorem evaluated_finalizeAll (c : Scene) : c.sh.Evaluated c.id c.finalizeAll.sh := by
  have key : ∀ (l : List Nat) (c : Scene), c.sh.Evaluated c.id (l.foldl Scene.finalizeAxle c).sh := by
    intro l
    induction l with
    | nil => exact fun c => .refl _ _
    | cons i l ih =>
      intro c
      have h := ih (c.finalizeAxle i)
      rw [show (c.finalizeAxle i).id = c.id from congrArg Control.id (control_finalizeAxle c i)] at h
      exact (evaluated_finalizeAxle c i).trans h
  exact key _ c

theorem sh_takeStep (c : Scene) (p : Nat) (st : PendingStep) (x : WindowStats) : (c.takeStep p st x).sh = c.sh := by
  unfold Scene.takeStep; split <;> rfl

theorem sh_closeWindow (c : Scene) (p : Nat) : (c.closeWindow p).sh = c.sh := by
  unfold Scene.closeWindow
  split
  · rfl
  · dsimp only
    split
    · rfl
    · rw [sh_takeStep]; rfl

theorem sh_closeAllWindows (c : Scene) : c.closeAllWindows.sh = c.sh :=
  foldl_keeps (fun c : Scene => c.sh) _ sh_closeWindow _ c

/-! ### The flag DRIFT and the close place through the steps of the close -/

/-- The passage flag DRIFT and the close place of the open passage. -/
def Scene.driftMark (c : Scene) : Option (Bool × ClosePlace) := c.trk.context.map fun p => (p.flags.drift, p.place)

theorem driftMark_modPassage (c : Scene) (f : Passage → Passage)
    (h : ∀ p, (f p).flags.drift = p.flags.drift ∧ (f p).place = p.place) : (c.modPassage f).driftMark = c.driftMark := by
  unfold Scene.driftMark
  show (c.trk.context.map f).map _ = _
  rw [Option.map_map]
  cases c.trk.context with
  | none => rfl
  | some p => simp [h p]

theorem driftMark_takeStep (c : Scene) (p : Nat) (st : PendingStep) (x : WindowStats) :
    (c.takeStep p st x).driftMark = c.driftMark := by
  unfold Scene.takeStep; split <;> rfl

theorem driftMark_closeWindow (c : Scene) (p : Nat) : (c.closeWindow p).driftMark = c.driftMark := by
  unfold Scene.closeWindow
  split
  · rfl
  · dsimp only
    split
    · exact driftMark_modPassage _ _ fun _ => ⟨rfl, rfl⟩
    · rw [driftMark_takeStep]
      exact driftMark_modPassage _ _ fun _ => ⟨rfl, rfl⟩

theorem driftMark_offerWagon (c : Scene) (w : Wagon) : (c.offerWagon w).driftMark = c.driftMark := by
  unfold Scene.offerWagon
  split
  · split
    · rfl
    · exact driftMark_modPassage _ _ fun _ => ⟨rfl, rfl⟩
  · rfl

theorem driftMark_formNext (c : Scene) (flush : Bool) : (c.formNext flush).driftMark = c.driftMark := by
  simp only [Scene.formNext, Scene.handOn, Scene.watchAndOffer]
  rw [driftMark_offerWagon]
  exact driftMark_modPassage (c.modTrk _) _ fun _ => ⟨rfl, rfl⟩

theorem driftMark_groupTurns : ∀ (n : Nat) (c : Scene), (groupTurns n c).driftMark = c.driftMark
  | 0, _ => rfl
  | n + 1, c => by
    unfold groupTurns
    split
    · rfl
    · rw [driftMark_groupTurns n, driftMark_formNext]

theorem driftMark_flushTurns : ∀ (n : Nat) (c : Scene), (flushTurns n c).driftMark = c.driftMark
  | 0, _ => rfl
  | n + 1, c => by
    unfold flushTurns
    split
    · rfl
    · rw [driftMark_flushTurns n, driftMark_formNext]

theorem driftMark_finalizeAxle (c : Scene) (n : Nat) : (c.finalizeAxle n).driftMark = c.driftMark := by
  simp only [Scene.finalizeAxle]
  split
  · rfl
  · rw [Scene.groupLoop, driftMark_groupTurns]; rfl

theorem driftMark_disposeAxles (c : Scene) : c.disposeAxles.driftMark = c.driftMark :=
  driftMark_modPassage (c.modAxles _) _ fun _ => ⟨rfl, rfl⟩

/-! ### The windows a close closes, and the drift it finds -/

theorem occupants_closeWindow (c : Scene) (p q : Nat) : (c.closeWindow p).trk.occupants q = c.trk.occupants q := by
  unfold TrackState.occupants
  have e : (c.closeWindow p).trk.axles.lists.onBridge = c.trk.axles.lists.onBridge :=
    congrArg AxleTable.onBridge (lists_closeWindow c p)
  rw [show (c.closeWindow p).trk.axles.onBridge = c.trk.axles.onBridge from e]

/-- The platforms after the windows of a list of distinct platforms have closed. -/
theorem platforms_closeWindows : ∀ (l : List Nat) (c : Scene), l.Nodup → (∀ q ∈ l, 1 ≤ q ∧ q ≤ 4) →
    ∀ q, 1 ≤ q → q ≤ 4 →
      (l.foldl Scene.closeWindow c).trk.platforms.get q
        = if q ∈ l then
            match (c.trk.platforms.get q).window with
            | none => c.trk.platforms.get q
            | some w => ⟨none, some (w.stats (c.trk.occupants q).isEmpty c.other), none⟩
          else c.trk.platforms.get q
  | [], _, _, _, _, _, _ => by simp
  | r :: l, c, hn, hl, q, h1, h4 => by
    rw [List.nodup_cons] at hn
    obtain ⟨r1, r4⟩ := hl r (by simp)
    rw [List.foldl_cons, platforms_closeWindows l _ hn.2 (fun q hq => hl q (by simp [hq])) q h1 h4, occupants_closeWindow,
      show (c.closeWindow r).other = c.other from congrArg Control.other (control_closeWindow c r)]
    by_cases e : q = r
    · subst e
      rw [if_neg hn.1, if_pos (by simp), platforms_closeWindow]
      cases (c.trk.platforms.get q).window with
      | none => rfl
      | some w => exact Four.get_set_same _ _ _
    · have hg : (c.closeWindow r).trk.platforms.get q = c.trk.platforms.get q := by
        rw [platforms_closeWindow]
        split
        · rfl
        · exact Four.get_set_ne _ _ (Ne.symm e) ⟨r1, r4⟩ ⟨h1, h4⟩
      rw [hg]
      simp [e]

/-- The platforms after steps 1 and 2 of a close: every platform 1 to P with a window has its statistics (R32, R56). -/
theorem platforms_closeAllWindows (c : Scene) (q : Nat) (h1 : 1 ≤ q) (h4 : q ≤ 4) :
    c.closeAllWindows.trk.platforms.get q
      = if q ≤ c.trk.config.platforms then
          match (c.trk.platforms.get q).window with
          | none => c.trk.platforms.get q
          | some w => ⟨none, some (w.stats (c.trk.occupants q).isEmpty c.other), none⟩
        else c.trk.platforms.get q := by
  unfold Scene.closeAllWindows
  have range : ∀ r ∈ [1, 2, 3, 4].filter fun p => decide (p ≤ c.trk.config.platforms), 1 ≤ r ∧ r ≤ 4 := by
    intro r hr
    simp only [List.mem_filter, List.mem_cons, List.not_mem_nil, or_false] at hr
    omega
  rw [platforms_closeWindows _ c (List.Pairwise.filter _ (by decide)) range q h1 h4]
  have hq : q ∈ ([1, 2, 3, 4].filter fun p => decide (p ≤ c.trk.config.platforms)) ↔ q ≤ c.trk.config.platforms := by
    simp only [List.mem_filter, List.mem_cons, List.not_mem_nil, or_false, decide_eq_true_eq]
    omega
  by_cases e : q ≤ c.trk.config.platforms
  · rw [if_pos (hq.2 e), if_pos e]
  · rw [if_neg (fun h => e (hq.1 h)), if_neg e]

theorem occupants_empty (k : TrackState) (p : Nat) :
    (k.occupants p).isEmpty = true ↔ ∀ e ∈ k.axles.onBridge, e.platform ≠ p := by
  unfold TrackState.occupants
  rw [List.isEmpty_iff, List.filter_eq_nil_iff]
  simp

/-- The channel test of the drift check on the statistics of a closing window (R109). -/
theorem channelDrifted_stats (limit least : Nat) (w : Window) (empty : Bool) (other : Occupancy) (sum : Int) (ch : Channel) :
    channelDrifted limit least (w.stats empty other) (if w.sampleCount = 0 then none else some (roundDiv sum w.sampleCount)) ch = true
      ↔ empty = true ∧ 0 < w.sampleCount ∧ least ≤ w.sampleCount ∧ w.saturated = false ∧ w.gapped = false
        ∧ w.snapshotOccupied = false ∧ other.occupied = false ∧ other.epoch = w.snapshotEpoch
        ∧ ch.DriftsFrom limit sum w.sampleCount := by
  unfold channelDrifted Channel.DriftsFrom
  by_cases hc : w.sampleCount = 0
  · simp [hc]
  · have hp : 0 < w.sampleCount := by omega
    simp only [if_neg hc, Window.stats, Window.crosstalk, Bool.and_eq_true, decide_eq_true_eq, Bool.not_eq_true', Bool.or_eq_false_iff,
      bne_eq_false_iff_eq, hp, true_and]
    constructor
    · rintro ⟨⟨⟨⟨⟨⟨a, b⟩, d⟩, e⟩, f⟩, ⟨g, h⟩, i⟩, j⟩
      exact ⟨b, d, e, f, g, h, i, a, j⟩
    · rintro ⟨b, d, e, f, g, h, i, a, j⟩
      exact ⟨⟨⟨⟨⟨⟨a, b⟩, d⟩, e⟩, f⟩, ⟨g, h⟩, i⟩, j⟩

/-- The drift check, made on a track whose platforms are as steps 1 and 2 of a close leave them, finds a drift exactly when the closing windows
show one (R109). -/
theorem drifts_iff {c d : Scene} (hw : AllOpen c.trk.config.platforms c.trk.platforms) (hk : d.trk.config = c.trk.config)
    (hcal : d.trk.calibration = c.trk.calibration) (ho : d.sh.options = c.sh.options)
    (hp : d.trk.platforms = c.closeAllWindows.trk.platforms) :
    (d.sh.options.driftLimit ≠ 0 ∧ [1, 2, 3, 4].any (platformDrifted d.trk d.sh.options.driftLimit) = true)
      ↔ c.trk.Drifts c.other c.sh.options.driftLimit := by
  rw [ho]
  unfold TrackState.Drifts
  refine and_congr Iff.rfl ?_
  have one : ∀ q, 1 ≤ q → q ≤ 4 →
      (platformDrifted d.trk c.sh.options.driftLimit q = true ↔
        ∃ w, q ≤ c.trk.config.platforms ∧ (c.trk.platforms.get q).window = some w
          ∧ (∀ e ∈ c.trk.axles.onBridge, e.platform ≠ q)
          ∧ 0 < w.sampleCount ∧ c.trk.config.minWindowSamples ≤ w.sampleCount
          ∧ w.saturated = false ∧ w.gapped = false
          ∧ w.snapshotOccupied = false ∧ c.other.occupied = false ∧ c.other.epoch = w.snapshotEpoch
          ∧ ((c.trk.calibration.get q).left.DriftsFrom c.sh.options.driftLimit w.sum.left w.sampleCount
            ∨ (c.trk.calibration.get q).right.DriftsFrom c.sh.options.driftLimit w.sum.right w.sampleCount)) := by
    intro q h1 h4
    unfold platformDrifted
    rw [hp, hk, hcal, platforms_closeAllWindows c q h1 h4]
    by_cases hq : q ≤ c.trk.config.platforms
    · obtain ⟨w, hwin⟩ := Option.isSome_iff_exists.1 ((hw q h1 h4).1.trans (by simp [hq]))
      rw [if_pos hq, hwin]
      dsimp only
      rw [Bool.and_eq_true, Bool.or_eq_true, decide_eq_true_eq]
      have sides := fun (sum : Int) (ch : Channel) =>
        channelDrifted_stats c.sh.options.driftLimit c.trk.config.minWindowSamples w (c.trk.occupants q).isEmpty c.other sum ch
      rw [show (w.stats (c.trk.occupants q).isEmpty c.other).mean.left
          = if w.sampleCount = 0 then none else some (roundDiv w.sum.left w.sampleCount) from rfl,
        show (w.stats (c.trk.occupants q).isEmpty c.other).mean.right
          = if w.sampleCount = 0 then none else some (roundDiv w.sum.right w.sampleCount) from rfl,
        sides, sides, occupants_empty]
      constructor
      · rintro ⟨-, ⟨a, b, e, f, g, h, i, j, k⟩ | ⟨a, b, e, f, g, h, i, j, k⟩⟩
        · exact ⟨w, hq, rfl, a, b, e, f, g, h, i, j, .inl k⟩
        · exact ⟨w, hq, rfl, a, b, e, f, g, h, i, j, .inr k⟩
      · rintro ⟨w', -, hw', a, b, e, f, g, h, i, j, k⟩
        cases hw'
        rcases k with k | k
        · exact ⟨hq, .inl ⟨a, b, e, f, g, h, i, j, k⟩⟩
        · exact ⟨hq, .inr ⟨a, b, e, f, g, h, i, j, k⟩⟩
    · constructor
      · intro h
        rw [if_neg hq] at h
        split at h
        · exact absurd h (by simp)
        · simp [hq] at h
      · rintro ⟨w, h, -⟩
        exact absurd h hq
  rw [List.any_eq_true]
  constructor
  · rintro ⟨q, hq, h⟩
    have hr : 1 ≤ q ∧ q ≤ 4 := by
      simp only [List.mem_cons, List.not_mem_nil, or_false] at hq
      omega
    obtain ⟨w, a⟩ := (one q hr.1 hr.2).1 h
    exact ⟨q, w, hr.1, hr.2, a⟩
  · rintro ⟨q, w, h1, h4, a⟩
    refine ⟨q, ?_, (one q h1 h4).2 ⟨w, a⟩⟩
    simp only [List.mem_cons, List.not_mem_nil, or_false]
    omega

/-! ### Steps 1 to 8 -/

/-- What steps 1 to 8 of a close do to the shared blocks, and the DRIFT flag of the close record (R56, R109, R155, R160). -/
structure Scene.Step8 (c : Scene) (p : Passage) (d : Scene) : Prop where
  counters : d.sh.counters = c.sh.counters
  notice : d.sh.notice = c.sh.notice ∨ d.sh.notice = c.sh.notice ||| 0x04#6
  alert : c.trk.Drifts c.other c.sh.options.driftLimit → d.sh.notice.getLsbD 2 = true
  disabled : (∀ u ∈ c.sh.watch.toList, u.enabled = false) →
    d.sh.watch = c.sh.watch ∧ (¬ c.trk.Drifts c.other c.sh.options.driftLimit → d.sh.notice = c.sh.notice)
  capture : c.ClosedCapture d.sh
  record : p.place = .reserved →
    ∃ earlier x, d.trk.records.queue = earlier ++ [.close x]
      ∧ (x.passage.flags.drift = true ↔ p.flags.drift = true ∨ c.trk.Drifts c.other c.sh.options.driftLimit)

/-- The end of a recording by the close of its trigger track (R160). -/
theorem closedCapture_of_evaluated {c : Scene} {h : Shared} (e : c.sh.Evaluated c.id h) :
    c.ClosedCapture (h.modCapture (·.closeOf c.id)) := by
  constructor
  · intro hn
    show h.capture.closeOf c.id = _
    rw [e.notArmed hn]
    rfl
  · intro ha
    show h.capture.closeOf c.id = _ ∨ ∃ scope passage number, h.capture.closeOf c.id = _
    rcases e.armed ha with f | ⟨x, y, z, f⟩
    · left
      rw [f]
      unfold CaptureUnit.closeOf
      rw [if_neg]
      rintro ⟨g, -⟩
      rw [ha] at g
      exact absurd g (by simp)
    · right
      refine ⟨x, y, z, ?_⟩
      rw [f]
      unfold CaptureUnit.closeOf
      rw [if_pos ⟨rfl, rfl⟩]
      rfl

theorem closeToStep8_effects {c : Scene} (r : CloseReason) {p : Passage} (hp : c.trk.context = some p)
    (hw : AllOpen c.trk.config.platforms c.trk.platforms) : c.Step8 p (c.closeToStep8 r) := by
  have hb : (c.beginClose r).driftMark = c.driftMark :=
    driftMark_modPassage (c.modTrk fun k => { k with timer := none }) _ fun _ => ⟨rfl, rfl⟩
  have hd : ((c.beginClose r).closeAllWindows.finalizeAll.disposeAxles.closeFlush).driftMark = some (p.flags.drift, p.place) := by
    have e : c.driftMark = some (p.flags.drift, p.place) := by
      unfold Scene.driftMark
      rw [hp]; rfl
    have f : (c.beginClose r).closeAllWindows.driftMark = c.driftMark :=
      (foldl_keeps Scene.driftMark _ driftMark_closeWindow _ _).trans hb
    have g : (c.beginClose r).closeAllWindows.finalizeAll.driftMark = c.driftMark :=
      (foldl_keeps Scene.driftMark _ driftMark_finalizeAxle _ _).trans f
    rw [Scene.closeFlush, driftMark_flushTurns, driftMark_disposeAxles, g, e]
  have hs : c.sh.Evaluated c.id ((c.beginClose r).closeAllWindows.finalizeAll.disposeAxles.closeFlush).sh := by
    have e1 : (c.beginClose r).closeAllWindows.sh = c.sh := sh_closeAllWindows _
    have i1 : (c.beginClose r).closeAllWindows.id = c.id := congrArg Control.id (control_closeAllWindows _)
    have i2 : (c.beginClose r).closeAllWindows.finalizeAll.disposeAxles.id = c.id := by
      have := congrArg Control.id (control_finalizeAll (c.beginClose r).closeAllWindows)
      exact this.trans i1
    have a := evaluated_finalizeAll (c.beginClose r).closeAllWindows
    rw [e1, i1] at a
    have b := evaluated_flushTurns ((c.beginClose r).closeAllWindows.finalizeAll.disposeAxles).trk.group.length
      ((c.beginClose r).closeAllWindows.finalizeAll.disposeAxles)
    rw [i2] at b
    exact a.trans b
  have hx : ((c.beginClose r).closeAllWindows.finalizeAll.disposeAxles.closeFlush).control = { c.control with timer := none } := by
    rw [control_closeFlush, control_disposeAxles, control_finalizeAll, control_closeAllWindows, control_beginClose]
  have hpl : ((c.beginClose r).closeAllWindows.finalizeAll.disposeAxles.closeFlush).trk.platforms
      = (c.beginClose r).closeAllWindows.trk.platforms := by
    rw [platforms_closeFlush, platforms_disposeAxles, platforms_finalizeAll]
  have hdrift := drifts_iff (c := c.beginClose r) (d := (c.beginClose r).closeAllWindows.finalizeAll.disposeAxles.closeFlush) hw
    (congrArg Control.config hx) (congrArg Control.calibration hx) (congrArg Control.options hx) hpl
  have hdrift : _ ↔ c.trk.Drifts c.other c.sh.options.driftLimit := hdrift
  have hid : ((c.beginClose r).closeAllWindows.finalizeAll.disposeAxles.closeFlush).id = c.id := congrArg Control.id hx
  unfold Scene.closeToStep8
  extract_lets c1 c2
  have hc2 : c2 = ((c.beginClose r).closeAllWindows.finalizeAll.disposeAxles.closeFlush).checkDrift.queueCloseRecord := rfl
  revert hd hs hdrift hid hc2
  generalize (c.beginClose r).closeAllWindows.finalizeAll.disposeAxles.closeFlush = d
  intro hd hs hdrift hid hc2
  obtain ⟨p', hp', hm⟩ := Option.map_eq_some_iff.1 hd
  injection hm with hm1 hm2
  -- the shared blocks and the passage context after the drift check
  have key : ∃ flag : Bool,
      (flag = true ↔ p.flags.drift = true ∨ c.trk.Drifts c.other c.sh.options.driftLimit)
        ∧ d.checkDrift.trk.context = some { p' with flags := { p'.flags with drift := flag } }
        ∧ d.checkDrift.sh.counters = d.sh.counters ∧ d.checkDrift.sh.capture = d.sh.capture ∧ d.checkDrift.sh.watch = d.sh.watch
        ∧ (c.trk.Drifts c.other c.sh.options.driftLimit → d.checkDrift.sh.notice = d.sh.notice ||| 0x04#6)
        ∧ (¬ c.trk.Drifts c.other c.sh.options.driftLimit → d.checkDrift.sh.notice = d.sh.notice) := by
    unfold Scene.checkDrift
    split
    · rename_i h
      have h := hdrift.1 h
      refine ⟨true, by simp [h], ?_, rfl, rfl, rfl, fun _ => rfl, fun hn => absurd h hn⟩
      show d.trk.context.map _ = _
      rw [hp']; rfl
    · rename_i h
      have h : ¬ c.trk.Drifts c.other c.sh.options.driftLimit := fun g => h (hdrift.2 g)
      refine ⟨p.flags.drift, by simp [h], ?_, rfl, rfl, rfl, fun g => absurd g h, fun _ => rfl⟩
      rw [hp', ← hm1]
  obtain ⟨flag, k1, k2, k3, k4, k5, k6, k7⟩ := key
  have hsq : c2.sh = d.checkDrift.sh := by
    rw [hc2]
    unfold Scene.queueCloseRecord
    split
    · rfl
    · split <;> rfl
  have hid2 : c2.id = c.id := by
    have e1 := congrArg Control.id (control_queueCloseRecord d.checkDrift)
    have e2 := congrArg Control.id (control_checkDrift d)
    rw [hc2]
    exact (e1.trans e2).trans hid
  have hshared : (c2.modShared fun h => h.modCapture (·.closeOf c2.id)).sh
      = d.checkDrift.sh.modCapture (·.closeOf c.id) := by
    rw [hid2, Scene.modShared_sh, hsq]
  refine ⟨?_, ?_, ?_, ?_, ?_, ?_⟩
  · rw [hshared]; exact k3.trans hs.counters
  · rw [hshared]
    show d.checkDrift.sh.notice = _ ∨ d.checkDrift.sh.notice = _
    by_cases h : c.trk.Drifts c.other c.sh.options.driftLimit
    · rw [k6 h]
      right
      rcases hs.notice with e | e <;> rw [e]
      exact alert_twice _
    · rw [k7 h]; exact hs.notice
  · intro h
    rw [hshared]
    show d.checkDrift.sh.notice.getLsbD 2 = true
    rw [k6 h]
    exact alert_bit _
  · intro hu
    obtain ⟨e1, e2⟩ := hs.disabled hu
    rw [hshared]
    exact ⟨k5.trans e1, fun h => (k7 h).trans e2⟩
  · rw [hshared]
    have e := closedCapture_of_evaluated hs
    have f : (d.checkDrift.sh.modCapture (·.closeOf c.id)).capture = (d.sh.modCapture (·.closeOf c.id)).capture :=
      congrArg (fun x : CaptureUnit => x.closeOf c.id) k4
    unfold Scene.ClosedCapture
    rw [f]
    exact e
  · intro hpl'
    have hpl2 : p'.place = .reserved := hm2.trans hpl'
    refine ⟨d.checkDrift.trk.records.queue,
      ⟨d.checkDrift.id, { p' with flags := { p'.flags with drift := flag } }, d.checkDrift.trk.records.lostSinceClose⟩, ?_, k1⟩
    · rw [Scene.modShared_trk, hc2]
      unfold Scene.queueCloseRecord
      rw [k2]
      dsimp only
      rw [if_pos hpl2]
      rfl

/-! ### Steps 9 and 10 -/

theorem zeroReturnsToIdle_zero (c : Scene) :
    c.zeroReturnsToIdle.trk.zero
      = c.trk.zero.map fun z =>
          if z.state = .suspended then
            { z with state := .accumulating, suspendedTotal := z.totalAt c.sh.time, holdTimer := none }
          else z := by
  unfold Scene.zeroReturnsToIdle
  cases hz : c.trk.zero with
  | none => simp [hz]
  | some z =>
    dsimp only
    cases hs : z.state with
    | accumulating => simp [hz, hs]
    | suspended =>
      rw [Scene.setZero_trk]
      simp only [Option.map_some, hs, if_true, ZeroOperation.addSuspension, ZeroOperation.totalAt]
      rfl

/-- Entry into DISABLED preempts an operation in progress (R145). -/
theorem zeroDisabled_some {c : Scene} {z : ZeroOperation} (hz : c.trk.zero = some z) :
    c.zeroDisabled = { c with trk := { c.trk with zero := none }, sh := c.sh.afterPreemption z 1 } := by
  simp only [Scene.zeroDisabled, hz]
  cases hs : z.state <;> cases ho : z.origin <;>
    simp only [Scene.endZero, ho, Shared.afterPreemption, ZeroOperation.totalAt, hs, ZeroOperation.addSuspension, ZeroOperation.answer,
      ZeroOperation.suspendedMs] <;> rfl

theorem zeroDisabled_none {c : Scene} (hz : c.trk.zero = none) : c.zeroDisabled = c := by
  simp only [Scene.zeroDisabled, hz]

/-- Steps 9 and 10 of a close for a reason other than DISABLED, on the shared blocks and the zero engine (R143, R147). -/
theorem endClose_idle {c : Scene} {r : CloseReason} (hr : r ≠ .disabled) :
    (c.endClose r).sh = c.sh
      ∧ (∀ z, c.trk.zero = some z →
          (c.endClose r).trk.zero
            = some
                (if z.state = .suspended then
                  { z with state := .accumulating, suspendedTotal := z.totalAt c.sh.time, holdTimer := none }
                else z))
      ∧ (c.trk.zero = none →
          (c.endClose r).trk.zero
            = if c.sh.options.autoZero = true ∧ (r = .normal ∨ r = .withdrawn) then
                some (.started .automatic c.sh.options.autoZeroCount c.sh.options.zeroHoldLimit)
              else none) := by
  unfold Scene.endClose
  rw [if_neg hr]
  have e := zeroReturnsToIdle_zero (c.leavePassage.modTrk fun k => { k with mode := .idle })
  have es := zeroReturnsToIdle_sh (c.leavePassage.modTrk fun k => { k with mode := .idle })
  have e0 : (c.leavePassage.modTrk fun k => { k with mode := .idle }).trk.zero = c.trk.zero := rfl
  have e1 : (c.leavePassage.modTrk fun k => { k with mode := .idle }).sh = c.sh := rfl
  rw [e0, e1] at e
  rw [e1] at es
  revert e es
  generalize (c.leavePassage.modTrk fun k => { k with mode := .idle }).zeroReturnsToIdle = d
  intro e es
  refine ⟨(autoZero_sh d r).trans es, fun z hz => ?_, fun hz => ?_⟩
  · rw [hz] at e
    unfold Scene.autoZero
    rw [if_neg]
    · exact e
    · rintro ⟨-, -, h⟩
      rw [e] at h
      exact absurd h (by simp)
  · rw [hz] at e
    have e : d.trk.zero = none := e
    unfold Scene.autoZero
    rw [es]
    by_cases h : c.sh.options.autoZero = true ∧ (r = .normal ∨ r = .withdrawn)
    · rw [if_pos ⟨h.1, h.2, e⟩, if_pos h]; rfl
    · rw [if_neg (fun g => h ⟨g.1, g.2.1⟩), if_neg h]; exact e

/-- Entry into DISABLED at the end of a close, on the shared blocks (R60, R145). -/
theorem endClose_disabled (c : Scene) :
    (c.trk.zero = none → (c.endClose .disabled).sh = c.sh)
      ∧ ∀ z, c.trk.zero = some z → (c.endClose .disabled).sh = c.sh.afterPreemption z 1 := by
  unfold Scene.endClose
  rw [if_pos rfl]
  unfold Scene.enterDisabled
  extract_lets d
  have hd : d.trk.zero = c.trk.zero := rfl
  exact ⟨fun h => by rw [zeroDisabled_none (hd.trans h)]; rfl, fun z h => by rw [zeroDisabled_some (hd.trans h)]; rfl⟩

theorem afterPreemption_keeps (h : Shared) (z : ZeroOperation) (cause : Byte) :
    (h.afterPreemption z cause).time = h.time ∧ (h.afterPreemption z cause).options = h.options
      ∧ (h.afterPreemption z cause).classes = h.classes ∧ (h.afterPreemption z cause).watch = h.watch
      ∧ (h.afterPreemption z cause).capture = h.capture
      ∧ ((h.afterPreemption z cause).notice = h.notice ∨ (h.afterPreemption z cause).notice = h.notice ||| 0x04#6)
      ∧ (z.origin = .automatic → (h.afterPreemption z cause).notice.getLsbD 2 = true) := by
  unfold Shared.afterPreemption
  cases z.origin with
  | order slot tag => exact ⟨rfl, rfl, rfl, rfl, rfl, .inl rfl, fun e => absurd e (by simp)⟩
  | automatic => exact ⟨rfl, rfl, rfl, rfl, rfl, .inr rfl, fun _ => alert_bit _⟩

theorem afterPreemption_congr {h h' : Shared} (z : ZeroOperation) (cause : Byte) (ht : h'.time = h.time) (ho : h'.orders = h.orders)
    (hc : h'.counters = h.counters) :
    (h'.afterPreemption z cause).orders = (h.afterPreemption z cause).orders
      ∧ (h'.afterPreemption z cause).counters = (h.afterPreemption z cause).counters := by
  unfold Shared.afterPreemption
  cases z.origin with
  | order slot tag => exact ⟨by dsimp only; rw [ht, ho], hc⟩
  | automatic => exact ⟨ho, by dsimp only; rw [hc]⟩

/-! ### The whole close -/

/-- Everything a close does beside its track (R56, R109, R143 to R147, R155, R160). -/
theorem closePassage_effects {c : Scene} (r : CloseReason) (h : c.InPassage) {p : Passage} (hp : c.trk.context = some p) :
    c.ClosedEffects p r (c.closePassage r).trk (c.closePassage r).sh := by
  have h8 := control_closeToStep8 c r
  have s8 := closeToStep8_effects r hp h.windows
  have q8 := (endClose_keeps (c.closeToStep8 r) r).2.2.2.2.2.2.2.2.2.1
  unfold Scene.closePassage
  revert h8 s8 q8
  generalize c.closeToStep8 r = d
  intro h8 s8 q8
  have f1 : d.sh.time = c.sh.time := congrArg Control.time h8
  have f2 : d.sh.options = c.sh.options := congrArg Control.options h8
  have f3 : d.sh.classes = c.sh.classes := congrArg Control.classes h8
  have f4 : d.sh.orders = c.sh.orders := congrArg Control.orders h8
  have f5 : d.trk.zero = c.trk.zero := congrArg Control.zero h8
  have capture : ∀ h' : Shared, h'.capture = d.sh.capture → c.ClosedCapture h' := fun h' e => by
    have := s8.capture
    unfold Scene.ClosedCapture at this ⊢
    rw [e]
    exact this
  by_cases hr : r = .disabled
  · subst hr
    obtain ⟨z0, z1⟩ := endClose_disabled d
    have hz : (d.endClose .disabled).trk.zero = none := by
      unfold Scene.endClose Scene.enterDisabled
      rw [if_pos rfl, zeroDisabled_trk]
    cases ez : c.trk.zero with
    | none =>
      have e := z0 (f5.trans ez)
      unfold Scene.ClosedEffects
      rw [q8, e]
      refine ⟨f1, f2, f3, s8.notice, s8.alert, fun hu => ⟨(s8.disabled hu).1, fun _ => (s8.disabled hu).2⟩, s8.record, ?_, s8.capture⟩
      refine ⟨fun hn => absurd rfl hn, fun _ => ⟨hz, fun _ => ⟨f4, s8.counters⟩, fun z hz' => ?_⟩⟩
      rw [ez] at hz'; exact absurd hz' (by simp)
    | some z =>
      have e := z1 z (f5.trans ez)
      obtain ⟨a1, a2, a3, a4, a5, a6, a7⟩ := afterPreemption_keeps d.sh z 1
      obtain ⟨b1, b2⟩ := afterPreemption_congr z 1 f1 f4 s8.counters
      unfold Scene.ClosedEffects
      rw [q8, e]
      refine ⟨a1.trans f1, a2.trans f2, a3.trans f3, ?_, ?_, fun hu => ⟨a4.trans (s8.disabled hu).1, ?_⟩, s8.record, ?_, capture _ a5⟩
      · rcases a6 with g | g <;> rcases s8.notice with g' | g' <;> rw [g, g']
        · exact .inl rfl
        · exact .inr rfl
        · exact .inr rfl
        · exact .inr (alert_twice _)
      · intro hd
        rcases a6 with g | g <;> rw [g]
        · exact s8.alert hd
        · exact alert_bit _
      · rintro (hn | hn)
        · exact absurd rfl hn
        · rw [ez] at hn; exact absurd hn (by simp)
      · refine ⟨fun hn => absurd rfl hn, fun _ => ⟨hz, fun hn => ?_, fun z' hz' => ?_⟩⟩
        · rw [ez] at hn; exact absurd hn (by simp)
        · rw [ez] at hz'
          cases hz'
          exact ⟨b1, b2, a7⟩
  · obtain ⟨e, z1, z2⟩ := endClose_idle (c := d) hr
    unfold Scene.ClosedEffects
    rw [q8, e]
    refine ⟨f1, f2, f3, s8.notice, s8.alert, fun hu => ⟨(s8.disabled hu).1, fun _ => (s8.disabled hu).2⟩, s8.record, ?_, s8.capture⟩
    refine ⟨fun _ => ⟨f4, s8.counters, fun z hz => ?_, fun hz => ?_⟩, fun hn => absurd hn hr⟩
    · rw [z1 z (f5.trans hz), f1]
    · rw [z2 (f5.trans hz), f2]; rfl

end Sys2Proof.Machine
end

