-- ==== Sys2Proof/Laws/Orders.lean ====
section
/-!
SUPPORT. Laws/Orders.lean: carrying out an order, answering it, the end of an access, the settled states of track rules.
-/
namespace Sys2Proof.Machine

/-! ### Carrying out orders (R178) -/

/-- An order that the order unit may carry out is carried out by its own command. -/
theorem carryOut_of_carries {s : State} {k : Byte} {o : Order} (h : s.Carries k o) (isKind : Byte → Bool)
    (hk : isKind k = true) (f : Order → State → State) : s.carryOut isKind f = .next (f o s.popOrder).settle := by
  obtain ⟨h1, h2, h3, h4⟩ := h
  unfold State.carryOut State.readyOrder
  rw [if_pos ⟨h1, h2⟩, h3]
  simp only [h4, hk, if_true]

/-- An order command changes nothing or carries out the head order and settles. -/
theorem carryOut_cases (s : State) (isKind : Byte → Bool) (f : Order → State → State) :
    (s.carryOut isKind f = .next s)
      ∨ ∃ o, s.shared.orders.queue.head? = some o ∧ s.regs.part = .running ∧ s.shared.orders.carrying = false
          ∧ isKind o.kind = true ∧ s.carryOut isKind f = .next (f o s.popOrder).settle := by
  unfold State.carryOut State.readyOrder
  split
  · exact Or.inl rfl
  · rename_i o h
    split at h
    · rename_i hr
      by_cases hk : isKind o.kind = true
      · exact Or.inr ⟨o, h, hr.1, hr.2, hk, by rw [if_pos hk]⟩
      · exact Or.inl (by rw [if_neg hk])
    · exact absurd h (by simp)

/-- The order taken off the queue and then answered. -/
theorem answered_pop (s : State) (o : Order) (code : AnswerCode) (area : List Byte) :
    (s.popOrder.answer o code area).settle = s.answered o code area := rfl

@[simp] theorem State.popOrder_regs (s : State) : s.popOrder.regs = s.regs := rfl
@[simp] theorem State.popOrder_tracks (s : State) : s.popOrder.tracks = s.tracks := rfl
@[simp] theorem State.popOrder_pages (s : State) : s.popOrder.pages = s.pages := rfl
@[simp] theorem State.popOrder_bus (s : State) : s.popOrder.bus = s.bus := rfl
@[simp] theorem State.popOrder_options (s : State) : s.popOrder.shared.options = s.shared.options := rfl
@[simp] theorem State.popOrder_classes (s : State) : s.popOrder.shared.classes = s.shared.classes := rfl
@[simp] theorem State.popOrder_watch (s : State) : s.popOrder.shared.watch = s.shared.watch := rfl
@[simp] theorem State.popOrder_capture (s : State) : s.popOrder.shared.capture = s.shared.capture := rfl
@[simp] theorem State.popOrder_time (s : State) : s.popOrder.shared.time = s.shared.time := rfl
@[simp] theorem State.answered_regs (s : State) (o : Order) (code : AnswerCode) (area : List Byte) :
    (s.answered o code area).regs = s.regs := by unfold State.answered; rw [State.settle_regs]
@[simp] theorem State.answered_tracks (s : State) (o : Order) (code : AnswerCode) (area : List Byte) :
    (s.answered o code area).tracks = s.tracks := by unfold State.answered; rw [State.settle_tracks]
@[simp] theorem State.answer_regs (s : State) (o : Order) (code : AnswerCode) (area : List Byte) :
    (s.answer o code area).regs = s.regs := rfl
@[simp] theorem State.answer_tracks (s : State) (o : Order) (code : AnswerCode) (area : List Byte) :
    (s.answer o code area).tracks = s.tracks := rfl
@[simp] theorem State.answer_pages (s : State) (o : Order) (code : AnswerCode) (area : List Byte) :
    (s.answer o code area).pages = s.pages := rfl
@[simp] theorem State.answer_bus (s : State) (o : Order) (code : AnswerCode) (area : List Byte) :
    (s.answer o code area).bus = s.bus := rfl
@[simp] theorem State.answer_options (s : State) (o : Order) (code : AnswerCode) (area : List Byte) :
    (s.answer o code area).shared.options = s.shared.options := rfl
@[simp] theorem State.answer_classes (s : State) (o : Order) (code : AnswerCode) (area : List Byte) :
    (s.answer o code area).shared.classes = s.shared.classes := rfl
@[simp] theorem State.answer_capture (s : State) (o : Order) (code : AnswerCode) (area : List Byte) :
    (s.answer o code area).shared.capture = s.shared.capture := rfl

/-- The order queue plays no part in a preemption: its answer joins the answer FIFO (R146, R178). -/
theorem afterPreemption_withQueue (h : Shared) (q : List Order) (z : ZeroOperation) (cause : Byte) :
    ({ h with orders := { h.orders with queue := q } }).afterPreemption z cause
      = { h.afterPreemption z cause with orders := { (h.afterPreemption z cause).orders with queue := q } } := by
  unfold Shared.afterPreemption
  cases z.origin <;> rfl

/-- The effects of a close that an order makes, its own removal from the order queue left aside (R56, R178). -/
theorem closedEffects_of_popped {s : State} {t : Track} {p : Passage} {r : CloseReason} {k : TrackState} {h : Shared}
    (e : (s.popOrder.scene t).ClosedEffects p r k h) :
    (s.scene t).ClosedEffects p r k { h with orders := { h.orders with queue := s.shared.orders.queue } } := by
  obtain ⟨a, b, c, d, f, g, i, ⟨j1, j2⟩, l⟩ := e
  refine ⟨a, b, c, d, f, g, i, ⟨fun hr => ?_, fun hr => ?_⟩, l⟩
  · obtain ⟨m, n⟩ := j1 hr
    exact ⟨congrArg (fun u : OrderUnit => { u with queue := s.shared.orders.queue }) m, n⟩
  · obtain ⟨m, n, o⟩ := j2 hr
    refine ⟨m, fun hz => ?_, fun z hz => ?_⟩
    · obtain ⟨x, y⟩ := n hz
      exact ⟨congrArg (fun u : OrderUnit => { u with queue := s.shared.orders.queue }) x, y⟩
    · obtain ⟨x, y, w⟩ := o z hz
      have e1 := afterPreemption_withQueue s.shared s.shared.orders.queue.tail z 1
      have e2 : (s.popOrder.scene t).sh
          = { s.shared with orders := { s.shared.orders with queue := s.shared.orders.queue.tail } } := rfl
      have e3 : (s.shared.afterPreemption z 1).orders.queue = s.shared.orders.queue := by
        unfold Shared.afterPreemption
        cases z.origin <;> rfl
      rw [e2, e1] at x y
      refine ⟨?_, y, w⟩
      show ({ h.orders with queue := s.shared.orders.queue } : OrderUnit) = (s.shared.afterPreemption z 1).orders
      rw [x, ← e3]

/-! ### The ends of accesses (R175) -/

/-- An access in flight of a kind, not discarded, completes with its effect. -/
theorem completeAccess_of_ends {s : State} {k : AccessKind} {a : Access} (h : s.Ends k a) (f : Access → State → State) :
    s.completeAccess k f = f a s.withFreePort := by
  obtain ⟨h1, h2, h3⟩ := h
  unfold State.completeAccess
  simp only [h1, h2, h3, if_true]
  rfl

/-- A completion event changes nothing, ends a discarded access, or takes effect. -/
theorem completeAccess_cases (s : State) (k : AccessKind) (f : Access → State → State) :
    s.completeAccess k f = s
      ∨ (∃ a, s.bus.inFlight = some a ∧ a.discarded = true ∧ s.completeAccess k f = s.freePort.settle)
      ∨ ∃ a, s.Ends k a ∧ s.completeAccess k f = f a s.freePort := by
  unfold State.completeAccess
  split
  · exact Or.inl rfl
  · rename_i a h
    by_cases hk : a.kind = k
    · rw [if_pos hk]
      cases hd : a.discarded with
      | true => exact Or.inr (Or.inl ⟨a, h, hd, by simp⟩)
      | false => exact Or.inr (Or.inr ⟨a, ⟨h, hk, hd⟩, by simp⟩)
    · exact Or.inl (by rw [if_neg hk])

end Sys2Proof.Machine
end

