-- ==== Sys2Proof/Laws/Steps.lean ====
section
/-!
SUPPORT. Laws/Steps.lean: everything a step can do, said once: a property kept by each elementary change is kept by every step.
-/
namespace Sys2Proof.Machine

/-- The elementary changes of which every command is made, each under the conditions in which a command makes it. -/
structure StepKeeps (P : State → Prop) : Prop where
  /-- The queue of commands and the count of free choices. -/
  queue : ∀ s l n, P s → P { s with pending := l, freeCount := n }
  tick : ∀ s, P s → P s.tick
  settle : ∀ s, P s → P s.settle
  -- the links
  badFrame : ∀ s, P s → P (s.modShared Shared.countBadFrame)
  wake : ∀ s cause, P s → s.regs.part = .quiet → P (s.wake cause)
  edge : ∀ s t p h l, P s → s.regs.part = .running ∨ s.regs.part = .stopped → (s.tracks.get t).mode ≠ .disabled →
    pointExists (s.tracks.get t).config.platforms p = true → P (s.onTrack t fun c => c.takeEdge p h l)
  frame : ∀ s t n l, P s → s.regs.part = .running ∨ s.regs.part = .stopped → (s.tracks.get t).mode ≠ .disabled →
    P (s.onTrack t fun c => c.acceptFrame n l)
  -- the timers
  stuck : ∀ s t p, P s → s.regs.part = .running ∨ s.regs.part = .quiet → P (s.onTrack t fun c => c.pointFault p)
  approach : ∀ s t, P s → s.regs.part = .running → (s.tracks.get t).mode = .approach → P (s.onTrack t Scene.approachExpires)
  stall : ∀ s t, P s → s.regs.part = .running → (s.tracks.get t).mode = .crossing →
    P (s.onTrack t fun c =>
      (c.modTrk fun k => { k with mode := .standing }).startTimer (seconds c.trk.config.standingLimit))
  close : ∀ s t r, P s → s.regs.part = .running → (s.tracks.get t).mode.inPassage = true → P (s.onTrack t fun c => c.closePassage r)
  hold : ∀ s t, P s → s.regs.part = .running → P (s.onTrack t Scene.zeroHoldExpires)
  -- the order unit
  scanTimer : ∀ s, P s → P (s.modShared fun h => h.modOrders fun u => { u with scanTimer := none })
  requestScan : ∀ s, P s → P s.requestScan
  scanRead : ∀ s bytes, P s → P (s.modShared fun h => h.modOrders (·.scanReadDone h.time h.options.scanInterval bytes))
  takenWrite : ∀ s, P s → P (s.modShared fun h => h.modOrders (·.takenWriteDone h.time h.options.scanInterval))
  answerFields : ∀ s, P s → P (s.modShared fun h => h.modOrders (·.answerFieldsDone))
  answered : ∀ s, P s → P (s.modShared fun h => (h.modOrders (·.answeredDone)).raise .answer)
  reclaimHeader : ∀ s, P s → P (s.modShared fun h => h.modOrders (·.reclaimHeaderDone))
  pop : ∀ s, P s → P s.popOrder
  answer : ∀ s owner o code area, P s → P (s.answerAs owner o code area)
  -- the orders
  options : ∀ s l x, P s → optionsOf l = some x → P (s.modShared (·.setOptions x))
  config : ∀ s t l x, P s → (s.tracks.get t).mode = .disabled → trackConfigOf l = some x →
    P (s.modTrack t fun k => { k with config := x })
  enable : ∀ s t, P s → s.regs.part = .running → (s.tracks.get t).mode = .disabled → (s.tracks.get t).config.platforms ≠ 0 →
    P (s.onTrack t Scene.enable)
  disable : ∀ s t, P s → s.regs.part = .running → P (s.onTrack t Scene.disable)
  span : ∀ s t x, P s → P (s.modTrack t fun k => { k with calibration := x })
  zero : ∀ s t o n, P s → s.regs.part = .running → (s.tracks.get t).mode ≠ .disabled → (s.tracks.get t).zero = none →
    P (s.onTrack t fun c => c.startZero o n)
  classEntry : ∀ s l w, P s → classWriteOf l = some w → P (s.modShared fun h => { h with classes := h.classes.set w.index w.entry })
  watch : ∀ s l w, P s → watchWriteOf l = some w → P (s.modShared fun h => { h with watch := h.watch.set (w.unit + 1) w.value })
  hits : ∀ s mask, P s → P (s.modShared fun h => { h with watch := clearHits mask h.watch })
  disarm : ∀ s, P s → P (s.modShared fun h => h.modCapture fun x => { x with state := .disarmed })
  arm : ∀ s area slots limit, P s → P (s.modShared fun h => h.modCapture fun x =>
    { x with state := .armed, area := area, slots := slots, limit := limit })
  lend : ∀ s address, P s → s.pages.holds address = false → s.pages.lent.length < 16 →
    P { s with pages := { s.pages with lent := s.pages.lent ++ [address] } }
  reclaim : ∀ s o l, P s → P (State.modShared { s with pages := { s.pages with lent := [] } } fun h => h.modOrders (·.startReclaim o l))
  -- the port
  freePort : ∀ s, P s → P s.freePort
  enterQuiet : ∀ s, P s → s.mayEnterQuiet = true → P s.enterQuiet
  recordWritten : ∀ s t n, P s → P (s.recordWritten t n)
  pageReturned : ∀ s t, P s → P (s.pageReturned t)
  captureEntry : ∀ s, P s → P (s.modShared fun h => h.modCapture fun x => { x with waiting := x.waiting.tail })
  captureHeader : ∀ s, P s → P (s.modShared fun h => (h.modCapture fun x => { x with state := .held }).raise .capture)
  halt : ∀ s a, P s → s.bus.inFlight = none → P (s.halt a)
  -- the registers and the resets
  powerOnReset : ∀ s, P s → P s.powerOnReset
  hardReset : ∀ s, P s → P s.hardReset
  softReset : ∀ s, P s → P s.softReset
  mask : ∀ s m, P s → P (s.modRegs fun r => { r with noticeMask := m })
  run : ∀ s, P s → s.regs.part = .stopped → P (s.modRegs fun r => { r with part := .running, badAnchor := false })
  badAnchor : ∀ s, P s → P (s.modRegs fun r => { r with badAnchor := true })
  anchor : ∀ s v, P s → P (s.modRegs fun r => { r with anchor := v })
  notice : ∀ s n, P s → P (s.modShared fun h => { h with notice := n })

/-! ### Small changes of the machine -/

/-- The machine stays coherent when the tracks, the part state and the access in flight stay and no recording starts. -/
theorem coherent_of_same {s u : State} (h : s.Coherent) (ht : u.tracks = s.tracks) (hp : u.regs.part = s.regs.part)
    (hb : u.bus.inFlight = s.bus.inFlight)
    (hc : u.shared.capture.state = .recording → s.shared.capture.state = .recording) : u.Coherent := by
  obtain ⟨a, b, c, d⟩ := h
  refine ⟨by rw [ht]; exact a, ?_, ?_, ?_⟩
  · rw [hp, ht, hb]; exact b
  · rw [hp, ht]; intro e; exact ⟨(c e).1, fun x => (c e).2 (hc x)⟩
  · rw [hp, hb]; exact d

/-- The machine stays coherent when one track changes within its state and zero engine. -/
theorem coherent_setTrack {s : State} (h : s.Coherent) (t : Track) (k : TrackState) (hk : k.Coherent ∧ k.WindowsMatch)
    (hm : k.mode = (s.tracks.get t).mode) (hz : k.zero = (s.tracks.get t).zero) :
      ({ s with tracks := s.tracks.set t k } : State).Coherent := by
  obtain ⟨a, b, c, d⟩ := h
  refine ⟨PerTrack.forall_set (fun k : TrackState => k.Coherent ∧ k.WindowsMatch) _ _ _ a hk, ?_, ?_, d⟩
  · intro e
    exact ⟨PerTrack.forall_set (fun k : TrackState => k.mode = .disabled) _ _ _ (b e).1 (hm.trans ((b e).1 t)), (b e).2⟩
  · intro e
    exact ⟨PerTrack.forall_set (fun k : TrackState => k.mode.atRest = true ∧ k.zero = none) _ _ _ (c e).1 (by rw [hm, hz]; exact (c e).1 t), (c e).2⟩

/-- A head edge keeps its track coherent (R8 to R11). -/
theorem takeEdge_coherent {c : Scene} (hc : c.trk.Coherent) (hw : c.trk.WindowsMatch) (p : PointCode) (h : Head)
    (l : Level) (he : pointExists c.trk.config.platforms p = true) :
    (c.takeEdge p h l).trk.Coherent ∧ (c.takeEdge p h l).trk.WindowsMatch := by
  unfold Scene.takeEdge
  split
  · exact ⟨hc, hw⟩
  · rename_i pt x hd
    dsimp only
    split
    · exact ⟨hc, hw⟩
    · rename_i x
      refine takePass_coherent (c := c.modTrk fun k => { k with points := k.points.set p pt }) hc hw x ?_
      have : x.point = p := by
        unfold TrackState.decodeEdge at hd
        dsimp only at hd
        split at hd
        · cases hd
        · simp only [EdgeResult.changed.injEq] at hd
          obtain ⟨-, h2⟩ := hd
          rw [Option.map_eq_some_iff] at h2
          obtain ⟨d, -, rfl⟩ := h2
          cases d <;> rfl
      rw [this]; exact he

/-- A track at its reset values is coherent whatever configuration, passage number and calibration it keeps (R187). -/
theorem initial_coherent (k : TrackState) (hP : k.config.platforms ≤ 4) (x : TrackState)
    (hx : x = { TrackState.initial with config := k.config, passageNumber := k.passageNumber, calibration := k.calibration }) :
    x.Coherent ∧ x.WindowsMatch := by
  subst hx
  refine ⟨⟨hP, fun e => absurd rfl e, rfl, rfl, rfl, rfl, fun z hz => absurd (show none = some z from hz) (by simp)⟩, fun p a b => ?_⟩
  have : (TrackState.initial.platforms.get p) = .bare := by
    have hp : p = 1 ∨ p = 2 ∨ p = 3 ∨ p = 4 := by omega
    rcases hp with rfl | rfl | rfl | rfl <;> rfl
  show (TrackState.initial.platforms.get p).window.isSome = _ ∧ ((TrackState.initial.platforms.get p).step.isSome = true → _) ∧ (_ → (TrackState.initial.platforms.get p).last = none)
  rw [this]
  exact ⟨rfl, fun e => absurd (show false = true from e) (by decide), fun _ => rfl⟩

/-- A reset discards the access in flight (R187). -/
theorem reset_inFlight (b : Bus) : ∀ a, b.reset.inFlight = some a → a.discarded = true := by
  intro a h
  unfold Bus.reset at h
  dsimp only at h
  rw [Option.map_eq_some_iff] at h
  obtain ⟨x, -, rfl⟩ := h
  rfl

theorem bounded_of_same {s u : State} (h : s.Bounded) (ht : u.tracks = s.tracks) (hs : u.shared.Bounded)
    (hp : u.pages.lent.length ≤ s.pages.lent.length) : u.Bounded := by
  obtain ⟨a, b, c⟩ := h
  exact ⟨by rw [ht]; exact a, hs, by omega⟩

theorem bounded_setTrack {s : State} (h : s.Bounded) (t : Track) (k : TrackState) (hk : k.Bounded) :
    ({ s with tracks := s.tracks.set t k } : State).Bounded := by
  obtain ⟨a, b, c⟩ := h
  exact ⟨PerTrack.forall_set TrackState.Bounded _ _ _ a hk, b, c⟩

theorem bounded_orders {s : State} (h : s.Bounded) (f : OrderUnit → OrderUnit) (hf : (f s.shared.orders).Fits) :
    (s.modShared (·.modOrders f)).Bounded :=
  bounded_of_same h rfl (bounded_modOrders h.2.1 hf) (Nat.le_refl _)

/-! ### When events are acted upon -/

/-- The part states in which a link message that passes the first tests is taken: outside QUIET and HALTED. -/
theorem awake {x : PartState} (h : x ≠ .halted) (q : x ≠ .quiet) : x = .running ∨ x = .stopped := by
  cases x
  · exact Or.inr rfl
  · exact Or.inl rfl
  · exact absurd rfl q
  · exact absurd rfl h

theorem timers_running {x : PartState} (h : x.actsOnTimers = true) : x = .running := by
  cases x <;> first | rfl | exact absurd h (by decide)

theorem due_running {s : State} {t : Track} {m : TrackMode} (h : s.trackTimerDue t m = true) :
    s.regs.part = .running ∧ (s.tracks.get t).mode = m := by
  simp only [State.trackTimerDue, Bool.and_eq_true, decide_eq_true_eq] at h
  exact ⟨timers_running h.1.1, h.1.2⟩

namespace StepKeeps

variable {P : State → Prop} (k : StepKeeps P)
include k

theorem headEdge {s : State} (hs : P s) (check : Bool) (t : Track) (p : PointCode) (h : Head) (l : Level) {u : State}
    (e : execHeadEdgeMessage check t p h l s = .next u) : P u := by
  unfold execHeadEdgeMessage at e
  cases e
  split
  · exact hs
  · rename_i hh
    split
    · exact k.badFrame _ hs
    · split
      · exact hs
      · rename_i hm
        split
        · exact k.badFrame _ hs
        · rename_i hp
          have hp : pointExists (s.tracks.get t).config.platforms p = true := by simpa using hp
          unfold State.edgeArrives
          extract_lets s'
          refine k.settle _ ?_
          by_cases hq : s.regs.part = .quiet
          · have e : s' = s.wake .detector := if_pos hq
            have hm' : (s.wake .detector).tracks = clearSequences s.tracks := rfl
            rw [e]
            refine k.edge _ _ _ _ _ (k.wake _ _ hs hq) (Or.inl rfl) ?_ ?_
            · rw [hm']; cases t <;> exact hm
            · rw [hm']; cases t <;> exact hp
          · have e : s' = s := if_neg hq
            rw [e]
            exact k.edge _ _ _ _ _ hs (awake hh hq) hm hp

theorem sampleFrame {s : State} (hs : P s) (check : Bool) (t : Track) (n : Byte) (l : List ChannelEntry) {u : State}
    (e : execSampleFrame check t n l s = .next u) : P u := by
  unfold execSampleFrame at e
  cases e
  split
  · exact hs
  · rename_i hh
    split
    · exact hs
    · rename_i hq
      split
      · exact k.badFrame _ hs
      · split
        · exact k.badFrame _ hs
        · rename_i hm
          split
          · exact k.badFrame _ hs
          · exact k.settle _ (k.frame _ _ _ _ hs (awake hh hq) hm)

theorem expiry {s : State} (hs : P s) (i : Instr) (hi : IsExpiry i) {u : State} (e : exec i s = .next u) : P u := by
  cases i <;> first | exact False.elim hi | cases e
  · rename_i t p h
    by_cases hd : s.stuckDue t p h = true
    · rw [if_pos hd]
      refine k.stuck _ _ _ hs ?_
      simp only [State.stuckDue, Bool.and_eq_true] at hd
      cases hp : s.regs.part <;> simp [hp, PartState.actsOnStuck] at hd ⊢
    · rw [if_neg hd]; exact hs
  · rename_i t
    by_cases hd : s.trackTimerDue t .approach = true
    · rw [if_pos hd]; exact k.approach _ _ hs (due_running hd).1 (due_running hd).2
    · rw [if_neg hd]; exact hs
  · rename_i t
    by_cases hd : s.trackTimerDue t .crossing = true
    · rw [if_pos hd]; exact k.stall _ _ hs (due_running hd).1 (due_running hd).2
    · rw [if_neg hd]; exact hs
  · rename_i t
    by_cases hd : s.trackTimerDue t .standing = true
    · rw [if_pos hd]; exact k.settle _ (k.close _ _ _ hs (due_running hd).1 (by rw [(due_running hd).2]; rfl))
    · rw [if_neg hd]; exact hs
  · rename_i t
    by_cases hd : s.trackTimerDue t .draining = true
    · rw [if_pos hd]; exact k.settle _ (k.close _ _ _ hs (due_running hd).1 (by rw [(due_running hd).2]; rfl))
    · rw [if_neg hd]; exact hs
  · rename_i t
    by_cases hd : s.trackTimerDue t .withdrawn = true
    · rw [if_pos hd]; exact k.settle _ (k.close _ _ _ hs (due_running hd).1 (by rw [(due_running hd).2]; rfl))
    · rw [if_neg hd]; exact hs
  · rename_i t
    by_cases hd : s.holdDue t = true
    · rw [if_pos hd]
      refine k.settle _ (k.hold _ _ hs ?_)
      simp only [State.holdDue, Bool.and_eq_true] at hd
      exact timers_running hd.1
    · rw [if_neg hd]; exact hs
  · by_cases hd : s.scanTimerDue = true
    · rw [if_pos hd]; exact k.settle _ (k.requestScan _ (k.scanTimer _ hs))
    · rw [if_neg hd]; exact hs

/-- An order keeps what its effect behind the queue keeps. -/
theorem carryOut {s : State} (hs : P s) (isKind : Byte → Bool) (f : Order → State → State)
    (hf : ∀ o s, P s → s.regs.part = .running → P (f o s)) {u : State} (e : s.carryOut isKind f = .next u) : P u := by
  rcases carryOut_cases s isKind f with h | ⟨o, -, hr, -, -, h⟩
  · rw [h] at e; cases e; exact hs
  · rw [h] at e; cases e
    exact k.settle _ (hf _ _ (k.pop _ hs) hr)

theorem answerOrder {s : State} (hs : P s) (o : Order) (code : AnswerCode) (area : List Byte) : P (s.answer o code area) :=
  k.answer _ _ _ _ _ hs

theorem setOptions {s : State} (hs : P s) (o : Order) : P (carrySetOptions o s) := by
  unfold carrySetOptions
  split
  · exact k.answerOrder hs _ _ _
  · rename_i h; exact k.answerOrder (k.options _ _ _ hs h) _ _ _

theorem setTrack {s : State} (hs : P s) (o : Order) : P (carrySetTrack o s) := by
  unfold carrySetTrack
  split
  · exact k.answerOrder hs _ _ _
  · split
    · exact k.answerOrder hs _ _ _
    · rename_i hm
      split
      · exact k.answerOrder hs _ _ _
      · rename_i h; exact k.answerOrder (k.config _ _ _ _ hs (by simpa using hm) h) _ _ _

theorem enableTrack {s : State} (hs : P s) (hr : s.regs.part = .running) (o : Order) : P (carryEnableTrack o s) := by
  unfold carryEnableTrack
  split
  · exact k.answerOrder hs _ _ _
  · split
    · exact k.answerOrder hs _ _ _
    · rename_i hm
      split
      · exact k.answerOrder hs _ _ _
      · rename_i h; exact k.answerOrder (k.enable _ _ hs hr (by simpa using hm) h) _ _ _

theorem disableTrack {s : State} (hs : P s) (hr : s.regs.part = .running) (o : Order) : P (carryDisableTrack o s) := by
  unfold carryDisableTrack
  split
  · exact k.answerOrder hs _ _ _
  · exact k.answerOrder (k.disable _ _ hs hr) _ _ _

theorem closePassage {s : State} (hs : P s) (hr : s.regs.part = .running) (o : Order) : P (carryClosePassage o s) := by
  unfold carryClosePassage
  split
  · exact k.answerOrder hs _ _ _
  · split
    · rename_i h; exact k.answerOrder (k.close _ _ _ hs hr h) _ _ _
    · exact k.answerOrder hs _ _ _

theorem writeSpan {s : State} (hs : P s) (o : Order) : P (carryWriteSpan o s) := by
  unfold carryWriteSpan
  split
  · exact k.answerOrder hs _ _ _
  · split
    · exact k.answerOrder hs _ _ _
    · split
      · exact k.answerOrder hs _ _ _
      · exact k.answerOrder (k.span _ _ _ hs) _ _ _

theorem readCalibration {s : State} (hs : P s) (o : Order) : P (carryReadCalibration o s) := by
  unfold carryReadCalibration
  split <;> exact k.answerOrder hs _ _ _

theorem zeroOrder {s : State} (hs : P s) (hr : s.regs.part = .running) (o : Order) : P (carryZero o s) := by
  unfold carryZero
  split
  · exact k.answerOrder hs _ _ _
  · split
    · exact k.answerOrder hs _ _ _
    · rename_i hm
      split
      · exact k.answerOrder hs _ _ _
      · rename_i hz
        split
        · exact k.zero _ _ _ _ hs hr hm (by simpa using hz)
        · exact k.answerOrder hs _ _ _

theorem writeClass {s : State} (hs : P s) (o : Order) : P (carryWriteClass o s) := by
  unfold carryWriteClass
  split
  · exact k.answerOrder hs _ _ _
  · rename_i h
    split
    · exact k.answerOrder hs _ _ _
    · exact k.answerOrder (k.classEntry _ _ _ hs h) _ _ _

theorem readClass {s : State} (hs : P s) (o : Order) : P (carryReadClass o s) := by
  unfold carryReadClass
  split <;> exact k.answerOrder hs _ _ _

theorem setWatch {s : State} (hs : P s) (o : Order) : P (carrySetWatch o s) := by
  unfold carrySetWatch
  split
  · exact k.answerOrder hs _ _ _
  · rename_i h; exact k.answerOrder (k.watch _ _ _ hs h) _ _ _

theorem clearHits {s : State} (hs : P s) (o : Order) : P (carryClearHits o s) :=
  k.answerOrder (k.hits _ _ hs) _ _ _

theorem setCapture {s : State} (hs : P s) (o : Order) : P (carrySetCapture o s) := by
  unfold carrySetCapture
  extract_lets address entries postTrigger
  split
  · exact k.answerOrder hs _ _ _
  · split
    · exact k.answerOrder hs _ _ _
    · split
      · exact k.answerOrder (k.disarm _ hs) _ _ _
      · split
        · exact k.answerOrder hs _ _ _
        · exact k.answerOrder (k.arm _ _ _ _ hs) _ _ _

theorem lendPage {s : State} (hs : P s) (o : Order) : P (carryLendPage o s) := by
  unfold carryLendPage
  extract_lets address
  split
  · exact k.answerOrder hs _ _ _
  · split
    · exact k.answerOrder hs _ _ _
    · rename_i hh
      split
      · exact k.answerOrder hs _ _ _
      · rename_i hl; exact k.answerOrder (k.lend _ _ hs (by simpa using hh) (by omega)) _ _ _

theorem reclaimPages {s : State} (hs : P s) (o : Order) : P (carryReclaimPages o s) := by
  unfold carryReclaimPages
  extract_lets removed
  split
  · exact k.answerOrder hs _ _ _
  · exact k.reclaim _ _ _ hs

/-- A completion event keeps what its effect on the freed port keeps. -/
theorem access {s : State} (hs : P s) (kind : AccessKind) (f : Access → State → State) (hf : ∀ a s, P s → P (f a s)) :
    P (s.completeAccess kind f) := by
  rcases completeAccess_cases s kind f with h | ⟨a, -, -, h⟩ | ⟨a, -, h⟩ <;> rw [h]
  · exact hs
  · exact k.settle _ (k.freePort _ hs)
  · exact hf _ _ (k.freePort _ hs)

theorem answeredDone {s : State} (hs : P s) : P s.answeredDone := by
  unfold State.answeredDone
  extract_lets quiet s'
  have h' : P s' := k.answered _ hs
  split
  · rename_i h
    obtain ⟨-, hq, -⟩ := h
    unfold State.restNow
    split
    · exact k.settle _ (k.enterQuiet _ h' hq)
    · extract_lets s2
      have h2 : P s2 := k.queue s' _ _ h'
      split
      · exact k.settle _ (k.enterQuiet _ h2 hq)
      · refine k.enterQuiet _ (k.settle _ h2) ?_
        unfold State.mayEnterQuiet State.mayRest
        rw [State.settle_tracks, State.settle_shared]
        exact hq
  · exact k.settle _ h'

theorem busError {s : State} (hs : P s) {u : State} (e : execBusError s = .next u) : P u := by
  unfold execBusError at e
  cases e
  split
  · exact hs
  · split
    · exact k.settle _ (k.freePort _ hs)
    · exact k.halt _ _ (k.freePort _ hs) rfl

theorem writeControl {s : State} (hs : P s) (v : Word) : P (s.writeControl v) := by
  unfold State.writeControl
  split
  · exact k.softReset _ hs
  · extract_lets s'
    have h' : P s' := k.mask _ _ hs
    split
    · rename_i h
      unfold State.start
      split
      · exact k.settle _ (k.requestScan _ (k.run _ h' h.2))
      · exact k.badAnchor _ h'
    · exact h'

theorem attention {s : State} (hs : P s) (v : Word) {u : State} (e : execAttention v s = .next u) : P u := by
  unfold execAttention at e
  cases e
  split
  · exact hs
  · exact k.settle _ (k.requestScan _ hs)
  · rename_i h; exact k.settle _ (k.wake _ _ hs h)
  · exact hs

/-- A property kept by every elementary change is kept by every command. -/
theorem exec {s u : State} (hs : P s) (i : Instr) (e : exec i s = .next u) : P u := by
  cases i
  case headEdgeMessage => exact k.headEdge hs _ _ _ _ _ e
  case sampleFrame => exact k.sampleFrame hs _ _ _ _ e
  case setOptions => rw [Machine.exec, execSetOptions] at e; exact k.carryOut hs _ _ (fun o s h _ => k.setOptions h o) e
  case report => rw [Machine.exec, execReport] at e; exact k.carryOut hs _ _ (fun o s h _ => k.answerOrder h _ _ _) e
  case quiet =>
    rw [Machine.exec, execQuiet] at e
    refine k.carryOut hs _ _ (fun o s h _ => ?_) e
    split
    · exact k.answer _ _ _ _ _ h
    · exact k.answer _ _ _ _ _ h
  case setTrack => rw [Machine.exec, execSetTrack] at e; exact k.carryOut hs _ _ (fun o s h _ => k.setTrack h o) e
  case enableTrack => rw [Machine.exec, execEnableTrack] at e; exact k.carryOut hs _ _ (fun o s h r => k.enableTrack h r o) e
  case disableTrack => rw [Machine.exec, execDisableTrack] at e; exact k.carryOut hs _ _ (fun o s h r => k.disableTrack h r o) e
  case closePassage => rw [Machine.exec, execClosePassage] at e; exact k.carryOut hs _ _ (fun o s h r => k.closePassage h r o) e
  case writeSpan => rw [Machine.exec, execWriteSpan] at e; exact k.carryOut hs _ _ (fun o s h _ => k.writeSpan h o) e
  case readCalibration => rw [Machine.exec, execReadCalibration] at e; exact k.carryOut hs _ _ (fun o s h _ => k.readCalibration h o) e
  case zero => rw [Machine.exec, execZero] at e; exact k.carryOut hs _ _ (fun o s h r => k.zeroOrder h r o) e
  case writeClass => rw [Machine.exec, execWriteClass] at e; exact k.carryOut hs _ _ (fun o s h _ => k.writeClass h o) e
  case readClass => rw [Machine.exec, execReadClass] at e; exact k.carryOut hs _ _ (fun o s h _ => k.readClass h o) e
  case setWatch => rw [Machine.exec, execSetWatch] at e; exact k.carryOut hs _ _ (fun o s h _ => k.setWatch h o) e
  case clearHits => rw [Machine.exec, execClearHits] at e; exact k.carryOut hs _ _ (fun o s h _ => k.clearHits h o) e
  case setCapture => rw [Machine.exec, execSetCapture] at e; exact k.carryOut hs _ _ (fun o s h _ => k.setCapture h o) e
  case lendPage => rw [Machine.exec, execLendPage] at e; exact k.carryOut hs _ _ (fun o s h _ => k.lendPage h o) e
  case reclaimPages => rw [Machine.exec, execReclaimPages] at e; exact k.carryOut hs _ _ (fun o s h _ => k.reclaimPages h o) e
  case unknownOrder => rw [Machine.exec, execUnknownOrder] at e; exact k.carryOut hs _ _ (fun o s h _ => k.answerOrder h _ _ _) e
  case scanReadDone => cases e; exact k.access hs _ _ fun _ _ h => k.settle _ (k.scanRead _ _ h)
  case takenWriteDone => cases e; exact k.access hs _ _ fun _ _ h => k.settle _ (k.takenWrite _ h)
  case answerFieldsWriteDone => cases e; exact k.access hs _ _ fun _ _ h => k.settle _ (k.answerFields _ h)
  case answeredWriteDone => cases e; exact k.access hs _ _ fun _ _ h => k.answeredDone h
  case recordWriteDone => cases e; exact k.access hs _ _ fun _ _ h => k.settle _ (k.recordWritten _ _ _ h)
  case pageHeaderWriteDone => cases e; exact k.access hs _ _ fun _ _ h => k.settle _ (k.pageReturned _ _ h)
  case reclaimHeaderWriteDone => cases e; exact k.access hs _ _ fun _ _ h => k.settle _ (k.reclaimHeader _ h)
  case captureEntryWriteDone => cases e; exact k.access hs _ _ fun _ _ h => k.settle _ (k.captureEntry _ h)
  case captureHeaderWriteDone => cases e; exact k.access hs _ _ fun _ _ h => k.settle _ (k.captureHeader _ h)
  case busError => exact k.busError hs e
  case run => cases e; exact k.writeControl hs _
  case softReset => cases e; exact k.writeControl hs _
  case noticeMaskWrite => cases e; exact k.writeControl hs _
  case attention v => exact k.attention hs v e
  case anchorWrite =>
    cases e
    split
    · exact k.anchor _ _ hs
    · exact hs
  case noticeClear => cases e; exact k.notice _ _ hs
  case readOnlyRegisterWrite => cases e; exact hs
  case powerOnReset => cases e; exact k.powerOnReset _ hs
  case hardReset => cases e; exact k.hardReset _ hs
  all_goals exact k.expiry hs _ (by exact trivial) e

/-- A property kept by every elementary change is kept by every step. -/
theorem step {s u : State} (hs : P s) (e : step s = .next u) : P u := by
  unfold Machine.step at e
  split at e
  · cases e
    unfold State.idleStep
    split
    · exact k.tick _ hs
    · exact k.queue _ _ _ hs
  · exact k.exec (k.queue s _ _ hs) _ e

end StepKeeps
end Sys2Proof.Machine
end

