-- ==== Sys2Proof/Laws/Counts.lean ====
section
/-!
SUPPORT. Laws/Counts.lean: every rule of one track keeps the saturating counts of its passage, its close records, its windows and its zero
engine within their largest values, and its passage number within 32 bits.
-/
namespace Sys2Proof.Machine

theorem satAdd_le {n m k : Nat} (h : m ≤ n) : satAdd n m k ≤ n := by unfold satAdd; split <;> omega

/-- An item a property of which every platform has, after one platform is set. -/
theorem Four.forall_set {α : Type} (P : α → Prop) (x : Four α) (i : Nat) (v : α) (h : ∀ q, P (x.get q)) (hv : P v) :
    ∀ q, P ((x.set i v).get q) := by
  have h1 := h 1
  have h2 := h 2
  have h3 := h 3
  have h4 := h 4
  intro q
  rcases i with _ | _ | _ | _ | i <;> rcases q with _ | _ | _ | _ | q <;>
    first | exact hv | exact h1 | exact h2 | exact h3 | exact h4

theorem Four.forall_mapIdx {α β : Type} (P : α → Prop) (Q : β → Prop) (f : Nat → α → β) (x : Four α) (h : ∀ q, P (x.get q))
    (hf : ∀ i a, P a → Q (f i a)) : ∀ q, Q ((x.mapIdx f).get q) := by
  have h1 := hf 1 _ (h 1)
  have h2 := hf 2 _ (h 2)
  have h3 := hf 3 _ (h 3)
  have h4 := hf 4 _ (h 4)
  intro q
  rcases q with _ | _ | _ | _ | q <;> first | exact h1 | exact h2 | exact h3 | exact h4

/-! ### One passage, one window -/

/-- A platform whose open window has added at most 2^32 − 1 frames (R29). -/
def Platform.Counted (x : Platform) : Prop := ∀ w, x.window = some w → w.sampleCount ≤ 4294967295

theorem counts_countWagon {p : Passage} (w : Wagon) (h : p.CountsBounded) : (p.countWagon w).CountsBounded := by
  obtain ⟨a, b, d, e, f, g, i, j, k⟩ := h
  refine ⟨a, b, d, e, f, satInc_le g, i, ?_, ?_⟩
  · show (if _ then satInc 65535 p.locomotives else p.locomotives) ≤ 65535
    split
    · exact satInc_le j
    · exact j
  · show (if _ then p.freightTotal else min 4294967295 _) ≤ 4294967295
    split
    · exact k
    · exact Nat.min_le_left _ _

theorem counts_opened (n : Nat) (d : Direction) (c : OpenCause) (t : Word) (x : ClosePlace) (u : Bool) :
    (Passage.opened n d c t x u).CountsBounded :=
  ⟨Nat.zero_le _, Nat.zero_le _, Nat.zero_le _, Nat.zero_le _, Nat.zero_le _, Nat.zero_le _, Nat.zero_le _, Nat.zero_le _,
    Nat.zero_le _⟩

/-- A window adds frames up to 2^32 − 1 (R29). -/
theorem sampleCount_add {w : Window} (x : Rails ChannelEntry) (h : w.sampleCount ≤ 4294967295) :
    (w.add x).sampleCount ≤ 4294967295 := by
  unfold Window.add
  split
  · exact h
  · show w.sampleCount + 1 ≤ 4294967295
    omega

theorem nextPassageNumber_le (n : Nat) : nextPassageNumber n ≤ 4294967295 := by
  unfold nextPassageNumber; split <;> omega

/-! ### Small updates -/

/-- The counts stay bounded when what holds them stays. -/
theorem counts_of_same {k k' : TrackState} (h : k.CountsBounded) (hc : k'.context = k.context)
    (hr : k'.records.queue = k.records.queue) (hp : k'.platforms = k.platforms) (hz : k'.zero = k.zero)
    (hn : k'.passageNumber = k.passageNumber) : k'.CountsBounded := by
  unfold TrackState.CountsBounded
  rw [hc, hr, hp, hz, hn]
  exact h

theorem counts_platforms {k : TrackState} (h : k.CountsBounded) {x : Four Platform} (hx : ∀ q, (x.get q).Counted) :
    ({ k with platforms := x } : TrackState).CountsBounded := by
  obtain ⟨a, b, -, d, e⟩ := h
  exact ⟨a, b, hx, d, e⟩

theorem counts_zero {k : TrackState} (h : k.CountsBounded) {x : Option ZeroOperation}
    (hx : ∀ z, x = some z → z.restarts ≤ 65535) : ({ k with zero := x } : TrackState).CountsBounded := by
  obtain ⟨a, b, d, -, e⟩ := h
  exact ⟨a, b, d, hx, e⟩

theorem counts_modPassage {c : Scene} {f : Passage → Passage} (h : c.trk.CountsBounded)
    (hf : ∀ p, p.CountsBounded → (f p).CountsBounded) : (c.modPassage f).trk.CountsBounded := by
  obtain ⟨a, rest⟩ := h
  refine ⟨fun p hp => ?_, rest⟩
  have hp : c.trk.context.map f = some p := hp
  rw [Option.map_eq_some_iff] at hp
  obtain ⟨q, hq, rfl⟩ := hp
  exact hf q (a q hq)

theorem counts_modFlags {c : Scene} {f : PassageFlags → PassageFlags} (h : c.trk.CountsBounded) :
    (c.modFlags f).trk.CountsBounded := counts_modPassage h fun _ hp => hp

/-! ### Windows, estimates, wagons -/

theorem counts_takeStep {c : Scene} (p : Nat) (st : PendingStep) (x : WindowStats) (h : c.trk.CountsBounded) :
    (c.takeStep p st x).trk.CountsBounded := by
  unfold Scene.takeStep; split <;> exact h

theorem counts_closeWindow {c : Scene} (p : Nat) (h : c.trk.CountsBounded) : (c.closeWindow p).trk.CountsBounded := by
  unfold Scene.closeWindow
  split
  · exact h
  · dsimp only
    have hw : ∀ v : Platform, v.window = none → v.Counted := fun v e w hv => by rw [e] at hv; cases hv
    split
    · exact counts_modFlags (c := c.modPlatform p fun _ => _)
        (counts_platforms h (Four.forall_set Platform.Counted _ _ _ h.2.2.1 (hw _ rfl)))
    · exact counts_takeStep _ _ _ (counts_modFlags (c := c.modPlatform p fun _ => _)
        (counts_platforms h (Four.forall_set Platform.Counted _ _ _ h.2.2.1 (hw _ rfl))))

theorem counts_openWindow {c : Scene} (p : Nat) (h : c.trk.CountsBounded) : (c.openWindow p).trk.CountsBounded :=
  counts_platforms h (Four.forall_set Platform.Counted _ _ _ h.2.2.1 fun w hw => by
    have hw : some (Window.opened c.other) = some w := hw
    simp only [Option.some.injEq] at hw
    subst hw
    exact Nat.zero_le _)

theorem counts_openWindows {c : Scene} (h : c.trk.CountsBounded) : c.openWindows.trk.CountsBounded :=
  counts_platforms h (Four.forall_mapIdx Platform.Counted Platform.Counted _ _ h.2.2.1 fun i x hx => by
    intro w hw
    split at hw
    · simp only [Option.some.injEq] at hw
      subst hw
      exact Nat.zero_le _
    · exact hx w hw)

theorem counts_discardWindows {c : Scene} (h : c.trk.CountsBounded) : c.discardWindows.trk.CountsBounded :=
  counts_platforms h (Four.forall_mapIdx Platform.Counted Platform.Counted _ _ h.2.2.1 fun _ _ _ _ hw => nomatch hw)

theorem counts_recordStep {c : Scene} (e : Entry) (v : Option Nat) (p : Nat) (g : Sign) (h : c.trk.CountsBounded) :
    (c.recordStep e v p g).trk.CountsBounded := by
  unfold Scene.recordStep
  split
  · exact h
  · rename_i before _
    have h1 : (c.modPlatform p fun x => { x with step := some ⟨e, g, v, before⟩ }).trk.CountsBounded :=
      counts_platforms h (Four.forall_set Platform.Counted _ _ _ h.2.2.1 (h.2.2.1 p))
    dsimp only
    split
    · exact h1
    · exact h1

theorem counts_offerWagon {c : Scene} (w : Wagon) (h : c.trk.CountsBounded) : (c.offerWagon w).trk.CountsBounded := by
  unfold Scene.offerWagon
  split
  · split
    · obtain ⟨a, b, rest⟩ := h
      refine ⟨a, fun x hx => b x ?_, rest⟩
      have hx : Record.close x ∈ c.trk.records.queue ++ [.wagon w] := hx
      simpa using hx
    · exact counts_modPassage h fun p hp => by
        obtain ⟨a, b, d, e, f, g, i, rest⟩ := hp
        exact ⟨a, b, d, e, f, g, satInc_le i, rest⟩
  · exact h

theorem counts_formNext {c : Scene} (flush : Bool) (h : c.trk.CountsBounded) : (c.formNext flush).trk.CountsBounded := by
  simp only [Scene.formNext, Scene.handOn, Scene.watchAndOffer]
  refine counts_offerWagon _ ?_
  exact counts_modPassage (c := c.modTrk fun k => { k with group := _, nextWagon := _ }) h fun p hp => counts_countWagon _ hp

theorem counts_groupTurns : ∀ (n : Nat) {c : Scene}, c.trk.CountsBounded → (groupTurns n c).trk.CountsBounded
  | 0, _, h => h
  | n + 1, c, h => by
    unfold groupTurns
    split
    · exact h
    · exact counts_groupTurns n (counts_formNext false h)

theorem counts_flushTurns : ∀ (n : Nat) {c : Scene}, c.trk.CountsBounded → (flushTurns n c).trk.CountsBounded
  | 0, _, h => h
  | n + 1, c, h => by
    unfold flushTurns
    split
    · exact h
    · exact counts_flushTurns n (counts_formNext true h)

theorem counts_finalizeAxle {c : Scene} (n : Nat) (h : c.trk.CountsBounded) : (c.finalizeAxle n).trk.CountsBounded := by
  simp only [Scene.finalizeAxle]
  split
  · exact h
  · exact counts_groupTurns _ (c := Scene.modTrk _ _) h

theorem counts_finalizeResolved {c : Scene} (h : c.trk.CountsBounded) : c.finalizeResolved.trk.CountsBounded :=
  foldl_invariant (fun c : Scene => c.trk.CountsBounded) _ (fun _ n h => counts_finalizeAxle n h) _ _ h

theorem counts_finalizeAll {c : Scene} (h : c.trk.CountsBounded) : c.finalizeAll.trk.CountsBounded :=
  foldl_invariant (fun c : Scene => c.trk.CountsBounded) _ (fun _ n h => counts_finalizeAxle n h) _ _ h

theorem counts_turnWindows {c : Scene} (d : Direction) (kind : PassKind) (h : c.trk.CountsBounded) :
    (c.turnWindows d kind).trk.CountsBounded := by
  unfold Scene.turnWindows
  refine foldl_invariant (fun c : Scene => c.trk.CountsBounded) _ (fun _ p h => counts_openWindow p h) _ _ ?_
  exact counts_finalizeResolved
    (foldl_invariant (fun c : Scene => c.trk.CountsBounded) _ (fun _ p h => counts_closeWindow p h) _ _ h)

/-! ### Moves -/

theorem counts_movePass {c : Scene} (d : Direction) (x : Pass) (kind : PassKind) (m : Moved)
    (hm : c.movePass d x kind = some m) (h : c.trk.CountsBounded) : m.scene.trk.CountsBounded := by
  unfold Scene.movePass at hm
  cases kind with
  | forwardEntry =>
    simp only [Option.some.injEq, Scene.enter] at hm
    subst hm
    split
    · simp only [Scene.reenter]
      split <;> exact h
    · exact counts_modPassage (c := Scene.setBridge _ _) h fun p hp => ⟨satInc_le hp.1, hp.2⟩
  | backwardEntry =>
    simp only [Scene.backOut, Option.map_eq_some_iff] at hm
    obtain ⟨r, -, rfl⟩ := hm
    show c.discardBottom.trk.CountsBounded
    unfold Scene.discardBottom
    split
    · exact h
    · split
      · exact h
      · dsimp only
        split
        · exact h
        · exact counts_modPassage (c := Scene.modAxles _ _) h fun p hp => by
            obtain ⟨a, b, d, e, rest⟩ := hp
            exact ⟨a, b, d, satInc_le e, rest⟩
  | forwardMiddle k =>
    simp only [Scene.moveForward, Option.map_eq_some_iff] at hm
    obtain ⟨r, -, rfl⟩ := hm
    simp only [Scene.placeRecord]
    split <;> exact h
  | backwardMiddle k =>
    simp only [Scene.moveBackward, Option.map_eq_some_iff] at hm
    obtain ⟨r, -, rfl⟩ := hm
    simp only [Scene.placeRecord]
    split <;> exact h
  | forwardExit =>
    simp only [Scene.depart, Option.map_eq_some_iff] at hm
    obtain ⟨r, -, rfl⟩ := hm
    dsimp only
    split
    · exact h
    · exact counts_modPassage (c := Scene.modAxles _ _) h fun p hp => ⟨hp.1, satInc_le hp.2.1, hp.2.2⟩
  | backwardExit =>
    simp only [Scene.ghostReturn] at hm
    split at hm
    · exact absurd hm (by simp)
    · simp only [Option.some.injEq] at hm
      subst hm
      refine counts_modPassage (c := Scene.setBridge _ _) h fun p hp => ?_
      obtain ⟨a, b, d, e, f, rest⟩ := hp
      refine ⟨a, b, d, e, ?_, rest⟩
      dsimp only
      split
      · exact satInc_le f
      · exact f

theorem counts_moveAndRecord {c : Scene} (d : Direction) (x : Pass) (kind : PassKind) (h : c.trk.CountsBounded) :
    (c.moveAndRecord d x kind).trk.CountsBounded := by
  unfold Scene.moveAndRecord
  split
  · exact counts_modFlags (c := c.modShared _) h
  · rename_i m hm
    exact foldl_invariant (fun c : Scene => c.trk.CountsBounded) _ (fun _ s h => counts_recordStep _ _ s.1 s.2 h) _ _
      (counts_movePass d x kind m hm h)

theorem counts_processPass {c : Scene} (d : Direction) (x : Pass) (kind : PassKind) (h : c.trk.CountsBounded) :
    (c.processPass d x kind).trk.CountsBounded := by
  rw [processPass_eq]
  exact counts_moveAndRecord d x kind (counts_turnWindows d kind h)

theorem counts_nextMode {c : Scene} (kind : PassKind) (h : c.trk.CountsBounded) : (c.nextMode kind).trk.CountsBounded := by
  unfold Scene.nextMode
  split
  · exact h
  · split
    · split <;> exact h
    · exact h

/-! ### The zero engine -/

theorem counts_suspendZero {c : Scene} {z : ZeroOperation} (h : c.trk.CountsBounded) (hz : z.restarts ≤ 65535) :
    (c.suspendZero z).trk.CountsBounded := by
  rw [suspendZero_trk]
  refine counts_zero h fun y hy => ?_
  split at hy
  · cases hy
  · simp only [Option.some.injEq] at hy
    subst hy
    exact hz

theorem counts_zeroLeavesIdle {c : Scene} (h : c.trk.CountsBounded) : c.zeroLeavesIdle.trk.CountsBounded := by
  unfold Scene.zeroLeavesIdle
  split
  · exact h
  · rename_i z hz
    split
    · exact counts_suspendZero h (h.2.2.2.1 z hz)
    · exact h

theorem counts_zeroReturnsToIdle {c : Scene} (h : c.trk.CountsBounded) : c.zeroReturnsToIdle.trk.CountsBounded := by
  unfold Scene.zeroReturnsToIdle
  split
  · exact h
  · rename_i z hz
    split
    · exact h
    · exact counts_zero h fun y hy => by
        simp only [Option.some.injEq] at hy
        subst hy
        exact h.2.2.2.1 z hz

theorem counts_autoZero {c : Scene} (r : CloseReason) (h : c.trk.CountsBounded) : (c.autoZero r).trk.CountsBounded := by
  unfold Scene.autoZero
  split
  · exact counts_zero h fun y hy => by
      simp only [Option.some.injEq] at hy
      subst hy
      exact Nat.zero_le _
  · exact h

theorem counts_zeroGap {c : Scene} (h : c.trk.CountsBounded) : c.zeroGap.trk.CountsBounded := by
  unfold Scene.zeroGap
  split
  · exact h
  · rename_i z hz
    split
    · exact h
    · split
      · exact h
      · exact counts_zero h fun y hy => by
          simp only [Option.some.injEq] at hy
          subst hy
          exact satInc_le (h.2.2.2.1 z hz)

theorem counts_noZero {k : TrackState} (h : k.CountsBounded) : ({ k with zero := none } : TrackState).CountsBounded :=
  counts_zero h fun _ hy => nomatch hy

theorem counts_zeroFrame {c : Scene} (l : List ChannelEntry) (h : c.trk.CountsBounded) :
    (c.zeroFrame l).trk.CountsBounded := by
  unfold Scene.zeroFrame
  split
  · exact h
  · rename_i z hz
    split
    · exact counts_zero h fun y hy => by
        simp only [Option.some.injEq] at hy
        subst hy
        exact h.2.2.2.1 z hz
    · split
      · rw [endZero_trk]; exact counts_noZero h
      · dsimp only
        split
        · unfold Scene.completeZero
          rw [endZero_trk]
          exact counts_noZero (k := { c.trk with calibration := _ }) h
        · exact counts_zero h fun y hy => by
            simp only [Option.some.injEq] at hy
            subst hy
            exact h.2.2.2.1 z hz

/-! ### Closing and opening -/

theorem counts_beginClose {c : Scene} (r : CloseReason) (h : c.trk.CountsBounded) : (c.beginClose r).trk.CountsBounded :=
  counts_modPassage (c := c.modTrk fun k => { k with timer := none }) h fun _ hp => hp

theorem counts_closeAllWindows {c : Scene} (h : c.trk.CountsBounded) : c.closeAllWindows.trk.CountsBounded :=
  foldl_invariant (fun c : Scene => c.trk.CountsBounded) _ (fun _ p h => counts_closeWindow p h) _ _ h

theorem counts_disposeAxles {c : Scene} (h : c.trk.CountsBounded) : c.disposeAxles.trk.CountsBounded := by
  unfold Scene.disposeAxles
  extract_lets left backed c1
  refine counts_modPassage (c := c1) h fun p hp => ?_
  obtain ⟨a, b, d, e, rest⟩ := hp
  exact ⟨a, b, satAdd_le d, satAdd_le e, rest⟩

theorem counts_checkDrift {c : Scene} (h : c.trk.CountsBounded) : c.checkDrift.trk.CountsBounded := by
  unfold Scene.checkDrift
  split
  · rw [Scene.raise_trk]; exact counts_modFlags h
  · exact h

theorem counts_queueCloseRecord {c : Scene} (h : c.trk.CountsBounded) : c.queueCloseRecord.trk.CountsBounded := by
  unfold Scene.queueCloseRecord
  split
  · exact h
  · rename_i p hp
    split
    · obtain ⟨a, b, rest⟩ := h
      refine ⟨a, fun x hx => ?_, rest⟩
      have hx : Record.close x ∈ c.trk.records.queue ++ [.close ⟨c.id, p, c.trk.records.lostSinceClose⟩] := hx
      rcases List.mem_append.1 hx with hx | hx
      · exact b x hx
      · simp only [List.mem_singleton, Record.close.injEq] at hx
        subst hx
        exact a p hp
    · exact h

theorem counts_closeToStep8 {c : Scene} (r : CloseReason) (h : c.trk.CountsBounded) :
    (c.closeToStep8 r).trk.CountsBounded := by
  unfold Scene.closeToStep8
  rw [Scene.modShared_trk]
  exact counts_queueCloseRecord (counts_checkDrift (counts_flushTurns _ (counts_disposeAxles (counts_finalizeAll
    (counts_closeAllWindows (counts_beginClose r h))))))

theorem counts_enterDisabled {c : Scene} (h : c.trk.CountsBounded) : c.enterDisabled.trk.CountsBounded := by
  unfold Scene.enterDisabled
  rw [zeroDisabled_trk]
  refine counts_noZero ?_
  obtain ⟨a, b, d, e, f⟩ := h
  exact ⟨a, b, Four.forall_mapIdx Platform.Counted Platform.Counted _ _ d fun _ _ hx => hx, e, f⟩

theorem counts_leavePassage {c : Scene} (h : c.trk.CountsBounded) : c.leavePassage.trk.CountsBounded := by
  obtain ⟨-, b, rest⟩ := h
  exact ⟨fun _ hp => (nomatch hp), b, rest⟩

theorem counts_endClose {c : Scene} (r : CloseReason) (h : c.trk.CountsBounded) : (c.endClose r).trk.CountsBounded := by
  have h1 := counts_leavePassage h
  unfold Scene.endClose
  split
  · exact counts_enterDisabled h1
  · have h2 : (c.leavePassage.modTrk fun k => { k with mode := .idle }).trk.CountsBounded := h1
    exact counts_autoZero r (counts_zeroReturnsToIdle h2)

/-- The close procedure keeps the counts bounded (R56). -/
theorem counts_closePassage {c : Scene} (r : CloseReason) (h : c.trk.CountsBounded) :
    (c.closePassage r).trk.CountsBounded := counts_endClose r (counts_closeToStep8 r h)

theorem counts_openPassage {c : Scene} (x : Pass) (cause : OpenCause) (h : c.trk.CountsBounded) :
    (c.openPassage x cause).trk.CountsBounded := by
  unfold Scene.openPassage
  extract_lets fromIdle c1 c2 c3
  have h1 : c1.trk.CountsBounded := by
    show (if fromIdle then c.openWindows else c).trk.CountsBounded
    split
    · exact counts_openWindows h
    · exact h
  have h3 : c3.trk.CountsBounded := by
    obtain ⟨a, b, d, e, f⟩ := h1
    have hq : c1.trk.records.requestPlace.1.queue = c1.trk.records.queue := by
      unfold RecordQueue.requestPlace; split <;> rfl
    refine ⟨fun p hp => ?_, fun y hy => b y ?_, d, e, nextPassageNumber_le _⟩
    · have hp : some (Passage.opened _ _ _ _ _ _) = some p := hp
      simp only [Option.some.injEq] at hp
      subst hp
      exact counts_opened _ _ _ _ _ _
    · have hy : Record.close y ∈ c1.trk.records.requestPlace.1.queue := hy
      rw [← hq]; exact hy
  split
  · exact counts_zeroLeavesIdle h3
  · exact h3

theorem counts_handPass {c : Scene} (d : Direction) (x : Pass) (k : Nat) (h : c.trk.CountsBounded) :
    (c.handPass d x k).trk.CountsBounded := by
  unfold Scene.handPass
  extract_lets kind
  split
  · exact counts_closePassage _ h
  · exact counts_nextMode _ (counts_processPass _ _ _ h)

/-- A pass keeps the counts bounded. -/
theorem counts_takePass {c : Scene} (x : Pass) (h : c.trk.CountsBounded) : (c.takePass x).trk.CountsBounded := by
  unfold Scene.takePass
  split
  · exact h
  · split
    · split
      · exact counts_zeroLeavesIdle (c := Scene.startTimer _ _)
          (counts_openWindows (c := c.modTrk fun k => { k with mode := .approach, expected := some x.direction }) h)
      · exact h
    · split
      · exact counts_handPass _ _ _ (counts_openPassage _ _ h)
      · exact h
  · split
    · exact h
    · split
      · exact counts_handPass _ _ _ (counts_openPassage _ _ h)
      · exact h
  · split
    · exact counts_handPass _ _ _ h
    · exact h

theorem counts_takeEdge {c : Scene} (p : PointCode) (hd : Head) (l : Level) (h : c.trk.CountsBounded) :
    (c.takeEdge p hd l).trk.CountsBounded := by
  unfold Scene.takeEdge
  split
  · exact h
  · dsimp only
    split
    · exact h
    · exact counts_takePass _ h

theorem counts_acceptFrame {c : Scene} (n : Byte) (l : List ChannelEntry) (h : c.trk.CountsBounded) :
    (c.acceptFrame n l).trk.CountsBounded := by
  have mapped : ∀ (k : TrackState) (f : Nat → Window → Window), k.CountsBounded →
      (∀ i w, w.sampleCount ≤ 4294967295 → (f i w).sampleCount ≤ 4294967295) →
      ({ k with platforms := k.platforms.mapIdx fun p x => { x with window := x.window.map (f p) } } : TrackState).CountsBounded := by
    intro k f hk hf
    refine counts_platforms hk (Four.forall_mapIdx Platform.Counted Platform.Counted _ _ hk.2.2.1 fun i x hx w hw => ?_)
    dsimp only at hw
    rw [Option.map_eq_some_iff] at hw
    obtain ⟨v, hv, rfl⟩ := hw
    exact hf i v (hx v hv)
  unfold Scene.acceptFrame
  extract_lets c1 c2 c3 c4
  have h1 : c1.trk.CountsBounded := by
    show (if gapBefore c.trk.sequence n then c.markGapped.zeroGap else c).trk.CountsBounded
    split
    · exact counts_zeroGap (mapped _ _ h fun _ _ hw => hw)
    · exact h
  have h3 : c3.trk.CountsBounded := counts_zeroFrame l (c := c2) h1
  exact mapped _ _ h3 fun _ _ hw => sampleCount_add _ hw

theorem counts_pointFault {c : Scene} (p : PointCode) (h : c.trk.CountsBounded) : (c.pointFault p).trk.CountsBounded := by
  unfold Scene.pointFault
  extract_lets c1 c2
  have h1 : c1.trk.CountsBounded := h
  show c2.trk.CountsBounded
  exact counts_modFlags h1

theorem counts_approachExpires {c : Scene} (h : c.trk.CountsBounded) : c.approachExpires.trk.CountsBounded :=
  counts_zeroReturnsToIdle (counts_discardWindows
    (c := c.modTrk fun k =>
      { k with mode := .idle, expected := none, timer := none, falseApproaches := satInc 255 k.falseApproaches }) h)

theorem counts_zeroHoldExpires {c : Scene} (h : c.trk.CountsBounded) : c.zeroHoldExpires.trk.CountsBounded := by
  rw [zeroHoldExpires_trk]; exact counts_noZero h

theorem counts_disable {c : Scene} (h : c.trk.CountsBounded) : c.disable.trk.CountsBounded := by
  unfold Scene.disable
  split
  · exact h
  · exact counts_enterDisabled h
  · have h1 : (c.discardWindows.modTrk fun k => { k with expected := none }).trk.CountsBounded := by
      rw [Scene.modTrk_trk]
      exact counts_of_same (counts_discardWindows h) rfl rfl rfl rfl rfl
    exact counts_enterDisabled h1
  · exact counts_closePassage _ h

theorem counts_startZero {c : Scene} (o : Order) (n : Nat) (h : c.trk.CountsBounded) :
    (c.startZero o n).trk.CountsBounded := by
  unfold Scene.startZero
  extract_lets z
  split
  · exact counts_zero h fun y hy => by
      simp only [Option.some.injEq] at hy
      subst hy
      exact Nat.zero_le _
  · exact counts_suspendZero h (Nat.zero_le _)

theorem dropHead_queue (q : RecordQueue) : q.dropHead.queue = q.queue.tail := by
  unfold RecordQueue.dropHead
  split <;> rename_i h <;> rw [h] <;> rfl

/-- A record written and taken from the head of its queue leaves the counts bounded. -/
theorem counts_dropHead {k : TrackState} (h : k.CountsBounded) :
    ({ k with records := k.records.dropHead } : TrackState).CountsBounded := by
  obtain ⟨a, b, rest⟩ := h
  refine ⟨a, fun x hx => b x ?_, rest⟩
  have hx : Record.close x ∈ k.records.dropHead.queue := hx
  rw [dropHead_queue] at hx
  exact List.mem_of_mem_tail hx

/-- A track that a reset leaves at its initial values but for its passage number keeps the counts bounded (R187). -/
theorem counts_initial {k : TrackState} (h : k.passageNumber ≤ 4294967295) (hc : k.context = none) (hr : k.records.queue = [])
    (hp : ∀ q, (k.platforms.get q).window = none) (hz : k.zero = none) : k.CountsBounded :=
  ⟨fun _ e => (nomatch hc.symm.trans e), fun x e => absurd (hr ▸ e : Record.close x ∈ []) List.not_mem_nil,
    fun q _ e => (nomatch (hp q).symm.trans e), fun _ e => (nomatch hz.symm.trans e), h⟩

theorem counts_setTrack {s u : State} (h : s.CountsBounded) (t : Track) (k : TrackState) (hk : k.CountsBounded)
    (hu : u.tracks = s.tracks.set t k) : u.CountsBounded := by
  unfold State.CountsBounded
  rw [hu]
  exact PerTrack.forall_set TrackState.CountsBounded _ _ _ h hk

end Sys2Proof.Machine
end

