-- ==== Sys2Proof/Laws/Layout.lean ====
section
/-!
SUPPORT. Laws/Layout.lean: the lengths of the byte forms of R182.
-/
namespace Sys2Proof.Machine

@[simp] theorem le16_length (n : Nat) : (le16 n).length = 2 := rfl

@[simp] theorem le32_length (n : Nat) : (le32 n).length = 4 := rfl

@[simp] theorem le32i_length (x : Int) : (le32i x).length = 4 := rfl

@[simp] theorem padTo_length (n : Nat) (l : List Byte) : (padTo n l).length = n := by
  unfold padTo
  rw [List.length_take, List.length_append, List.length_replicate]
  omega

/-- Bytes that fit are filled up with zeros. -/
theorem padTo_eq {n m : Nat} {l : List Byte} (h : l.length + m = n) : padTo n l = l ++ List.replicate m 0 := by
  unfold padTo
  rw [List.take_append, List.take_of_length_le (by omega), List.take_replicate]
  congr 2
  omega

end Sys2Proof.Machine
end

