-- ==== Sys2Proof/Laws/Points.lean ====
section
/-!
SUPPORT. Laws/Points.lean: what edges and faults make of a point (R7 to R13), and that no rule but those and DISABLED's touches the points.
-/
namespace Sys2Proof.Machine

theorem cleared_sound : Point.cleared.Sound := ⟨fun _ => ⟨rfl, fun h => by cases h <;> rfl⟩, fun e => absurd e (by decide)⟩

theorem fault_sound (pt : Point) : pt.fault.Sound := ⟨fun e => absurd rfl e, fun _ h => by cases h <;> rfl⟩

/-- A level-changing edge keeps a point sound (R8, R9, R13). -/
theorem edge_sound {pt : Point} (hs : pt.Sound) (now : Word) (n : Nat) (h : Head) (l : Level) (hl : pt.level.get h ≠ levelOn l) :
    (pt.edge now n h l).1.Sound := by
  obtain ⟨st, ⟨l1, l2⟩, ot, ⟨s1, s2⟩⟩ := pt
  obtain ⟨a, b⟩ := hs
  by_cases hf : st = .faulted
  · subst hf
    have b1 := b rfl .head1
    have b2 := b rfl .head2
    simp only [Heads.get] at b1 b2
    subst b1 b2
    cases h <;> cases l <;> cases l1 <;> cases l2 <;>
      simp [Point.edge, Point.takeEdge, Point.Sound, Heads.get, Heads.set, PointState.levels] <;>
      intro h <;> cases h <;> rfl
  · obtain ⟨e, c⟩ := a hf
    have c1 := c .head1
    have c2 := c .head2
    simp only [Heads.get] at e c1 c2
    cases st <;> simp only [PointState.levels, Heads.mk.injEq] at e <;> obtain ⟨rfl, rfl⟩ := e <;>
      cases h <;> cases l <;>
      first
      | exact absurd rfl hl
      | exact absurd rfl hf
      | skip
    all_goals
      refine ⟨fun _ => ⟨rfl, fun h => ?_⟩, fun e => nomatch e⟩
      cases h <;> first | rfl | exact c1 | exact c2

/-- Only DISABLED clears the points (R15). -/
theorem closePassage_points (c : Scene) (r : CloseReason) :
    (c.closePassage r).trk.points = if r = .disabled then pointsCleared else c.trk.points := by
  obtain ⟨-, -, -, -, -, -, -, -, -, -, -, -, -, -, -, h⟩ := endClose_keeps (c.closeToStep8 r) r
  rw [Scene.closePassage, h]
  have : (c.closeToStep8 r).trk.points = c.trk.points := congrArg Control.points (control_closeToStep8 c r)
  rw [this]

theorem nextMode_points (c : Scene) (kind : PassKind) : (c.nextMode kind).trk.points = c.trk.points := by
  unfold Scene.nextMode
  repeat' split
  all_goals rfl

theorem handPass_points (c : Scene) (d : Direction) (x : Pass) (k : Nat) : (c.handPass d x k).trk.points = c.trk.points := by
  unfold Scene.handPass
  extract_lets kind
  split
  · rw [closePassage_points]; rfl
  · rw [nextMode_points]
    exact congrArg Control.points (control_processPass c d x kind)

theorem openPassage_points (c : Scene) (x : Pass) (cause : OpenCause) : (c.openPassage x cause).trk.points = c.trk.points := by
  unfold Scene.openPassage
  extract_lets fromIdle c1 c2 c3
  have g3 : c3.trk.points = c.trk.points := by
    show (if fromIdle then c.openWindows else c).trk.points = _
    split <;> rfl
  split
  · rw [zeroLeavesIdle_trk]; exact g3
  · exact g3

/-- A pass leaves the points alone (R11). -/
theorem takePass_points (c : Scene) (x : Pass) : (c.takePass x).trk.points = c.trk.points := by
  unfold Scene.takePass
  split
  · rfl
  · split
    · split
      · unfold Scene.enterApproach; rw [zeroLeavesIdle_trk]; rfl
      · rfl
    · split
      · rw [handPass_points, openPassage_points]
      · rfl
  · split
    · rfl
    · split
      · rw [handPass_points, openPassage_points]
      · rfl
  · split
    · rw [handPass_points]
    · rfl

/-- All points of a track are sound. -/
def TrackState.PointsSound (k : TrackState) : Prop := ∀ p, (k.points.get p).Sound

theorem takeEdge_pointsSound {c : Scene} (hs : c.trk.PointsSound) (p : PointCode) (h : Head) (l : Level) :
    (c.takeEdge p h l).trk.PointsSound := by
  unfold Scene.takeEdge
  split
  · exact hs
  · rename_i pt x hd
    have hpt : pt.Sound := by
      unfold TrackState.decodeEdge at hd
      dsimp only at hd
      split at hd
      · cases hd
      · rename_i hl
        simp only [EdgeResult.changed.injEq] at hd
        rw [← hd.1]
        exact edge_sound (hs p) _ _ _ _ hl
    have h1 : (c.modTrk fun k => { k with points := k.points.set p pt }).trk.PointsSound :=
      PerPoint.forall_set Point.Sound _ _ _ hs hpt
    dsimp only
    split
    · exact h1
    · intro q
      rw [takePass_points]
      exact h1 q

theorem pointFault_pointsSound {c : Scene} (hs : c.trk.PointsSound) (p : PointCode) : (c.pointFault p).trk.PointsSound :=
  PerPoint.forall_set Point.Sound _ _ _ hs (fault_sound _)

theorem pointsCleared_sound (p : PointCode) : (pointsCleared.get p).Sound := by
  cases p <;> exact cleared_sound

theorem acceptFrame_points (c : Scene) (n : Byte) (l : List ChannelEntry) : (c.acceptFrame n l).trk.points = c.trk.points := by
  unfold Scene.acceptFrame
  extract_lets c1 c2 c3 c4
  have h1 : c1.trk.points = c.trk.points := by
    show (if gapBefore c.trk.sequence n then c.markGapped.zeroGap else c).trk.points = _
    split
    · rw [zeroGap_trk]; rfl
    · rfl
  show c3.trk.points = _
  have h3 : c3.trk.points = c2.trk.points := by
    show (c2.zeroFrame l).trk.points = _
    rw [zeroFrame_trk]
  rw [h3]; exact h1

theorem approachExpires_points (c : Scene) : c.approachExpires.trk.points = c.trk.points := by
  unfold Scene.approachExpires
  extract_lets c1
  rw [zeroReturnsToIdle_trk]; rfl

theorem disable_pointsSound {c : Scene} (hs : c.trk.PointsSound) : c.disable.trk.PointsSound := by
  unfold Scene.disable
  split
  · exact hs
  · intro p
    unfold Scene.enterDisabled
    rw [zeroDisabled_trk]
    exact pointsCleared_sound p
  · intro p
    unfold Scene.enterDisabled
    rw [zeroDisabled_trk]
    exact pointsCleared_sound p
  · intro p
    rw [closePassage_points]
    exact pointsCleared_sound p

theorem startZero_points (c : Scene) (o : Order) (n : Nat) : (c.startZero o n).trk.points = c.trk.points := by
  unfold Scene.startZero
  extract_lets z
  split
  · rfl
  · unfold Scene.suspendZero
    extract_lets left z'
    split
    · rw [endZero_trk]
    · rfl

end Sys2Proof.Machine
end

