-- ==== Sys2Proof/WellFormed.lean ====
section
/-!
DEFINITION. WellFormed.lean: which operands a command can carry, as the spec bounds them.
-/
namespace Sys2Proof

/-- The operands of a command lie in the ranges the spec gives them.
A frame that passes its link check has 1 to 8 channel entries (R21); a slot read brings 64 bytes (R177);
the three kinds of CONTROL write are told apart by RUN, bit 0, and SOFT_RESET, bit 1 (R174, R182, R183); the read-only registers lie at
0x00, 0x04 and 0x18 (R174). -/
def WellFormed : Instr → Bool
  | .headEdgeMessage _ _ _ _ _ => true
  | .sampleFrame check _ _ channels => !check || (decide (1 ≤ channels.length) && decide (channels.length ≤ 8))
  | .stuckTimerExpiry _ _ _ => true
  | .approachTimeout _ => true
  | .stallExpiry _ => true
  | .standingExpiry _ => true
  | .settleExpiry _ => true
  | .withdrawnExpiry _ => true
  | .holdTimerExpiry _ => true
  | .scanTimerExpiry => true
  | .setOptions => true
  | .report => true
  | .quiet => true
  | .setTrack => true
  | .enableTrack => true
  | .disableTrack => true
  | .closePassage => true
  | .writeSpan => true
  | .readCalibration => true
  | .zero => true
  | .writeClass => true
  | .readClass => true
  | .setWatch => true
  | .clearHits => true
  | .setCapture => true
  | .lendPage => true
  | .reclaimPages => true
  | .unknownOrder => true
  | .scanReadDone slot => slot.length == 64
  | .takenWriteDone => true
  | .answerFieldsWriteDone => true
  | .answeredWriteDone => true
  | .recordWriteDone => true
  | .pageHeaderWriteDone => true
  | .reclaimHeaderWriteDone => true
  | .captureEntryWriteDone => true
  | .captureHeaderWriteDone => true
  | .busError => true
  | .run v => v.getLsbD 0 && !v.getLsbD 1
  | .softReset v => v.getLsbD 1
  | .noticeMaskWrite v => !v.getLsbD 1
  | .anchorWrite _ => true
  | .attention _ => true
  | .noticeClear _ => true
  | .readOnlyRegisterWrite offset _ => offset == 0x00#8 || offset == 0x04#8 || offset == 0x18#8
  | .powerOnReset => true
  | .hardReset => true

end Sys2Proof
end

