-- ==== Sys2Proof/Tests/Slice0.lean ====
section
/-!
SUPPORT. Tests/Slice0.lean: the ill-formed commands that WellFormed refuses, worked examples of the spec, one or two small steps of every
command, and for every obligation with hypotheses a concrete state that meets them.
-/
namespace Sys2Proof.Machine

set_option Elab.async false

/-! ### WellFormed refuses -/

def channelZero : ChannelEntry := ⟨0, false⟩

theorem test_refuses_frame_of_no_channel : WellFormed (.sampleFrame true .A 0 []) = false := by decide +kernel
theorem test_refuses_frame_of_nine_channels : WellFormed (.sampleFrame true .A 0 (List.replicate 9 channelZero)) = false := by decide +kernel
theorem test_refuses_short_slot : WellFormed (.scanReadDone (List.replicate 63 0)) = false := by decide +kernel
theorem test_refuses_long_slot : WellFormed (.scanReadDone (List.replicate 65 0)) = false := by decide +kernel
theorem test_refuses_run_without_run_bit : WellFormed (.run 0x3F00) = false := by decide +kernel
theorem test_refuses_run_with_soft_reset : WellFormed (.run 0x3) = false := by decide +kernel
theorem test_refuses_soft_reset_without_its_bit : WellFormed (.softReset 0x1) = false := by decide +kernel
theorem test_refuses_mask_write_with_soft_reset : WellFormed (.noticeMaskWrite 0x2) = false := by decide +kernel
theorem test_refuses_writable_offset : WellFormed (.readOnlyRegisterWrite 0x08 0) = false := by decide +kernel
theorem test_accepts_the_rest :
    [Instr.sampleFrame true .B 0 (List.replicate 8 channelZero), .sampleFrame false .A 0 [], .scanReadDone (List.replicate 64 0),
      .run 0x3F01, .softReset 0x2, .noticeMaskWrite 0x100, .readOnlyRegisterWrite 0x18 7, .report].all WellFormed = true := by
  decide +kernel

/-- No row of the table gives bits, so no word spells a command (log 28). -/
theorem test_no_word_spells_a_command : decodeTableWord 8 0 = none := by decide +kernel

/-! ### Small states -/

/-- The part RUNNING with track A in a given stored state, track B unconfigured, at a given time. -/
def runningAt (now : Word) (k : TrackState) : State :=
  { State.reset with
    regs := { State.reset.regs with part := .running }
    shared := { Shared.initial with time := now }
    tracks := ⟨k, .initial⟩ }

/-- The same in another part state. -/
def inPart (p : PartState) (k : TrackState) : State :=
  { runningAt 0 k with regs := { State.reset.regs with part := p } }

def sceneOf (k : TrackState) : Scene := ⟨.A, ⟨false, 0⟩, k, Shared.initial⟩

/-- A track of two platforms, DISABLED. -/
def trackDisabled : TrackState := { TrackState.initial with config := ⟨2, 250, 50, 1200, 120, 3000, 600, 5000, 16, 10⟩ }
def trackIdle : TrackState := (sceneOf trackDisabled).enable.trk
def trackApproach : TrackState := ((sceneOf trackIdle).takePass ⟨.LA, .up, 0, some 800⟩).trk
def trackCrossing : TrackState := ((sceneOf trackIdle).takePass ⟨.B0, .up, 0, some 800⟩).trk
def trackStanding : TrackState := { trackCrossing with mode := .standing, timer := some ⟨0, 600000000⟩ }
def trackDraining : TrackState :=
  (((sceneOf trackCrossing).takePass ⟨.B1, .up, 0, some 800⟩).takePass ⟨.B2, .up, 0, some 800⟩).trk
def trackWithdrawn : TrackState := ((sceneOf trackCrossing).takePass ⟨.B0, .down, 0, some 800⟩).trk

theorem test_track_modes :
    [trackIdle.mode, trackApproach.mode, trackCrossing.mode, trackDraining.mode, trackWithdrawn.mode]
      = [.idle, .approach, .crossing, .draining, .withdrawn] := by decide +kernel

theorem disabled_coherent : trackDisabled.Coherent ∧ trackDisabled.WindowsMatch :=
  initial_coherent trackDisabled (by decide) _ rfl
theorem idle_coherent : trackIdle.Coherent ∧ trackIdle.WindowsMatch :=
  enable_coherent (c := sceneOf trackDisabled) disabled_coherent.1 disabled_coherent.2 rfl (by decide)
theorem approach_coherent : trackApproach.Coherent ∧ trackApproach.WindowsMatch :=
  takePass_coherent (c := sceneOf trackIdle) idle_coherent.1 idle_coherent.2 _ (by decide)
theorem crossing_coherent : trackCrossing.Coherent ∧ trackCrossing.WindowsMatch :=
  takePass_coherent (c := sceneOf trackIdle) idle_coherent.1 idle_coherent.2 _ (by decide)
theorem withdrawn_coherent : trackWithdrawn.Coherent ∧ trackWithdrawn.WindowsMatch :=
  takePass_coherent (c := sceneOf trackCrossing) crossing_coherent.1 crossing_coherent.2 _ (by decide)
theorem draining_coherent : trackDraining.Coherent ∧ trackDraining.WindowsMatch := by
  have h := takePass_coherent (c := sceneOf trackCrossing) crossing_coherent.1 crossing_coherent.2 ⟨.B1, .up, 0, some 800⟩ (by decide)
  exact takePass_coherent h.1 h.2 _ (by decide)
theorem standing_coherent : trackStanding.Coherent ∧ trackStanding.WindowsMatch := by
  obtain ⟨⟨h1, -, -, -, -, -, -⟩, hw⟩ := crossing_coherent
  refine ⟨⟨h1, fun _ => by decide, by decide, by decide, by decide, by decide, fun z e => (nomatch e)⟩, fun p a b => ?_⟩
  have := hw p a b
  exact ⟨this.1, fun e => ⟨(this.2.1 e).1, rfl⟩, fun e => (nomatch e)⟩

theorem running_coherent (now : Word) {k : TrackState} (h : k.Coherent ∧ k.WindowsMatch) : (runningAt now k).Coherent := by
  refine ⟨fun t => ?_, fun e => (nomatch e), fun e => (nomatch e), fun e => (nomatch e)⟩
  cases t
  · exact h
  · exact initial_coherent .initial (by decide) _ rfl

theorem reset_classes_sound : ∀ e ∈ Shared.initial.classes, ClassEntry.Sound e := by
  intro e he
  have := List.eq_of_mem_replicate he
  subst this
  exact ⟨by decide, by decide⟩

/-- The order of a kind with its first parameter bytes, alone in the queue of a running part whose track A is given. -/
def demoOrder (kind : Byte) (params : List Byte) : Order := ⟨3, kind, 0x1234#16, padTo 48 params⟩
def orderedOn (k : TrackState) (o : Order) : State := (runningAt 0 k).withOrders { OrderUnit.initial with queue := [o] }
def ordered (kind : Byte) (params : List Byte) : State := orderedOn trackIdle (demoOrder kind params)

theorem ordered_carries (k : TrackState) (o : Order) : (orderedOn k o).Carries o.kind o := ⟨rfl, rfl, rfl, rfl⟩

/-- An access in flight in a running part. -/
def inFlight (kind : AccessKind) (r : Requester) (data : List Byte) : State :=
  { runningAt 0 trackIdle with bus := ⟨some ⟨r, kind, 0x1000, data, false⟩, r⟩ }

theorem inFlight_ends (kind : AccessKind) (r : Requester) (data : List Byte) :
    (inFlight kind r data).Ends kind ⟨r, kind, 0x1000, data, false⟩ := ⟨rfl, rfl, rfl⟩

/-- The state a command leads to. -/
def after (i : Instr) (s : State) : State :=
  match exec i s with
  | .next t => t
  | .fault _ => s
  | .refused _ => s

/-- The code and the answer area of the answer that became due last. -/
def lastAnswer (s : State) : Option (AnswerCode × List Byte) := s.shared.orders.answers.getLast?.map fun a => (a.code, a.area)

/-! ### Links: worked example 1.7 -/

def edgesAt (s : State) (l : List (Nat × Head × Level)) : State :=
  l.foldl (fun s e =>
    after (.headEdgeMessage true .A .B1 e.2.1 e.2.2) { s with shared := { s.shared with time := BitVec.ofNat 32 e.1 } }) s

/-- The first wheel of example 1.7: a pass UP of 80.0 km/h (R10). -/
theorem test_pass_of_example_1_7 :
    (TrackState.decodeEdge
        { trackIdle with
          points := { trackIdle.points with b1 := ⟨.highTail, ⟨false, true⟩, ⟨1000000, 1011250⟩, ⟨none, some ⟨1011250, 10000000⟩⟩⟩ } }
        1071250 .B1 .head2 .off)
      = .changed ⟨.clear, ⟨false, false⟩, ⟨1000000, 1011250⟩, ⟨none, none⟩⟩ (some ⟨.B1, .up, 1011250, some 800⟩) := by decide +kernel

/-- The second wheel of example 1.7 is read as 0.3 km/h, from the latest on-edge of head 2. -/
theorem test_creeping_wheel_of_example_1_7 : passSpeed 250 2300000 = some 3 := by decide +kernel

/-- Its edges leave the point as the example's last row says. -/
theorem test_edges_of_example_1_7 :
    (edgesAt (runningAt 0 trackIdle)
        [(1000000, .head1, .on), (1011250, .head2, .on), (1060000, .head1, .off), (1071250, .head2, .off), (5000000, .head1, .on),
          (5900000, .head2, .on), (6400000, .head2, .off)]).tracks.a.points.b1
      = ⟨.lowOn, ⟨true, false⟩, ⟨5000000, 5900000⟩, ⟨some ⟨5000000, 10000000⟩, none⟩⟩ := by decide +kernel

theorem test_bad_head_edge_is_counted :
    (after (.headEdgeMessage false .A .B0 .head1 .on) (runningAt 0 trackIdle)).shared.counters.badFrames = 1 := by decide +kernel

/-- A head edge in QUIET wakes the part (R185). -/
theorem test_head_edge_wakes :
    (after (.headEdgeMessage true .A .B0 .head1 .on) (inPart .quiet trackIdle)).regs.wakeCause = some .detector := by decide +kernel

theorem test_frame_fills_the_window :
    ((after (.sampleFrame true .A 5 [⟨100, false⟩, ⟨BitVec.ofInt 24 (-7), true⟩, ⟨3, false⟩, ⟨4, false⟩])
        (runningAt 0 trackApproach)).tracks.a.platforms.first.window.map fun w => (w.sum, w.sampleCount, w.saturated))
      = some (⟨100, -7⟩, 1, true) := by decide +kernel

theorem test_frame_of_the_wrong_count_is_counted :
    (after (.sampleFrame true .A 5 [channelZero]) (runningAt 0 trackApproach)).shared.counters.badFrames = 1 := by decide +kernel

/-! ### Estimates, wagons and zero: worked examples 5.10, 6.10 and 7.10 -/

theorem test_estimates_of_example_5_10 :
    [sideEstimate .entry (some 2000) (some 9900) 98304, sideEstimate .entry (some 1900) (some 9700) 98304,
      sideEstimate .exit (some 17800) (some 9950) 98304, sideEstimate .exit (some 17500) (some 9780) 98304,
      sideEstimate .entry (some 40) (some 5960) 131072, sideEstimate .entry (some 25) (some 5880) 131072]
      = [some 11850, some 11700, some 11775, some 11580, some 11840, some 11710] := by decide +kernel

theorem test_loads_of_example_5_10 :
    [storedLoad (meanLoad [11850, 11775, 11840]), storedLoad (meanLoad [11700, 11580, 11710])] = [1182, 1166] := by decide +kernel

/-- The zero-offset substitute of example 5.10's direct open: 7765 − (−35) and 7812 − 12 counts are 11700 kg (R41). -/
theorem test_substitute_of_example_5_10 :
    (stepEstimate ⟨2, 250, 50, 1200, 120, 3000, 600, 5000, 16, 10⟩ .mark ⟨⟨98304, -35, true, false⟩, ⟨98304, 12, true, false⟩⟩
        ⟨⟨7, false⟩, .entry, some 400, ⟨⟨none, none⟩, 0, true, false, false, false⟩⟩
        ⟨⟨some 7765, some 7812⟩, 118, false, false, false, false⟩)
      = (some ⟨11700, 11700⟩, false) := by decide +kernel

def exampleClasses : List ClassEntry :=
  [⟨.pattern, 4, [⟨200, 280⟩, ⟨1000, 1300⟩, ⟨200, 280⟩], 300, 10, .locomotive, 0, 2500, 0, false⟩,
    ⟨.pattern, 4, [⟨170, 200⟩, ⟨700, 900⟩, ⟨170, 200⟩], 250, 41, .wagon, 10000, 2600, 10, false⟩,
    ⟨.count, 4, [⟨0, 0⟩, ⟨0, 0⟩, ⟨0, 0⟩], 150, 90, .other, 10000, 2600, 10, false⟩]

def exampleAxle (serial : Nat) (spacing speed : Option Nat) (left right : Nat) : FinalAxle :=
  ⟨serial, spacing, speed, some ⟨left, right⟩, 3, ⟨false, false, false, false, false, false⟩⟩

/-- Axles 5 to 8 and 9 to 12 of example 6.10. -/
def exampleWagon2 : List FinalAxle :=
  [exampleAxle 5 (some 420) (some 410) 1310 1290, exampleAxle 6 (some 185) (some 410) 1305 1300,
    exampleAxle 7 (some 790) (some 409) 1320 1285, exampleAxle 8 (some 185) (some 409) 1300 1310]
def exampleWagon3 : List FinalAxle :=
  [exampleAxle 9 (some 310) (some 408) 600 760, exampleAxle 10 (some 185) (some 408) 610 750,
    exampleAxle 11 none none 605 765, exampleAxle 12 none (some 407) 600 770]

theorem test_lookahead_of_example_6_10 : lookahead exampleClasses = 5 := by decide +kernel

theorem test_matches_of_example_6_10 :
    [TrackState.firstMatch { trackCrossing with
        group := exampleWagon2 ++ exampleWagon3.take 1, axles := { AxleTable.empty with lastSerial := 16 } } false exampleClasses,
      TrackState.firstMatch { trackCrossing with
        group := exampleWagon3 ++ [exampleAxle 13 (some 312) (some 406) 1150 1160],
        axles := { AxleTable.empty with lastSerial := 16 } } false exampleClasses]
      = [some 1, some 2] := by decide +kernel

def wagon3 : Wagon := formWagon .A 1 3 (exampleClasses[2]?.map fun e => (2, e)) exampleWagon3 false

/-- Wagon 3 of example 6.10: 5460 of 10 kg, shift 11 percent above its limit 10, mean speed 407 of three axles. -/
theorem test_wagon_3_of_example_6_10 :
    (wagon3.gross, wagon3.shift, wagon3.meanSpeed, wagon3.flags.sideShift, wagon3.classCode) = (5460, 11, some 407, true, 90) := by decide +kernel

theorem test_offsets_of_example_7_10 : [roundDiv (-71680) 2048, roundDiv 24500 2048] = [-35, 12] := by decide +kernel

theorem test_rounding_of_halves : [roundDiv (-1) 2, roundDiv 1 2, roundDiv 3 2, roundDiv (-3) 2] = [-1, 1, 2, -2] := by decide +kernel

/-! ### Timers -/

theorem test_stuck_head_faults :
    (after (.stuckTimerExpiry .A .B1 .head1)
        (edgesAt (runningAt 0 trackIdle) [(0, .head1, .on), (10000000, .head2, .on)])).tracks.a.points.b1.state = .faulted := by decide +kernel

theorem test_approach_times_out :
    (after (.approachTimeout .A) (runningAt 120000000 trackApproach)).tracks.a.falseApproaches = 1 := by decide +kernel

theorem test_approach_does_not_time_out_early :
    after (.approachTimeout .A) (runningAt 119999999 trackApproach) = runningAt 119999999 trackApproach := by decide +kernel

theorem test_stall : (after (.stallExpiry .A) (runningAt 3000000 trackCrossing)).tracks.a.timer = some ⟨3000000, 600000000⟩ := by
  decide +kernel

def reasonOf : Option Record → Option CloseReason
  | some (.close c) => c.passage.reason
  | _ => none

/-- The three closing expiries, by the reason in the close record they queue. -/
theorem test_closing_expiries :
    [(after (.standingExpiry .A) (runningAt 600000000 trackStanding)).tracks.a.records.queue.getLast?,
      (after (.settleExpiry .A) (runningAt 5000000 trackDraining)).tracks.a.records.queue.getLast?,
      (after (.withdrawnExpiry .A) (runningAt 120000000 trackWithdrawn)).tracks.a.records.queue.getLast?].map reasonOf
      = [some .standing, some .normal, some .withdrawn] := by decide +kernel

/-- A suspended zero of track A, asked for by slot 3, and the same started automatically. -/
def suspendedZero (o : ZeroOrigin) : ZeroOperation :=
  { ZeroOperation.started o 2048 900 with state := .suspended, frames := 1000, suspendStart := 0, holdTimer := some ⟨0, 900000000⟩ }

theorem test_hold_timer_preempts :
    lastAnswer (after (.holdTimerExpiry .A)
        (runningAt 900000000 { trackApproach with zero := some (suspendedZero (.order 3 0x1234)) }))
      = some (.preempted, [0] ++ le16 1000 ++ le16 0 ++ le32 900000) := by decide +kernel

theorem test_scan_timer_requests_a_scan :
    (after .scanTimerExpiry
        ((runningAt 10000 trackIdle).withOrders { OrderUnit.initial with scanTimer := some ⟨0, 10000⟩ })).bus.inFlight
      = some ⟨.orderUnit, .scanRead, 0, [], false⟩ := by decide +kernel

/-! ### Orders -/

theorem test_set_options :
    lastAnswer (after .setOptions (ordered 0x01 (le16 1000 ++ [1] ++ le16 64 ++ le16 1800 ++ [1] ++ le16 65535 ++ [1])))
      = some (.done, []) := by decide +kernel
theorem test_set_options_out_of_range :
    lastAnswer (after .setOptions (ordered 0x01 (le16 1001 ++ [1] ++ le16 64 ++ le16 1800 ++ [1] ++ le16 65535 ++ [1])))
      = some (.invalid, []) := by decide +kernel
/-- REPORT's answer of a machine with one idle track begins with that track's ten bytes (R182). -/
theorem test_report :
    (lastAnswer (after .report (ordered 0x02 []))).map (fun x => (x.1, x.2.take 10, x.2.length))
      = some (.done, [1, 0, 0, 0, 0, 0, 0, 0, 0, 0], 48) := by decide +kernel
theorem test_quiet : lastAnswer (after .quiet (ordered 0x03 [])) = some (.done, []) := by decide +kernel
theorem test_quiet_under_a_train : lastAnswer (after .quiet (orderedOn trackCrossing (demoOrder 0x03 []))) = some (.busy, []) := by
  decide +kernel
def trackParams : List Byte :=
  [0, 2] ++ le16 250 ++ le16 50 ++ le16 1200 ++ le16 120 ++ le16 3000 ++ le16 600 ++ le16 5000 ++ [16, 10]
theorem test_set_track :
    (after .setTrack (orderedOn .initial (demoOrder 0x10 trackParams))).tracks.a = trackDisabled := by decide +kernel
theorem test_set_track_when_enabled : lastAnswer (after .setTrack (ordered 0x10 trackParams)) = some (.busy, []) := by decide +kernel
theorem test_enable_track : (after .enableTrack (orderedOn trackDisabled (demoOrder 0x11 [0]))).tracks.a = trackIdle := by decide +kernel
theorem test_disable_track :
    lastAnswer (after .disableTrack (orderedOn trackCrossing (demoOrder 0x12 [0]))) = some (.done, [1, 0, 0, 0]) := by decide +kernel
theorem test_close_passage :
    lastAnswer (after .closePassage (orderedOn trackCrossing (demoOrder 0x13 [0]))) = some (.done, [1, 0, 0, 0]) := by decide +kernel
theorem test_close_nothing : lastAnswer (after .closePassage (ordered 0x13 [0])) = some (.nothing, []) := by decide +kernel
theorem test_write_span :
    (after .writeSpan (ordered 0x20 ([0, 8] ++ le32 16777216 ++ [1]))).tracks.a.calibration.fourth.right = ⟨16777216, 0, false, true⟩ := by
  decide +kernel
theorem test_read_calibration :
    (lastAnswer (after .readCalibration (ordered 0x21 [0, 1]))).map (fun x => (x.1, x.2.take 8, x.2.length))
      = some (.done, [0, 0, 1, 0, 0, 0, 1, 0], 34) := by decide +kernel
theorem test_zero :
    (after .zero (ordered 0x22 ([0] ++ le16 64))).tracks.a.zero = some (ZeroOperation.started (.order 3 0x1234) 64 900) := by decide +kernel
def classParams (lock : Byte) : List Byte :=
  [3, 1, 2] ++ le16 170 ++ le16 200 ++ List.replicate 24 0 ++ le16 250 ++ [41, 0] ++ le32 10000 ++ le16 2600 ++ [10, lock]
theorem test_write_class :
    (after .writeClass (ordered 0x30 (classParams 1))).shared.classes[3]?
      = some ⟨.pattern, 2, [⟨170, 200⟩], 250, 41, .wagon, 10000, 2600, 10, true⟩ := by decide +kernel
theorem test_read_class :
    lastAnswer (after .readClass (ordered 0x31 [0])) = some (.done, [0, 1] ++ List.replicate 39 0 ++ [0]) := by decide +kernel
def watchParams : List Byte := [3, 1, 2, 3] ++ le32 100 ++ le16 1500 ++ [0, 1]
theorem test_set_watch :
    (after .setWatch (ordered 0x40 watchParams)).shared.watch.fourth = ⟨true, none, .speedOutside, 100, 1500, .mark, .both, 0⟩ := by
  decide +kernel
theorem test_clear_hits : lastAnswer (after .clearHits (ordered 0x41 [15])) = some (.done, List.replicate 8 0) := by decide +kernel
theorem test_set_capture :
    (after .setCapture (ordered 0x42 (le32 8192 ++ le16 16 ++ le16 16))).shared.capture.state = .armed := by decide +kernel
theorem test_lend_page : (after .lendPage (ordered 0x50 (le32 8192))).pages.lent = [8192] := by decide +kernel
theorem test_reclaim_pages : lastAnswer (after .reclaimPages (ordered 0x51 [])) = some (.done, [0]) := by decide +kernel
theorem test_unknown_order : lastAnswer (after .unknownOrder (ordered 0x99 [])) = some (.invalid, []) := by decide +kernel

/-! ### Ends of accesses -/

def demoSlot : List Byte := [1, 0x11, 0x34, 0x12] ++ List.replicate 60 0

def scanning : State :=
  (inFlight .scanRead .orderUnit []).withOrders { OrderUnit.initial with scan := some ⟨0, 31, none⟩, ready := [.scanRead 0] }
theorem test_scan_read_takes_an_order :
    (after (.scanReadDone demoSlot) scanning).shared.orders.scan
      = some ⟨0, 31, some ⟨0, 0x11, 0x1234, List.replicate 48 0⟩⟩ := by decide +kernel
theorem test_scan_goes_on :
    (after (.scanReadDone (List.replicate 64 0)) scanning).bus.inFlight = some ⟨.orderUnit, .scanRead, 64, [], false⟩ := by decide +kernel
def taking : State :=
  (inFlight .takenWrite .orderUnit [2]).withOrders
    { OrderUnit.initial with scan := some ⟨0, 31, some (demoOrder 0x11 [0])⟩, ready := [.takenWrite 0] }
theorem test_taken_order_is_queued : (after .takenWriteDone taking).shared.orders.queue = [demoOrder 0x11 [0]] := by decide +kernel
def answering (ready : ReadyAccess) (kind : AccessKind) (owner : AnswerOwner) : State :=
  (inFlight kind .orderUnit []).withOrders
    { OrderUnit.initial with answers := [⟨3, 0x1234, .done, [7], owner⟩], ready := [ready], carrying := true }
theorem test_answer_fields_then_state :
    ((after .answerFieldsWriteDone (answering .answerFields .answerFields .order)).bus.inFlight.map fun a => (a.address, a.data))
      = some (192, [3]) := by decide +kernel
theorem test_answered_raises_answer :
    (after .answeredWriteDone (answering .answered .answered .order)).shared.notice = 1 := by decide +kernel
theorem test_quiet_is_entered : (after .answeredWriteDone (answering .answered .answered .quiet)).regs.part = .quiet := by decide +kernel

/-- Track A's writer with a page and a close record to write. -/
def demoClose : CloseRecord := ⟨.A, Passage.opened 1 .up .direct 0 .reserved false, 0⟩
def demoPage : Page := ⟨0x2000, 32, 0, 0, 0, 0, false⟩
def writing (kind : AccessKind) (data : List Byte) (g : Page) : State :=
  { inFlight kind .pageWriterA data with
    pages := ⟨[], [], ⟨⟨some g, 1⟩, ⟨none, 0⟩⟩⟩
    tracks := ⟨{ trackIdle with records := ⟨[.close demoClose], 1, 0, 0⟩ }, .initial⟩ }
theorem test_close_record_ends_its_page :
    (after .recordWriteDone (writing .recordWrite (List.replicate 64 0) demoPage)).pages.writers.a.current
      = some ⟨0x2000, 96, 1, 0, 1, 0, true⟩ := by decide +kernel
theorem test_page_is_returned :
    (after .pageHeaderWriteDone (writing .pageHeader [] { demoPage with ended := true })).shared.notice = 2 := by decide +kernel
def reclaiming (left : List Word) : State :=
  (inFlight .reclaimHeader .orderUnit []).withOrders
    { OrderUnit.initial with reclaim := some ⟨3, 0x1234, left, 2⟩, ready := [.reclaimHeader], carrying := true }
theorem test_last_reclaimed_page_is_answered :
    lastAnswer (after .reclaimHeaderWriteDone (reclaiming [0x2000])) = some (.done, [2]) := by decide +kernel
def captured (kind : AccessKind) (waiting : List CaptureEntry) : State :=
  { inFlight kind .captureWriter [] with
    shared := { Shared.initial with capture := ⟨.recording, 0x4000, 16, 16, .A, .own, 1, 1, 16, false, waiting⟩ } }
theorem test_last_entry_then_header :
    ((after .captureEntryWriteDone (captured .captureEntry [⟨0, 0, .A, 0, []⟩])).bus.inFlight.map fun a => (a.kind, a.address))
      = some (.captureHeader, 0x4000) := by decide +kernel
theorem test_capture_is_held :
    (after .captureHeaderWriteDone (captured .captureHeader [])).shared.capture.state = .held := by decide +kernel
theorem test_bus_error_halts :
    (after .busError (inFlight .pageHeader .pageWriterA [])).regs
      = ⟨.halted, .power, none, false, some .pageWriterA, 0x1000, 0, 0⟩ := by decide +kernel

/-! ### Registers and resets -/

theorem test_run : (after (.run 0x101) State.reset).regs = ⟨.running, .power, none, false, none, 0, 1, 0⟩ := by decide +kernel
theorem test_run_with_a_bad_anchor :
    (after (.run 0x1) { State.reset with regs := { State.reset.regs with anchor := 4095 } }).regs.badAnchor = true := by decide +kernel
theorem test_soft_reset_keeps_the_configuration :
    (after (.softReset 0x2) (runningAt 5 trackCrossing)).tracks.a = { trackDisabled with passageNumber := 1 } := by decide +kernel
theorem test_notice_mask : (after (.noticeMaskWrite 0x3F00) State.reset).regs.noticeMask = 0x3F := by decide +kernel
theorem test_anchor : (after (.anchorWrite 0x12345678) State.reset).regs.anchor = 0x12345678 := by decide +kernel
theorem test_attention_wakes : (after (.attention 0) (inPart .quiet trackIdle)).regs.wakeCause = some .attention := by decide +kernel
theorem test_notice_clear :
    (after (.noticeClear 0x5) { State.reset with shared := { Shared.initial with notice := 0x3F } }).shared.notice = 0x3A := by decide +kernel
theorem test_read_only_write : after (.readOnlyRegisterWrite 0x00 0xFFFFFFFF) State.reset = State.reset := by decide +kernel
theorem test_power_on_reset : after .powerOnReset (runningAt 7 trackCrossing) = State.reset := by decide +kernel
theorem test_hard_reset : (after .hardReset (runningAt 7 trackCrossing)).regs.resetCause = .hard := by decide +kernel

/-- STATUS of a running part after a power-on reset, and IDENT (R182). -/
theorem test_registers_read :
    [(runningAt 0 trackIdle).readRegister 0x04, (runningAt 0 trackIdle).readRegister 0x00] = [some 0x11, some 0x4C723201] := by decide +kernel

/-- The first command after reset, placed in the queue from outside (log 28). -/
theorem test_step_runs_the_front :
    (match step { State.reset with pending := [.anchorWrite 0x1000, .run 1] } with
      | .next t => (t.regs.anchor, t.pending)
      | _ => (0, [])) = (0x1000, [.run 1]) := by decide +kernel

/-! ### Every obligation's hypotheses are met somewhere

One theorem for each obligation with hypotheses: for each of its clauses a concrete state and operands, at the boundaries of their ranges. -/

theorem test_meets_IdleStep :
    ((runningAt 119999999 trackApproach).pending = [] ∧ (runningAt 119999999 trackApproach).dueExpiries = [])
      ∧ (runningAt 120000000 trackApproach).dueExpiries = [.approachTimeout .A] := by decide +kernel

theorem test_meets_Expiries :
    Instr.stallExpiry .A ∉ (runningAt 2999999 trackCrossing).dueExpiries
      ∧ (runningAt 3000000 trackCrossing).dueExpiries = [.stallExpiry .A]
      ∧ (runningAt 600000000 trackStanding).dueExpiries = [.standingExpiry .A]
      ∧ (runningAt 5000000 trackDraining).dueExpiries = [.settleExpiry .A]
      ∧ (runningAt 120000000 trackWithdrawn).dueExpiries = [.withdrawnExpiry .A]
      ∧ ((runningAt 10000 trackIdle).withOrders { OrderUnit.initial with scanTimer := some ⟨0, 10000⟩ }).dueExpiries
          = [.scanTimerExpiry]
      ∧ (runningAt 900000000 { trackIdle with zero := some (suspendedZero .automatic) }).dueExpiries = [.holdTimerExpiry .A]
      ∧ (edgesAt (runningAt 0 trackIdle) [(0, .head1, .on), (10000000, .head2, .on)]).dueExpiries
          = [.stuckTimerExpiry .A .B1 .head1] := by decide +kernel

theorem test_meets_IsExpiry : IsExpiry (.stallExpiry .A) := trivial

theorem test_meets_SoftReset : (0x2#32).getLsbD 1 = true := by decide

theorem test_meets_Run :
    (0x1#32).getLsbD 0 = true ∧ (0x1#32).getLsbD 1 = false ∧ State.reset.regs.part = .stopped
      ∧ State.reset.regs.anchor.toNat % 4096 = 0 ∧ (4096#32).toNat % 4096 = 0 ∧ (4095#32).toNat % 4096 ≠ 0
      ∧ (runningAt 0 trackIdle).regs.part ≠ .stopped := by decide

theorem test_meets_RegisterWrites :
    (0x3F00#32).getLsbD 1 = false ∧ (0x3F00#32).getLsbD 0 = false ∧ (0x3F01#32).getLsbD 1 = false
      ∧ (inPart .halted trackIdle).regs.part ≠ .stopped ∧ State.reset.regs.part = .stopped
      ∧ (inPart .quiet trackIdle).regs.part = .quiet ∧ (runningAt 0 trackIdle).regs.part = .running := by decide

/-- The IRQ line with ALERT raised and masked in, and with ALERT raised alone (R181). -/
theorem test_irq_line :
    ({ (runningAt 0 trackIdle).withNotice .alert with regs := { State.reset.regs with noticeMask := 0x04 } } : State).irq = true
      ∧ ((runningAt 0 trackIdle).withNotice .alert).irq = false := by decide

/-- An order unit with n orders queued. -/
def unitWith (n : Nat) (pending : Bool) : OrderUnit :=
  { OrderUnit.initial with queue := List.replicate n (demoOrder 0x02 []), pendingScan := pending }

theorem test_meets_Scans :
    ({ unitWith 0 false with scan := some ⟨0, 31, none⟩ } : OrderUnit).scan ≠ none
      ∧ (unitWith 7 false).scan = none ∧ (unitWith 7 false).queue.length < 8 ∧ (unitWith 7 false).load < 8
      ∧ (unitWith 8 false).scan = none ∧ 8 ≤ (unitWith 8 false).queue.length ∧ 8 ≤ (unitWith 8 false).load
      ∧ (unitWith 8 false).pendingScan = false ∧ (unitWith 7 true).pendingScan = true ∧ (unitWith 7 true).queue.length < 8
      ∧ (unitWith 8 true).pendingScan = true ∧ 8 ≤ (unitWith 8 true).load ∧ 8 ≤ (unitWith 8 true).queue.length := by
  decide

theorem test_meets_ScanTimer :
    ((runningAt 10000 trackIdle).withOrders { OrderUnit.initial with scanTimer := some ⟨0, 10000⟩ }).RunOut (some ⟨0, 10000⟩) :=
  ⟨_, rfl, by decide⟩

theorem test_meets_HeadEdge :
    (inPart .halted trackIdle).regs.part = .halted ∧ (runningAt 0 trackIdle).regs.part ≠ .halted
      ∧ ((runningAt 0 trackDisabled).tracks.get .A).mode = .disabled ∧ ((runningAt 0 trackIdle).tracks.get .A).mode ≠ .disabled
      ∧ pointExists ((runningAt 0 trackIdle).tracks.get .A).config.platforms .B3 = false
      ∧ pointExists ((runningAt 0 trackIdle).tracks.get .A).config.platforms .B2 = true
      ∧ (inPart .quiet trackIdle).regs.part = .quiet := by decide

/-- Track A IDLE with point B1 in a given state, both heads' timers apart. -/
def withPoint (st : PointState) : TrackState :=
  { trackIdle with points := { trackIdle.points with b1 := ⟨st, st.levels, ⟨0, 11250⟩, ⟨none, none⟩⟩ } }

theorem test_meets_HeadEdgeDecoder :
    (runningAt 0 (withPoint .highTail)).EdgeReaches .A .B1
      ∧ ((withPoint .highTail).points.get .B1).level.get .head1 = levelOn .off
      ∧ ((withPoint .clear).points.get .B1).level.get .head1 ≠ levelOn .on ∧ (pointNext .clear .head1 .on).2 = none
      ∧ ((withPoint .faulted).points.get .B1).level.get .head1 ≠ levelOn .on
      ∧ ((withPoint .highTail).points.get .B1).level.get .head2 ≠ levelOn .off
      ∧ ((withPoint .highTail).points.get .B1).state ≠ .faulted ∧ (pointNext .highTail .head2 .off).2 = some .up :=
  ⟨⟨by decide, by decide, by decide⟩, by decide, by decide, by decide, by decide, by decide, by decide, by decide⟩

theorem test_meets_PointTables :
    (Point.cleared.level.get .head1 ≠ levelOn .on ∧ Point.cleared.state ≠ .faulted)
      ∧ (Point.cleared.fault.level.get .head2 ≠ levelOn .on ∧ Point.cleared.fault.state = .faulted) := by decide

/-- A pass in each direction, and the speeds at the ends of R10's ranges. -/
theorem test_meets_Pass :
    TrackState.decodeEdge (withPoint .highTail) 20000 .B1 .head2 .off
        = .changed ⟨.clear, ⟨false, false⟩, ⟨0, 11250⟩, ⟨none, none⟩⟩ (some ⟨.B1, .up, 11250, some 800⟩)
      ∧ TrackState.decodeEdge (withPoint .lowTail) 20000 .B1 .head1 .off
        = .changed ⟨.clear, ⟨false, false⟩, ⟨0, 11250⟩, ⟨none, none⟩⟩ (some ⟨.B1, .down, 0, none⟩)
      ∧ ((withPoint .lowTail).points.get .B1).level.one = true ∧ ((withPoint .highTail).points.get .B1).level.two = true
      ∧ [0, 5996, 6000, 2147483647, 2147483648].map (passSpeed 250) = [none, none, some 1500, some 0, none] := by decide +kernel

theorem test_meets_StuckHead :
    (edgesAt (runningAt 0 trackIdle) [(0, .head1, .on), (10000000, .head2, .on)]).RunOut
        ((((edgesAt (runningAt 0 trackIdle) [(0, .head1, .on), (10000000, .head2, .on)]).tracks.get .A).points.get .B1).stuck.get .head1) :=
  ⟨⟨0, 10000000⟩, by decide +kernel, by decide +kernel⟩

def fourChannels : List ChannelEntry := [⟨100, false⟩, ⟨101, false⟩, ⟨102, false⟩, ⟨103, false⟩]

theorem test_meets_Frames :
    (inPart .halted trackIdle).regs.part = .halted ∧ (inPart .quiet trackIdle).regs.part = .quiet
      ∧ (runningAt 0 trackIdle).regs.part ≠ .halted ∧ (runningAt 0 trackIdle).regs.part ≠ .quiet
      ∧ 8 < (List.replicate 9 channelZero).length ∧ ((runningAt 0 trackDisabled).tracks.get .A).mode = .disabled
      ∧ (List.replicate 3 channelZero).length ≠ 2 * ((runningAt 0 trackIdle).tracks.get .A).config.platforms
      ∧ fourChannels.length = 2 * ((runningAt 0 trackIdle).tracks.get .A).config.platforms
      ∧ ((runningAt 0 trackIdle).tracks.get .A).mode ≠ .disabled := by decide

/-- A full window takes no sample (R29). -/
def fullWindow : Window := ⟨⟨0, 0⟩, 4294967295, false, false, false, 0⟩

theorem test_meets_AcceptedFrame :
    (runningAt 0 trackApproach).FrameAccepted .A fourChannels ∧ ((runningAt 0 trackApproach).tracks.get .A).zero = none
      ∧ (runningAt 0 trackApproach).shared.capture.taking = false
      ∧ (trackApproach.platforms.get 2).window = some ⟨⟨0, 0⟩, 0, false, false, false, 0⟩
      ∧ (trackApproach.platforms.get 3).window = none ∧ 4294967295 ≤ fullWindow.sampleCount :=
  ⟨⟨rfl, by decide, by decide, by decide⟩, by decide, by decide, by decide, by decide, by decide⟩

/-- A zero that has taken n frames of 64. -/
def countingZero (n : Nat) : ZeroOperation := { ZeroOperation.started .automatic 64 900 with frames := n }

/-- A suspended operation of ten frames whose track goes back to IDLE, with no frame accepted in between and with one (R140). -/
def resumed (z : ZeroOperation) (frames : List (Byte × List ChannelEntry)) : State :=
  let c := (sceneOf { trackApproach with zero := some z, sequence := some 4 }).suspendZero z
  let c := frames.foldl (fun c f => c.acceptFrame f.1 f.2) c
  runningAt 0 c.approachExpires.trk

/-- The first frame after the resumption is not compared with the last one before the suspension; it is compared with one that came in
between, and a later gap restarts the operation as ever. -/
theorem test_first_frame_after_a_resumption :
    [after (.sampleFrame true .A 9 fourChannels) (resumed (countingZero 10) []),
        after (.sampleFrame true .A 9 fourChannels) (resumed (countingZero 10) [(5, fourChannels)]),
        after (.sampleFrame true .A 6 fourChannels) (resumed (countingZero 10) [(5, fourChannels)]),
        after (.sampleFrame true .A 20 fourChannels) (after (.sampleFrame true .A 9 fourChannels) (resumed (countingZero 10) []))].map
      (fun s => (s.tracks.a.zero.map fun z => (z.frames, z.restarts, z.startsRun)))
      = [some (11, 0, false), some (1, 1, false), some (11, 0, false), some (1, 1, false)] := by decide +kernel

theorem test_meets_GapAfterASuspension :
    ((resumed (countingZero 10) []).tracks.get .A).zero.map (fun z => (z.state, z.startsRun)) = some (.accumulating, true)
      ∧ (countingZero 63).startsRun = false := by decide +kernel

theorem test_meets_ZeroEngine :
    (sceneOf { trackIdle with zero := some (countingZero 63) }).trk.zero = some (countingZero 63)
      ∧ (countingZero 63).state = .accumulating ∧ (suspendedZero .automatic).state = .suspended
      ∧ (countingZero 63).frames + 1 = (countingZero 63).target ∧ (countingZero 62).frames + 1 ≠ (countingZero 62).target
      ∧ (∀ i, i < 2 * trackIdle.config.platforms → (fourChannels.getD i ⟨0, false⟩).overrange = false)
      ∧ (List.getD [⟨0, false⟩, ⟨0, false⟩, ⟨0, false⟩, (⟨0, true⟩ : ChannelEntry)] 3 ⟨0, false⟩).overrange = true := by decide

/-- A frame after a gap, with a zero ACCUMULATING and the capture unit recording: the zero restarts and takes it, and so does the unit. -/
def zeroingAndCapturing : State :=
  { runningAt 7 { trackIdle with zero := some (countingZero 63), sequence := some 4 } with
    shared :=
      { Shared.initial with time := 7, capture := ⟨.recording, 0x4000, 16, 16, .A, .own, 1, 1, 0, true, []⟩ } }

theorem test_meets_AcceptedFrameInAnOperation :
    zeroingAndCapturing.FrameAccepted .A fourChannels ∧ (zeroingAndCapturing.tracks.get .A).zero ≠ none
      ∧ zeroingAndCapturing.shared.capture.taking = true
      ∧ (((after (.sampleFrame true .A 6 fourChannels) zeroingAndCapturing).tracks.get .A).zero.map fun z => (z.frames, z.restarts))
          = some (1, 1)
      ∧ (after (.sampleFrame true .A 6 fourChannels) zeroingAndCapturing).shared.capture.waiting.map (·.sequence) = [6] :=
  ⟨⟨rfl, by decide, by decide, by decide⟩, by decide, by decide, by decide +kernel, by decide +kernel⟩

/-- A zero asked for by slot 3 completes at its target: a DONE answer (R141, R146). -/
theorem test_meets_ZeroCompletion :
    ({ countingZero 63 with origin := .order 3 0x1234 } : ZeroOperation).frames + 1
        = ({ countingZero 63 with origin := .order 3 0x1234 } : ZeroOperation).target
      ∧ lastAnswer (after (.sampleFrame true .A 0 fourChannels)
          (runningAt 0 { trackIdle with zero := some { countingZero 63 with origin := .order 3 0x1234 } }))
        = some (.done, [2, 0, 0, 0, 2, 0, 0, 0, 2, 0, 0, 0, 2, 0, 0, 0] ++ List.replicate 16 0 ++ le16 64 ++ le16 0 ++ le32 0) := by
  decide +kernel

/-- A short empty before-window at a zeroed channel, a long one, and a step whose estimate is valid. -/
def shortWindow : WindowStats := ⟨⟨some 5, some 5⟩, 15, true, false, false, false⟩
def longWindow : WindowStats := ⟨⟨some 1000, some 2000⟩, 16, false, false, false, true⟩
def zeroedChannel : Channel := ⟨65536, 3, true, false⟩
def demoStep : PendingStep := ⟨⟨1, false⟩, .entry, some 800, shortWindow⟩
def demoRecord : AxleRecord := newRecord AxleTable.empty 1 0 (some 800)

theorem test_meets_Estimates :
    (shortWindow.sampleCount < 16 ∧ shortWindow.empty = true ∧ zeroedChannel.zeroValid = true)
      ∧ (16 ≤ longWindow.sampleCount ∧ longWindow.empty = false)
      ∧ stepEstimate trackDisabled.config .mark ⟨zeroedChannel, zeroedChannel⟩ demoStep longWindow = (some ⟨997, 1997⟩, true)
      ∧ stepEstimate trackDisabled.config .exclude ⟨zeroedChannel, zeroedChannel⟩ demoStep longWindow = (none, true)
      ∧ demoRecord.estimates.length < 8 ∧ 8 ≤ (List.replicate 8 (⟨0, 0⟩ : Rails Int)).length
      ∧ (demoStep.entry.ghost = false ∧ (⟨⟨1, true⟩, .exit, none, shortWindow⟩ : PendingStep).entry.ghost = true)
      ∧ (∀ r ∈ AxleTable.empty.records, r.serial ≠ demoStep.entry.serial)
      ∧ (trackCrossing.platforms.get 1).window.isSome = true ∧ (trackCrossing.platforms.get 1).step.isSome = true
      ∧ (trackCrossing.platforms.get 2).window.isSome = true ∧ (trackCrossing.platforms.get 2).step = none := by decide +kernel

theorem test_meets_Loads :
    0 < 1 ∧ 2 * (roundDiv (-3) 2 * 2 - -3).natAbs = 2 ∧ ([] : List (Rails Int)) = [] ∧ [(⟨0, 0⟩ : Rails Int)] ≠ [] := by decide

theorem test_meets_ApproachExpiry :
    (runningAt 120000000 trackApproach).RunOut ((runningAt 120000000 trackApproach).tracks.get .A).timer
      ∧ ((runningAt 120000000 trackApproach).tracks.get .A).mode = .approach := ⟨⟨⟨0, 120000000⟩, by decide, by decide⟩, by decide⟩

theorem test_meets_PassageExpiries :
    ((runningAt 3000000 trackCrossing).RunOut trackCrossing.timer ∧ trackCrossing.mode = .crossing)
      ∧ ((runningAt 600000000 trackStanding).Coherent ∧ trackStanding.context.isSome = true
          ∧ (runningAt 600000000 trackStanding).RunOut trackStanding.timer ∧ trackStanding.mode = .standing)
      ∧ ((runningAt 5000000 trackDraining).Coherent ∧ trackDraining.context.isSome = true
          ∧ (runningAt 5000000 trackDraining).RunOut trackDraining.timer ∧ trackDraining.mode = .draining)
      ∧ ((runningAt 120000000 trackWithdrawn).Coherent ∧ trackWithdrawn.context.isSome = true
          ∧ (runningAt 120000000 trackWithdrawn).RunOut trackWithdrawn.timer ∧ trackWithdrawn.mode = .withdrawn)
      ∧ ∀ e ∈ (runningAt 0 trackCrossing).shared.classes, e.Sound :=
  ⟨⟨⟨⟨0, 3000000⟩, by decide, by decide⟩, by decide⟩,
    ⟨running_coherent _ standing_coherent, by decide, ⟨⟨0, 600000000⟩, by decide, by decide⟩, by decide⟩,
    ⟨running_coherent _ draining_coherent, by decide, ⟨⟨0, 5000000⟩, by decide +kernel, by decide⟩, by decide +kernel⟩,
    ⟨running_coherent _ withdrawn_coherent, by decide +kernel, ⟨⟨0, 120000000⟩, by decide +kernel, by decide⟩, by decide +kernel⟩,
    reset_classes_sound⟩

/-- A passage with a reserved close place whose second platform's window has drifted, and one without a drift (R109). -/
def driftWindow : Window := ⟨⟨1000, 1000⟩, 16, false, false, false, 0⟩
def trackDrifted : TrackState :=
  { trackCrossing with
    platforms := trackCrossing.platforms.set 2 ⟨some driftWindow, none, none⟩
    calibration := trackCrossing.calibration.set 2 ⟨⟨16777216, 0, true, false⟩, ⟨65536, 0, false, false⟩⟩ }

theorem test_meets_Drift :
    trackDrifted.Drifts ⟨false, 0⟩ 200 ∧ ¬ trackCrossing.Drifts ⟨false, 0⟩ 0
      ∧ trackDrifted.context.map (·.place) = some .reserved ∧ (∀ u ∈ Shared.initial.watch.toList, u.enabled = false) :=
  ⟨⟨by decide, 2, driftWindow, by decide, by decide, by decide, by decide, by decide, by decide, by decide, by decide, by decide,
      by decide, by decide, by decide, Or.inl ⟨by decide, by decide⟩⟩,
    fun h => h.1 rfl, by decide, by decide⟩

theorem test_drift_at_close :
    ((after (.settleExpiry .A) (runningAt 5000000 { trackDrifted with
        mode := .draining, timer := some ⟨0, 5000000⟩, axles := .empty })).shared.notice,
      (after (.settleExpiry .A) (runningAt 5000000 trackDraining)).shared.notice) = (0x04, 0) := by decide +kernel

/-- The steps of a close: a passage that drifts and one that does not, a close place reserved and one lost, both kinds of its end. -/
theorem test_meets_CloseSteps :
    ((sceneOf trackCrossing).beginClose .ordered).closeAllWindows.checkDrift.sh.notice = 0
      ∧ ((sceneOf trackDrifted).beginClose .ordered).closeAllWindows.checkDrift.sh.notice = 0x04
      ∧ trackCrossing.context.map (·.place) = some .reserved
      ∧ ((sceneOf { trackIdle with records := ⟨[], 2, 0, 0⟩ }).takePass ⟨.B0, .up, 0, some 800⟩).trk.context.map (·.place) = some .lost
      ∧ satAdd 65535 65535 1 = 65535 ∧ satAdd 65535 65534 1 = 65535 := by decide +kernel

theorem test_meets_PassesOutside :
    (sceneOf trackIdle).trk.mode = .idle ∧ (sceneOf trackApproach).trk.mode = .approach
      ∧ (sceneOf trackCrossing).trk.mode.inPassage = true
      ∧ boundaryIndex .B1 = some 1 ∧ ¬ ((Direction.up = .up ∧ 1 = 0) ∨ (Direction.up = .down ∧ 1 = trackIdle.config.platforms))
      ∧ boundaryIndex .B0 = some 0 ∧ ¬ ((Direction.down = .up ∧ 0 = 0) ∨ (Direction.down = .down ∧ 0 = trackIdle.config.platforms)) := by
  decide

theorem test_meets_ZeroOperations :
    (sceneOf trackIdle).trk.zero = none
      ∧ (countingZero 0).suspendedTotal < (countingZero 0).holdLimit * 1000000
      ∧ ({ countingZero 0 with suspendedTotal := 900000000 }).holdLimit * 1000000 ≤ 900000000
      ∧ (suspendedZero (.order 3 0x1234)).origin = .order 3 0x1234 ∧ (countingZero 0).origin = .automatic
      ∧ (∀ means, ZeroEnd.failed 1 ≠ .done means) :=
  ⟨by decide, by decide, by decide, by decide, by decide, fun _ e => nomatch e⟩

theorem test_meets_HoldTimer :
    (runningAt 900000000 { trackApproach with zero := some (suspendedZero .automatic) }).RunOut (suspendedZero .automatic).holdTimer :=
  ⟨⟨0, 900000000⟩, by decide, by decide⟩

theorem test_meets_PassageOpens :
    ((sceneOf trackIdle).trk.Coherent ∧ (sceneOf trackIdle).trk.WindowsMatch) ∧ (sceneOf trackIdle).trk.TablesEmpty
      ∧ ((sceneOf trackApproach).trk.Coherent ∧ (sceneOf trackApproach).trk.WindowsMatch) ∧ (sceneOf trackApproach).trk.TablesEmpty
      ∧ boundaryIndex .B0 = some 0 ∧ boundaryIndex .B2 = some trackIdle.config.platforms :=
  ⟨idle_coherent, fun _ => by decide, approach_coherent, fun _ => by decide, by decide, by decide⟩

/-- With both close places in use a passage opens LOST and is counted (R165). -/
theorem test_passage_opens_lost :
    let k := ((sceneOf { trackIdle with records := ⟨[], 2, 255, 65535⟩ }).takePass ⟨.B0, .up, 0, some 800⟩).trk
    (k.context.map (·.place), k.records) = (some .lost, ⟨[], 2, 255, 65535⟩) := by decide +kernel

theorem test_meets_NextMode :
    (sceneOf trackCrossing).trk.axles.onBridge ≠ [] ∧ (sceneOf trackDraining).trk.axles.onBridge = []
      ∧ (sceneOf trackDraining).trk.mode = .draining ∧ ({ trackDraining with mode := .crossing }).mode = .crossing := by decide +kernel

/-- A middle pass and an exit pass of the open passage meet the conditions of the chain, and move and record. -/
theorem test_meets_Chain :
    trackCrossing.mode.inPassage = true ∧ trackCrossing.context.isSome = true
      ∧ [PointCode.B0, .B1, .B2].map boundaryIndex = [some 0, some 1, some 2] ∧ trackCrossing.config.platforms = 2
      ∧ (trackCrossing.axles.onBridge.length < 32 ∧ trackCrossing.axles.backedOut = [] ∧ trackCrossing.axles.lastSerial < 65535)
      ∧ (trackCrossing.axles.records.find? fun r => r.serial == 1).isSome = true
      ∧ ((sceneOf trackCrossing).movePass .up ⟨.B1, .up, 0, some 800⟩ (.forwardMiddle 1)).isSome = true
      ∧ (trackCrossing.platforms.get 1).last.isSome = true := by
  decide +kernel

/-- A bridge with three axles, the middle one a ghost, and lists behind and ahead of it. -/
def busyAxles : AxleTable :=
  { AxleTable.empty with
    onBridge := [⟨4, false, 2⟩, ⟨5, true, 1⟩, ⟨6, false, 1⟩], backedOut := [⟨7, false⟩], departed := [⟨3, false⟩], lastSerial := 7 }

theorem test_meets_Moves :
    busyAxles.onBridge = [] ++ ⟨4, false, 2⟩ :: [⟨5, true, 1⟩, ⟨6, false, 1⟩]
      ∧ busyAxles.onBridge = [⟨4, false, 2⟩] ++ ⟨5, true, 1⟩ :: [⟨6, false, 1⟩]
      ∧ busyAxles.onBridge = [⟨4, false, 2⟩, ⟨5, true, 1⟩] ++ ⟨6, false, 1⟩ :: []
      ∧ (∀ y ∈ [(⟨4, false, 2⟩ : BridgeEntry)], y.platform ≠ 1)
      ∧ (∀ y ∈ busyAxles.onBridge, y.platform ≠ 3) ∧ busyAxles.backedOut = ⟨7, false⟩ :: [] ∧ AxleTable.empty.backedOut = []
      ∧ busyAxles.backedOut.length < 32
      ∧ List.replicate 32 (⟨1, false⟩ : Entry) = List.replicate 31 ⟨1, false⟩ ++ [⟨1, false⟩] ∧ 31 ≤ (List.replicate 31 (⟨1, false⟩ : Entry)).length
      ∧ 32 ≤ (List.replicate 32 (⟨1, false, 1⟩ : BridgeEntry)).length ∧ busyAxles.onBridge.length < 32
      ∧ busyAxles.departed = ⟨3, false⟩ :: [] ∧ AxleTable.empty.departed = [] ∧ trackCrossing.context.isSome = true := by decide

/-- The lead spacing at the boundaries of its rule, and where it is absent (R69). -/
theorem test_meets_LeadSpacing :
    let at800 : AxleTable := { AxleTable.empty with lastSerial := 1, spacingReference := some ⟨0, some 800⟩ }
    [leadSpacing at800 81000 (some 800), leadSpacing at800 0x7FFFFFFF (some 800), leadSpacing at800 0x80000000 (some 1)]
        = [some 180, some 65535, some 65535]
      ∧ [leadSpacing at800 81000 none, leadSpacing AxleTable.empty 81000 (some 800),
          leadSpacing { at800 with discardSeen := true } 81000 (some 800),
          leadSpacing { at800 with spacingReference := some ⟨0, none⟩ } 81000 (some 800)] = [none, none, none, none] := by
  decide +kernel

theorem test_meets_PassesThatMoveNothing :
    (sceneOf trackCrossing).movePass .up ⟨.B2, .up, 0, none⟩ .forwardExit = none ∧ (2 ≤ 2 ∧ 1 ≤ 2) :=
  ⟨by unfold Scene.movePass; rfl, by decide⟩

/-- A bridge of 32 axles, and an empty stack with the last serial used, in an open passage. -/
def fullTrack : TrackState := { trackCrossing with axles := { trackCrossing.axles with onBridge := List.replicate 32 ⟨1, false, 1⟩ } }
def spentTrack : TrackState := { trackCrossing with axles := { trackCrossing.axles with lastSerial := 65535 } }

theorem test_meets_Overflow :
    (fullTrack.Coherent ∧ fullTrack.WindowsMatch) ∧ (spentTrack.Coherent ∧ spentTrack.WindowsMatch)
      ∧ fullTrack.mode.inPassage = true ∧ 32 ≤ fullTrack.axles.onBridge.length
      ∧ spentTrack.axles.backedOut = [] ∧ 65535 ≤ spentTrack.axles.lastSerial
      ∧ classifyPass fullTrack.config.platforms .up 0 .up = .forwardEntry := by
  obtain ⟨⟨h1, h2, h3, h4, h5, h6, h7⟩, hw⟩ := crossing_coherent
  exact ⟨⟨⟨h1, h2, h3, h4, h5, by decide, h7⟩, hw⟩, ⟨⟨h1, h2, h3, h4, h5, h6, h7⟩, hw⟩, by decide, by decide, by decide, by decide,
    by decide⟩

theorem test_meets_ClosingWindow :
    (trackCrossing.platforms.get 1).window.isSome = true ∧ (trackCrossing.platforms.get 2).window.isSome = true
      ∧ 0 < fullWindow.sampleCount := by decide

theorem test_meets_Lookahead :
    (∀ e ∈ List.replicate 16 ClassEntry.off, e.mode = .off) ∧ (⟨.count, 8, [], 0, 0, .other, 0, 0, 0, false⟩ : ClassEntry).n = 8
      ∧ (∀ e ∈ exampleClasses, e.mode ≠ .off ∧ e.n ≤ 4) := by decide

/-- The lists of example 6.10 before its second wagon, and a list that nothing matches. -/
def groupedTrack : TrackState :=
  { trackCrossing with group := exampleWagon2 ++ exampleWagon3.take 1, axles := { AxleTable.empty with lastSerial := 16 } }

theorem test_meets_Matching :
    groupedTrack.firstMatch false exampleClasses = some 1 ∧ exampleClasses[1]?.isSome = true
      ∧ ({ groupedTrack with group := exampleWagon3.drop 3 } : TrackState).firstMatch false exampleClasses = none
      ∧ groupedTrack.context.isSome = true ∧ groupedTrack.endGapHolds false 300 8 = true
      ∧ ({ groupedTrack with axles := { AxleTable.empty with lastSerial := 9 } } : TrackState).endGapHolds true 300 9 = true := by
  decide +kernel

theorem test_meets_Sound : ∀ e ∈ exampleClasses, e.Sound := by
  intro e he
  simp only [exampleClasses, List.mem_cons, List.not_mem_nil, or_false] at he
  rcases he with rfl | rfl | rfl <;> exact ⟨by decide, by decide⟩

/-- A list as long as the lookahead, a shorter one and an empty one, under sound classes. -/
def grouping (l : List FinalAxle) : Scene :=
  { sceneOf { groupedTrack with group := l } with sh := { Shared.initial with classes := exampleClasses } }

theorem test_meets_Turns :
    (∀ e ∈ (grouping groupedTrack.group).sh.classes, e.Sound)
      ∧ lookahead exampleClasses = groupedTrack.group.length ∧ exampleWagon2.length < lookahead exampleClasses
      ∧ exampleWagon2 ≠ [] ∧ (grouping []).trk.group = [] ∧ (grouping exampleWagon2).closeFlush.trk.group = [] :=
  ⟨test_meets_Sound, by decide +kernel, by decide +kernel, by decide +kernel, rfl, by decide +kernel⟩

theorem test_meets_Wagon :
    (exampleWagon3.filterMap (·.speed) ≠ []) ∧ ([exampleAxle 1 none none 0 0].filterMap (·.speed) = [])
      ∧ 0 < wagon3.gross ∧ (formWagon .A 1 1 none [exampleAxle 1 none none 0 0] false).gross = 0 := by decide

/-- An open passage with n wagon records queued, its close place reserved or not (R130, R165). -/
def queueing (n : Nat) (place : ClosePlace) : TrackState :=
  { trackCrossing with
    context := some (Passage.opened 1 .up .direct 0 place false)
    records := ⟨List.replicate n (.wagon wagon3), 1, 0, 0⟩ }

theorem test_meets_HandOn :
    ((queueing 23 .reserved).records.queue.filter Record.isWagon).length = 23
      ∧ 24 ≤ ((queueing 24 .reserved).records.queue.filter Record.isWagon).length
      ∧ (Passage.opened 1 .up .direct 0 .lost false).place = .lost
      ∧ (queueing 24 .reserved).context = some (Passage.opened 1 .up .direct 0 .reserved false) := by decide +kernel

/-- A watch unit that hits every wagon, and an evaluation of wagon 3 of example 6.10 in which it stands as unit 0. -/
def alwaysHits (a : WatchAction) : WatchUnit := ⟨true, none, .grossAbove, 0, 0, a, .own, 65535⟩
def evaluating (u : WatchUnit) (c : CaptureState) : Evaluation :=
  ⟨wagon3, { Shared.initial with
    watch := Shared.initial.watch.set 1 u, capture := { CaptureUnit.disarmed with state := c } }, false⟩

theorem test_meets_Watch :
    (WatchUnit.initial.hits wagon3 = false) ∧ ((alwaysHits .mark).hits wagon3 = true ∧ (alwaysHits .mark).action = .mark)
      ∧ (alwaysHits .capture).action = .capture ∧ (evaluating (alwaysHits .capture) .armed).captureHit = false
      ∧ (evaluating (alwaysHits .capture) .armed).sh.watch.get 1 = alwaysHits .capture
      ∧ (evaluating (alwaysHits .capture) .armed).sh.capture.state = .armed
      ∧ (evaluating (alwaysHits .capture) .held).sh.capture.state ≠ .armed
      ∧ ({ evaluating (alwaysHits .capture) .recording with captureHit := true } : Evaluation).captureHit = true := by decide

/-- A recording with n waiting entries. -/
def recordingWith (n : Nat) (taking : Bool) : CaptureUnit :=
  ⟨.recording, 0x4000, 16, 16, .A, .own, 1, 1, n, taking, List.replicate n ⟨0, 0, .A, 0, []⟩⟩

theorem test_meets_Recordings :
    (recordingWith 15 true).taking = true ∧ (recordingWith 15 true).triggerTrack = .A ∧ (recordingWith 15 true).waiting.length < 16
      ∧ 16 ≤ (recordingWith 16 true).waiting.length ∧ (recordingWith 0 false).waiting = [] ∧ (recordingWith 0 false).taking = false
      ∧ (recordingWith 1 false).waiting = ⟨0, 0, .A, 0, []⟩ :: [] ∧ (recordingWith 0 true).taking = true
      ∧ (Track.B ≠ (recordingWith 0 true).triggerTrack ∧ (recordingWith 0 true).scope = .own) := by decide

theorem test_meets_AccessEnds :
    (inFlight .captureEntry .captureWriter []).Ends .captureEntry ⟨.captureWriter, .captureEntry, 0x1000, [], false⟩
      ∧ (inFlight .captureHeader .captureWriter []).Ends .captureHeader ⟨.captureWriter, .captureHeader, 0x1000, [], false⟩ :=
  ⟨inFlight_ends _ _ _, inFlight_ends _ _ _⟩

/-! The orders: for every kind a queue that carries it, and parameters for each clause. -/

theorem test_meets_Carries (k : TrackState) (kind : Byte) (params : List Byte) :
    (orderedOn k (demoOrder kind params)).Carries kind (demoOrder kind params) := ordered_carries k _

theorem test_meets_SetOptions :
    optionsOf (demoOrder 0x01 (le16 1000 ++ [1] ++ le16 64 ++ le16 60 ++ [1] ++ le16 0 ++ [0])).params
        = some ⟨1000, true, 64, 60, .exclude, 0, false⟩
      ∧ optionsOf (demoOrder 0x01 (le16 0 ++ [0] ++ le16 63 ++ le16 60 ++ [0] ++ le16 0 ++ [0])).params = none := by decide

theorem test_meets_Reports :
    trackOf (nat8 (demoOrder 0x21 [1, 1]).params 0) = some .B ∧ boolOf (nat8 (demoOrder 0x21 [1, 1]).params 1) = some true
      ∧ trackOf (nat8 (demoOrder 0x21 [2]).params 0) = none ∧ boolOf (nat8 (demoOrder 0x21 [0, 2]).params 1) = none
      ∧ (0x99#8) ∉ catalogue := by decide

theorem test_meets_ReadClass :
    15 < nat8 (demoOrder 0x31 [16]).params 0 ∧ nat8 (demoOrder 0x31 [15]).params 0 ≤ 15
      ∧ Shared.initial.classes[nat8 (demoOrder 0x31 [15]).params 0]? = some .off := by decide

/-- The four conditions of R184 hold in the one state and fail in the other. -/
theorem test_meets_Quiet :
    (∀ t : Track, (((ordered 0x03 []).tracks.get t).mode = .idle ∨ ((ordered 0x03 []).tracks.get t).mode = .disabled)
        ∧ ((ordered 0x03 []).tracks.get t).zero = none)
      ∧ ((orderedOn trackCrossing (demoOrder 0x03 [])).tracks.get .A).mode = .crossing
      ∧ (answering .answered .answered .quiet).Ends .answered ⟨.orderUnit, .answered, 0x1000, [], false⟩
      ∧ (answering .answered .answered .quiet).shared.orders.answers = ⟨3, 0x1234, .done, [7], .quiet⟩ :: [] :=
  ⟨fun t => by cases t <;> decide, by decide, ⟨rfl, rfl, rfl⟩, rfl⟩

/-- The ANSWERED write of a QUIET order when nobody asks for the port, and when track A's writer has a record and a lent page. -/
def resting (queue : List Record) : State :=
  let s := answering .answered .answered .quiet
  { s with
    tracks := ⟨{ s.tracks.a with records := ⟨queue, 1, 0, 0⟩ }, s.tracks.b⟩
    pages := ⟨[0x2000], [], ⟨none, 0⟩, ⟨none, 0⟩⟩ }

theorem test_meets_QuietEntry :
    (∀ r, ((resting []).withFreePort.modShared fun h => h.modOrders (·.answeredDone)).claimPages.servePages.request r = none)
      ∧ (((resting [.close demoClose]).withFreePort.modShared fun h => h.modOrders (·.answeredDone)).claimPages.servePages.request
          .pageWriterA).isSome = true
      ∧ (after .answeredWriteDone (resting [])).regs.part = .quiet
      ∧ (resting []).shared.orders.queue = [] ∧ (resting []).shared.orders.scan = none ∧ (resting []).shared.capture.state ≠ .recording :=
  ⟨fun r => by cases r <;> decide +kernel, by decide +kernel, by decide +kernel, rfl, rfl, by decide⟩

theorem test_meets_SetTrack :
    trackOf (nat8 (demoOrder 0x10 [2]).params 0) = none ∧ trackOf (nat8 (demoOrder 0x10 trackParams).params 0) = some .A
      ∧ trackConfigOf (demoOrder 0x10 trackParams).params = some trackDisabled.config
      ∧ trackConfigOf (demoOrder 0x10 [0, 5]).params = none ∧ TrackState.initial.mode = .disabled := by decide

theorem test_meets_EnableDisable :
    TrackState.initial.config.platforms = 0 ∧ trackDisabled.config.platforms ≠ 0 ∧ trackDisabled.mode = .disabled
      ∧ trackIdle.mode = .idle ∧ trackApproach.mode = .approach ∧ trackApproach.zero = none
      ∧ ({ trackIdle with zero := some (countingZero 0) } : TrackState).zero = some (countingZero 0)
      ∧ ({ trackApproach with zero := some (suspendedZero (.order 3 0x1234)) } : TrackState).mode = .approach
      ∧ (orderedOn trackCrossing (demoOrder 0x12 [0])).Coherent ∧ trackCrossing.mode.inPassage = true
      ∧ trackCrossing.context.isSome = true :=
  ⟨by decide, by decide, by decide, by decide, by decide, by decide, by decide, by decide, running_coherent 0 crossing_coherent, by decide, by decide⟩

theorem test_meets_WriteSpan :
    spanWriteOf (demoOrder 0x20 ([1, 8] ++ le32 16777216 ++ [1])).params = some ⟨.B, 8, 16777216, true⟩
      ∧ spanWriteOf (demoOrder 0x20 ([0, 1] ++ le32 1 ++ [0])).params = some ⟨.A, 1, 1, false⟩
      ∧ spanWriteOf (demoOrder 0x20 ([0, 9] ++ le32 1 ++ [0])).params = none
      ∧ (channelGet TrackState.initial.calibration 8).lock = false
      ∧ (channelGet (channelSet TrackState.initial.calibration 8 ⟨1, 0, false, true⟩) 8).lock = true := by decide

theorem test_meets_Zero :
    nat16 (demoOrder 0x22 ([0] ++ le16 63)).params 1 < 64 ∧ 64 ≤ nat16 (demoOrder 0x22 ([0] ++ le16 64)).params 1
      ∧ trackApproach.mode ≠ .disabled ∧ trackApproach.mode ≠ .idle ∧ 0 < Options.default.zeroHoldLimit
      ∧ ({ trackIdle with zero := some (countingZero 0) } : TrackState).zero ≠ none := by decide

theorem test_meets_WriteClass :
    classWriteOf (demoOrder 0x30 (classParams 1)).params
        = some ⟨3, ⟨.pattern, 2, [⟨170, 200⟩], 250, 41, .wagon, 10000, 2600, 10, true⟩⟩
      ∧ classWriteOf (demoOrder 0x30 ([15, 0] ++ List.replicate 46 0)).params = some ⟨15, .off⟩
      ∧ classWriteOf (demoOrder 0x30 ([16, 0] ++ List.replicate 46 0)).params = none
      ∧ Shared.initial.classes[3]? = some .off ∧ ({ ClassEntry.off with lock := true } : ClassEntry).lock = true := by decide

theorem test_meets_WriteClassCompletes :
    nat8 (demoOrder 0x30 ([15, 0] ++ List.replicate 46 0)).params 0 ≤ 15 ∧ nat8 (demoOrder 0x30 ([15, 0] ++ List.replicate 46 0)).params 1 = 0
      ∧ boolOf (nat8 (demoOrder 0x30 ([15, 0] ++ List.replicate 46 0)).params 42) = some false
      ∧ (nat8 (demoOrder 0x30 (classParams 1)).params 0 ≤ 15 ∧ nat8 (demoOrder 0x30 (classParams 1)).params 1 = 1
        ∧ boolOf (nat8 (demoOrder 0x30 (classParams 1)).params 42) = some true
        ∧ kindOf (nat8 (demoOrder 0x30 (classParams 1)).params 34) = some .wagon
        ∧ nat8 (demoOrder 0x30 (classParams 1)).params 2 = 2 ∧ nat8 (demoOrder 0x30 (classParams 1)).params 33 ≤ 254
        ∧ nat8 (demoOrder 0x30 (classParams 1)).params 41 ≤ 100
        ∧ nat16 (demoOrder 0x30 (classParams 1)).params 3 ≤ nat16 (demoOrder 0x30 (classParams 1)).params 5)
      ∧ Shared.initial.classes[15]? = some .off := by decide

theorem test_meets_SetWatch :
    watchWriteOf (demoOrder 0x40 watchParams).params = some ⟨3, ⟨true, none, .speedOutside, 100, 1500, .mark, .both, 0⟩⟩
      ∧ watchWriteOf (demoOrder 0x40 ([0, 1, 0, 1] ++ le32 131070 ++ [0, 0, 1, 0])).params
        = some ⟨0, ⟨true, some .A, .axleAbove, 131070, 0, .capture, .own, 0⟩⟩
      ∧ watchWriteOf (demoOrder 0x40 ([0, 1, 1, 2] ++ le32 100 ++ [0, 0, 0, 0])).params
        = some ⟨0, ⟨true, some .B, .shiftAbove, 100, 0, .mark, .own, 0⟩⟩
      ∧ watchWriteOf (demoOrder 0x40 ([0, 1, 1, 4] ++ le32 255 ++ [0, 0, 0, 0])).params
        = some ⟨0, ⟨true, some .B, .classIs, 255, 0, .mark, .own, 0⟩⟩
      ∧ watchWriteOf (demoOrder 0x40 ([0, 1, 1, 5] ++ le32 9 ++ [9, 0, 0, 0])).params
        = some ⟨0, ⟨true, some .B, .ungrouped, 0, 0, .mark, .own, 0⟩⟩
      ∧ watchWriteOf (demoOrder 0x40 ([4, 1, 1, 5])).params = none := by decide

theorem test_meets_SetCapture :
    (0 < nat16 (demoOrder 0x42 (le32 0 ++ le16 15)).params 4 ∧ nat16 (demoOrder 0x42 (le32 0 ++ le16 15)).params 4 < 16)
      ∧ 16 ≤ nat16 (demoOrder 0x42 (le32 0 ++ le16 16)).params 4 ∧ nat16 (demoOrder 0x42 []).params 4 = 0
      ∧ nat32 (demoOrder 0x42 (le32 8193)).params 0 % 8 ≠ 0
      ∧ 4294967296 < nat32 (demoOrder 0x42 (le32 4294966632)).params 0 + 32 + 40 * 16
      ∧ nat32 (demoOrder 0x42 (le32 4294966624)).params 0 + 32 + 40 * 16 ≤ 4294967296
      ∧ nat16 (demoOrder 0x42 (le32 0 ++ le16 16 ++ le16 15)).params 6 < 16
      ∧ (recordingWith 0 true).state = .recording ∧ CaptureUnit.disarmed.state ≠ .recording := by decide

def sixteenPages : List Word := (List.range 16).map fun i => BitVec.ofNat 32 (4096 * i)

theorem test_meets_LendPage :
    nat32 (demoOrder 0x50 (le32 4095)).params 0 % 4096 ≠ 0 ∧ nat32 (demoOrder 0x50 (le32 4294963200)).params 0 % 4096 = 0
      ∧ BitVec.ofNat 32 4096 ∈ (⟨[4096], [], ⟨none, 0⟩, ⟨none, 0⟩⟩ : PageBlock).addresses
      ∧ BitVec.ofNat 32 4294963200 ∉ (⟨sixteenPages, [], ⟨none, 0⟩, ⟨none, 0⟩⟩ : PageBlock).addresses
      ∧ 16 ≤ sixteenPages.length ∧ PageBlock.empty.lent.length < 16 := by decide

theorem test_meets_ReclaimPages :
    (ordered 0x51 []).pages.lent = [] ∧ ({ ordered 0x51 [] with pages := ⟨[4096], [], ⟨none, 0⟩, ⟨none, 0⟩⟩ } : State).pages.lent ≠ []
      ∧ (reclaiming [0x2000]).Ends .reclaimHeader ⟨.orderUnit, .reclaimHeader, 0x1000, [], false⟩
      ∧ (reclaiming [0x1000, 0x2000]).shared.orders.reclaim = some ⟨3, 0x1234, 0x1000 :: 0x2000 :: [], 2⟩ :=
  ⟨by decide, by decide, ⟨rfl, rfl, rfl⟩, rfl⟩

theorem test_reclaim_header :
    (reclaiming [0x2000]).shared.orders.access 0 .reclaimHeader
      = some ⟨.orderUnit, .reclaimHeader, 0x2000, [3, 0, 0, 0, 0, 0, 0, 0, 0, 0, 32, 0] ++ List.replicate 20 0, false⟩ := by decide

/-! The accesses, the registers and the invariants. -/

theorem test_meets_Scan :
    scanning.Ends .scanRead ⟨.orderUnit, .scanRead, 0x1000, [], false⟩ ∧ scanning.shared.orders.scan = some ⟨0, 31, none⟩
      ∧ demoSlot.getD 0 0 = 1#8 ∧ (List.replicate 64 (0 : Byte)).getD 0 0 ≠ 1#8
      ∧ taking.Ends .takenWrite ⟨.orderUnit, .takenWrite, 0x1000, [2], false⟩
      ∧ taking.shared.orders.scan = some ⟨0, 31, some (demoOrder 0x11 [0])⟩ :=
  ⟨⟨rfl, rfl, rfl⟩, rfl, by decide, by decide, ⟨rfl, rfl, rfl⟩, rfl⟩

theorem test_meets_Answers :
    (answering .answerFields .answerFields .order).Ends .answerFields ⟨.orderUnit, .answerFields, 0x1000, [], false⟩
      ∧ (answering .answered .answered .zero).Ends .answered ⟨.orderUnit, .answered, 0x1000, [], false⟩
      ∧ (answering .answered .answered .zero).shared.orders.answers = ⟨3, 0x1234, .done, [7], .zero⟩ :: []
      ∧ (AnswerOwner.zero ≠ .quiet ∧ AnswerOwner.order ≠ .quiet) :=
  ⟨⟨rfl, rfl, rfl⟩, ⟨rfl, rfl, rfl⟩, rfl, by decide⟩

/-- The first 64 of the 96 bytes of a wagon record of eight axles, and its last 32; a close record in one access of 64. -/
def demoWagon : Wagon := formWagon .A 1 1 none (List.replicate 8 (exampleAxle 1 none none 0 0)) false

theorem test_meets_Records :
    (writing .recordWrite (List.replicate 64 0) demoPage).Ends .recordWrite ⟨.pageWriterA, .recordWrite, 0x1000, List.replicate 64 0, false⟩
      ∧ (writing .recordWrite [] demoPage).pages.writers.a.current = some demoPage
      ∧ (Record.wagon demoWagon).size = 96 ∧ 0 + 64 < (Record.wagon demoWagon).size ∧ (Record.wagon demoWagon).size ≤ 64 + 32
      ∧ (Record.close demoClose).size ≤ 0 + 64
      ∧ ({ demoPage with fill := 4000 } : Page).fill + (Record.wagon demoWagon).size = 4096
      ∧ 4096 < ({ demoPage with fill := 4008 } : Page).fill + (Record.wagon demoWagon).size
      ∧ (writing .pageHeader [] demoPage).Ends .pageHeader ⟨.pageWriterA, .pageHeader, 0x1000, [], false⟩ :=
  ⟨⟨rfl, rfl, rfl⟩, rfl, by decide, by decide, by decide, by decide, by decide, by decide, ⟨rfl, rfl, rfl⟩⟩

/-- An access that a reset discarded. -/
def discarding : State := { runningAt 0 trackIdle with bus := ⟨some ⟨.pageWriterB, .pageHeader, 0x1000, [], true⟩, .captureWriter⟩ }

theorem test_meets_BusError :
    (inFlight .pageHeader .pageWriterA []).bus.inFlight = some ⟨.pageWriterA, .pageHeader, 0x1000, [], false⟩
      ∧ discarding.bus.inFlight = some ⟨.pageWriterB, .pageHeader, 0x1000, [], true⟩ := by decide

/-- Track A has a record and no page; the other track waits for nothing. -/
def claiming : State :=
  { runningAt 0 { trackIdle with records := ⟨[.close demoClose], 1, 0, 0⟩ } with pages := ⟨[0x2000], [], ⟨none, 0⟩, ⟨none, 0⟩⟩ }

theorem test_meets_EndOfStep :
    (claiming.regs.part = .running ∧ (claiming.tracks.get .A).records.queue ≠ [] ∧ (claiming.pages.writers.get .A).current = none
        ∧ claiming.pages.claims = [] ∧ claiming.pages.lent = 0x2000 :: [] ∧ (claiming.tracks.get .B).records.queue = [])
      ∧ (claiming.bus.inFlight = none ∧ claiming.request .orderUnit = none)
      ∧ claiming.claimPages.servePages.request .pageWriterA
          = some ⟨.pageWriterA, .recordWrite, 0x2020, closeBytes demoClose, false⟩ := by decide +kernel

/-- Both tracks have a record and no page; `claims` already wait, `lent` is lent. -/
def bothClaiming (part : PartState) (claims : List Track) (lent : List Word) : State :=
  let k := { trackIdle with records := ⟨[.close demoClose], 1, 0, 0⟩ }
  { inPart part k with tracks := ⟨k, k⟩, pages := ⟨lent, claims, ⟨none, 0⟩, ⟨none, 0⟩⟩ }

/-- A claim of track B that waited for a page is served before track A's new one; two pages serve both; with no page, and in QUIET,
both claims wait (R170). -/
theorem test_meets_Claims :
    [bothClaiming .running [.B] [0x2000], bothClaiming .running [.B] [0x2000, 0x3000], bothClaiming .running [] [],
        bothClaiming .quiet [.B] [0x2000]].map (fun s =>
      (s.settle.pages.claims, s.settle.pages.lent, (s.settle.pages.writers.get .A).current.map (·.address),
        (s.settle.pages.writers.get .B).current.map (·.address)))
      = [([.A], [], none, some 0x2000), ([], [], some 0x3000, some 0x2000), ([.A, .B], [], none, none),
        ([.B, .A], [0x2000], none, none)] := by decide +kernel

theorem test_meets_Halt :
    (inPart .halted trackIdle).Coherent ∧ (inPart .halted trackIdle).regs.part = .halted ∧ ¬ Resets (.noticeClear 1)
      ∧ ¬ ClearsStores (.softReset 2) := by
  refine ⟨⟨(running_coherent 0 idle_coherent).1, fun e => (nomatch e), fun e => (nomatch e), fun _ => rfl⟩, rfl, id, id⟩

theorem test_meets_Locks :
    (channelGet (channelSet TrackState.initial.calibration 8 ⟨1, 0, false, true⟩) 8).lock = true
      ∧ (List.replicate 16 ({ ClassEntry.off with lock := true } : ClassEntry))[15]? = some { ClassEntry.off with lock := true } := by
  decide

/-- In a passage with a train on the bridge the counts are bounded and the axles placed; after the departure one axle awaits. -/
theorem test_meets_Placed :
    (runningAt 0 trackCrossing).CountsBounded ∧ (runningAt 0 trackCrossing).AxlesPlaced
      ∧ trackCrossing.axles.records.length = 1 ∧ trackDraining.axles.awaiting = [1] := by
  have h0 : trackIdle.AxlesPlaced := placed_initial _ (by decide) (by decide)
  have hx := placed_takePass (c := sceneOf trackIdle) idle_coherent.1 idle_coherent.2 h0 ⟨.B0, .up, 0, some 800⟩ (by decide)
  have hi : TrackState.initial.CountsBounded := counts_initial (by decide) rfl rfl (fun q => by rcases q with _ | _ | _ | _ | q <;> rfl) rfl
  have hc := counts_takePass (c := sceneOf trackIdle) ⟨.B0, .up, 0, some 800⟩ (counts_of_same hi rfl rfl rfl rfl rfl)
  refine ⟨fun t => ?_, fun t => ?_, by decide +kernel, by decide +kernel⟩
  · cases t
    · exact hc
    · exact hi
  · cases t
    · exact hx
    · exact placed_initial _ rfl rfl

end Sys2Proof.Machine
end

namespace Sys2Proof.Machine

/-! ### Facts of one track that coherence needs -/

/-- SET TRACK's parameters are accepted exactly in the ranges of R17. -/
theorem trackConfigOf_eq_some (l : List Byte) (c : TrackConfig) :
    trackConfigOf l = some c ↔
      c = ⟨nat8 l 1, nat16 l 2, nat16 l 4, nat16 l 6, nat16 l 8, nat16 l 10, nat16 l 12, nat16 l 14, nat8 l 16, nat8 l 17⟩
        ∧ 1 ≤ c.platforms ∧ c.platforms ≤ 4 ∧ 80 ≤ c.headSpacing ∧ c.headSpacing ≤ 400
        ∧ 1 ≤ c.minSpeed ∧ c.minSpeed ≤ c.maxSpeed ∧ c.maxSpeed ≤ 1500
        ∧ 1 ≤ c.approachTimeout ∧ c.approachTimeout ≤ 600 ∧ 500 ≤ c.stallTime ∧ c.stallTime ≤ 10000
        ∧ 1 ≤ c.standingLimit ∧ c.standingLimit ≤ 1800 ∧ 50 ≤ c.settleTime ∧ c.settleTime ≤ 60000
        ∧ 4 ≤ c.minWindowSamples ∧ c.minWindowSamples ≤ 255 ∧ 1 ≤ c.headStuckTime ∧ c.headStuckTime ≤ 60 := by
  unfold trackConfigOf
  extract_lets x
  constructor
  · intro h
    split at h
    · rename_i hr
      obtain rfl := Option.some.inj h
      simp only [inRange, Bool.and_eq_true, decide_eq_true_eq] at hr
      exact ⟨rfl, by omega⟩
    · cases h
  · rintro ⟨hc, h⟩
    obtain rfl : c = x := hc
    rw [if_pos]
    simp only [inRange, Bool.and_eq_true, decide_eq_true_eq]
    omega

theorem pointFault_coherent {c : Scene} (hc : c.trk.Coherent) (hw : c.trk.WindowsMatch) (p : PointCode) :
    (c.pointFault p).trk.Coherent ∧ (c.pointFault p).trk.WindowsMatch := by
  obtain ⟨h1, h2, h3, h4, h5, h6, h7⟩ := hc
  exact ⟨⟨h1, h2, h3, (Option.isSome_map ..).trans h4, h5, h6, h7⟩, hw⟩

/-- STANDING is a track state like CROSSING but for its timer (R51). -/
theorem stall_coherent {c : Scene} (hc : c.trk.Coherent) (hw : c.trk.WindowsMatch) (hm : c.trk.mode = .crossing)
    (d : Nat) : ((c.modTrk fun k => { k with mode := .standing }).startTimer d).trk.Coherent
      ∧ ((c.modTrk fun k => { k with mode := .standing }).startTimer d).trk.WindowsMatch := by
  obtain ⟨h1, h2, h3, h4, h5, h6, h7⟩ := hc
  unfold TrackState.WindowsMatch at hw
  rw [hm] at h2 h3 h4 h6 hw
  refine ⟨⟨h1, fun _ => h2 (by decide), h3, h4, rfl, h6, fun z hz => ?_⟩, fun p p1 p4 => ?_⟩
  · obtain ⟨-, hi, ht⟩ := h7 z hz
    rw [hm] at hi
    exact ⟨by simp, ⟨fun e => (nomatch hi.1 e), fun e => (nomatch e)⟩, ht⟩
  · obtain ⟨w1, w2, -⟩ := hw p p1 p4
    exact ⟨w1, w2, fun e => (nomatch e)⟩

theorem zeroHoldExpires_coherent {c : Scene} (hc : c.trk.Coherent) (hw : c.trk.WindowsMatch) :
    c.zeroHoldExpires.trk.Coherent ∧ c.zeroHoldExpires.trk.WindowsMatch := by
  rw [zeroHoldExpires_trk]
  exact coherent_of_zero hc hw rfl fun _ e => nomatch e

/-- A new zero operation fits the track's state: ACCUMULATING in IDLE, else SUSPENDED with its hold timer (R138, R142). -/
theorem startZero_coherent {c : Scene} (hc : c.trk.Coherent) (hw : c.trk.WindowsMatch) (hm : c.trk.mode ≠ .disabled)
    (o : Order) (n : Nat) : (c.startZero o n).trk.Coherent ∧ (c.startZero o n).trk.WindowsMatch := by
  unfold Scene.startZero
  extract_lets z
  split
  · rename_i hi
    refine coherent_of_zero hc hw rfl fun y hy => ?_
    have hy : z = y := Option.some.inj hy
    subst hy
    exact ⟨hm, ⟨fun _ => hi, fun _ => rfl⟩, rfl⟩
  · rename_i hi
    rw [suspendZero_trk]
    refine coherent_of_zero hc hw rfl fun y hy => ?_
    dsimp only at hy
    split at hy
    · cases hy
    · cases hy
      exact ⟨hm, ⟨fun e => (nomatch e), fun e => absurd e hi⟩, rfl⟩

/-- A DISABLED track takes any configuration of at most 4 platforms (R17). -/
theorem config_coherent {k : TrackState} (hc : k.Coherent) (hw : k.WindowsMatch) (hm : k.mode = .disabled)
    {x : TrackConfig} (hx : x.platforms ≤ 4) :
    ({ k with config := x } : TrackState).Coherent ∧ ({ k with config := x } : TrackState).WindowsMatch := by
  obtain ⟨-, -, h3, h4, h5, h6, h7⟩ := hc
  refine ⟨⟨hx, fun e => absurd hm e, h3, h4, h5, h6, h7⟩, fun p p1 p4 => ?_⟩
  obtain ⟨w1, w2, w3⟩ := hw p p1 p4
  rw [hm] at w1
  refine ⟨?_, w2, w3⟩
  rw [w1, hm]
  rfl

theorem softReset_coherent {k : TrackState} (h : k.config.platforms ≤ 4) : k.softReset.Coherent ∧ k.softReset.WindowsMatch :=
  initial_coherent k h _ rfl

theorem trackInitial_coherent : TrackState.initial.Coherent ∧ TrackState.initial.WindowsMatch :=
  initial_coherent TrackState.initial (Nat.zero_le 4) _ rfl

/-! ### Coherence through the changes of a step -/

/-- In RUNNING a machine is coherent as soon as its tracks are. -/
theorem coherent_running {u : State} (hr : u.regs.part = .running)
    (h : ∀ t, (u.tracks.get t).Coherent ∧ (u.tracks.get t).WindowsMatch) : u.Coherent :=
  ⟨h, fun e => (nomatch hr.symm.trans e), fun e => (nomatch hr.symm.trans e), fun e => (nomatch hr.symm.trans e)⟩

/-- In STOPPED with both tracks DISABLED and any access in flight discarded a machine is coherent. -/
theorem coherent_stopped {u : State} (hr : u.regs.part = .stopped)
    (h : ∀ t, (u.tracks.get t).Coherent ∧ (u.tracks.get t).WindowsMatch) (hd : ∀ t, (u.tracks.get t).mode = .disabled)
    (hb : ∀ a, u.bus.inFlight = some a → a.discarded = true) : u.Coherent :=
  ⟨h, fun _ => ⟨hd, hb⟩, fun e => (nomatch hr.symm.trans e), fun e => (nomatch hr.symm.trans e)⟩

/-- A track that is not DISABLED shows that the part is not STOPPED (R16, R183). -/
theorem running_of_enabled {s : State} (h : s.Coherent) {t : Track} (hp : s.regs.part = .running ∨ s.regs.part = .stopped)
    (hm : (s.tracks.get t).mode ≠ .disabled) : s.regs.part = .running := by
  obtain ⟨-, hs, -, -⟩ := h
  exact hp.resolve_right fun e => hm ((hs e).1 t)

/-- The wake of R185 keeps the machine coherent. -/
theorem coherent_wake {s : State} (h : s.Coherent) (cause : WakeCause) : (s.wake cause).Coherent := by
  obtain ⟨h, -, -, -⟩ := h
  refine coherent_running rfl fun t => ?_
  cases t
  · exact h .A
  · exact h .B

/-- A point fault changes neither a track's state nor its zero engine, in whatever part state (R12). -/
theorem coherent_pointFault {s : State} (h : s.Coherent) (t : Track) (p : PointCode) :
    (s.onTrack t fun c => c.pointFault p).Coherent := by
  have hk := pointFault_coherent (c := s.scene t) (h.1 t).1 (h.1 t).2 p
  exact coherent_of_same (coherent_setTrack h t _ hk rfl rfl) rfl rfl rfl id

theorem coherent_freePort {s : State} (h : s.Coherent) : s.freePort.Coherent := by
  obtain ⟨h1, h2, h3, -⟩ := h
  exact ⟨h1, fun e => ⟨(h2 e).1, fun _ e => (nomatch e)⟩, h3, fun _ => rfl⟩

/-- The conditions of R184 are what coherence asks for in QUIET. -/
theorem coherent_enterQuiet {s : State} (h : s.Coherent) (hq : s.mayEnterQuiet = true) : s.enterQuiet.Coherent := by
  obtain ⟨h1, -, -, -⟩ := h
  simp only [State.mayEnterQuiet, State.mayRest, Bool.and_eq_true, decide_eq_true_eq, Option.isNone_iff_eq_none] at hq
  obtain ⟨⟨⟨⟨⟨⟨ha, hb⟩, hza⟩, hzb⟩, hc⟩, -⟩, -⟩ := hq
  refine ⟨h1, fun e => (nomatch e), fun _ => ⟨fun t => ?_, hc⟩, fun e => (nomatch e)⟩
  cases t
  · exact ⟨ha, hza⟩
  · exact ⟨hb, hzb⟩

theorem coherent_halt {s : State} (h : s.Coherent) (hb : s.bus.inFlight = none) (a : Access) : (s.halt a).Coherent :=
  ⟨h.1, fun e => (nomatch e), fun e => (nomatch e), fun _ => hb⟩

/-- A record write changes page writer and record queue alone (R171). -/
theorem coherent_recordWritten {s : State} (h : s.Coherent) (t : Track) (n : Nat) : (s.recordWritten t n).Coherent := by
  unfold State.recordWritten
  split
  · split
    · exact coherent_of_same (coherent_setTrack h t { s.tracks.get t with records := (s.tracks.get t).records.dropHead }
        (h.1 t) rfl rfl) rfl rfl rfl id
    · exact coherent_of_same h rfl rfl rfl id
  · exact h

theorem coherent_pageReturned {s : State} (h : s.Coherent) (t : Track) : (s.pageReturned t).Coherent := by
  unfold State.pageReturned
  split
  · exact h
  · exact coherent_of_same h rfl rfl rfl id

theorem coherent_powerOnReset (s : State) : s.powerOnReset.Coherent :=
  coherent_stopped rfl (fun t => by cases t <;> exact trackInitial_coherent) (fun t => by cases t <;> rfl)
    fun _ e => nomatch e

theorem coherent_hardReset (s : State) : s.hardReset.Coherent :=
  coherent_stopped rfl (fun t => by cases t <;> exact trackInitial_coherent) (fun t => by cases t <;> rfl)
    (reset_inFlight s.bus)

theorem coherent_softReset {s : State} (h : s.Coherent) : s.softReset.Coherent := by
  obtain ⟨h, -, -, -⟩ := h
  refine coherent_stopped rfl (fun t => ?_) (fun t => by cases t <;> rfl) (reset_inFlight s.bus)
  cases t
  · exact softReset_coherent (h .A).1.1
  · exact softReset_coherent (h .B).1.1

/-- Every elementary change of a step keeps the machine coherent. -/
theorem stepKeeps_coherent : StepKeeps State.Coherent where
  queue _ _ _ h := coherent_of_same h rfl rfl rfl id
  tick _ h := coherent_of_same h rfl rfl rfl id
  settle _ := coherent_settle
  badFrame _ h := coherent_of_same h rfl rfl rfl id
  wake _ cause h _ := coherent_wake h cause
  edge s t p hd l h hp hm he :=
    coherent_onTrack h (running_of_enabled h hp hm) t _ (takeEdge_coherent (c := s.scene t) (h.1 t).1 (h.1 t).2 p hd l he)
  frame s t n l h hp hm :=
    coherent_onTrack h (running_of_enabled h hp hm) t _ (acceptFrame_coherent (c := s.scene t) n l (h.1 t).1 (h.1 t).2)
  stuck _ t p h _ := coherent_pointFault h t p
  approach s t h hr hm := coherent_onTrack h hr t _ (approachExpires_coherent (c := s.scene t) (h.1 t).1 (h.1 t).2 hm)
  stall s t h hr hm := coherent_onTrack h hr t _ (stall_coherent (c := s.scene t) (h.1 t).1 (h.1 t).2 hm _)
  close s t r h hr hm :=
    coherent_onTrack h hr t _ (closePassage_coherent (inPassage_of_coherent (c := s.scene t) (h.1 t).1 (h.1 t).2 hm) r)
  hold s t h hr := coherent_onTrack h hr t _ (zeroHoldExpires_coherent (c := s.scene t) (h.1 t).1 (h.1 t).2)
  scanTimer _ h := coherent_of_same h rfl rfl rfl id
  requestScan _ h := coherent_of_same h rfl rfl rfl id
  scanRead _ _ h := coherent_of_same h rfl rfl rfl id
  takenWrite _ h := coherent_of_same h rfl rfl rfl id
  answerFields _ h := coherent_of_same h rfl rfl rfl id
  answered _ h := coherent_of_same h rfl rfl rfl id
  reclaimHeader _ h := coherent_of_same h rfl rfl rfl id
  pop _ h := coherent_of_same h rfl rfl rfl id
  answer _ _ _ _ _ h := coherent_of_same h rfl rfl rfl id
  options _ _ _ h _ := coherent_of_same h rfl rfl rfl id
  config s t l x h hm hx := by
    obtain ⟨-, -, hP, -⟩ := (trackConfigOf_eq_some l x).1 hx
    exact coherent_setTrack h t _ (config_coherent (h.1 t).1 (h.1 t).2 hm hP) rfl rfl
  enable s t h hr hm hP :=
    coherent_onTrack h hr t _ (enable_coherent (c := s.scene t) (h.1 t).1 (h.1 t).2 hm (Nat.one_le_iff_ne_zero.2 hP))
  disable s t h hr := coherent_onTrack h hr t _ (disable_coherent (c := s.scene t) (h.1 t).1 (h.1 t).2)
  span _ t _ h := coherent_setTrack h t _ (h.1 t) rfl rfl
  zero s t o n h hr hm _ := coherent_onTrack h hr t _ (startZero_coherent (c := s.scene t) (h.1 t).1 (h.1 t).2 hm o n)
  classEntry _ _ _ h _ := coherent_of_same h rfl rfl rfl id
  watch _ _ _ h _ := coherent_of_same h rfl rfl rfl id
  hits _ _ h := coherent_of_same h rfl rfl rfl id
  disarm _ h := coherent_of_same h rfl rfl rfl fun e => nomatch e
  arm _ _ _ _ h := coherent_of_same h rfl rfl rfl fun e => nomatch e
  lend _ _ h _ _ := coherent_of_same h rfl rfl rfl id
  reclaim _ _ _ h := coherent_of_same h rfl rfl rfl id
  freePort _ := coherent_freePort
  enterQuiet _ := coherent_enterQuiet
  recordWritten _ t n h := coherent_recordWritten h t n
  pageReturned _ t h := coherent_pageReturned h t
  captureEntry _ h := coherent_of_same h rfl rfl rfl id
  captureHeader _ h := coherent_of_same h rfl rfl rfl fun e => nomatch e
  halt _ a h hb := coherent_halt h hb a
  powerOnReset s _ := coherent_powerOnReset s
  hardReset s _ := coherent_hardReset s
  softReset _ := coherent_softReset
  mask _ _ h := coherent_of_same h rfl rfl rfl id
  run _ h _ := coherent_running rfl h.1
  badAnchor _ h := coherent_of_same h rfl rfl rfl id
  anchor _ _ h := coherent_of_same h rfl rfl rfl id
  notice _ _ h := coherent_of_same h rfl rfl rfl id

/-- Settles O57: coherence is kept by every elementary change, so by every step. -/
theorem everyStepKeepsTheMachineCoherent : Obligations.EveryStepKeepsTheMachineCoherent :=
  fun _ _ hs e => stepKeeps_coherent.step hs e

end Sys2Proof.Machine

namespace Sys2Proof.Machine

/-! ### Capacities through the changes of a step -/

theorem fits_of_same {u v : OrderUnit} (h : u.Fits) (hq : v.queue = u.queue) (hs : v.scan = u.scan)
    (hp : v.scanPosition = u.scanPosition) : v.Fits := by
  unfold OrderUnit.Fits
  rw [hq, hs, hp]
  exact h

theorem off_sound : ClassEntry.off.Sound := ⟨Nat.le_refl 1, by decide⟩

theorem classContentOf_sound {l : List Byte} {mode : ClassMode} {lock : Bool} {e : ClassEntry}
    (h : classContentOf l mode lock = some e) : e.Sound := by
  unfold classContentOf at h
  extract_lets n pairs at h
  split at h
  · cases h
  · split at h
    · rename_i hr
      obtain rfl := Option.some.inj h
      simp only [inRange, Bool.and_eq_true, decide_eq_true_eq] at hr
      obtain ⟨⟨⟨hn, -⟩, -⟩, -⟩ := hr
      exact hn
    · cases h

/-- WRITE CLASS stores entries of 1 to 8 axles (R112, R114). -/
theorem classWriteOf_sound {l : List Byte} {w : ClassWrite} (h : classWriteOf l = some w) : w.entry.Sound := by
  unfold classWriteOf at h
  split at h
  · split at h
    · split at h
      · obtain rfl := Option.some.inj h
        exact off_sound
      · obtain ⟨e, he, rfl⟩ := Option.map_eq_some_iff.1 h
        exact classContentOf_sound he
      · obtain ⟨e, he, rfl⟩ := Option.map_eq_some_iff.1 h
        exact classContentOf_sound he
    · cases h
  · cases h

/-- SET WATCH stores a hit count of 0 (R152). -/
theorem watchWriteOf_hitCount {l : List Byte} {w : WatchWrite} (h : watchWriteOf l = some w) : w.value.hitCount = 0 := by
  unfold watchWriteOf at h
  split at h
  · split at h
    · obtain rfl := Option.some.inj h
      rfl
    · cases h
  · cases h

theorem watch_mapIdx_bounded {x : Four WatchUnit} {f : Nat → WatchUnit → WatchUnit}
    (h : ∀ i, (f i (x.get i)).hitCount ≤ 65535) : ∀ u ∈ (x.mapIdx f).toList, u.hitCount ≤ 65535 := by
  intro u hu
  simp only [Four.toList, Four.mapIdx, List.mem_cons, List.not_mem_nil, or_false] at hu
  rcases hu with rfl | rfl | rfl | rfl
  · exact h 1
  · exact h 2
  · exact h 3
  · exact h 4

theorem Shared.Bounded.hits {h : Shared} (hb : h.Bounded) : ∀ u ∈ h.watch.toList, u.hitCount ≤ 65535 := by
  obtain ⟨-, -, -, -, -, -, -, hw, -⟩ := hb
  exact hw

theorem Shared.Bounded.waiting {h : Shared} (hb : h.Bounded) : h.capture.waiting.length ≤ 16 := by
  obtain ⟨-, -, -, -, -, -, -, -, hc, -⟩ := hb
  exact hc

theorem bounded_classes {h : Shared} (hb : h.Bounded) (i : Nat) {e : ClassEntry} (he : e.Sound) :
    ({ h with classes := h.classes.set i e } : Shared).Bounded := by
  obtain ⟨h1, h2, h3, h4, h5, h6, h7, rest⟩ := hb
  refine ⟨h1, h2, h3, h4, h5, (List.length_set ..).trans h6, fun x hx => ?_, rest⟩
  rcases List.mem_or_eq_of_mem_set hx with hx | rfl
  · exact h7 x hx
  · exact he

theorem bounded_watch {h : Shared} (hb : h.Bounded) {x : Four WatchUnit} (hx : ∀ u ∈ x.toList, u.hitCount ≤ 65535) :
    ({ h with watch := x } : Shared).Bounded := by
  obtain ⟨h1, h2, h3, h4, h5, h6, h7, -, rest⟩ := hb
  exact ⟨h1, h2, h3, h4, h5, h6, h7, hx, rest⟩

theorem hits_cleared_bounded {x : Four WatchUnit} (h : ∀ u ∈ x.toList, u.hitCount ≤ 65535) (mask : Byte) :
    ∀ u ∈ (clearHits mask x).toList, u.hitCount ≤ 65535 := by
  refine watch_mapIdx_bounded fun i => ?_
  split
  · exact Nat.zero_le _
  · exact watch_get_bounded h i

theorem bounded_setOptions {h : Shared} (hb : h.Bounded) (x : Options) : (h.setOptions x).Bounded := by
  have hf : (h.setOptions x).orders.Fits := by
    unfold Shared.setOptions
    dsimp only
    split
    · exact hb.fits
    · exact hb.fits
  exact bounded_modOrders (f := fun _ => (h.setOptions x).orders) hb hf

theorem bounded_initial : Shared.initial.Bounded := by
  refine ⟨Nat.zero_le _, Nat.zero_le _, Nat.zero_le _, Nat.zero_le _, Nat.zero_le _, rfl, fun e he => ?_, fun u hu => ?_,
    Nat.zero_le _, Nat.zero_le _, by decide, fun x hx => nomatch hx⟩
  · obtain rfl := List.eq_of_mem_replicate he
    exact off_sound
  · simp only [Shared.initial, Four.toList, List.mem_cons, List.not_mem_nil, or_false, or_self] at hu
    subst hu
    exact Nat.zero_le _

theorem bounded_softReset {h : Shared} (hb : h.Bounded) : h.softReset.Bounded := by
  obtain ⟨-, -, -, -, -, h6, h7, -⟩ := hb
  obtain ⟨i1, i2, i3, i4, i5, -, -, -, rest⟩ := bounded_initial
  exact ⟨i1, i2, i3, i4, i5, h6, h7, watch_mapIdx_bounded fun _ => Nat.zero_le _, rest⟩

theorem trackBounded_initial : TrackState.initial.Bounded :=
  ⟨Nat.zero_le _, Nat.zero_le _, Nat.zero_le _, Nat.zero_le _, fun _ hr => (nomatch hr), Nat.zero_le _, Nat.zero_le _,
    Nat.zero_le _, Nat.zero_le _, Nat.zero_le _, Nat.zero_le _⟩

/-- What a soft reset keeps of a track has no capacity (R187). -/
theorem trackBounded_softReset (k : TrackState) : k.softReset.Bounded := trackBounded_initial

theorem wagons_dropHead (q : RecordQueue) : q.dropHead.wagons ≤ q.wagons := by
  unfold RecordQueue.wagons
  rw [dropHead_queue]
  exact ((List.tail_sublist _).filter _).length_le

theorem trackBounded_dropHead {k : TrackState} (h : k.Bounded) : ({ k with records := k.records.dropHead } : TrackState).Bounded := by
  obtain ⟨h1, h2, h3, h4, h5, h6, h7, h8, h9, h10, h11⟩ := h
  have hp : k.records.dropHead.placesInUse ≤ 2 ∧ k.records.dropHead.lostPassages = k.records.lostPassages
      ∧ k.records.dropHead.lostSinceClose = k.records.lostSinceClose := by
    unfold RecordQueue.dropHead
    split
    · exact ⟨h8, rfl, rfl⟩
    · exact ⟨h8, rfl, rfl⟩
    · exact ⟨Nat.le_trans (Nat.sub_le ..) h8, rfl, rfl⟩
  obtain ⟨hp, hl, hc⟩ := hp
  exact ⟨h1, h2, h3, h4, h5, h6, Nat.le_trans (wagons_dropHead _) h7, hp, h9, hl ▸ h10, hc ▸ h11⟩

theorem trackBounded_zero {k : TrackState} (x : Option ZeroOperation) (h : k.Bounded) :
    ({ k with zero := x } : TrackState).Bounded := h

theorem bounded_startZero {c : Scene} (o : Order) (n : Nat) (hb : c.Bounded) : (c.startZero o n).Bounded := by
  unfold Scene.startZero
  extract_lets z
  obtain ⟨hk, hs⟩ := hb
  split
  · exact ⟨trackBounded_zero _ hk, hs⟩
  · refine ⟨?_, bounded_engineKept (suspendZero_sh c z) hs⟩
    rw [suspendZero_trk]
    exact trackBounded_zero _ hk

theorem bounded_wake {s : State} (h : s.Bounded) (cause : WakeCause) : (s.wake cause).Bounded := by
  obtain ⟨a, b, c⟩ := h
  refine ⟨fun t => ?_, bounded_modOrders (bounded_raise .wake b) (fits_requestScan _ _ b.fits), c⟩
  cases t
  · exact a .A
  · exact a .B

theorem bounded_recordWritten {s : State} (h : s.Bounded) (t : Track) (n : Nat) : (s.recordWritten t n).Bounded := by
  unfold State.recordWritten
  split
  · split
    · exact bounded_of_same (bounded_setTrack h t _ (trackBounded_dropHead (h.1 t))) rfl h.2.1 (Nat.le_refl _)
    · exact h
  · exact h

theorem bounded_pageReturned {s : State} (h : s.Bounded) (t : Track) : (s.pageReturned t).Bounded := by
  unfold State.pageReturned
  split
  · exact h
  · exact bounded_of_same h rfl (bounded_raise .page h.2.1) (Nat.le_refl _)

theorem bounded_resetWith {u : State} (ht : ∀ t, (u.tracks.get t).Bounded) (hs : u.shared.Bounded) (hp : u.pages = .empty) :
    u.Bounded :=
  ⟨ht, hs, by rw [hp]; exact Nat.zero_le _⟩

/-- Every elementary change of a step keeps the capacities. -/
theorem stepKeeps_bounded : StepKeeps State.Bounded where
  queue _ _ _ h := h
  tick _ h := h
  settle _ := bounded_settle
  badFrame _ h := bounded_of_same h rfl (bounded_countBadFrame h.2.1) (Nat.le_refl _)
  wake _ cause h _ := bounded_wake h cause
  edge _ t p hd l h _ _ _ := bounded_onTrack h t _ (bounded_takeEdge p hd l)
  frame _ t n l h _ _ := bounded_onTrack h t _ (bounded_acceptFrame n l)
  stuck _ t p h _ := bounded_onTrack h t _ (bounded_pointFault p)
  approach _ t h _ _ := bounded_onTrack h t _ bounded_approachExpires
  stall _ t h _ _ := bounded_onTrack h t _ id
  close _ t r h _ _ := bounded_onTrack h t _ (bounded_closePassage r)
  hold _ t h _ := bounded_onTrack h t _ bounded_zeroHoldExpires
  scanTimer _ h := bounded_orders h _ h.2.1.fits
  requestScan s h := bounded_orders h (·.requestScan s.shared.time s.shared.options.scanInterval) (fits_requestScan _ _ h.2.1.fits)
  scanRead s bytes h :=
    bounded_orders h (·.scanReadDone s.shared.time s.shared.options.scanInterval bytes) (fits_scanReadDone _ _ _ h.2.1.fits)
  takenWrite s h :=
    bounded_orders h (·.takenWriteDone s.shared.time s.shared.options.scanInterval) (fits_takenWriteDone _ _ h.2.1.fits)
  answerFields _ h := bounded_orders h _ (fits_answerFieldsDone h.2.1.fits)
  answered _ h :=
    bounded_of_same h rfl (bounded_raise .answer (bounded_modOrders h.2.1 (fits_answeredDone h.2.1.fits))) (Nat.le_refl _)
  reclaimHeader _ h := bounded_orders h _ (fits_reclaimHeaderDone h.2.1.fits)
  pop _ h := bounded_orders h _ (fits_pop h.2.1.fits)
  answer _ owner o code area h :=
    bounded_orders h (fun u => { u.pushAnswer ⟨o.slot, o.tag, code, area, owner⟩ with carrying := true })
      (fits_of_same (fits_pushAnswer ⟨o.slot, o.tag, code, area, owner⟩ h.2.1.fits) rfl rfl rfl)
  options _ _ x h _ := bounded_of_same h rfl (bounded_setOptions h.2.1 x) (Nat.le_refl _)
  config _ t _ _ h _ _ := bounded_setTrack h t _ (h.1 t)
  enable _ t h _ _ _ := bounded_onTrack h t _ id
  disable _ t h _ := bounded_onTrack h t _ bounded_disable
  span _ t _ h := bounded_setTrack h t _ (h.1 t)
  zero _ t o n h _ _ _ := bounded_onTrack h t _ (bounded_startZero o n)
  classEntry _ _ _ h hw := bounded_of_same h rfl (bounded_classes h.2.1 _ (classWriteOf_sound hw)) (Nat.le_refl _)
  watch _ _ _ h hw :=
    bounded_of_same h rfl
      (bounded_watch h.2.1 (watch_set_bounded h.2.1.hits _ (watchWriteOf_hitCount hw ▸ Nat.zero_le _)))
      (Nat.le_refl _)
  hits _ mask h := bounded_of_same h rfl (bounded_watch h.2.1 (hits_cleared_bounded h.2.1.hits mask)) (Nat.le_refl _)
  disarm _ h := h
  arm _ _ _ _ h := h
  lend _ _ h _ hl := ⟨h.1, h.2.1, Nat.le_trans (Nat.le_of_eq (List.length_append ..)) hl⟩
  reclaim _ _ _ h := ⟨h.1, bounded_modOrders h.2.1 (fits_of_same h.2.1.fits rfl rfl rfl), Nat.zero_le _⟩
  freePort _ h := h
  enterQuiet _ h _ := bounded_of_same h rfl (bounded_modOrders h.2.1 (fits_of_same h.2.1.fits rfl rfl rfl)) (Nat.le_refl _)
  recordWritten _ t n h := bounded_recordWritten h t n
  pageReturned _ t h := bounded_pageReturned h t
  captureEntry s h :=
    bounded_of_same h rfl
      (bounded_modCapture (f := fun x => { x with waiting := x.waiting.tail }) h.2.1
        (Nat.le_trans (List.tail_sublist _).length_le h.2.1.waiting))
      (Nat.le_refl _)
  captureHeader _ h := h
  halt _ _ h _ := h
  powerOnReset s _ := bounded_resetWith (fun t => by cases t <;> exact trackBounded_initial) bounded_initial rfl
  hardReset s _ := bounded_resetWith (fun t => by cases t <;> exact trackBounded_initial) bounded_initial rfl
  softReset _ h :=
    bounded_resetWith (fun t => by cases t <;> exact trackBounded_softReset _) (bounded_softReset h.2.1) rfl
  mask _ _ h := h
  run _ h _ := h
  badAnchor _ h := h
  anchor _ _ h := h
  notice _ _ h := h

end Sys2Proof.Machine

namespace Sys2Proof.Machine

/-! ### Properties of one track -/

/-- The changes that a step can make to one track, each keeping the property `Q` of a track; a change may rest on the invariant `M` of the
machine. Most invariants speak of each track alone, and `TrackKeeps.stepKeeps` carries them to the machine. -/
structure TrackKeeps (M : State → Prop) (Q : TrackState → Prop) : Prop where
  edge : ∀ (s : State) t p h l, M s → Q (s.tracks.get t) → pointExists (s.tracks.get t).config.platforms p = true →
    Q ((s.scene t).takeEdge p h l).trk
  frame : ∀ (c : Scene) n l, Q c.trk → Q (c.acceptFrame n l).trk
  stuck : ∀ (c : Scene) p, Q c.trk → Q (c.pointFault p).trk
  approach : ∀ c : Scene, Q c.trk → Q c.approachExpires.trk
  stall : ∀ k n, Q k → Q { k with mode := .standing, timer := some n }
  close : ∀ (s : State) t r, M s → Q (s.tracks.get t) → (s.tracks.get t).mode.inPassage = true →
    Q ((s.scene t).closePassage r).trk
  hold : ∀ c : Scene, Q c.trk → Q c.zeroHoldExpires.trk
  config : ∀ k x, Q k → Q { k with config := x }
  enable : ∀ k, Q k → Q { k with mode := .idle, timer := none, sequence := none }
  disable : ∀ (s : State) t, M s → Q (s.tracks.get t) → Q (s.scene t).disable.trk
  calibration : ∀ k x, Q k → Q { k with calibration := x }
  zero : ∀ (c : Scene) o n, Q c.trk → Q (c.startZero o n).trk
  sequence : ∀ k, Q k → Q { k with sequence := none }
  dropHead : ∀ k, Q k → Q { k with records := k.records.dropHead }
  initial : Q .initial
  softReset : ∀ k, Q k → Q k.softReset

section
variable {M : State → Prop} {Q : TrackState → Prop}

/-- A track's property holds of both tracks after one of them has been replaced. -/
theorem forall_setTrack {s : State} (h : ∀ t, Q (s.tracks.get t)) (t : Track) {k : TrackState} (hk : Q k) :
    ∀ u, Q ((s.tracks.set t k).get u) :=
  PerTrack.forall_set Q s.tracks t k h hk

theorem forall_tracks {x : PerTrack TrackState} (ha : Q x.a) (hb : Q x.b) : ∀ t, Q (x.get t)
  | .A => ha
  | .B => hb

theorem TrackKeeps.wake (k : TrackKeeps M Q) {s : State} (h : ∀ t, Q (s.tracks.get t)) (cause : WakeCause) :
    ∀ t, Q ((s.wake cause).tracks.get t) :=
  forall_tracks (x := clearSequences s.tracks) (k.sequence _ (h .A)) (k.sequence _ (h .B))

theorem TrackKeeps.recordWritten (k : TrackKeeps M Q) {s : State} (h : ∀ t, Q (s.tracks.get t)) (t : Track) (n : Nat) :
    ∀ u, Q ((s.recordWritten t n).tracks.get u) := by
  unfold State.recordWritten
  split
  · split
    · exact forall_setTrack h t (k.dropHead _ (h t))
    · exact h
  · exact h

theorem pageReturned_tracks (s : State) (t : Track) : (s.pageReturned t).tracks = s.tracks := by
  unfold State.pageReturned
  split <;> rfl

/-- A property that every change of a track keeps is kept on both tracks by every elementary change of a step. -/
theorem TrackKeeps.stepKeeps (k : TrackKeeps M Q) (m : StepKeeps M) : StepKeeps fun s => M s ∧ ∀ t, Q (s.tracks.get t) where
  queue _ _ _ h := ⟨m.queue _ _ _ h.1, h.2⟩
  tick _ h := ⟨m.tick _ h.1, h.2⟩
  settle s h := ⟨m.settle _ h.1, by rw [State.settle_tracks]; exact h.2⟩
  badFrame _ h := ⟨m.badFrame _ h.1, h.2⟩
  wake _ cause h hq := ⟨m.wake _ _ h.1 hq, k.wake h.2 cause⟩
  edge _ t _ _ _ h hp hm he := ⟨m.edge _ _ _ _ _ h.1 hp hm he, forall_setTrack h.2 t (k.edge _ _ _ _ _ h.1 (h.2 t) he)⟩
  frame _ t _ _ h hp hm := ⟨m.frame _ _ _ _ h.1 hp hm, forall_setTrack h.2 t (k.frame _ _ _ (h.2 t))⟩
  stuck _ t _ h hp := ⟨m.stuck _ _ _ h.1 hp, forall_setTrack h.2 t (k.stuck _ _ (h.2 t))⟩
  approach _ t h hr hm := ⟨m.approach _ _ h.1 hr hm, forall_setTrack h.2 t (k.approach _ (h.2 t))⟩
  stall s t h hr hm := ⟨m.stall _ _ h.1 hr hm, forall_setTrack h.2 t (k.stall (s.tracks.get t) _ (h.2 t))⟩
  close _ t _ h hr hm := ⟨m.close _ _ _ h.1 hr hm, forall_setTrack h.2 t (k.close _ _ _ h.1 (h.2 t) hm)⟩
  hold _ t h hr := ⟨m.hold _ _ h.1 hr, forall_setTrack h.2 t (k.hold _ (h.2 t))⟩
  scanTimer _ h := ⟨m.scanTimer _ h.1, h.2⟩
  requestScan _ h := ⟨m.requestScan _ h.1, h.2⟩
  scanRead _ _ h := ⟨m.scanRead _ _ h.1, h.2⟩
  takenWrite _ h := ⟨m.takenWrite _ h.1, h.2⟩
  answerFields _ h := ⟨m.answerFields _ h.1, h.2⟩
  answered _ h := ⟨m.answered _ h.1, h.2⟩
  reclaimHeader _ h := ⟨m.reclaimHeader _ h.1, h.2⟩
  pop _ h := ⟨m.pop _ h.1, h.2⟩
  answer _ _ _ _ _ h := ⟨m.answer _ _ _ _ _ h.1, h.2⟩
  options _ _ _ h hx := ⟨m.options _ _ _ h.1 hx, h.2⟩
  config _ t _ _ h hm hx := ⟨m.config _ _ _ _ h.1 hm hx, forall_setTrack h.2 t (k.config _ _ (h.2 t))⟩
  enable _ t h hr hm hP := ⟨m.enable _ _ h.1 hr hm hP, forall_setTrack h.2 t (k.enable _ (h.2 t))⟩
  disable _ t h hr := ⟨m.disable _ _ h.1 hr, forall_setTrack h.2 t (k.disable _ _ h.1 (h.2 t))⟩
  span _ t _ h := ⟨m.span _ _ _ h.1, forall_setTrack h.2 t (k.calibration _ _ (h.2 t))⟩
  zero _ t _ _ h hr hm hz := ⟨m.zero _ _ _ _ h.1 hr hm hz, forall_setTrack h.2 t (k.zero _ _ _ (h.2 t))⟩
  classEntry _ _ _ h hw := ⟨m.classEntry _ _ _ h.1 hw, h.2⟩
  watch _ _ _ h hw := ⟨m.watch _ _ _ h.1 hw, h.2⟩
  hits _ _ h := ⟨m.hits _ _ h.1, h.2⟩
  disarm _ h := ⟨m.disarm _ h.1, h.2⟩
  arm _ _ _ _ h := ⟨m.arm _ _ _ _ h.1, h.2⟩
  lend _ _ h ha hl := ⟨m.lend _ _ h.1 ha hl, h.2⟩
  reclaim _ _ _ h := ⟨m.reclaim _ _ _ h.1, h.2⟩
  freePort _ h := ⟨m.freePort _ h.1, h.2⟩
  enterQuiet _ h hq := ⟨m.enterQuiet _ h.1 hq, h.2⟩
  recordWritten _ t n h := ⟨m.recordWritten _ _ _ h.1, k.recordWritten h.2 t n⟩
  pageReturned _ t h := ⟨m.pageReturned _ _ h.1, by rw [pageReturned_tracks]; exact h.2⟩
  captureEntry _ h := ⟨m.captureEntry _ h.1, h.2⟩
  captureHeader _ h := ⟨m.captureHeader _ h.1, h.2⟩
  halt _ _ h hb := ⟨m.halt _ _ h.1 hb, h.2⟩
  powerOnReset _ h := ⟨m.powerOnReset _ h.1, forall_tracks k.initial k.initial⟩
  hardReset _ h := ⟨m.hardReset _ h.1, forall_tracks k.initial k.initial⟩
  softReset _ h := ⟨m.softReset _ h.1, forall_tracks (k.softReset _ (h.2 .A)) (k.softReset _ (h.2 .B))⟩
  mask _ _ h := ⟨m.mask _ _ h.1, h.2⟩
  run _ h hs := ⟨m.run _ h.1 hs, h.2⟩
  badAnchor _ h := ⟨m.badAnchor _ h.1, h.2⟩
  anchor _ _ h := ⟨m.anchor _ _ h.1, h.2⟩
  notice _ _ h := ⟨m.notice _ _ h.1, h.2⟩

end

/-- The invariant of the machine that asks for nothing. -/
theorem stepKeeps_true : StepKeeps fun _ => True := by
  constructor <;> intros <;> trivial

/-- A track property that needs no invariant of the machine is kept by every step. -/
theorem TrackKeeps.step {Q : TrackState → Prop} (k : TrackKeeps (fun _ => True) Q) {s u : State} (h : ∀ t, Q (s.tracks.get t))
    (e : Machine.step s = .next u) : ∀ t, Q (u.tracks.get t) :=
  ((k.stepKeeps stepKeeps_true).step ⟨trivial, h⟩ e).2

/-! ### The saturating counts -/

theorem trackKeeps_counts : TrackKeeps (fun _ => True) TrackState.CountsBounded where
  edge s t p hd l _ h _ := counts_takeEdge (c := s.scene t) p hd l h
  frame _ n l h := counts_acceptFrame n l h
  stuck _ p h := counts_pointFault p h
  approach _ h := counts_approachExpires h
  stall _ _ h := h
  close s t r _ h _ := counts_closePassage (c := s.scene t) r h
  hold _ h := counts_zeroHoldExpires h
  config _ _ h := h
  enable _ h := h
  disable s t _ h := counts_disable (c := s.scene t) h
  calibration _ _ h := h
  zero _ o n h := counts_startZero o n h
  sequence _ h := h
  dropHead _ h := counts_dropHead h
  initial := counts_initial (Nat.zero_le _) rfl rfl (fun q => by rcases q with _ | _ | _ | _ | q <;> rfl) rfl
  softReset _ h := by
    obtain ⟨-, -, -, -, hn⟩ := h
    exact counts_initial hn rfl rfl (fun q => by rcases q with _ | _ | _ | _ | q <;> rfl) rfl

/-! ### The axles in their places -/

theorem trackKeeps_placed : TrackKeeps State.Coherent TrackState.AxlesPlaced where
  edge s t p hd l hs h he := placed_takeEdge (c := s.scene t) (hs.1 t).1 (hs.1 t).2 h p hd l he
  frame _ n l h := placed_acceptFrame n l h
  stuck _ _ h := placed_of_same h rfl fun _ _ _ => rfl
  approach _ h := placed_approachExpires h
  stall _ _ h := h
  close s t r hs _ hm := placed_closePassage r (inPassage_of_coherent (c := s.scene t) (hs.1 t).1 (hs.1 t).2 hm)
  hold _ h := by
    rw [zeroHoldExpires_trk]
    exact placed_zero none h
  config _ _ h := h
  enable _ h := h
  disable s t hs h := placed_disable (c := s.scene t) (hs.1 t).1 (hs.1 t).2 h
  calibration _ _ h := h
  zero _ o n h := placed_startZero o n h
  sequence _ h := h
  dropHead _ h := h
  initial := placed_initial _ rfl rfl
  softReset _ _ := placed_initial _ rfl rfl

/-- What the placed axles say of the awaiting set and of pending_steps (R67, R73). -/
theorem placed_at_most_four {k : TrackState} (h : k.AxlesPlaced) :
    k.axles.awaiting.length ≤ 4 ∧ k.axles.awaiting.Nodup ∧ ∀ r ∈ k.axles.records, r.pendingSteps ≤ 4 := by
  obtain ⟨-, -, hr, -⟩ := h.1
  refine ⟨awaiting_le_four h, awaiting_nodup h.1, fun r hm => ?_⟩
  rw [(hr r hm).2]
  exact naming_le_four _ _

/-- Settles O58: the capacities, the counts and the places of the axles are each kept by every elementary change of a step. -/
theorem everyStepKeepsTheCapacities : Obligations.EveryStepKeepsTheCapacities :=
  ⟨fun _ _ hs e => stepKeeps_bounded.step hs e,
    fun _ _ hs e => trackKeeps_counts.step hs e,
    fun _ _ hc hs e => ((trackKeeps_placed.stepKeeps stepKeeps_coherent).step ⟨hc, hs⟩ e).2,
    fun _ h => placed_at_most_four h⟩

/-! ### Points and pages -/

theorem trackKeeps_points : TrackKeeps (fun _ => True) TrackState.PointsSound where
  edge s t p hd l _ h _ := takeEdge_pointsSound (c := s.scene t) h p hd l
  frame _ _ _ h p := by
    rw [acceptFrame_points]
    exact h p
  stuck _ p h := pointFault_pointsSound h p
  approach _ h p := by
    rw [approachExpires_points]
    exact h p
  stall _ _ h := h
  close _ _ _ _ h _ p := by
    rw [closePassage_points]
    split
    · exact pointsCleared_sound p
    · exact h p
  hold _ h p := by
    rw [zeroHoldExpires_trk]
    exact h p
  config _ _ h := h
  enable _ h := h
  disable s t _ h := disable_pointsSound (c := s.scene t) h
  calibration _ _ h := h
  zero _ _ _ h p := by
    rw [startZero_points]
    exact h p
  sequence _ h := h
  dropHead _ h := h
  initial := pointsCleared_sound
  softReset _ _ := pointsCleared_sound

/-- An address that is not lent may join the list (R168). -/
theorem distinct_lend {b : PageBlock} {address : Word} (h : b.addresses.Nodup) (hn : b.holds address = false) :
    ({ b with lent := b.lent ++ [address] } : PageBlock).addresses.Nodup := by
  simp only [PageBlock.holds, Bool.or_eq_false_iff, decide_eq_false_iff_not, List.contains_eq_mem] at hn
  obtain ⟨⟨hl, ha⟩, hb⟩ := hn
  have hm : address ∉ b.addresses := by
    simp only [addresses_eq, List.mem_append, Option.mem_toList, not_or]
    exact ⟨⟨hl, ha⟩, hb⟩
  have hp : ({ b with lent := b.lent ++ [address] } : PageBlock).addresses.Perm (address :: b.addresses) := by
    simp only [addresses_eq, List.append_assoc, List.singleton_append]
    exact List.perm_middle
  exact hp.nodup_iff.2 (List.nodup_cons.2 ⟨hm, h⟩)

/-- Fewer addresses stay distinct. -/
theorem distinct_of_sublist {b b' : PageBlock} (h : b.addresses.Nodup) (hl : b'.lent.Sublist b.lent)
    (hw : ∀ t, (b'.writers.get t).current.map (·.address) = (b.writers.get t).current.map (·.address)
      ∨ (b'.writers.get t).current = none) : b'.addresses.Nodup := by
  have hs : ∀ t, (((b'.writers.get t).current.map (·.address)).toList).Sublist
      ((b.writers.get t).current.map (·.address)).toList := by
    intro t
    rcases hw t with e | e
    · exact congrArg Option.toList e ▸ List.Sublist.refl _
    · rw [e]
      exact List.nil_sublist _
  exact h.sublist ((hl.append (hs .A)).append (hs .B))

theorem pagesDistinct_recordWritten {s : State} (h : s.PagesDistinct) (t : Track) (n : Nat) : (s.recordWritten t n).PagesDistinct := by
  unfold State.recordWritten
  split
  · rename_i g r rest hg hq
    have hw : ∀ x : Page, x.address = g.address → (s.modWriter t fun w => { w with current := some x }).PagesDistinct := by
      intro x hx
      refine distinct_of_sublist h (List.Sublist.refl _) fun u => Or.inl ?_
      rcases Track.eq_or_eq_other t u with rfl | rfl
      · rw [State.modWriter_pages, PerTrack.get_set_same, hg, Option.map_some, Option.map_some, hx]
      · rw [State.modWriter_pages, PerTrack.get_set_other]
    split
    · exact hw _ rfl
    · exact hw _ rfl
  · exact h

theorem pagesDistinct_pageReturned {s : State} (h : s.PagesDistinct) (t : Track) : (s.pageReturned t).PagesDistinct := by
  unfold State.pageReturned
  split
  · exact h
  · refine distinct_of_sublist h (List.Sublist.refl _) fun u => ?_
    rw [State.modShared_pages, State.modWriter_pages]
    rcases Track.eq_or_eq_other t u with rfl | rfl
    · exact Or.inr (by rw [PerTrack.get_set_same])
    · exact Or.inl (by rw [PerTrack.get_set_other])

/-- Every elementary change of a step keeps the page addresses distinct. -/
theorem stepKeeps_pagesDistinct : StepKeeps State.PagesDistinct where
  queue _ _ _ h := h
  tick _ h := h
  settle s := (settle_pages s).2
  badFrame _ h := h
  wake _ _ h _ := h
  edge _ _ _ _ _ h _ _ _ := h
  frame _ _ _ _ h _ _ := h
  stuck _ _ _ h _ := h
  approach _ _ h _ _ := h
  stall _ _ h _ _ := h
  close _ _ _ h _ _ := h
  hold _ _ h _ := h
  scanTimer _ h := h
  requestScan _ h := h
  scanRead _ _ h := h
  takenWrite _ h := h
  answerFields _ h := h
  answered _ h := h
  reclaimHeader _ h := h
  pop _ h := h
  answer _ _ _ _ _ h := h
  options _ _ _ h _ := h
  config _ _ _ _ h _ _ := h
  enable _ _ h _ _ _ := h
  disable _ _ h _ := h
  span _ _ _ h := h
  zero _ _ _ _ h _ _ _ := h
  classEntry _ _ _ h _ := h
  watch _ _ _ h _ := h
  hits _ _ h := h
  disarm _ h := h
  arm _ _ _ _ h := h
  lend _ _ h ha _ := distinct_lend h ha
  reclaim _ _ _ h := distinct_of_sublist h (List.nil_sublist _) fun _ => Or.inl rfl
  freePort _ h := h
  enterQuiet _ h _ := h
  recordWritten _ t n h := pagesDistinct_recordWritten h t n
  pageReturned _ t h := pagesDistinct_pageReturned h t
  captureEntry _ h := h
  captureHeader _ h := h
  halt _ _ h _ := h
  powerOnReset _ _ := List.nodup_nil
  hardReset _ _ := List.nodup_nil
  softReset _ _ := List.nodup_nil
  mask _ _ h := h
  run _ h _ := h
  badAnchor _ h := h
  anchor _ _ h := h
  notice _ _ h := h

/-- Settles O59: the points are sound through every change of a track, the addresses distinct through every elementary change. -/
theorem everyStepKeepsPointsSoundAndPagesDistinct : Obligations.EveryStepKeepsPointsSoundAndPagesDistinct :=
  ⟨fun _ _ hs e => trackKeeps_points.step hs e, fun _ _ hs e => stepKeeps_pagesDistinct.step hs e⟩

end Sys2Proof.Machine

namespace Sys2Proof.Machine

/-! ### Timers that have run out (R3) -/

theorem timerDue_iff (s : State) (x : Option Timer) : timerDue s.shared.time x = true ↔ s.RunOut x := by
  cases x with
  | none => simp [timerDue, State.RunOut]
  | some t => simp [timerDue, Timer.due, State.RunOut]

theorem actsOnStuck_iff (x : PartState) : x.actsOnStuck = true ↔ x = .running ∨ x = .quiet := by
  cases x <;> simp [PartState.actsOnStuck]

theorem actsOnTimers_iff (x : PartState) : x.actsOnTimers = true ↔ x = .running := by
  cases x <;> simp [PartState.actsOnTimers]

theorem stuckDue_iff (s : State) (t : Track) (p : PointCode) (h : Head) :
    s.stuckDue t p h = true
      ↔ (s.regs.part = .running ∨ s.regs.part = .quiet) ∧ s.RunOut (((s.tracks.get t).points.get p).stuck.get h) := by
  rw [State.stuckDue, Bool.and_eq_true, actsOnStuck_iff, timerDue_iff]

theorem trackTimerDue_iff (s : State) (t : Track) (m : TrackMode) :
    s.trackTimerDue t m = true
      ↔ s.regs.part = .running ∧ (s.tracks.get t).mode = m ∧ s.RunOut (s.tracks.get t).timer := by
  rw [State.trackTimerDue, Bool.and_eq_true, Bool.and_eq_true, actsOnTimers_iff, decide_eq_true_eq, timerDue_iff, and_assoc]

theorem holdDue_iff (s : State) (t : Track) :
    s.holdDue t = true ↔ s.regs.part = .running ∧ ∃ z, (s.tracks.get t).zero = some z ∧ s.RunOut z.holdTimer := by
  rw [State.holdDue, Bool.and_eq_true, actsOnTimers_iff, timerDue_iff, TrackState.holdTimer]
  cases (s.tracks.get t).zero with
  | none => simp [State.RunOut]
  | some z => simp

theorem scanTimerDue_iff (s : State) :
    s.scanTimerDue = true ↔ s.regs.part = .running ∧ s.RunOut s.shared.orders.scanTimer := by
  rw [State.scanTimerDue, Bool.and_eq_true, actsOnTimers_iff, timerDue_iff]

/-! ### The list of due expiries -/

theorem mem_ite_singleton {α : Type} (b : Bool) (a i : α) : i ∈ (if b then [a] else []) ↔ i = a ∧ b = true := by
  cases b <;> simp

theorem mem_dueStuck (s : State) (t : Track) (i : Instr) :
    i ∈ s.dueStuck t ↔ ∃ p h, i = .stuckTimerExpiry t p h ∧ s.stuckDue t p h = true := by
  have hall : ∀ p : PointCode, p ∈ allPoints := fun p => by cases p <;> decide
  simp only [State.dueStuck, List.mem_flatten, List.mem_map]
  constructor
  · rintro ⟨l, ⟨p, -, rfl⟩, hi⟩
    rcases List.mem_append.1 hi with hi | hi
    · exact ⟨p, .head1, (mem_ite_singleton ..).1 hi⟩
    · exact ⟨p, .head2, (mem_ite_singleton ..).1 hi⟩
  · rintro ⟨p, h, hi⟩
    refine ⟨_, ⟨p, hall p, rfl⟩, List.mem_append.2 ?_⟩
    cases h
    · exact Or.inl ((mem_ite_singleton ..).2 hi)
    · exact Or.inr ((mem_ite_singleton ..).2 hi)

theorem mem_dueTrack (s : State) (t : Track) (i : Instr) :
    i ∈ s.dueTrack t ↔
      (∃ p h, i = .stuckTimerExpiry t p h ∧ s.stuckDue t p h = true)
        ∨ (trackExpiry t (s.tracks.get t).mode = some i ∧ s.trackTimerDue t (s.tracks.get t).mode = true)
        ∨ (i = .holdTimerExpiry t ∧ s.holdDue t = true) := by
  simp only [State.dueTrack, List.mem_append, mem_dueStuck, mem_ite_singleton, or_assoc]
  cases s.trackTimerDue t (s.tracks.get t).mode <;> simp

/-- Everything that stands among the due expiries. -/
theorem mem_dueExpiries (s : State) (i : Instr) :
    i ∈ s.dueExpiries ↔
      (∃ t p h, i = .stuckTimerExpiry t p h ∧ s.stuckDue t p h = true)
        ∨ (∃ t, trackExpiry t (s.tracks.get t).mode = some i ∧ s.trackTimerDue t (s.tracks.get t).mode = true)
        ∨ (∃ t, i = .holdTimerExpiry t ∧ s.holdDue t = true)
        ∨ (i = .scanTimerExpiry ∧ s.scanTimerDue = true) := by
  have both : (∃ t, i ∈ s.dueTrack t) ↔ i ∈ s.dueTrack .A ∨ i ∈ s.dueTrack .B :=
    ⟨fun ⟨t, h⟩ => by cases t <;> simp [h], fun h => h.elim (⟨_, ·⟩) (⟨_, ·⟩)⟩
  rw [State.dueExpiries, List.mem_append, List.mem_append, ← both, mem_ite_singleton]
  simp only [mem_dueTrack, exists_or, or_assoc]

/-- The commands of the track timer by the track state (R43). -/
theorem trackExpiry_eq_some (t : Track) (m : TrackMode) (i : Instr) :
    trackExpiry t m = some i ↔
      (i = .approachTimeout t ∧ m = .approach) ∨ (i = .stallExpiry t ∧ m = .crossing)
        ∨ (i = .standingExpiry t ∧ m = .standing) ∨ (i = .settleExpiry t ∧ m = .draining)
        ∨ (i = .withdrawnExpiry t ∧ m = .withdrawn) := by
  cases m <;> simp [trackExpiry, eq_comm]

theorem mem_dueExpiries_of_track {s : State} {t : Track} {m : TrackMode} {i : Instr} (h : s.trackTimerDue t m = true)
    (hi : trackExpiry t m = some i) : i ∈ s.dueExpiries := by
  obtain ⟨-, rfl⟩ := due_running h
  exact (mem_dueExpiries s i).2 (Or.inr (Or.inl ⟨t, hi, h⟩))

/-- An expiry command that is not among the due expiries changes nothing (log 1). -/
theorem exec_expiry_not_due (s : State) (i : Instr) (hi : IsExpiry i) (hn : i ∉ s.dueExpiries) : exec i s = .next s := by
  have track : ∀ {t m}, trackExpiry t m = some i → ¬ s.trackTimerDue t m = true := fun e h => hn (mem_dueExpiries_of_track h e)
  cases i
  case stuckTimerExpiry t p h =>
    exact congrArg _ (if_neg fun hd => hn ((mem_dueExpiries ..).2 (Or.inl ⟨t, p, h, rfl, hd⟩)))
  case approachTimeout t => exact congrArg _ (if_neg (track (m := .approach) rfl))
  case stallExpiry t => exact congrArg _ (if_neg (track (m := .crossing) rfl))
  case standingExpiry t => exact congrArg _ (if_neg (track (m := .standing) rfl))
  case settleExpiry t => exact congrArg _ (if_neg (track (m := .draining) rfl))
  case withdrawnExpiry t => exact congrArg _ (if_neg (track (m := .withdrawn) rfl))
  case holdTimerExpiry t =>
    exact congrArg _ (if_neg fun hd => hn ((mem_dueExpiries ..).2 (Or.inr (Or.inr (Or.inl ⟨t, rfl, hd⟩)))))
  case scanTimerExpiry =>
    exact congrArg _ (if_neg fun hd => hn ((mem_dueExpiries ..).2 (Or.inr (Or.inr (Or.inr ⟨rfl, hd⟩)))))
  all_goals exact False.elim hi

/-- A free order of the due expiries loses none and adds none (log 3). -/
theorem arrange_perm : ∀ (l : List Instr) (k : Nat), (arrange k l).Perm l
  | [], _ => List.Perm.nil
  | [i], _ => List.Perm.refl [i]
  | i :: j :: l, k => by
    have hle : Config.choice k % ((arrange (k + 1) (j :: l)).length + 1) ≤ (arrange (k + 1) (j :: l)).length :=
      Nat.le_of_lt_succ (Nat.mod_lt _ (Nat.succ_pos _))
    exact (List.perm_insertIdx i _ hle).trans ((arrange_perm (j :: l) (k + 1)).cons i)

/-- Settles O2: the idle step by whether an expiry is due; `arrange` only reorders. -/
theorem idleStepTicksOrQueuesTheDueExpiries : Obligations.IdleStepTicksOrQueuesTheDueExpiries := by
  intro s hp
  have hs : step s = .next s.idleStep := by rw [step, hp]
  refine ⟨fun h => ?_, fun h => ⟨arrange s.freeCount s.dueExpiries, arrange_perm _ _, ?_⟩⟩
  · rw [hs, State.idleStep, h]
    rfl
  · rw [hs, State.idleStep]
    split
    · rename_i e
      exact absurd e h
    · rfl

/-- Settles O3: membership in the list of due expiries, kind by kind; any other expiry is not acted upon. -/
theorem expiriesHappenExactlyWhenTheirTimersHaveRunOut : Obligations.ExpiriesHappenExactlyWhenTheirTimersHaveRunOut := by
  refine ⟨fun s i => ?_, exec_expiry_not_due⟩
  rw [mem_dueExpiries]
  simp only [stuckDue_iff, trackTimerDue_iff, holdDue_iff, scanTimerDue_iff]
  constructor
  · rintro (h | ⟨t, h, hr, -, ho⟩ | ⟨t, rfl, hr, z, hz⟩ | ⟨rfl, hr, ho⟩)
    · exact Or.inl h
    · rcases (trackExpiry_eq_some ..).1 h with ⟨rfl, hm⟩ | ⟨rfl, hm⟩ | ⟨rfl, hm⟩ | ⟨rfl, hm⟩ | ⟨rfl, hm⟩ <;> simp [hr, hm, ho]
    · simp [hr, hz]
    · simp [hr, ho]
  · rintro (h | ⟨hr, h⟩)
    · exact Or.inl h
    · rcases h with ⟨t, rfl, hm, ho⟩ | ⟨t, rfl, hm, ho⟩ | ⟨t, rfl, hm, ho⟩ | ⟨t, rfl, hm, ho⟩ | ⟨t, rfl, hm, ho⟩
        | ⟨t, z, rfl, hz⟩ | ⟨rfl, ho⟩
      · exact Or.inr (Or.inl ⟨t, congrArg (trackExpiry t) hm, hr, trivial, ho⟩)
      · exact Or.inr (Or.inl ⟨t, congrArg (trackExpiry t) hm, hr, trivial, ho⟩)
      · exact Or.inr (Or.inl ⟨t, congrArg (trackExpiry t) hm, hr, trivial, ho⟩)
      · exact Or.inr (Or.inl ⟨t, congrArg (trackExpiry t) hm, hr, trivial, ho⟩)
      · exact Or.inr (Or.inl ⟨t, congrArg (trackExpiry t) hm, hr, trivial, ho⟩)
      · exact Or.inr (Or.inr (Or.inl ⟨t, rfl, hr, z, hz⟩))
      · exact Or.inr (Or.inr (Or.inr ⟨rfl, hr, ho⟩))

end Sys2Proof.Machine

namespace Sys2Proof.Machine

/-! ### Scans (R177) -/

theorem load_of_noScan {u : OrderUnit} (h : u.scan = none) : u.load = u.queue.length := by
  simp [OrderUnit.load, h]

theorem startScan_of_room {u : OrderUnit} (now : Word) (n : Nat) (h : u.load < 8) :
    u.startScan now n = u.readSlot (slotAfter u.scanPosition) 31 := if_neg (Nat.not_le.2 h)

theorem startScan_of_full {u : OrderUnit} (now : Word) (n : Nat) (h : 8 ≤ u.load) : u.startScan now n = u.stopScan now n :=
  if_pos h

/-- A scan that has just ended leaves nothing but the queue to count. -/
theorem load_stopScan (u : OrderUnit) (now : Word) (n : Nat) : (u.stopScan now n).load = u.queue.length := load_of_noScan rfl

theorem requestScan_of_scan {u : OrderUnit} (now : Word) (n : Nat) (h : u.scan ≠ none) :
    u.requestScan now n = { u with pendingScan := true } := if_pos (Option.isSome_iff_ne_none.2 h)

theorem requestScan_of_noScan {u : OrderUnit} (now : Word) (n : Nat) (h : u.scan = none) :
    u.requestScan now n = u.startScan now n := if_neg (by simp [h])

theorem continueScan_of_room {u : OrderUnit} (now : Word) (n slot left : Nat) (h : u.load < 8) (hl : left ≠ 0) :
    u.continueScan now n slot left = u.readSlot (slotAfter slot) (left - 1) := if_neg (by omega)

theorem continueScan_of_end {u : OrderUnit} (now : Word) (n slot left : Nat) (h : 8 ≤ u.load ∨ left = 0) :
    u.continueScan now n slot left = u.endScan now n := if_pos h.symm

theorem endScan_of_noMark {u : OrderUnit} (now : Word) (n : Nat) (h : u.pendingScan = false) :
    u.endScan now n = u.stopScan now n := if_neg (by simp [h])

theorem endScan_of_mark {u : OrderUnit} (now : Word) (n : Nat) (h : u.pendingScan = true) :
    u.endScan now n = (({ u with pendingScan := false }).stopScan now n).startScan now n := if_pos h

/-- SCAN_TIMER_EXPIRY of a timer that has run out, in RUNNING (R177). -/
theorem exec_scanTimerExpiry {s : State} (hr : s.regs.part = .running) (ho : s.RunOut s.shared.orders.scanTimer) :
    exec .scanTimerExpiry s
      = .next
          (State.settle
            (s.withOrders
              (({ s.shared.orders with scanTimer := none }).requestScan s.shared.time s.shared.options.scanInterval))) :=
  congrArg _ (if_pos ((scanTimerDue_iff s).2 ⟨hr, ho⟩))

/-- Settles O9: start, continuation and end of a scan by the load and the pending mark, each through its own equation. -/
theorem scansStartGoOnAndEndByTheirRule : Obligations.ScansStartGoOnAndEndByTheirRule := by
  refine ⟨fun u now n => ⟨requestScan_of_scan now n, fun h hq => ?_, fun h hq => ?_,
    fun slot left => continueScan_of_room now n slot left, fun slot left h hp => ?_, fun slot left h hp hq => ?_,
    fun slot left h hp hq => ?_⟩, fun s => exec_scanTimerExpiry⟩
  · rw [requestScan_of_noScan now n h, startScan_of_room now n (by rwa [load_of_noScan h])]
    rfl
  · rw [requestScan_of_noScan now n h, startScan_of_full now n (by rwa [load_of_noScan h]), OrderUnit.stopScan, h]
    rfl
  · rw [continueScan_of_end now n slot left h, endScan_of_noMark now n hp]
    rfl
  · rw [continueScan_of_end now n slot left h, endScan_of_mark now n hp, startScan_of_room now n (by rwa [load_stopScan])]
    rfl
  · rw [continueScan_of_end now n slot left h, endScan_of_mark now n hp, startScan_of_full now n (by rwa [load_stopScan])]
    rfl

/-! ### A head edge before its decoder (R5) -/

theorem exec_headEdge_halted {s : State} {check : Bool} {t : Track} {p : PointCode} {h : Head} {l : Level}
    (hp : s.regs.part = .halted) : exec (.headEdgeMessage check t p h l) s = .next s := congrArg _ (if_pos hp)

/-- The four tests of R5, each with the outcome of the message that fails it. -/
theorem exec_headEdge_awake {s : State} {check : Bool} {t : Track} {p : PointCode} {h : Head} {l : Level}
    (hp : s.regs.part ≠ .halted) :
    exec (.headEdgeMessage check t p h l) s
      = .next
          (if check = false then s.modShared Shared.countBadFrame
          else if (s.tracks.get t).mode = .disabled then s
          else if pointExists (s.tracks.get t).config.platforms p = false then s.modShared Shared.countBadFrame
          else s.edgeArrives t p h l) := congrArg _ (if_neg hp)

theorem exec_headEdge_arrives {s : State} {t : Track} {p : PointCode} {h : Head} {l : Level} (hp : s.regs.part ≠ .halted)
    (hm : (s.tracks.get t).mode ≠ .disabled) (he : pointExists (s.tracks.get t).config.platforms p = true) :
    exec (.headEdgeMessage true t p h l) s = .next (s.edgeArrives t p h l) := by
  rw [exec_headEdge_awake hp, if_neg (by decide), if_neg hm, if_neg (by simp [he])]

theorem edgeArrives_quiet {s : State} (hq : s.regs.part = .quiet) (t : Track) (p : PointCode) (h : Head) (l : Level) :
    s.edgeArrives t p h l = ((s.wake .detector).onTrack t fun c => c.takeEdge p h l).settle := by
  rw [State.edgeArrives, if_pos hq]

theorem edgeArrives_running {s : State} (hr : s.regs.part = .running) (t : Track) (p : PointCode) (h : Head) (l : Level) :
    s.edgeArrives t p h l = (s.onTrack t fun c => c.takeEdge p h l).settle := by
  rw [State.edgeArrives, if_neg (by simp [hr])]

theorem pointExists_eq_false (P : Nat) (p : PointCode) : pointExists P p = false ↔ ∃ k, boundaryIndex p = some k ∧ P < k := by
  unfold pointExists
  cases boundaryIndex p with
  | none => simp
  | some k => simp

/-- Settles O10: each test of R5 in its order, and the wake of R185 in QUIET. -/
theorem headEdgeTestsComeInTheirOrder : Obligations.HeadEdgeTestsComeInTheirOrder := by
  refine ⟨fun s check t p h l => ⟨exec_headEdge_halted, fun hp hc => ?_, fun hp hc hm => ?_, fun hp hc hm he => ?_,
    fun hq hc hm he => ?_⟩, fun _ => rfl, pointExists_eq_false, rfl⟩
  · rw [exec_headEdge_awake hp, if_pos hc]
    rfl
  · rw [exec_headEdge_awake hp, if_neg (by simp [hc]), if_pos hm]
  · rw [exec_headEdge_awake hp, if_neg (by simp [hc]), if_neg hm, if_pos he]
    rfl
  · subst hc
    rw [exec_headEdge_arrives (by simp [hq]) hm he, edgeArrives_quiet hq]
    rfl

/-! ### A point's decoder (R7 to R13) -/

/-- The updates of R8 are made before the transition and not touched by it. -/
theorem edge_items (pt : Point) (now : Word) (n : Nat) (h : Head) (l : Level) :
    (pt.edge now n h l).1.level = (pt.takeEdge now n h l).level ∧ (pt.edge now n h l).1.onTime = (pt.takeEdge now n h l).onTime
      ∧ (pt.edge now n h l).1.stuck = (pt.takeEdge now n h l).stuck := by
  unfold Point.edge
  extract_lets q
  split
  · dsimp only
    split <;> exact ⟨rfl, rfl, rfl⟩
  · exact ⟨rfl, rfl, rfl⟩

theorem takeEdge_level (pt : Point) (now : Word) (n : Nat) (h : Head) (l : Level) :
    (pt.takeEdge now n h l).level = pt.level.set h (levelOn l) := by
  cases l <;> rfl

/-- Out of FAULTED the table of R9 gives the next state and the pass. -/
theorem edge_of_not_faulted {pt : Point} (now : Word) (n : Nat) (h : Head) (l : Level) (hf : pt.state ≠ .faulted) :
    pt.edge now n h l
      = ({ pt.takeEdge now n h l with state := (pointNext pt.state h l).1 }, (pointNext pt.state h l).2) := if_neg hf

/-- In FAULTED an edge never completes a pass (R13). -/
theorem edge_of_faulted {pt : Point} (now : Word) (n : Nat) (h : Head) (l : Level) (hf : pt.state = .faulted) :
    pt.edge now n h l
      = (if l = .off ∧ (pt.takeEdge now n h l).level.one = false ∧ (pt.takeEdge now n h l).level.two = false then
          { pt.takeEdge now n h l with state := .clear }
        else pt.takeEdge now n h l, none) := if_pos hf

theorem takeEdge_state (pt : Point) (now : Word) (n : Nat) (h : Head) (l : Level) :
    (pt.takeEdge now n h l).state = pt.state := by
  cases l <;> rfl

/-- In FAULTED the state returns to CLEAR with the last head off (R13). -/
theorem edge_faulted_state {pt : Point} (now : Word) (n : Nat) (h : Head) (l : Level) (hf : pt.state = .faulted) :
    (pt.edge now n h l).1.state
      = if l = .off ∧ (pt.edge now n h l).1.level.one = false ∧ (pt.edge now n h l).1.level.two = false then .clear
        else .faulted := by
  rw [(edge_items pt now n h l).1, edge_of_faulted now n h l hf]
  dsimp only
  split
  · rfl
  · exact (takeEdge_state ..).trans hf

/-- Settles O12: the updates of R8 by the edge's level, then the table of R9, its fourteen cells, or R13. -/
theorem aPointTakesAnEdgeByItsTables : Obligations.APointTakesAnEdgeByItsTables := by
  refine ⟨fun pt now n h l _ => ?_, rfl, rfl, rfl, rfl, rfl, rfl, rfl, rfl, rfl, rfl, rfl, rfl, rfl, rfl⟩
  obtain ⟨hl, ho, hs⟩ := edge_items pt now n h l
  refine ⟨hl.trans (takeEdge_level ..), fun e => ?_, fun e => ?_, fun e hf => ?_, fun e hf => ?_, fun e => ?_, fun hf => ?_,
    fun hf => ⟨congrArg Prod.snd (edge_of_faulted now n h l hf), edge_faulted_state now n h l hf⟩⟩
  · subst e
    exact ho
  · subst e
    exact ho
  · subst e
    exact hs.trans (if_neg hf)
  · subst e
    exact hs.trans (if_pos hf)
  · subst e
    exact hs
  · rw [edge_of_not_faulted now n h l hf]

/-! ### Passes (R10, R11) -/

/-- The two cells of R9 that complete a pass. -/
theorem pointNext_pass {st : PointState} {h : Head} {l : Level} {d : Direction} (e : (pointNext st h l).2 = some d) :
    ((d = .up ∧ st = .highTail ∧ h = .head2 ∧ l = .off) ∨ (d = .down ∧ st = .lowTail ∧ h = .head1 ∧ l = .off))
      ∧ (pointNext st h l).1 = .clear := by
  cases st <;> cases h <;> cases l <;> cases e <;> simp [pointNext]

/-- An edge that changes its head's level changes the point, and completes a pass where the point does (R8, R10). -/
theorem decodeEdge_changed {k : TrackState} (now : Word) (p : PointCode) (h : Head) (l : Level)
    (hl : (k.points.get p).level.get h ≠ levelOn l) :
    k.decodeEdge now p h l
      = .changed ((k.points.get p).edge now (seconds k.config.headStuckTime) h l).1
          (((k.points.get p).edge now (seconds k.config.headStuckTime) h l).2.map
            (formPass k.config.headSpacing p ((k.points.get p).edge now (seconds k.config.headStuckTime) h l).1)) :=
  if_neg hl

/-- What a completed pass says of the edge that completed it. -/
theorem decodeEdge_pass {k : TrackState} {now : Word} {p : PointCode} {h : Head} {l : Level} {q : Point} {x : Pass}
    (e : k.decodeEdge now p h l = .changed q (some x)) :
    ∃ d, (pointNext (k.points.get p).state h l).2 = some d ∧ q.state = (pointNext (k.points.get p).state h l).1
      ∧ x = formPass k.config.headSpacing p q d := by
  by_cases hl : (k.points.get p).level.get h = levelOn l
  · rw [TrackState.decodeEdge, if_pos hl] at e
    cases e
  · rw [decodeEdge_changed now p h l hl] at e
    simp only [EdgeResult.changed.injEq] at e
    obtain ⟨rfl, e⟩ := e
    obtain ⟨d, hd, rfl⟩ := Option.map_eq_some_iff.1 e
    by_cases hf : (k.points.get p).state = .faulted
    · rw [edge_of_faulted _ _ _ _ hf] at hd
      cases hd
    · rw [edge_of_not_faulted _ _ _ _ hf] at hd ⊢
      exact ⟨d, hd, rfl, rfl⟩

/-- An edge at a cell of R9 that completes a pass forms that pass. -/
theorem decodeEdge_of_pass {k : TrackState} (now : Word) (p : PointCode) {h : Head} {l : Level} {d : Direction}
    (hl : (k.points.get p).level.get h ≠ levelOn l) (hf : (k.points.get p).state ≠ .faulted)
    (hd : (pointNext (k.points.get p).state h l).2 = some d) :
    ∃ q x, k.decodeEdge now p h l = .changed q (some x) ∧ x.point = p ∧ x.direction = d := by
  rw [decodeEdge_changed now p h l hl, edge_of_not_faulted _ _ _ _ hf, hd]
  exact ⟨_, _, rfl, by cases d <;> rfl, by cases d <;> rfl⟩

/-- The speed of R10 by its interval. -/
theorem passSpeed_spec (spacing interval : Nat) :
    (1 ≤ interval → interval ≤ 2147483647 → spacing * 36000 / interval ≤ 1500 →
        passSpeed spacing interval = some (spacing * 36000 / interval))
      ∧ (interval = 0 → passSpeed spacing interval = none)
      ∧ (2147483648 ≤ interval → passSpeed spacing interval = none)
      ∧ (1500 < spacing * 36000 / interval → passSpeed spacing interval = none) := by
  unfold passSpeed
  refine ⟨fun h1 h2 hv => ?_, fun h => if_pos (Or.inl h), fun h => if_pos (Or.inr h), fun hv => ?_⟩
  · rw [if_neg (by omega)]
    exact if_neg (Nat.not_lt.2 hv)
  · split
    · rfl
    · exact if_pos hv

/-- Settles O13: the cell gives direction and time, `passSpeed_spec` the speed. -/
theorem aPassIsFormedFromTheLatestOnTimes : Obligations.APassIsFormedFromTheLatestOnTimes := by
  refine ⟨fun k now p h l q x e => ?_, fun k now p => ⟨fun hs hl => ?_, fun hs hl => ?_⟩⟩
  · obtain ⟨d, hd, hq, rfl⟩ := decodeEdge_pass e
    obtain ⟨hcell, hclear⟩ := pointNext_pass hd
    rw [hclear] at hq
    cases d with
    | up =>
      refine ⟨rfl, hcell, hq, fun _ => rfl, fun e => (nomatch e), fun interval hi => ?_⟩
      subst hi
      exact passSpeed_spec _ _
    | down =>
      refine ⟨rfl, hcell, hq, fun e => (nomatch e), fun _ => rfl, fun interval hi => ?_⟩
      subst hi
      exact passSpeed_spec _ _
  · obtain ⟨q, x, e, -, hd⟩ := decodeEdge_of_pass (k := k) now p (h := .head2) (l := .off) (d := .up)
      (fun e => nomatch hl.symm.trans e) (by simp [hs]) (by rw [hs]; rfl)
    exact ⟨q, x, e, hd⟩
  · obtain ⟨q, x, e, -, hd⟩ := decodeEdge_of_pass (k := k) now p (h := .head1) (l := .off) (d := .down)
      (fun e => nomatch hl.symm.trans e) (by simp [hs]) (by rw [hs]; rfl)
    exact ⟨q, x, e, hd⟩

/-! ### A head edge at its decoder (R11, R19) -/

/-- An edge that reports the level its head has is an edge error (R8). -/
theorem takeEdge_edgeError {c : Scene} (p : PointCode) {h : Head} {l : Level} (hl : (c.trk.points.get p).level.get h = levelOn l) :
    c.takeEdge p h l = c.modShared Shared.countEdgeError := by
  rw [Scene.takeEdge, TrackState.decodeEdge, if_pos hl]

theorem takeEdge_noPass {c : Scene} {p : PointCode} {h : Head} {l : Level} {q : Point}
    (e : c.trk.decodeEdge c.now p h l = .changed q none) :
    c.takeEdge p h l = c.modTrk fun k => { k with points := k.points.set p q } := by
  rw [Scene.takeEdge, e]

theorem takeEdge_pass {c : Scene} {p : PointCode} {h : Head} {l : Level} {q : Point} {x : Pass}
    (e : c.trk.decodeEdge c.now p h l = .changed q (some x)) :
    c.takeEdge p h l = (c.modTrk fun k => { k with points := k.points.set p q }).takePass x := by
  rw [Scene.takeEdge, e]

theorem onTrack_congr {s : State} {t : Track} {f g : Scene → Scene} (h : f (s.scene t) = g (s.scene t)) :
    s.onTrack t f = s.onTrack t g := by
  rw [State.onTrack, State.onTrack, h]

theorem onTrack_modShared (s : State) (t : Track) (f : Shared → Shared) : (s.onTrack t fun c => c.modShared f) = s.modShared f := by
  cases t <;> rfl

theorem onTrack_modTrk (s : State) (t : Track) (f : TrackState → TrackState) :
    (s.onTrack t fun c => c.modTrk f) = s.modTrack t f := rfl

/-- A rule of a track behind a change of its stored state is the rule on the machine with that state. -/
theorem onTrack_after_modTrk (s : State) (t : Track) (f : TrackState → TrackState) (g : Scene → Scene) :
    (s.onTrack t fun c => g (c.modTrk f)) = (s.modTrack t f).onTrack t g := by
  cases t <;> rfl

/-- An edge that completes no pass: in FAULTED, or at a cell of R9 without one. -/
theorem decodeEdge_noPass {k : TrackState} (now : Word) (p : PointCode) {h : Head} {l : Level}
    (hl : (k.points.get p).level.get h ≠ levelOn l)
    (hn : (k.points.get p).state = .faulted ∨ (pointNext (k.points.get p).state h l).2 = none) :
    k.decodeEdge now p h l = .changed ((k.points.get p).edge now (seconds k.config.headStuckTime) h l).1 none := by
  have hnone : ((k.points.get p).edge now (seconds k.config.headStuckTime) h l).2 = none := by
    by_cases hf : (k.points.get p).state = .faulted
    · rw [edge_of_faulted _ _ _ _ hf]
    · rw [edge_of_not_faulted _ _ _ _ hf]
      exact hn.resolve_left hf
  rw [decodeEdge_changed now p h l hl, hnone]
  rfl

/-- In RUNNING an edge that passes the tests of R5 is taken by its track's scene. -/
theorem exec_headEdge_reaches {s : State} {t : Track} {p : PointCode} (hr : s.EdgeReaches t p) (h : Head) (l : Level) :
    exec (.headEdgeMessage true t p h l) s = .next (s.onTrack t fun c => c.takeEdge p h l).settle := by
  obtain ⟨hp, hm, he⟩ := hr
  rw [exec_headEdge_arrives (by simp [hp]) hm he, edgeArrives_running hp]

/-- Settles O11: an edge error, an edge without a pass and an edge with one, by what the decoder makes of it. -/
theorem aHeadEdgeReachesItsDecoder : Obligations.AHeadEdgeReachesItsDecoder := by
  intro s t p h l hr k pt
  refine ⟨fun hl => ?_, fun hl hn => ?_, fun d hl hf hd => ?_⟩
  · rw [exec_headEdge_reaches hr,
      onTrack_congr (g := (·.modShared Shared.countEdgeError)) (takeEdge_edgeError (c := s.scene t) p hl), onTrack_modShared]
    rfl
  · rw [exec_headEdge_reaches hr,
      onTrack_congr (g := (·.modTrk fun k => { k with points := k.points.set p _ }))
        (takeEdge_noPass (c := s.scene t) (decodeEdge_noPass s.shared.time p hl hn)),
      onTrack_modTrk]
    rfl
  · obtain ⟨q, x, e, hx, hxd⟩ := decodeEdge_of_pass s.shared.time p hl hf hd
    refine ⟨q, x, e, hx, hxd, ?_⟩
    rw [exec_headEdge_reaches hr,
      onTrack_congr (g := fun c => (c.modTrk fun k => { k with points := k.points.set p q }).takePass x)
        (takeEdge_pass (c := s.scene t) e),
      onTrack_after_modTrk s t _ fun c => c.takePass x]
    rfl

end Sys2Proof.Machine

namespace Sys2Proof.Machine

/-! ### Orders on a track's state (R178) -/

/-- Answering an order after its removal from the queue is answering it with the removal. -/
theorem answer_settle_eq {v : State} {q : List Order} (h : q.tail = v.shared.orders.queue) (o : Order) (code : AnswerCode)
    (area : List Byte) :
    (v.answer o code area).settle = (v.withOrders { v.shared.orders with queue := q }).answered o code area := by
  have e : ({ v.shared.orders with queue := q.tail } : OrderUnit) = v.shared.orders := by rw [h]
  unfold State.answered OrderUnit.afterAnswer State.withOrders
  dsimp only
  rw [e]
  rfl

@[simp] theorem State.withOrders_regs (s : State) (u : OrderUnit) : (s.withOrders u).regs = s.regs := rfl
@[simp] theorem State.withOrders_tracks (s : State) (u : OrderUnit) : (s.withOrders u).tracks = s.tracks := rfl
@[simp] theorem State.withOrders_pages (s : State) (u : OrderUnit) : (s.withOrders u).pages = s.pages := rfl
@[simp] theorem State.withOrders_bus (s : State) (u : OrderUnit) : (s.withOrders u).bus = s.bus := rfl
@[simp] theorem State.withOrders_shared (s : State) (u : OrderUnit) :
    (s.withOrders u).shared = { s.shared with orders := u } := rfl

theorem answer_eq_withOrders (v : State) (o : Order) (code : AnswerCode) (area : List Byte) :
    v.answer o code area
      = v.withOrders { v.shared.orders.pushAnswer ⟨o.slot, o.tag, code, area, .order⟩ with carrying := true } := rfl

theorem exec_setTrack {s : State} {o : Order} (h : s.Carries 0x10#8 o) :
    exec .setTrack s = .next (carrySetTrack o s.popOrder).settle := carryOut_of_carries h (· == 0x10#8) rfl carrySetTrack

theorem exec_enableTrack {s : State} {o : Order} (h : s.Carries 0x11#8 o) :
    exec .enableTrack s = .next (carryEnableTrack o s.popOrder).settle := carryOut_of_carries h (· == 0x11#8) rfl carryEnableTrack

theorem exec_disableTrack {s : State} {o : Order} (h : s.Carries 0x12#8 o) :
    exec .disableTrack s = .next (carryDisableTrack o s.popOrder).settle := carryOut_of_carries h (· == 0x12#8) rfl carryDisableTrack

/-- Settles O37: the tests of R17 in their order, and its ranges. -/
theorem setTrackConfiguresADisabledTrack : Obligations.SetTrackConfiguresADisabledTrack := by
  refine ⟨fun s o h => ⟨fun ht => ?_, fun t ht hm => ?_, fun t ht hm hc => ?_, fun t c ht hm hc => ?_⟩, trackConfigOf_eq_some⟩
  · simp only [exec_setTrack h, carrySetTrack, ht, answered_pop]
  · simp only [exec_setTrack h, carrySetTrack, ht, State.popOrder_tracks, ne_eq, hm, not_false_eq_true, if_true, answered_pop]
  · simp only [exec_setTrack h, carrySetTrack, ht, State.popOrder_tracks, if_neg (Decidable.not_not.2 hm), hc, answered_pop]
  · simp only [exec_setTrack h, carrySetTrack, ht, State.popOrder_tracks, if_neg (Decidable.not_not.2 hm), hc]
    rfl

/-! ### Entry into DISABLED (R60) -/

theorem onTrack_id (s : State) (t : Track) : s.onTrack t id = s := by
  cases t <;> rfl

theorem disable_of_disabled {c : Scene} (h : c.trk.mode = .disabled) : c.disable = c := by
  rw [Scene.disable, h]

theorem disable_of_idle {c : Scene} (h : c.trk.mode = .idle) : c.disable = c.enterDisabled := by
  rw [Scene.disable, h]

theorem disable_of_approach {c : Scene} (h : c.trk.mode = .approach) :
    c.disable = (c.discardWindows.modTrk fun k => { k with expected := none }).enterDisabled := by
  rw [Scene.disable, h]

theorem disable_of_inPassage {c : Scene} (h : c.trk.mode.inPassage = true) : c.disable = c.closePassage .disabled := by
  unfold Scene.disable
  split <;> rename_i hm
  · rw [hm] at h
    cases h
  · rw [hm] at h
    cases h
  · rw [hm] at h
    cases h
  · rfl

/-- The shared blocks after a track with a zero engine has entered DISABLED (R145, R146). -/
def Shared.afterDisabling (h : Shared) : Option ZeroOperation → Shared
  | none => h
  | some z => h.afterPreemption z 1

theorem enterDisabled_sh (c : Scene) : c.enterDisabled.sh = c.sh.afterDisabling c.trk.zero := by
  unfold Scene.enterDisabled
  extract_lets c1
  cases hz : c.trk.zero with
  | none => rw [zeroDisabled_none (c := c1) hz]; rfl
  | some z => rw [zeroDisabled_some (c := c1) hz]; rfl

theorem enterDisabled_trk (c : Scene) :
    c.enterDisabled.trk
      = { c.trk with
          mode := .disabled
          timer := none
          points := pointsCleared
          platforms := c.trk.platforms.mapIdx fun _ x => { x with last := none, step := none }
          zero := none } := zeroDisabled_trk _

theorem afterPreemption_queue (h : Shared) (z : ZeroOperation) (cause : Byte) :
    (h.afterPreemption z cause).orders.queue = h.orders.queue := by
  unfold Shared.afterPreemption
  cases z.origin <;> rfl

/-- The removal of an order from the queue and the preemption of a zero operation do not meet. -/
theorem afterDisabling_popped (s : State) (x : Option ZeroOperation) :
    s.popOrder.shared.afterDisabling x
      = { s.shared.afterDisabling x with
          orders := { (s.shared.afterDisabling x).orders with queue := s.shared.orders.queue.tail } } := by
  cases x with
  | none => rfl
  | some z => exact afterPreemption_withQueue s.shared s.shared.orders.queue.tail z 1

theorem afterDisabling_queue (h : Shared) (x : Option ZeroOperation) : (h.afterDisabling x).orders.queue = h.orders.queue := by
  cases x with
  | none => rfl
  | some z => exact afterPreemption_queue h z 1

/-- The shared blocks with the order unit's queue as it stood before the order was taken off it. -/
theorem afterDisabling_restored (s : State) (x : Option ZeroOperation) :
    { s.popOrder.shared.afterDisabling x with
        orders := { (s.popOrder.shared.afterDisabling x).orders with queue := s.shared.orders.queue } }
      = s.shared.afterDisabling x := by
  rw [afterDisabling_popped, ← afterDisabling_queue s.shared x]

/-- DISABLE TRACK in IDLE and APPROACH (R15, R32, R37, R44, R60). -/
theorem disable_outside_passage {c : Scene} (h : c.trk.mode = .idle ∨ c.trk.mode = .approach) :
    c.disable.sh = c.sh.afterDisabling c.trk.zero
      ∧ c.disable.trk
          = { c.trk with
              mode := .disabled
              expected := if c.trk.mode = .approach then none else c.trk.expected
              timer := none
              points := pointsCleared
              platforms := c.disable.trk.platforms
              zero := none }
      ∧ ∀ p, 1 ≤ p → p ≤ 4 →
          c.disable.trk.platforms.get p
            = ⟨if c.trk.mode = .approach then none else (c.trk.platforms.get p).window, none, none⟩ := by
  rcases h with h | h
  · rw [disable_of_idle h, enterDisabled_sh, enterDisabled_trk, h]
    exact ⟨rfl, rfl, fun p h1 h4 => Four.get_mapIdx _ _ h1 h4⟩
  · rw [disable_of_approach h, enterDisabled_sh, enterDisabled_trk, h]
    refine ⟨rfl, rfl, fun p h1 h4 => ?_⟩
    refine (Four.get_mapIdx _ _ h1 h4).trans ?_
    rw [Scene.modTrk_trk, discardWindows_platforms c p h1 h4]
    rfl

theorem closedPassage_of_rest {k : TrackState} (h : k.mode.inPassage = false) : closedPassage k = 0 := if_neg (by simp [h])

theorem closedPassage_of_context {k : TrackState} {p : Passage} (h : k.mode.inPassage = true) (hp : k.context = some p) :
    closedPassage k = p.number := by
  rw [closedPassage, if_pos h, TrackState.passageOpen, hp]
  rfl

/-- DISABLE TRACK of a track disables it and answers with the passage it closes. -/
theorem exec_disableTrack_track {s : State} {o : Order} (h : s.Carries 0x12#8 o) {t : Track}
    (ht : trackOf (nat8 o.params 0) = some t) :
    exec .disableTrack s
      = .next ((s.popOrder.onTrack t Scene.disable).answer o .done (le32 (closedPassage (s.tracks.get t)))).settle := by
  rw [exec_disableTrack h, carryDisableTrack, ht]
  rfl

theorem exec_disableTrack_disabled {s : State} {o : Order} (h : s.Carries 0x12#8 o) {t : Track}
    (ht : trackOf (nat8 o.params 0) = some t) (hm : (s.tracks.get t).mode = .disabled) :
    exec .disableTrack s = .next (s.answered o .done [0, 0, 0, 0]) := by
  rw [exec_disableTrack_track h ht, closedPassage_of_rest (by rw [hm]; rfl),
    onTrack_congr (g := id) (disable_of_disabled (c := s.popOrder.scene t) hm), onTrack_id]
  rfl

theorem exec_disableTrack_outside_passage {s : State} {o : Order} (h : s.Carries 0x12#8 o) {t : Track}
    (ht : trackOf (nat8 o.params 0) = some t) (hm : (s.tracks.get t).mode = .idle ∨ (s.tracks.get t).mode = .approach) :
    exec .disableTrack s
      = .next
          (State.answered
            { s.withTrack t (s.popOrder.scene t).disable.trk with shared := s.shared.afterDisabling (s.tracks.get t).zero }
            o .done [0, 0, 0, 0]) := by
  obtain ⟨hsh, -, -⟩ := disable_outside_passage (c := s.popOrder.scene t) hm
  have hr : (s.tracks.get t).mode.inPassage = false := by rcases hm with hm | hm <;> rw [hm] <;> rfl
  have hq : s.shared.orders.queue.tail = (s.popOrder.onTrack t Scene.disable).shared.orders.queue := by
    rw [State.onTrack_shared, hsh, afterDisabling_queue]
    rfl
  rw [exec_disableTrack_track h ht, closedPassage_of_rest hr, answer_settle_eq hq]
  unfold State.withOrders
  rw [State.onTrack_shared, hsh]
  refine congrArg (fun u : State => Host.Outcome.next (u.answered o .done [0, 0, 0, 0])) ?_
  exact congrArg (fun h : Shared => { s.withTrack t (s.popOrder.scene t).disable.trk with shared := h })
    (afterDisabling_restored s (s.tracks.get t).zero)

/-- The machine after an order has closed the passage of a track, before the order's answer (R60). -/
def State.closedByOrder (s : State) (t : Track) : State :=
  (s.withOrders { s.shared.orders with queue := s.shared.orders.queue.tail }).onTrack t fun c => c.closePassage .disabled

/-- A close made by DISABLE TRACK changes its track and the shared blocks alone. -/
theorem closedByOrder_frame (s : State) (t : Track) :
    (s.closedByOrder t).tracks.get t.other = s.tracks.get t.other ∧ (s.closedByOrder t).regs = s.regs
      ∧ (s.closedByOrder t).pages = s.pages ∧ (s.closedByOrder t).bus = s.bus := by
  simp [State.closedByOrder]

/-- DISABLE TRACK of a track with an open passage closes it with reason DISABLED (R60). -/
theorem exec_disableTrack_inPassage {s : State} {o : Order} (h : s.Carries 0x12#8 o) {t : Track}
    (ht : trackOf (nat8 o.params 0) = some t) {p : Passage} (hm : (s.tracks.get t).mode.inPassage = true)
    (hp : (s.tracks.get t).context = some p) :
    exec .disableTrack s = .next ((s.closedByOrder t).answer o .done (le32 p.number)).settle := by
  rw [exec_disableTrack_track h ht, closedPassage_of_context hm hp,
    onTrack_congr (g := (·.closePassage .disabled)) (disable_of_inPassage (c := s.popOrder.scene t) hm)]
  rfl

/-- What a close made by DISABLE TRACK leaves, the order's own removal from the queue left aside. -/
theorem closedByOrder_effects {s : State} {t : Track} {p : Passage} (hc : s.Coherent) (hs : ∀ e ∈ s.shared.classes, e.Sound)
    (hm : (s.tracks.get t).mode.inPassage = true) (hp : (s.tracks.get t).context = some p) :
    (s.closedByOrder t).shared.orders.queue = s.shared.orders.queue.tail
      ∧ (s.tracks.get t).ClosedTo t p .disabled s.shared.time ((s.closedByOrder t).tracks.get t)
      ∧ (s.popOrder.scene t).ClosedEffects p .disabled ((s.closedByOrder t).tracks.get t) (s.closedByOrder t).shared
      ∧ ((s.closedByOrder t).tracks.get t).zero = none := by
  have hi : (s.popOrder.scene t).InPassage := inPassage_of_coherent (hc.1 t).1 (hc.1 t).2 hm
  obtain ⟨-, -, -, -, hq⟩ := closePassage_shared (s.popOrder.scene t) .disabled
  have he := closePassage_effects .disabled hi hp
  have hz := he
  obtain ⟨-, -, -, -, -, -, -, ⟨-, hz⟩, -⟩ := hz
  have hk : (s.closedByOrder t).tracks.get t = ((s.popOrder.scene t).closePassage .disabled).trk := PerTrack.get_set_same ..
  have hh : (s.closedByOrder t).shared = ((s.popOrder.scene t).closePassage .disabled).sh := State.onTrack_shared ..
  rw [hk, hh]
  exact ⟨hq, closePassage_closedTo .disabled hi hp hs, he, (hz rfl).1⟩

theorem exec_enableTrack_track {s : State} {o : Order} (h : s.Carries 0x11#8 o) {t : Track}
    (ht : trackOf (nat8 o.params 0) = some t) :
    exec .enableTrack s
      = .next
          (if (s.tracks.get t).mode ≠ .disabled then s.popOrder.answer o .busy
          else if (s.tracks.get t).config.platforms = 0 then s.popOrder.answer o .busy
          else (s.popOrder.onTrack t Scene.enable).answer o .done).settle := by
  rw [exec_enableTrack h, carryEnableTrack, ht]
  rfl

/-- Settles O38: ENABLE TRACK by its tests; DISABLE TRACK by the track state, the close's effects those of the close procedure. -/
theorem enableAndDisableTrack : Obligations.EnableAndDisableTrack := by
  refine ⟨fun s o h => ⟨fun ht => ?_, fun t ht hb => ?_, fun t ht hm hP => ?_⟩,
    fun s o h => ⟨fun ht => ?_, fun t => exec_disableTrack_disabled h, fun t ht hm => ?_, fun t p ht hc hs hm hp => ?_⟩⟩
  · rw [exec_enableTrack h, carryEnableTrack, ht]
    rfl
  · rw [exec_enableTrack_track h ht]
    split
    · rfl
    · rename_i hm
      rw [if_pos (hb.resolve_left hm)]
      rfl
  · rw [exec_enableTrack_track h ht, if_neg (Decidable.not_not.2 hm), if_neg hP]
    rfl
  · rw [exec_disableTrack h, carryDisableTrack, ht]
    rfl
  · obtain ⟨-, hk, hw⟩ := disable_outside_passage (c := s.popOrder.scene t) hm
    refine ⟨(s.popOrder.scene t).disable.trk.platforms, ?_, hw⟩
    rw [exec_disableTrack_outside_passage h ht hm, hk]
    rfl
  · have e := exec_disableTrack_inPassage h ht hm hp
    obtain ⟨hq, hto, heff, hz⟩ := closedByOrder_effects hc hs hm hp
    obtain ⟨hother, hregs, hpages, hbus⟩ := closedByOrder_frame s t
    refine ⟨?_, (s.closedByOrder t).withOrders { (s.closedByOrder t).shared.orders with queue := s.shared.orders.queue },
      answer_settle_eq hq.symm o .done (le32 p.number) ▸ e, ?_⟩
    · rw [e, answer_eq_withOrders]
      rfl
    · simp only [State.withOrders_tracks, State.withOrders_shared, State.withOrders_regs, State.withOrders_pages,
        State.withOrders_bus]
      exact ⟨hto, closedEffects_of_popped heff, hother, hz, hregs, hpages, hbus, trivial⟩

end Sys2Proof.Machine

namespace Sys2Proof.Machine

/-! ### What a track's command leaves of the rest (R11, R19, R61) -/

/-- The other track, the registers, the queue of commands and the count of free choices stay. -/
def State.RestKept (s : State) (t : Track) (u : State) : Prop :=
  u.tracks.get t.other = s.tracks.get t.other ∧ u.regs = s.regs ∧ u.pending = s.pending ∧ u.freeCount = s.freeCount

theorem restKept_refl (s : State) (t : Track) : s.RestKept t s := ⟨rfl, rfl, rfl, rfl⟩

theorem restKept_onTrack (s : State) (t : Track) (f : Scene → Scene) : s.RestKept t (s.onTrack t f) :=
  ⟨PerTrack.get_set_other .., rfl, rfl, rfl⟩

theorem restKept_modShared (s : State) (t : Track) (f : Shared → Shared) : s.RestKept t (s.modShared f) := ⟨rfl, rfl, rfl, rfl⟩

theorem State.RestKept.settle {s u : State} {t : Track} (h : s.RestKept t u) : s.RestKept t u.settle := by
  rw [State.settle_eq]
  exact h

/-- A command that acts only on a condition keeps the rest if its action does. -/
theorem State.RestKept.ite {s u : State} {t : Track} {b : Prop} [Decidable b] (h : s.RestKept t u) :
    s.RestKept t (if b then u else s) := by
  split
  · exact h
  · exact restKept_refl s t

theorem restKept_headEdge {s : State} (hr : s.regs.part = .running) (check : Bool) (t : Track) (p : PointCode) (h : Head)
    (l : Level) : ∃ u, exec (.headEdgeMessage check t p h l) s = .next u ∧ s.RestKept t u := by
  refine ⟨_, exec_headEdge_awake (by simp [hr]), ?_⟩
  split
  · exact restKept_modShared ..
  · split
    · exact restKept_refl ..
    · split
      · exact restKept_modShared ..
      · rw [edgeArrives_running hr]
        exact (restKept_onTrack ..).settle

theorem restKept_sampleFrame (s : State) (check : Bool) (t : Track) (n : Byte) (channels : List ChannelEntry) :
    ∃ u, exec (.sampleFrame check t n channels) s = .next u ∧ s.RestKept t u := by
  refine ⟨_, rfl, ?_⟩
  split
  · exact restKept_refl ..
  · split
    · exact restKept_refl ..
    · split
      · exact restKept_modShared ..
      · split
        · exact restKept_modShared ..
        · split
          · exact restKept_modShared ..
          · exact (restKept_onTrack ..).settle

/-- Settles O55: every command of a track is a change of its scene, of the shared blocks or of nothing, then the step's end. -/
theorem theOtherTrackIsUntouched : Obligations.TheOtherTrackIsUntouched := by
  rintro s t hr i
    (⟨check, p, h, l, rfl⟩ | ⟨check, n, channels, rfl⟩ | ⟨p, h, rfl⟩ | rfl | rfl | rfl | rfl | rfl | rfl)
  · exact restKept_headEdge hr check t p h l
  · exact restKept_sampleFrame s check t n channels
  · exact ⟨_, rfl, (restKept_onTrack ..).ite⟩
  · exact ⟨_, rfl, (restKept_onTrack ..).ite⟩
  · exact ⟨_, rfl, (restKept_onTrack ..).ite⟩
  · exact ⟨_, rfl, (restKept_onTrack ..).settle.ite⟩
  · exact ⟨_, rfl, (restKept_onTrack ..).settle.ite⟩
  · exact ⟨_, rfl, (restKept_onTrack ..).settle.ite⟩
  · exact ⟨_, rfl, (restKept_onTrack ..).settle.ite⟩

/-! ### The front command and the resets -/

/-- Settles O1. -/
theorem stepRunsTheFrontCommand : Obligations.StepRunsTheFrontCommand := fun _ _ => rfl

/-- One value for all four is read back at every number. -/
theorem Four.get_const {α : Type} (v : α) (i : Nat) : (⟨v, v, v, v⟩ : Four α).get i = v := by
  rcases i with _ | _ | _ | _ | i <;> rfl

/-- Settles O4: the reset state is written out, and a power-on reset leaves it. -/
theorem powerOnResetLeavesTheResetValues : Obligations.PowerOnResetLeavesTheResetValues := by
  refine ⟨fun _ => rfl, rfl, rfl, rfl, rfl, rfl, rfl, fun i => Four.get_const .., rfl, rfl, rfl, rfl, rfl, rfl, fun t => ?_⟩
  have ht : State.reset.tracks.get t = .initial := by cases t <;> rfl
  rw [ht]
  exact ⟨rfl, fun p => by cases p <;> rfl, rfl, rfl, rfl, rfl, rfl, rfl, rfl, rfl, fun p => Four.get_const .., rfl, rfl, rfl,
    rfl, fun p => Four.get_const .., rfl⟩

/-- With HOLD OFF the options return to their defaults, HOLD among them (R179). -/
theorem options_softReset (x : Options) : x.softReset = if x.hold then x else .default := by
  unfold Options.softReset
  split
  · rfl
  · rename_i h
    rw [Bool.not_eq_true] at h
    rw [h]
    rfl

theorem exec_softReset {s : State} {v : Word} (h : v.getLsbD 1 = true) : exec (.softReset v) s = .next s.softReset :=
  congrArg _ (if_pos h)

/-- Settles O5: the hard reset writes its values; the soft reset keeps what `softReset` of each block keeps. -/
theorem hardAndSoftResetsKeepWhatTheirRulesKeep : Obligations.HardAndSoftResetsKeepWhatTheirRulesKeep := by
  refine ⟨fun _ => rfl, fun s v h => ?_⟩
  rw [exec_softReset h, State.softReset, Shared.softReset, options_softReset]
  rfl

/-! ### A stuck head (R12) -/

/-- Settles O14: the expiry is due, and the fault changes the point, the flag, the count and the notice. -/
theorem aStuckHeadFaultsItsPoint : Obligations.AStuckHeadFaultsItsPoint := by
  intro s t p h hp ho k
  have hd : s.stuckDue t p h = true := (stuckDue_iff s t p h).2 ⟨hp, ho⟩
  have e : exec (.stuckTimerExpiry t p h) s = .next (s.onTrack t fun c => c.pointFault p) := congrArg _ (if_pos hd)
  rw [e]
  rfl

end Sys2Proof.Machine

namespace Sys2Proof.Machine

/-! ### Register writes (R174, R181, R185) -/

/-- A CONTROL write without SOFT_RESET that starts nothing sets the notice mask and no more. -/
theorem writeControl_mask {s : State} {v : Word} (hs : softResetBit v = false) (hr : runBit v = false ∨ s.regs.part ≠ .stopped) :
    s.writeControl v = { s with regs := { s.regs with noticeMask := maskField v } } := by
  have hn : ¬ (runBit v = true ∧ s.regs.part = .stopped) := fun h => by
    rcases hr with hr | hr
    · exact absurd (hr.symm.trans h.1) (by decide)
    · exact hr h.2
  unfold State.writeControl
  rw [if_neg (by simp [hs])]
  exact if_neg hn

theorem execAttention_of_resting {s : State} (v : Word) (h : s.regs.part = .stopped ∨ s.regs.part = .halted) :
    execAttention v s = .next s := by
  unfold execAttention
  rcases h with h | h <;> rw [h]

theorem execAttention_of_running {s : State} (v : Word) (h : s.regs.part = .running) :
    execAttention v s = .next s.requestScan.settle := by
  unfold execAttention
  rw [h]

theorem execAttention_of_quiet {s : State} (v : Word) (h : s.regs.part = .quiet) :
    execAttention v s = .next (s.wake .attention).settle := by
  unfold execAttention
  rw [h]

/-- Settles O7: each register by its own write; ATTENTION by the part state. -/
theorem registerWritesTakeEffectByRegister : Obligations.RegisterWritesTakeEffectByRegister := by
  refine ⟨fun s v => ⟨fun hs hr => congrArg _ (writeControl_mask hs hr), rfl, rfl, fun _ => rfl⟩,
    fun s v => ⟨execAttention_of_resting v, execAttention_of_running v, execAttention_of_quiet v⟩⟩

/-! ### The tests of a sample frame (R21, R22) -/

theorem frameCheck_eq_false (check : Bool) (channels : List ChannelEntry) :
    frameCheck check channels = false ↔ check = false ∨ channels.length = 0 ∨ 8 < channels.length := by
  simp only [frameCheck, inRange, Bool.and_eq_false_iff, decide_eq_false_iff_not]
  refine or_congr Iff.rfl ?_
  omega

theorem exec_sampleFrame_resting {s : State} {check : Bool} {t : Track} {n : Byte} {channels : List ChannelEntry}
    (h : s.regs.part = .halted ∨ s.regs.part = .quiet) : exec (.sampleFrame check t n channels) s = .next s := by
  rcases h with h | h
  · exact congrArg _ (if_pos h)
  · refine congrArg _ ((if_neg ?_).trans (if_pos h))
    simp [h]

/-- The tests that a frame meets once the part takes frames, each counted when it fails. -/
theorem exec_sampleFrame_awake {s : State} {check : Bool} {t : Track} {n : Byte} {channels : List ChannelEntry}
    (hh : s.regs.part ≠ .halted) (hq : s.regs.part ≠ .quiet) :
    exec (.sampleFrame check t n channels) s
      = .next
          (if frameCheck check channels = false then s.modShared Shared.countBadFrame
          else if (s.tracks.get t).mode = .disabled then s.modShared Shared.countBadFrame
          else if channels.length ≠ 2 * (s.tracks.get t).config.platforms then s.modShared Shared.countBadFrame
          else (s.onTrack t fun c => c.acceptFrame n channels).settle) :=
  congrArg _ ((if_neg hh).trans (if_neg hq))

/-- A frame that fails any of the three counted tests is counted. -/
theorem exec_sampleFrame_counted {s : State} {check : Bool} {t : Track} {n : Byte} {channels : List ChannelEntry}
    (hh : s.regs.part ≠ .halted) (hq : s.regs.part ≠ .quiet)
    (hf : frameCheck check channels = false ∨ (s.tracks.get t).mode = .disabled
      ∨ channels.length ≠ 2 * (s.tracks.get t).config.platforms) :
    exec (.sampleFrame check t n channels) s = .next (s.modShared Shared.countBadFrame) := by
  rw [exec_sampleFrame_awake hh hq]
  split
  · rfl
  · split
    · rfl
    · rename_i hc hm
      rw [if_pos ((hf.resolve_left hc).resolve_left hm)]

theorem exec_sampleFrame_accepted {s : State} {check : Bool} {t : Track} {n : Byte} {channels : List ChannelEntry}
    (hh : s.regs.part ≠ .halted) (hq : s.regs.part ≠ .quiet) (hc : frameCheck check channels = true)
    (hm : (s.tracks.get t).mode ≠ .disabled) (hl : channels.length = 2 * (s.tracks.get t).config.platforms) :
    exec (.sampleFrame check t n channels) s = .next (s.onTrack t fun c => c.acceptFrame n channels).settle := by
  rw [exec_sampleFrame_awake hh hq, if_neg (by simp [hc]), if_neg hm, if_neg fun h => h hl]

/-- Settles O15: the tests of R22 in their order, the counted ones alike. -/
theorem frameTestsComeInTheirOrder : Obligations.FrameTestsComeInTheirOrder := by
  intro s check t n channels counted
  refine ⟨fun h => exec_sampleFrame_resting (.inl h), fun h => exec_sampleFrame_resting (.inr h),
    fun hh hq hc => exec_sampleFrame_counted hh hq (.inl ((frameCheck_eq_false ..).2 hc)),
    fun hh hq hm => exec_sampleFrame_counted hh hq (.inr (.inl hm)),
    fun hh hq hl => exec_sampleFrame_counted hh hq (.inr (.inr hl)), fun hh hq hc h1 h8 hm hl => ?_⟩
  refine exec_sampleFrame_accepted hh hq ?_ hm hl
  rw [← Bool.not_eq_false, frameCheck_eq_false, hc]
  rintro (h | h | h)
  · exact absurd h (by decide)
  · omega
  · omega

/-! ### What an accepted frame does to the windows (R23, R29) -/

theorem window_add_of_room {w : Window} (x : Rails ChannelEntry) (h : w.sampleCount < 4294967295) :
    w.add x
      = { w with
          sum := ⟨w.sum.left + x.left.value.toInt, w.sum.right + x.right.value.toInt⟩
          sampleCount := w.sampleCount + 1
          saturated := w.saturated || x.left.overrange || x.right.overrange } := if_neg (Nat.not_le.2 h)

theorem window_add_of_full {w : Window} (x : Rails ChannelEntry) (h : 4294967295 ≤ w.sampleCount) : w.add x = w := if_pos h

/-- A platform after an accepted frame: its open window is marked when the frame shows a gap, and adds the frame. -/
theorem platform_acceptFrame (c : Scene) (gap : Bool) (channels : List ChannelEntry) {p : Nat} (h1 : 1 ≤ p) (h4 : p ≤ 4) :
    ((if gap then c.markGapped else c).addToWindows channels).trk.platforms.get p
      = { c.trk.platforms.get p with
          window := (c.trk.platforms.get p).window.map fun w =>
            { w with gapped := w.gapped || gap }.add (frameRails channels p) } := by
  refine (Four.get_mapIdx _ _ h1 h4).trans ?_
  cases gap
  · simp
  · rw [if_pos rfl, show c.markGapped.trk.platforms.get p = _ from Four.get_mapIdx _ _ h1 h4]
    simp [Function.comp_def]

/-- An engine in NONE takes neither a gap nor a frame (R139, R140). -/
theorem zeroFrame_of_none {c : Scene} (h : c.trk.zero = none) (gap : Bool) (channels : List ChannelEntry) :
    (if gap then c.zeroGap else c).zeroFrame channels = c := by
  have hg : c.zeroGap = c := by rw [Scene.zeroGap, h]
  rw [hg, ite_self, Scene.zeroFrame, h]

theorem takeFrame_of_not_taking {x : CaptureUnit} (h : x.taking = false) (now : Word) (t : Track) (n : Byte)
    (channels : List ChannelEntry) : x.takeFrame now t n channels = x := if_neg (by simp [h])

/-- A frame of an accepting track, part by part. -/
theorem exec_sampleFrame_of_accepted {s : State} {t : Track} {channels : List ChannelEntry} (h : s.FrameAccepted t channels)
    (n : Byte) :
    exec (.sampleFrame true t n channels) s
      = .next
          (State.settle
            { s.withTrack t
                { ((if gapBefore (s.tracks.get t).sequence n then (s.scene t).zeroGap else s.scene t).zeroFrame channels).trk with
                  sequence := some n
                  platforms :=
                    ((if gapBefore (s.tracks.get t).sequence n then (s.scene t).markGapped else s.scene t).addToWindows
                      channels).trk.platforms } with
              shared :=
                { ((if gapBefore (s.tracks.get t).sequence n then (s.scene t).zeroGap else s.scene t).zeroFrame channels).sh with
                  capture := s.shared.capture.takeFrame s.shared.time t n channels } }) := by
  obtain ⟨hr, hc, hm, hl⟩ := h
  rw [exec_sampleFrame_accepted (by simp [hr]) (by simp [hr]) (by simp [frameCheck, hc]) hm hl, State.onTrack, acceptFrame_eq]
  rfl

theorem gapBefore_eq (q : Option Byte) (n : Byte) :
    gapBefore q n = match q with
      | none => false
      | some m => decide (n ≠ m + 1) := by
  cases q with
  | none => rfl
  | some m => exact decide_not.symm

/-- Settles O16: the parts of an accepted frame, and of the windows each platform's. -/
theorem anAcceptedFrameGoesToItsTracksWindows : Obligations.AnAcceptedFrameGoesToItsTracksWindows := by
  intro s t n channels h k gap zeroed
  have hgap : gapBefore k.sequence n = gap := gapBefore_eq ..
  have e := exec_sampleFrame_of_accepted h n
  rw [hgap] at e
  refine ⟨((if gap then (s.scene t).markGapped else s.scene t).addToWindows channels).trk.platforms, e,
    fun hz ht => ?_, fun p h1 h4 => ?_⟩
  · rw [zeroFrame_of_none hz, takeFrame_of_not_taking ht] at e
    exact e
  · rw [platform_acceptFrame _ _ _ h1 h4]
    refine ⟨rfl, rfl, fun hw => ?_, fun w hw hc => ?_, fun w hw hc => ?_⟩
    · exact congrArg (Option.map _) hw
    · refine (congrArg (Option.map _) hw).trans ?_
      rw [Option.map_some, window_add_of_room]
      · rfl
      · exact hc
    · refine (congrArg (Option.map _) hw).trans ?_
      rw [Option.map_some, window_add_of_full]
      exact hc

end Sys2Proof.Machine

namespace Sys2Proof.Machine

/-! ### A closing window (R32, R35, R39) -/

/-- The platform of a closing window keeps its statistics and nothing else. -/
theorem platform_closeWindow {c : Scene} {p : Nat} {w : Window} (hw : (c.trk.platforms.get p).window = some w) :
    (c.closeWindow p).trk.platforms.get p = ⟨none, some (w.stats (c.trk.occupants p).isEmpty c.other), none⟩ := by
  rw [platforms_closeWindow, hw]
  exact Four.get_set_same ..

theorem platform_closeWindow_ne (c : Scene) {p q : Nat} (hp : 1 ≤ p ∧ p ≤ 4) (hq : 1 ≤ q ∧ q ≤ 4) (h : q ≠ p) :
    (c.closeWindow p).trk.platforms.get q = c.trk.platforms.get q := by
  rw [platforms_closeWindow]
  split
  · rfl
  · exact Four.get_set_ne _ _ (Ne.symm h) hp hq

theorem takeStep_context (c : Scene) (p : Nat) (st : PendingStep) (x : WindowStats) :
    (c.takeStep p st x).trk.context = c.trk.context := by
  unfold Scene.takeStep
  split <;> rfl

/-- The marks of a closing window join the flags of an open passage. -/
theorem closeWindow_context {c : Scene} {p : Nat} {w : Window} (hw : (c.trk.platforms.get p).window = some w) :
    (c.closeWindow p).trk.context
      = c.trk.context.map fun y =>
          { y with flags := y.flags.addMarks (w.stats (c.trk.occupants p).isEmpty c.other) } := by
  unfold Scene.closeWindow
  rw [hw]
  dsimp only
  split
  · rfl
  · rw [takeStep_context]
    rfl

theorem stats_mean_of_empty {w : Window} (h : w.sampleCount = 0) (empty : Bool) (other : Occupancy) :
    (w.stats empty other).mean = ⟨none, none⟩ := by
  simp [Window.stats, Rails.map, h]

theorem stats_mean_of_samples {w : Window} (h : w.sampleCount ≠ 0) (empty : Bool) (other : Occupancy) :
    (w.stats empty other).mean = ⟨some (roundDiv w.sum.left w.sampleCount), some (roundDiv w.sum.right w.sampleCount)⟩ := by
  simp [Window.stats, Rails.map, h]

theorem window_crosstalk_iff (w : Window) (other : Occupancy) :
    w.crosstalk other = true ↔ w.snapshotOccupied = true ∨ other.occupied = true ∨ other.epoch ≠ w.snapshotEpoch := by
  simp [Window.crosstalk, or_assoc]

/-- Settles O28: the statistics are those of `Window.stats`; the marks join the passage's flags. -/
theorem aClosingWindowLeavesItsStatistics : Obligations.AClosingWindowLeavesItsStatistics := by
  intro c p w h1 h4 hw
  refine ⟨⟨_, platform_closeWindow hw, rfl, rfl, rfl, occupants_empty .., window_crosstalk_iff .., fun h => ?_, fun h => ?_,
    fun y hy => ?_⟩, fun q q1 q4 hq => platform_closeWindow_ne c ⟨h1, h4⟩ ⟨q1, q4⟩ hq⟩
  · exact stats_mean_of_empty h ..
  · exact stats_mean_of_samples (Nat.ne_of_gt h) ..
  · rw [closeWindow_context hw, hy]
    rfl

/-! ### Passes outside a passage (R45, R47, R50) -/

theorem takePass_of_inPassage {c : Scene} {x : Pass} (hm : c.trk.mode.inPassage = true) (hb : boundaryIndex x.point = none) :
    c.takePass x = c := by
  unfold Scene.takePass
  cases h : c.trk.mode <;> rw [h] at hm <;> simp [TrackMode.inPassage] at hm <;> simp only [hb]

theorem takePass_of_approach {c : Scene} {x : Pass} (hm : c.trk.mode = .approach) (hb : boundaryIndex x.point = none) :
    c.takePass x = c := by
  unfold Scene.takePass
  simp only [hm, hb]

theorem takePass_of_idle {c : Scene} {x : Pass} (hm : c.trk.mode = .idle) (hb : boundaryIndex x.point = none) :
    c.takePass x
      = if (x.point = .LA ∧ x.direction = .up) ∨ (x.point = .HA ∧ x.direction = .down) then c.enterApproach x.direction
        else c := by
  unfold Scene.takePass
  simp only [hm, hb]

theorem boundaryIndex_eq_none (p : PointCode) : boundaryIndex p = none ↔ p = .LA ∨ p = .HA := by
  cases p <;> simp [boundaryIndex]

/-- The entry pass of a direction, by its point (R47). -/
theorem opensPassage_iff (P k : Nat) (d : Direction) : opensPassage P k d = true ↔ (d = .up ∧ k = 0) ∨ (d = .down ∧ k = P) := by
  rw [opensPassage, decide_eq_true_iff]
  cases d <;> simp [entryIndex]

/-- In IDLE and APPROACH a boundary pass opens a passage or is misplaced; the cause is told by the expected direction (R47). -/
theorem takePass_boundary {c : Scene} {x : Pass} {k : Nat} (hm : c.trk.mode = .idle ∨ c.trk.mode = .approach)
    (hb : boundaryIndex x.point = some k) :
    c.takePass x
      = if opensPassage c.trk.config.platforms k x.direction then
          (c.openPassage x (if c.trk.mode = .approach ∧ c.trk.expected = some x.direction then .approach else .direct)).handPass
            x.direction x k
        else c.modShared Shared.countSequenceError := by
  unfold Scene.takePass
  rcases hm with hm | hm <;> simp [hm, hb]

/-- Settles O21: in IDLE by the point and direction, elsewhere the pass is dropped or counted. -/
theorem passesOutsideAPassage : Obligations.PassesOutsideAPassage := by
  intro c x
  refine ⟨fun hm hx => ?_, fun hm hx => ?_, fun hm hx => takePass_of_approach hm ((boundaryIndex_eq_none _).2 hx),
    fun hm hx => takePass_of_inPassage hm ((boundaryIndex_eq_none _).2 hx), fun k hm hb hn => ?_⟩
  · have hb : boundaryIndex x.point = none := (boundaryIndex_eq_none _).2 (hx.imp And.left And.left)
    refine ⟨c.openWindows.trk.platforms, ?_, openWindows_platforms c⟩
    rw [takePass_of_idle hm hb, if_pos hx]
    rfl
  · have hb : boundaryIndex x.point = none := (boundaryIndex_eq_none _).2 (hx.imp And.left And.left)
    rw [takePass_of_idle hm hb, if_neg]
    rcases hx with ⟨hp, hd⟩ | ⟨hp, hd⟩ <;> simp [hp, hd]
  · rw [takePass_boundary hm hb, if_neg (fun h => hn ((opensPassage_iff ..).1 h))]
    rfl

end Sys2Proof.Machine

namespace Sys2Proof.Machine

/-! ### A boundary pass of an open passage (R31, R50, R76) -/

theorem nextMode_of_occupied {c : Scene} (kind : PassKind) (h : c.trk.axles.onBridge ≠ []) :
    c.nextMode kind
      = { c with trk := { c.trk with mode := .crossing, timer := some ⟨c.sh.time, c.trk.config.stallTime * 1000⟩ } } :=
  if_pos (by simpa [TrackState.occupied] using h)

theorem not_occupied_of_nil {k : TrackState} (h : k.axles.onBridge = []) : ¬ k.occupied = true := by
  simp [TrackState.occupied, h]

/-- A pass that empties the bridge leaves the track WITHDRAWN or DRAINING, by its kind. -/
theorem nextMode_of_emptied {c : Scene} (h : c.trk.axles.onBridge = []) (hm : c.trk.mode = .crossing ∨ c.trk.mode = .standing) :
    c.nextMode .forwardExit
        = { c with trk := { c.trk with mode := .draining, timer := some ⟨c.sh.time, c.trk.config.settleTime * 1000⟩ } }
      ∧ c.nextMode .backwardEntry
        = { c with trk := { c.trk with mode := .withdrawn, timer := some ⟨c.sh.time, c.trk.config.approachTimeout * 1000000⟩ } } :=
  ⟨(if_neg (not_occupied_of_nil h)).trans (if_pos hm), (if_neg (not_occupied_of_nil h)).trans (if_pos hm)⟩

theorem nextMode_of_empty {c : Scene} (kind : PassKind) (h : c.trk.axles.onBridge = [])
    (hm : c.trk.mode = .draining ∨ c.trk.mode = .withdrawn) : c.nextMode kind = c := by
  refine (if_neg (not_occupied_of_nil h)).trans (if_neg ?_)
  rcases hm with hm | hm <;> simp [hm]

theorem overflows_eq_false {a : AxleTable} (h : a.onBridge.length < 32) (hs : a.backedOut ≠ [] ∨ a.lastSerial < 65535) :
    a.overflows = false := by
  have hb : a.backedOut.isEmpty = true → ¬ 65535 ≤ a.lastSerial := fun e => by
    rcases hs with hs | hs
    · exact absurd (List.isEmpty_iff.1 e) hs
    · omega
  unfold AxleTable.overflows
  rw [Bool.or_eq_false_iff, decide_eq_false_iff_not, Bool.and_eq_false_imp]
  exact ⟨Nat.not_le.2 h, fun e => decide_eq_false (hb e)⟩

/-- The stages of R31 on a pass, the turn of its windows written out. -/
theorem processPass_of_bound {c : Scene} {d : Direction} {kind : PassKind} {bound : List Nat}
    (h : boundPlatforms c.trk.config.platforms d kind = bound) (x : Pass) :
    c.processPass d x kind
      = (bound.foldl Scene.openWindow (bound.foldl Scene.closeWindow c).finalizeResolved).moveAndRecord d x kind := by
  subst h
  rfl

/-- A recorded step, with the count of a real axle's pending steps (R38, R89). -/
theorem recordStep_eq {c : Scene} {p : Nat} {before : WindowStats} (h : (c.trk.platforms.get p).last = some before) (e : Entry)
    (speed : Option Nat) (sign : Sign) :
    c.recordStep e speed p sign
      = { c with
          trk :=
            { c.trk with
              platforms := c.trk.platforms.set p { c.trk.platforms.get p with step := some ⟨e, sign, speed, before⟩ }
              axles :=
                if e.ghost then c.trk.axles
                else c.trk.axles.modRecord e.serial fun r => { r with pendingSteps := r.pendingSteps + 1 } } } := by
  unfold Scene.recordStep
  rw [h]
  dsimp only
  split
  · rfl
  · rfl

/-- The finalization of an axle that has a record (R103, R119). -/
theorem finalizeAxle_of_find {c : Scene} {n : Nat} {r : AxleRecord} (h : c.trk.axles.find n = some r) :
    c.finalizeAxle n
      = ((c.modAxles fun a => { a.dropRecord n with awaiting := a.awaiting.filter (· != n) }).modTrk fun k =>
          { k with group := k.group ++ [r.finalize] }).groupLoop := by
  unfold Scene.finalizeAxle
  rw [h]

theorem moveAndRecord_of_move {c : Scene} {d : Direction} {x : Pass} {kind : PassKind} {m : Moved} (h : c.movePass d x kind = some m) :
    c.moveAndRecord d x kind = m.steps.foldl (fun y g => y.recordStep m.entry x.speed g.1 g.2) m.scene := by
  unfold Scene.moveAndRecord
  rw [h]

/-- The move of each kind of pass, on the platforms of its point (R76). -/
theorem movePass_eq (c : Scene) (d : Direction) (x : Pass) :
    c.movePass d x .forwardEntry = some (c.enter (firstPlatform c.trk.config.platforms d) x)
      ∧ c.movePass d x .backwardEntry = c.backOut (firstPlatform c.trk.config.platforms d)
      ∧ (∀ k, c.movePass d x (.forwardMiddle k) = c.moveForward (behindPlatform k d) (aheadPlatform k d)
        ∧ c.movePass d x (.backwardMiddle k) = c.moveBackward (behindPlatform k d) (aheadPlatform k d))
      ∧ c.movePass d x .forwardExit = c.depart (lastPlatform c.trk.config.platforms d)
      ∧ c.movePass d x .backwardExit = c.ghostReturn (lastPlatform c.trk.config.platforms d) :=
  ⟨rfl, rfl, fun _ => ⟨rfl, rfl⟩, rfl, rfl⟩

/-- Settles O24: the stages of a pass in their order, each by its own equation, and the next track state by the bridge. -/
theorem theNextTrackStateFollowsTheBridge : Obligations.TheNextTrackStateFollowsTheBridge := by
  refine ⟨fun c kind => ⟨nextMode_of_occupied kind, nextMode_of_emptied, nextMode_of_empty kind⟩, ?_, fun c => rfl,
    fun c n r h => finalizeAxle_of_find h, fun c d x => ?_, fun c d x kind m => moveAndRecord_of_move,
    fun c e speed p sign before h => recordStep_eq h e speed sign⟩
  · intro c p x k hm hp hb hP1 hP4 hk P kind bound hf
    have hbound : boundPlatforms P p.direction kind = bound := boundPlatforms_classifyPass P k p.direction x.direction hP1
    have range : ∀ q ∈ boundPlatforms P p.direction kind, 1 ≤ q ∧ q ≤ 4 := fun q hq => by
      obtain ⟨h1, h2⟩ := boundPlatforms_range p.direction x.direction hP1 hk q hq
      exact ⟨h1, Nat.le_trans h2 hP4⟩
    have e : c.takePass x = (c.processPass p.direction x kind).nextMode kind := by
      refine takePass_open c p x k hm hp hb fun ⟨hk, ho⟩ => ?_
      obtain ⟨h1, h2⟩ := hf hk
      exact absurd ho (by simp [overflows_eq_false h1 h2])
    have hplat : (c.takePass x).trk.platforms = (c.processPass p.direction x kind).trk.platforms := by
      rw [e, nextMode_platforms]
    rw [hplat]
    refine ⟨by rw [e, processPass_of_bound hbound], fun q hq => ?_, fun q h1 h4 hq => ?_⟩
    · rw [← hbound] at hq
      exact (platforms_processPass c p.direction x kind range q (range q hq)).1 hq
    · rw [← hbound] at hq
      exact (platforms_processPass c p.direction x kind range q ⟨h1, h4⟩).2 hq
  · cases d <;> exact movePass_eq c _ x

/-! ### CLOSE PASSAGE (R59) -/

theorem exec_closePassage {s : State} {o : Order} (h : s.Carries 0x13#8 o) :
    exec .closePassage s = .next (carryClosePassage o s.popOrder).settle :=
  carryOut_of_carries h (· == 0x13#8) rfl carryClosePassage

/-- CLOSE PASSAGE of a track, by whether a passage is open. -/
theorem exec_closePassage_track {s : State} {o : Order} (h : s.Carries 0x13#8 o) {t : Track}
    (ht : trackOf (nat8 o.params 0) = some t) :
    exec .closePassage s
      = .next
          (if (s.tracks.get t).mode.inPassage then
            (s.popOrder.onTrack t fun c => c.closePassage .ordered).answer o .done (le32 (s.tracks.get t).passageOpen)
          else s.popOrder.answer o .nothing).settle := by
  rw [exec_closePassage h, carryClosePassage, ht]
  rfl

/-- A close for a reason other than DISABLED touches no order (R56, R143, R147). -/
theorem closePassage_orders (c : Scene) {r : CloseReason} (hr : r ≠ .disabled) : (c.closePassage r).sh.orders = c.sh.orders := by
  have h8 := control_closeToStep8 c r
  unfold Scene.closePassage
  rw [(endClose_idle hr).1]
  revert h8
  generalize c.closeToStep8 r = d
  exact fun h8 => congrArg Control.orders h8

/-- The machine after CLOSE PASSAGE has closed the passage of a track, before the order's answer (R59). -/
def State.orderedClose (s : State) (t : Track) : State :=
  (s.withOrders { s.shared.orders with queue := s.shared.orders.queue.tail }).onTrack t fun c => c.closePassage .ordered

/-- The close changes its track and the shared blocks alone. -/
theorem orderedClose_frame (s : State) (t : Track) :
    (s.orderedClose t).tracks.get t.other = s.tracks.get t.other ∧ (s.orderedClose t).regs = s.regs
      ∧ (s.orderedClose t).pages = s.pages ∧ (s.orderedClose t).bus = s.bus := by
  simp [State.orderedClose]

/-- Of the order unit the close leaves the order's removal from the queue alone. -/
theorem orderedClose_orders (s : State) (t : Track) :
    (s.orderedClose t).shared.orders = { s.shared.orders with queue := s.shared.orders.queue.tail } :=
  closePassage_orders (s.popOrder.scene t) (by decide)

/-- What the close leaves of its track and beside it (R56). -/
theorem orderedClose_effects {s : State} {t : Track} {p : Passage} (hc : s.Coherent) (hs : ∀ e ∈ s.shared.classes, e.Sound)
    (hm : (s.tracks.get t).mode.inPassage = true) (hp : (s.tracks.get t).context = some p) :
    (s.tracks.get t).ClosedTo t p .ordered s.shared.time ((s.orderedClose t).tracks.get t)
      ∧ (s.popOrder.scene t).ClosedEffects p .ordered ((s.orderedClose t).tracks.get t) (s.orderedClose t).shared := by
  have hi : (s.popOrder.scene t).InPassage := inPassage_of_coherent (hc.1 t).1 (hc.1 t).2 hm
  have hk : (s.orderedClose t).tracks.get t = ((s.popOrder.scene t).closePassage .ordered).trk := PerTrack.get_set_same ..
  have hh : (s.orderedClose t).shared = ((s.popOrder.scene t).closePassage .ordered).sh := State.onTrack_shared ..
  rw [hk, hh]
  exact ⟨closePassage_closedTo .ordered hi hp hs, closePassage_effects .ordered hi hp⟩

theorem exec_closePassage_inPassage {s : State} {o : Order} (h : s.Carries 0x13#8 o) {t : Track}
    (ht : trackOf (nat8 o.params 0) = some t) {p : Passage} (hm : (s.tracks.get t).mode.inPassage = true)
    (hp : (s.tracks.get t).context = some p) :
    exec .closePassage s = .next ((s.orderedClose t).answer o .done (le32 p.number)).settle := by
  rw [exec_closePassage_track h ht, if_pos hm, TrackState.passageOpen, hp]
  rfl

/-! ### The steps of a close (R56) -/

/-- The disposal of the axles left at a close (R90). -/
theorem disposeAxles_eq (c : Scene) :
    c.disposeAxles
      = { c with
          trk :=
            { c.trk with
              axles :=
                { c.trk.axles with
                  records :=
                    c.trk.axles.records.filter fun r =>
                      decide (r.serial ∉ bridgeSerials c.trk.axles.onBridge ++ stackSerials c.trk.axles.backedOut)
                  onBridge := []
                  backedOut := []
                  departed := []
                  discarded :=
                    c.trk.axles.discarded ++ bridgeSerials c.trk.axles.onBridge ++ stackSerials c.trk.axles.backedOut }
              context :=
                c.trk.context.map fun p =>
                  { p with
                    axlesLeftOnBridge := satAdd 65535 p.axlesLeftOnBridge (bridgeSerials c.trk.axles.onBridge).length
                    axlesBackedOut := satAdd 65535 p.axlesBackedOut (stackSerials c.trk.axles.backedOut).length } } } := by
  have e : (fun r : AxleRecord => decide (r.serial ∉ bridgeSerials c.trk.axles.onBridge ++ stackSerials c.trk.axles.backedOut))
      = fun r => !(bridgeSerials c.trk.axles.onBridge ++ stackSerials c.trk.axles.backedOut).contains r.serial := by
    funext r
    rw [decide_not, List.contains_eq_mem]
  rw [e]
  rfl

theorem satAdd_eq_min {n : Nat} (k : Nat) (h : n ≤ 65535) : satAdd 65535 n k = min 65535 (n + k) := by
  unfold satAdd
  split <;> omega

/-- The drift of one channel read from a closed window's statistics (R109). -/
theorem channelDrifted_iff (limit least : Nat) (x : WindowStats) (mean : Option Int) (ch : Channel) :
    channelDrifted limit least x mean ch = true
      ↔ x.empty = true ∧ least ≤ x.sampleCount ∧ x.saturated = false ∧ x.gapped = false ∧ x.crosstalk = false
        ∧ ch.zeroValid = true ∧ ∃ m, mean = some m ∧ limit * 65536 < (m - ch.zeroOffset).natAbs * ch.span := by
  cases mean with
  | none => simp [channelDrifted]
  | some m =>
    simp only [channelDrifted, Bool.and_eq_true, Bool.not_eq_true', decide_eq_true_eq, Option.some.injEq, exists_eq_left']
    exact
      ⟨fun ⟨⟨⟨⟨⟨⟨hz, he⟩, hn⟩, hs⟩, hg⟩, hc⟩, hd⟩ => ⟨he, hn, hs, hg, hc, hz, hd⟩,
        fun ⟨he, hn, hs, hg, hc, hz, hd⟩ => ⟨⟨⟨⟨⟨⟨hz, he⟩, hn⟩, hs⟩, hg⟩, hc⟩, hd⟩⟩

/-- The drift of a platform, read from its last closed statistics (R109). -/
theorem platformDrifted_iff (k : TrackState) (limit q : Nat) :
    platformDrifted k limit q = true
      ↔ ∃ x, q ≤ k.config.platforms ∧ (k.platforms.get q).last = some x
          ∧ (channelDrifted limit k.config.minWindowSamples x x.mean.left (k.calibration.get q).left = true
            ∨ channelDrifted limit k.config.minWindowSamples x x.mean.right (k.calibration.get q).right = true) := by
  unfold platformDrifted
  cases (k.platforms.get q).last with
  | none => simp
  | some x => simp

theorem checkDrift_of_drift {c : Scene} (h : c.sh.options.driftLimit ≠ 0)
    (hd : [1, 2, 3, 4].any (platformDrifted c.trk c.sh.options.driftLimit) = true) :
    c.checkDrift
      = { c with
          trk := { c.trk with context := c.trk.context.map fun p => { p with flags := { p.flags with drift := true } } }
          sh := { c.sh with notice := c.sh.notice ||| 0x04#6 } } := if_pos ⟨h, hd⟩

theorem mem_platforms (q : Nat) : q ∈ [1, 2, 3, 4] ↔ 1 ≤ q ∧ q ≤ 4 := by
  simp only [List.mem_cons, List.not_mem_nil, or_false]
  omega

theorem queueCloseRecord_of_lost {c : Scene} {p : Passage} (hp : c.trk.context = some p) (h : p.place = .lost) :
    c.queueCloseRecord = c := by
  unfold Scene.queueCloseRecord
  rw [hp]
  exact if_neg (by simp [h])

theorem queueCloseRecord_of_reserved {c : Scene} {p : Passage} (hp : c.trk.context = some p) (h : p.place = .reserved) :
    c.queueCloseRecord
      = { c with
          trk :=
            { c.trk with
              records :=
                { c.trk.records with
                  queue := c.trk.records.queue ++ [.close ⟨c.id, p, c.trk.records.lostSinceClose⟩]
                  lostSinceClose := 0 } } } := by
  unfold Scene.queueCloseRecord
  rw [hp]
  exact if_pos h

/-- The drift check as R109 states it, on the last closed statistics of platforms 1 to P. -/
theorem any_platformDrifted_iff (k : TrackState) (limit : Nat) :
    [1, 2, 3, 4].any (platformDrifted k limit) = true
      ↔ ∃ q x, 1 ≤ q ∧ q ≤ 4 ∧ q ≤ k.config.platforms ∧ (k.platforms.get q).last = some x
          ∧ (channelDrifted limit k.config.minWindowSamples x x.mean.left (k.calibration.get q).left = true
            ∨ channelDrifted limit k.config.minWindowSamples x x.mean.right (k.calibration.get q).right = true) := by
  simp only [List.any_eq_true, mem_platforms, platformDrifted_iff, and_assoc, exists_and_left]

/-- Settles O39: the order by its tests, its close by the close procedure, and each step of that procedure by its own equation. -/
theorem closePassageClosesAnOpenPassage : Obligations.ClosePassageClosesAnOpenPassage := by
  refine ⟨fun s o h => ⟨fun ht => ?_, fun t ht hm => ?_, fun t p ht hc hs hm hp => ?_⟩,
    fun c r => closePassage_eq c r _ _ _ _ rfl rfl rfl rfl, disposeAxles_eq, fun n k h => satAdd_eq_min k h, fun c => ?_,
    fun c p hp => ⟨queueCloseRecord_of_lost hp, queueCloseRecord_of_reserved hp⟩,
    fun c r => ⟨fun hr => if_neg hr, fun hr => if_pos hr⟩⟩
  · rw [exec_closePassage h, carryClosePassage, ht]
    rfl
  · rw [exec_closePassage_track h ht, if_neg (by simp [hm])]
    rfl
  · have e := exec_closePassage_inPassage h ht hm hp
    obtain ⟨hto, heff⟩ := orderedClose_effects hc hs hm hp
    obtain ⟨hother, hregs, hpages, hbus⟩ := orderedClose_frame s t
    have ho := orderedClose_orders s t
    refine ⟨?_, (s.orderedClose t).withOrders { (s.orderedClose t).shared.orders with queue := s.shared.orders.queue },
      answer_settle_eq (congrArg OrderUnit.queue ho.symm) o .done (le32 p.number) ▸ e, ?_⟩
    · rw [e, answer_eq_withOrders]
      rfl
    · simp only [State.withOrders_tracks, State.withOrders_shared, State.withOrders_regs, State.withOrders_pages,
        State.withOrders_bus]
      refine ⟨hto, closedEffects_of_popped heff, hother, hregs, hpages, hbus, ?_⟩
      rw [ho]
  · intro far drifted
    have hd : drifted ↔ c.sh.options.driftLimit ≠ 0 ∧ [1, 2, 3, 4].any (platformDrifted c.trk c.sh.options.driftLimit) = true := by
      refine and_congr Iff.rfl ((any_platformDrifted_iff ..).trans ?_).symm
      refine exists_congr fun q => exists_congr fun x => ?_
      simp only [channelDrifted_iff, ← and_or_left, far]
    exact ⟨fun h => if_neg (fun e => h (hd.2 e)), fun h => checkDrift_of_drift (hd.1 h).1 (hd.1 h).2⟩

end Sys2Proof.Machine

namespace Sys2Proof.Machine

/-! ### The frontmost and the rearmost entry of a platform -/

/-- The frontmost entry on a platform is the one that no other on it precedes. -/
theorem takeFrontOn_of_split {p : Nat} {e : BridgeEntry} (he : e.platform = p) (after : List BridgeEntry) :
    ∀ {before : List BridgeEntry}, (∀ y ∈ before, y.platform ≠ p) → takeFrontOn p (before ++ e :: after) = some (e, before ++ after)
  | [], _ => if_pos he
  | y :: before, h => by
    obtain ⟨hy, hb⟩ := List.forall_mem_cons.1 h
    simp only [List.cons_append, takeFrontOn, if_neg hy, takeFrontOn_of_split he after hb, Option.map_some]

theorem moveFrontOn_of_split {p : Nat} (q : Nat) {e : BridgeEntry} (he : e.platform = p) (after : List BridgeEntry) :
    ∀ {before : List BridgeEntry}, (∀ y ∈ before, y.platform ≠ p) →
      moveFrontOn p q (before ++ e :: after) = some (e, before ++ { e with platform := q } :: after)
  | [], _ => if_pos he
  | y :: before, h => by
    obtain ⟨hy, hb⟩ := List.forall_mem_cons.1 h
    simp only [List.cons_append, moveFrontOn, if_neg hy, moveFrontOn_of_split q he after hb, Option.map_some]

theorem takeFrontOn_of_empty {p : Nat} : ∀ {l : List BridgeEntry}, (∀ y ∈ l, y.platform ≠ p) → takeFrontOn p l = none
  | [], _ => rfl
  | y :: l, h => by
    obtain ⟨hy, hl⟩ := List.forall_mem_cons.1 h
    simp only [takeFrontOn, if_neg hy, takeFrontOn_of_empty hl, Option.map_none]

theorem moveFrontOn_of_empty {p : Nat} (q : Nat) : ∀ {l : List BridgeEntry}, (∀ y ∈ l, y.platform ≠ p) → moveFrontOn p q l = none
  | [], _ => rfl
  | y :: l, h => by
    obtain ⟨hy, hl⟩ := List.forall_mem_cons.1 h
    simp only [moveFrontOn, if_neg hy, moveFrontOn_of_empty q hl, Option.map_none]

/-- The rearmost entry on a platform is the one that no other on it follows. -/
theorem takeRearOn_of_split {p : Nat} {e : BridgeEntry} (he : e.platform = p) (before : List BridgeEntry)
    {after : List BridgeEntry} (h : ∀ y ∈ after, y.platform ≠ p) :
    takeRearOn p (before ++ e :: after) = some (e, before ++ after) := by
  have hr : (before ++ e :: after).reverse = after.reverse ++ e :: before.reverse := by simp
  rw [takeRearOn, hr, takeFrontOn_of_split he _ fun y hy => h y (List.mem_reverse.1 hy)]
  simp

theorem moveRearOn_of_split {p : Nat} (q : Nat) {e : BridgeEntry} (he : e.platform = p) (before : List BridgeEntry)
    {after : List BridgeEntry} (h : ∀ y ∈ after, y.platform ≠ p) :
    moveRearOn p q (before ++ e :: after) = some (e, before ++ { e with platform := q } :: after) := by
  have hr : (before ++ e :: after).reverse = after.reverse ++ e :: before.reverse := by simp
  rw [moveRearOn, hr, moveFrontOn_of_split q he _ fun y hy => h y (List.mem_reverse.1 hy)]
  simp

theorem takeRearOn_of_empty {p : Nat} {l : List BridgeEntry} (h : ∀ y ∈ l, y.platform ≠ p) : takeRearOn p l = none := by
  rw [takeRearOn, takeFrontOn_of_empty fun y hy => h y (List.mem_reverse.1 hy)]
  rfl

theorem moveRearOn_of_empty {p : Nat} (q : Nat) {l : List BridgeEntry} (h : ∀ y ∈ l, y.platform ≠ p) : moveRearOn p q l = none := by
  rw [moveRearOn, moveFrontOn_of_empty q fun y hy => h y (List.mem_reverse.1 hy)]
  rfl

/-! ### The on-bridge list replaced (R26, R70) -/

theorem setBridge_of_occupied {c : Scene} (h : c.trk.axles.onBridge ≠ []) (l : List BridgeEntry) :
    c.setBridge l = c.modAxles fun a => { a with onBridge := l } := by
  have hn : c.trk.axles.onBridge.isEmpty = false := by simpa using h
  simp only [Scene.setBridge, Scene.modTrk, hn, Bool.false_and, Bool.false_eq_true, if_false]
  rfl

/-- An entry that joins the bridge advances the epoch when the bridge was empty. -/
theorem setBridge_of_entry (c : Scene) {l : List BridgeEntry} (h : l ≠ []) :
    c.setBridge l
      = { c with
          trk :=
            { c.trk with
              epoch := if c.trk.axles.onBridge = [] then c.trk.epoch + 1 else c.trk.epoch
              axles := { c.trk.axles with onBridge := l } } } := by
  have hn : l.isEmpty = false := by simpa using h
  simp only [Scene.setBridge, Scene.modTrk, hn, Bool.not_false, Bool.and_true, List.isEmpty_iff]

/-- An axle that moves to a platform takes its record with it (R83, R84). -/
theorem placeRecord_eq (c : Scene) (e : BridgeEntry) (q : Nat) :
    c.placeRecord e q
      = c.modAxles fun a =>
          { a with
            records :=
              if e.ghost then a.records else a.records.map fun r => if r.serial = e.serial then { r with platform := q } else r } := by
  unfold Scene.placeRecord
  split <;> rfl

/-! ### The moves of forward passes (R78 to R85) -/

/-- A forward pass at exit, of the frontmost entry on the last platform (R85). -/
theorem depart_of_split {c : Scene} {p : Nat} {before after : List BridgeEntry} {e : BridgeEntry}
    (hl : c.trk.axles.onBridge = before ++ e :: after) (hb : ∀ y ∈ before, y.platform ≠ p) (he : e.platform = p) :
    ∃ m, c.depart p = some m ∧ m.entry = ⟨e.serial, e.ghost⟩ ∧ m.steps = [(p, .exit)]
      ∧ m.scene
        = { c with
            trk :=
              { c.trk with
                axles :=
                  { c.trk.axles with
                    onBridge := before ++ after
                    departed := (⟨e.serial, e.ghost⟩ :: c.trk.axles.departed).take 8
                    awaiting := c.trk.axles.awaiting ++ (if e.ghost then [] else [e.serial]) }
                context :=
                  if e.ghost then c.trk.context
                  else c.trk.context.map fun x => { x with axlesDeparted := satInc 65535 x.axlesDeparted } } } := by
  have ht : takeFrontOn p c.trk.axles.onBridge = some (e, before ++ after) := hl ▸ takeFrontOn_of_split he after hb
  have hs : c.setBridge (before ++ after) = c.modAxles fun a => { a with onBridge := before ++ after } :=
    setBridge_of_occupied (by simp [hl]) _
  refine ⟨_, by rw [Scene.depart, ht]; rfl, rfl, rfl, ?_⟩
  dsimp only
  rw [hs]
  by_cases hg : e.ghost = true
  · simp only [if_pos hg, List.append_nil]
    rfl
  · simp only [if_neg hg]
    rfl

/-- A pass at an intermediate point, once its entry is found (R83, R84). -/
theorem moved_scene {c : Scene} (h : c.trk.axles.onBridge ≠ []) (l : List BridgeEntry) (e : BridgeEntry) (q : Nat) :
    (c.setBridge l).placeRecord e q
      = { c with
          trk :=
            { c.trk with
              axles :=
                { c.trk.axles with
                  onBridge := l
                  records :=
                    if e.ghost then c.trk.axles.records
                    else c.trk.axles.records.map fun r => if r.serial = e.serial then { r with platform := q } else r } } } := by
  rw [placeRecord_eq, setBridge_of_occupied h]
  rfl

/-- A re-entry, of the top of the backed-out stack (R79). -/
theorem reenter_scene (c : Scene) (e : Entry) (rest : List Entry) (p : Nat) (time : Word) (speed : Option Nat) :
    (c.reenter e rest p time speed).scene
      = { c with
          trk :=
            { c.trk with
              epoch := if c.trk.axles.onBridge = [] then c.trk.epoch + 1 else c.trk.epoch
              axles :=
                { c.trk.axles with
                  onBridge := c.trk.axles.onBridge ++ [⟨e.serial, e.ghost, p⟩]
                  backedOut := rest
                  records :=
                    if e.ghost then c.trk.axles.records
                    else
                      c.trk.axles.records.map fun r =>
                        if r.serial = e.serial then
                          { r with
                            platform := p
                            entryTime := time
                            entrySpeed := speed
                            flags := { r.flags with reentered := true } }
                        else r
                  spacingReference :=
                    if e.ghost = false ∧ e.serial = c.trk.axles.lastSerial then some ⟨time, speed⟩
                    else c.trk.axles.spacingReference } } } := by
  unfold Scene.reenter
  dsimp only
  rw [setBridge_of_entry _ (by simp)]
  cases hg : e.ghost with
  | true => simp [Scene.modAxles, Scene.modTrk]
  | false =>
    by_cases hs : e.serial = c.trk.axles.lastSerial
    · simp [Scene.modAxles, Scene.modTrk, Scene.modRecord, AxleTable.modRecord, hs]
    · simp [Scene.modAxles, Scene.modTrk, Scene.modRecord, AxleTable.modRecord, hs]

/-- A creation, of the next serial (R80). -/
theorem createAxle_scene (c : Scene) (p : Nat) (time : Word) (speed : Option Nat) :
    (c.createAxle p time speed).scene
      = { c with
          trk :=
            { c.trk with
              epoch := if c.trk.axles.onBridge = [] then c.trk.epoch + 1 else c.trk.epoch
              axles :=
                { c.trk.axles with
                  onBridge := c.trk.axles.onBridge ++ [⟨c.trk.axles.lastSerial + 1, false, p⟩]
                  lastSerial := c.trk.axles.lastSerial + 1
                  spacingReference := some ⟨time, speed⟩
                  records := c.trk.axles.records ++ [newRecord c.trk.axles p time speed] }
              context := c.trk.context.map fun y => { y with axlesCreated := satInc 65535 y.axlesCreated } } } := by
  unfold Scene.createAxle
  dsimp only
  rw [setBridge_of_entry _ (by simp)]
  rfl

theorem enter_of_stack {c : Scene} {e : Entry} {rest : List Entry} (h : c.trk.axles.backedOut = e :: rest) (p : Nat) (x : Pass) :
    c.enter p x = c.reenter e rest p x.time x.speed := by
  unfold Scene.enter
  rw [h]

theorem enter_of_emptyStack {c : Scene} (h : c.trk.axles.backedOut = []) (p : Nat) (x : Pass) :
    c.enter p x = c.createAxle p x.time x.speed := by
  unfold Scene.enter
  rw [h]

/-- lead_spacing is absent for serial 1, after a discard, and where either speed is absent (R69). -/
theorem leadSpacing_absent {a : AxleTable} {time : Word} {speed : Option Nat}
    (h : a.lastSerial = 0 ∨ a.discardSeen = true ∨ speed = none ∨ ∀ r, a.spacingReference = some r → r.speed = none) :
    leadSpacing a time speed = none := by
  unfold leadSpacing
  split
  · rfl
  · rename_i hn
    split
    · rename_i t0 v0 v1 hr
      simp only [Option.bind_eq_some_iff, Option.map_eq_some_iff, Prod.mk.injEq] at hr
      obtain ⟨r, hr, v, hv, -, -⟩ := hr
      rcases h with h | h | h | h
      · exact absurd (.inl h) hn
      · exact absurd (.inr h) hn
      · exact absurd h (by simp)
      · exact absurd (hv.symm.trans (h r hr)) (by simp)
    · rfl

/-- Otherwise it is the mean speed times the interval (R69). -/
theorem leadSpacing_present {a : AxleTable} {r : SpacingReference} {v w : Nat} (time : Word) (hl : a.lastSerial ≠ 0)
    (hd : a.discardSeen = false) (hr : a.spacingReference = some r) (hv : r.speed = some v) :
    leadSpacing a time (some w)
      = some (if 2147483648 ≤ (time - r.time).toNat then 65535
          else min 65535 ((v + w) / 2 * (time - r.time).toNat / 360000)) := by
  unfold leadSpacing
  rw [if_neg (by simp [hl, hd]), hr]
  simp only [Option.bind_some, hv, Option.map_some]
  split <;> rfl

/-- Settles O25: the frontmost entry is found by `takeFrontOn` and `moveFrontOn`; an entry is a re-entry or a creation. -/
theorem forwardPassesMoveTheFrontEntry : Obligations.ForwardPassesMoveTheFrontEntry := by
  refine ⟨fun c p before after e hl hb he => ⟨depart_of_split hl hb he, fun q => ?_⟩, fun c p q h => ?_,
    fun c p x e rest h => ?_, fun c p x h => ⟨leadSpacing c.trk.axles x.time x.speed, leadSpacing_absent,
      fun r v w hl hd hr hv hw => ?_, ?_⟩⟩
  · have hm : moveFrontOn p q c.trk.axles.onBridge = some (e, before ++ { e with platform := q } :: after) :=
      hl ▸ moveFrontOn_of_split q he after hb
    exact ⟨_, by rw [Scene.moveForward, hm]; rfl, rfl, rfl, moved_scene (c := c) (by simp [hl]) _ e q⟩
  · rw [Scene.depart, Scene.moveForward, takeFrontOn_of_empty h, moveFrontOn_of_empty q h]
    exact ⟨rfl, rfl⟩
  · rw [enter_of_stack h]
    exact ⟨rfl, rfl, reenter_scene ..⟩
  · rw [hw]
    exact leadSpacing_present x.time hl hd hr hv
  · rw [enter_of_emptyStack h]
    exact ⟨rfl, rfl, createAxle_scene ..⟩

/-! ### The moves of backward passes (R81 to R87) -/

theorem discardBottom_of_room {c : Scene} (h : c.trk.axles.backedOut.length < 32) : c.discardBottom = c := if_pos h

/-- The discard of the bottom of a full stack (R82). -/
theorem discardBottom_of_full {c : Scene} {bottom : Entry} {rest : List Entry} (h : c.trk.axles.backedOut = rest ++ [bottom])
    (hl : 31 ≤ rest.length) :
    c.discardBottom
      = { c with
          trk :=
            { c.trk with
              axles :=
                { c.trk.axles with
                  backedOut := rest
                  discardSeen := true
                  discarded := c.trk.axles.discarded ++ (if bottom.ghost then [] else [bottom.serial])
                  records :=
                    if bottom.ghost then c.trk.axles.records
                    else c.trk.axles.records.filter fun r => r.serial != bottom.serial }
              context :=
                if bottom.ghost then c.trk.context
                else c.trk.context.map fun y => { y with axlesBackedOut := satInc 65535 y.axlesBackedOut } } } := by
  have hn : ¬ c.trk.axles.backedOut.length < 32 := by rw [h, List.length_append, List.length_singleton]; omega
  have hd : c.trk.axles.backedOut.dropLast = rest := by rw [h, List.dropLast_concat]
  have hg : c.trk.axles.backedOut.getLast? = some bottom := by rw [h, List.getLast?_concat]
  unfold Scene.discardBottom
  rw [if_neg hn, hg]
  dsimp only
  by_cases hb : bottom.ghost = true
  · simp only [if_pos hb, List.append_nil, ← hd]
    rfl
  · simp only [if_neg hb, ← hd]
    rfl

theorem onBridge_discardBottom (c : Scene) : c.discardBottom.trk.axles.onBridge = c.trk.axles.onBridge := by
  unfold Scene.discardBottom
  split
  · rfl
  · split
    · rfl
    · dsimp only
      split <;> rfl

/-- A backward pass at entry, of the rearmost entry on the first platform: the bottom of a full stack goes first (R81, R82). -/
theorem backOut_of_split {c : Scene} {p : Nat} {before after : List BridgeEntry} {e : BridgeEntry}
    (hl : c.trk.axles.onBridge = before ++ e :: after) (ha : ∀ y ∈ after, y.platform ≠ p) (he : e.platform = p) :
    ∃ m, c.backOut p = some m ∧ m.entry = ⟨e.serial, e.ghost⟩ ∧ m.steps = [(p, .exit)]
      ∧ m.scene
        = c.discardBottom.modAxles fun a =>
            { a with onBridge := before ++ after, backedOut := ⟨e.serial, e.ghost⟩ :: a.backedOut } := by
  have ht : takeRearOn p c.trk.axles.onBridge = some (e, before ++ after) := hl ▸ takeRearOn_of_split he before ha
  refine ⟨_, by rw [Scene.backOut, ht]; rfl, rfl, rfl, ?_⟩
  dsimp only
  rw [setBridge_of_occupied (by rw [onBridge_discardBottom, hl]; simp)]
  rfl

theorem ghostReturn_of_full {c : Scene} (p : Nat) (h : 32 ≤ c.trk.axles.onBridge.length) : c.ghostReturn p = none := if_pos h

/-- A backward pass at exit brings back a ghost of the newest departure, or of serial 0 (R86, R87). -/
theorem ghostReturn_of_room {c : Scene} (p : Nat) (h : c.trk.axles.onBridge.length < 32) :
    ∃ m, c.ghostReturn p = some m
      ∧ m.entry = ⟨((c.trk.axles.departed.head?).map (·.serial)).getD 0, true⟩ ∧ m.steps = [(p, .entry)]
      ∧ m.scene
        = { c with
            trk :=
              { c.trk with
                epoch := if c.trk.axles.onBridge = [] then c.trk.epoch + 1 else c.trk.epoch
                axles :=
                  { c.trk.axles with
                    onBridge := ⟨((c.trk.axles.departed.head?).map (·.serial)).getD 0, true, p⟩ :: c.trk.axles.onBridge
                    departed := c.trk.axles.departed.tail }
                context :=
                  c.trk.context.map fun y =>
                    { y with
                      flags := { y.flags with reentry := true }
                      ghostEntries :=
                        if ((c.trk.axles.departed.head?).map fun e => !e.ghost).getD true then satInc 65535 y.ghostEntries
                        else y.ghostEntries } } } := by
  refine ⟨_, if_neg (Nat.not_le.2 h), rfl, rfl, ?_⟩
  dsimp only
  rw [setBridge_of_entry _ (List.cons_ne_nil _ _)]
  rfl

/-- Settles O26: the rearmost entry is found by `takeRearOn` and `moveRearOn`; a pass at exit reads the newest departure. -/
theorem backwardPassesMoveTheRearEntryOrReturnAGhost : Obligations.BackwardPassesMoveTheRearEntryOrReturnAGhost := by
  refine ⟨fun c p before after e hl ha he => ⟨fun hr => ?_, fun bottom rest hb h31 => ?_, fun q => ?_⟩, fun c p q h => ?_,
    fun c p => ghostReturn_of_full p, fun c p h => ?_⟩
  · have hm := backOut_of_split hl ha he
    rw [discardBottom_of_room hr] at hm
    exact hm
  · have hm := backOut_of_split hl ha he
    rw [discardBottom_of_full hb h31] at hm
    exact hm
  · have hm : moveRearOn p q c.trk.axles.onBridge = some (e, before ++ { e with platform := q } :: after) :=
      hl ▸ moveRearOn_of_split q he before ha
    exact ⟨_, by rw [Scene.moveBackward, hm]; rfl, rfl, rfl, moved_scene (c := c) (by simp [hl]) _ e q⟩
  · rw [Scene.backOut, Scene.moveBackward, takeRearOn_of_empty h, moveRearOn_of_empty q h]
    exact ⟨rfl, rfl⟩
  · intro returned
    have hm := ghostReturn_of_room p h
    refine ⟨fun e rest hd => ?_, fun hd => ?_⟩
    · rw [hd] at hm
      exact hm
    · rw [hd] at hm
      exact hm

end Sys2Proof.Machine

namespace Sys2Proof.Machine

/-! ### Rounding (R32, R95, R102) -/

/-- A rounded quotient times its divisor lies within half a divisor of the dividend, at the upper end of the tie (R32). -/
theorem roundDiv_mul (x : Int) {d : Nat} (hd : 0 < d) :
    ∃ m : Nat, roundDiv x d * d = (if x < 0 then -(m : Int) else m) ∧ 2 * m ≤ 2 * x.natAbs + d ∧ 2 * x.natAbs < 2 * m + d := by
  have hlow : 2 * d * ((2 * x.natAbs + d) / (2 * d)) ≤ 2 * x.natAbs + d := Nat.mul_div_le ..
  have hhigh : 2 * x.natAbs + d < 2 * d * ((2 * x.natAbs + d) / (2 * d)) + 2 * d := Nat.lt_mul_div_succ _ (by omega)
  unfold roundDiv
  generalize (2 * x.natAbs + d) / (2 * d) = q at hlow hhigh ⊢
  rw [Nat.mul_assoc] at hlow hhigh
  refine ⟨d * q, ?_, hlow, by omega⟩
  dsimp only
  split
  · rw [Int.neg_mul, Int.natCast_mul, Int.mul_comm]
  · rw [Int.natCast_mul, Int.mul_comm]

/-- A rounded quotient is a nearest whole number, the one farther from zero at a tie. -/
theorem roundDiv_nearest (x : Int) {d : Nat} (hd : 0 < d) :
    2 * (roundDiv x d * d - x).natAbs ≤ d
      ∧ (2 * (roundDiv x d * d - x).natAbs = d → x.natAbs < (roundDiv x d * d).natAbs) := by
  obtain ⟨m, hm, hlow, hhigh⟩ := roundDiv_mul x hd
  rw [hm]
  split <;> omega

/-! ### Estimates (R41, R94 to R99) -/

theorem sideEstimate_of_absent (g : Sign) (x : Option Int) (span : Nat) :
    sideEstimate g none x span = none ∧ sideEstimate g x none span = none := by
  cases x <;> exact ⟨rfl, rfl⟩

theorem beforeSide_of_substitute {x : WindowStats} {ch : Channel} {least : Nat} (hs : x.sampleCount < least) (he : x.empty = true)
    (hz : ch.zeroValid = true) (mean : Option Int) : beforeSide x mean ch least = ⟨some ch.zeroOffset, true, false, false, false⟩ :=
  if_pos ⟨hs, he, hz⟩

theorem beforeSide_of_window {x : WindowStats} {ch : Channel} {least : Nat}
    (h : least ≤ x.sampleCount ∨ x.empty = false ∨ ch.zeroValid = false) (mean : Option Int) :
    beforeSide x mean ch least = sideOf x mean least := by
  refine if_neg fun ⟨hs, he, hz⟩ => ?_
  rcases h with h | h | h
  · omega
  · exact absurd (h.symm.trans he) (by decide)
  · exact absurd (h.symm.trans hz) (by decide)

theorem speedOk_iff (cfg : TrackConfig) (speed : Option Nat) :
    speedOk cfg speed = true ↔ ∃ v, speed = some v ∧ cfg.minSpeed ≤ v ∧ v ≤ cfg.maxSpeed := by
  cases speed <;> simp [speedOk]

theorem speedOk_eq_false (cfg : TrackConfig) (speed : Option Nat) :
    speedOk cfg speed = false ↔ ∀ v, speed = some v → v < cfg.minSpeed ∨ cfg.maxSpeed < v := by
  rw [← Bool.not_eq_true, speedOk_iff]
  simp only [not_exists, not_and, Nat.not_le]
  refine forall_congr' fun v => forall_congr' fun _ => ?_
  omega

theorem stepEstimate_crosstalk (cfg : TrackConfig) (policy : CrosstalkPolicy) (ch : Rails Channel) (st : PendingStep)
    (after : WindowStats) :
    (stepEstimate cfg policy ch st after).2
      = ((beforeSide st.before st.before.mean.left ch.left cfg.minWindowSamples).crosstalk
          || (beforeSide st.before st.before.mean.right ch.right cfg.minWindowSamples).crosstalk || after.crosstalk) := by
  unfold stepEstimate
  dsimp only
  split <;> rfl

/-- The five tests of R96 on the windows used for the two sides. -/
def estimateTests (cfg : TrackConfig) (policy : CrosstalkPolicy) (speed : Option Nat) (l r : SideWindow) (after : WindowStats) : Bool :=
  speedOk cfg speed
    && l.long && r.long && decide (cfg.minWindowSamples ≤ after.sampleCount) && decide (cfg.minWindowSamples ≤ after.sampleCount)
    && !(l.saturated || r.saturated || after.saturated)
    && !(l.gapped || r.gapped || after.gapped)
    && (!(l.crosstalk || r.crosstalk || after.crosstalk) || decide (policy = .mark))

theorem estimateTests_iff (cfg : TrackConfig) (policy : CrosstalkPolicy) (speed : Option Nat) (l r : SideWindow) (after : WindowStats) :
    estimateTests cfg policy speed l r after = true ↔
      (∃ v, speed = some v ∧ cfg.minSpeed ≤ v ∧ v ≤ cfg.maxSpeed)
        ∧ l.long = true ∧ r.long = true ∧ cfg.minWindowSamples ≤ after.sampleCount
        ∧ l.saturated = false ∧ r.saturated = false ∧ after.saturated = false
        ∧ l.gapped = false ∧ r.gapped = false ∧ after.gapped = false
        ∧ (policy = .mark ∨ ¬ (l.crosstalk = true ∨ r.crosstalk = true ∨ after.crosstalk = true)) := by
  simp only [estimateTests, Bool.and_eq_true, speedOk_iff, Bool.not_eq_true', Bool.or_eq_false_iff, Bool.or_eq_true, decide_eq_true_eq,
    not_or, Bool.not_eq_true, and_assoc, and_self_left]
  rw [or_comm (a := policy = .mark)]

/-- The estimate of a step is present when the tests pass and both sides have one (R95, R96). -/
theorem stepEstimate_eq_some (cfg : TrackConfig) (policy : CrosstalkPolicy) (ch : Rails Channel) (st : PendingStep)
    (after : WindowStats) (e : Rails Int) :
    (stepEstimate cfg policy ch st after).1 = some e ↔
      estimateTests cfg policy st.speed (beforeSide st.before st.before.mean.left ch.left cfg.minWindowSamples)
          (beforeSide st.before st.before.mean.right ch.right cfg.minWindowSamples) after = true
        ∧ sideEstimate st.sign (beforeSide st.before st.before.mean.left ch.left cfg.minWindowSamples).mean after.mean.left ch.left.span
            = some e.left
        ∧ sideEstimate st.sign (beforeSide st.before st.before.mean.right ch.right cfg.minWindowSamples).mean after.mean.right
            ch.right.span = some e.right := by
  unfold stepEstimate
  dsimp only
  split
  · rename_i l r hok hl hr
    have hl : sideEstimate _ _ after.mean.left _ = some l := hl
    have hr : sideEstimate _ _ after.mean.right _ = some r := hr
    rw [hl, hr]
    refine ⟨fun h => ?_, fun ⟨_, h1, h2⟩ => ?_⟩
    · cases h
      exact ⟨hok, rfl, rfl⟩
    · cases h1
      cases h2
      rfl
  · rename_i hn
    exact ⟨fun h => absurd h (by simp), fun ⟨hok, hl, hr⟩ => (hn _ _ hok hl hr).elim⟩

/-! ### What an estimate does to its axle's record (R98 to R100) -/

theorem takeEstimate_estimates_of_room {r : AxleRecord} (h : r.estimates.length < 8) (cfg : TrackConfig) (speed : Option Nat)
    (v : Rails Int) (crosstalk : Bool) : (r.takeEstimate cfg speed (some v, crosstalk)).estimates = r.estimates ++ [v] := if_pos h

theorem takeEstimate_estimates_of_none_or_full {r : AxleRecord} {e : Option (Rails Int)} (h : e = none ∨ 8 ≤ r.estimates.length)
    (cfg : TrackConfig) (speed : Option Nat) (crosstalk : Bool) :
    (r.takeEstimate cfg speed (e, crosstalk)).estimates = r.estimates := by
  cases e with
  | none => rfl
  | some v => exact if_neg (Nat.not_lt.2 (h.resolve_left (by simp)))

theorem takeEstimate_speed (r : AxleRecord) (cfg : TrackConfig) (speed : Option Nat) (e : Option (Rails Int) × Bool) :
    (r.takeEstimate cfg speed e).flags.speed = true
      ↔ r.flags.speed = true ∨ ∀ v, speed = some v → v < cfg.minSpeed ∨ cfg.maxSpeed < v := by
  rw [← speedOk_eq_false, ← Bool.not_eq_true']
  exact iff_of_eq (Bool.or_eq_true ..)

theorem takeEstimate_crosstalk (r : AxleRecord) (cfg : TrackConfig) (speed : Option Nat) (e : Option (Rails Int)) (crosstalk : Bool) :
    (r.takeEstimate cfg speed (e, crosstalk)).flags.crosstalk = true
      ↔ r.flags.crosstalk = true ∨ (e ≠ none ∧ crosstalk = true) := by
  simp [AxleRecord.takeEstimate, Option.isSome_iff_ne_none]

theorem takeStep_of_ghost {c : Scene} {st : PendingStep} (h : st.entry.ghost = true) (p : Nat) (after : WindowStats) :
    c.takeStep p st after = c := if_pos h

theorem takeStep_of_real {c : Scene} {st : PendingStep} (h : st.entry.ghost = false) (p : Nat) (after : WindowStats) :
    c.takeStep p st after
      = c.modRecord st.entry.serial fun r =>
          r.takeEstimate c.trk.config st.speed
            (stepEstimate c.trk.config c.sh.options.crosstalkPolicy (c.trk.calibration.get p) st after) := if_neg (by simp [h])

/-- Changing the record of a serial that has none changes nothing. -/
theorem modRecord_of_absent {c : Scene} {n : Nat} (h : ∀ r ∈ c.trk.axles.records, r.serial ≠ n) (f : AxleRecord → AxleRecord) :
    c.modRecord n f = c := by
  have e : (c.trk.axles.records.map fun r => if r.serial = n then f r else r) = c.trk.axles.records :=
    (List.map_congr_left fun r hr => if_neg (h r hr)).trans (List.map_id' _)
  unfold Scene.modRecord Scene.modAxles Scene.modTrk AxleTable.modRecord
  dsimp only
  rw [e]

/-- The estimator reads of the track its configuration, its calibration and the records. -/
theorem axles_takeStep_congr {c d : Scene} (ha : d.trk.axles = c.trk.axles) (hk : d.control = c.control) (p : Nat)
    (st : PendingStep) (x : WindowStats) : (d.takeStep p st x).trk.axles = (c.takeStep p st x).trk.axles := by
  have hcfg : d.trk.config = c.trk.config := congrArg Control.config hk
  have hcal : d.trk.calibration = c.trk.calibration := congrArg Control.calibration hk
  have hopt : d.sh.options = c.sh.options := congrArg Control.options hk
  cases hg : st.entry.ghost with
  | true => rw [takeStep_of_ghost hg, takeStep_of_ghost hg, ha]
  | false =>
    rw [takeStep_of_real hg, takeStep_of_real hg, hcfg, hcal, hopt]
    show d.trk.axles.modRecord _ _ = c.trk.axles.modRecord _ _
    rw [ha]

/-- A closing window hands its platform's pending step to the estimator (R39). -/
theorem closeWindow_axles {c : Scene} {p : Nat} {w : Window} (hw : (c.trk.platforms.get p).window = some w) :
    ((c.trk.platforms.get p).step = none → (c.closeWindow p).trk.axles = c.trk.axles)
      ∧ ∀ st, (c.trk.platforms.get p).step = some st →
          (c.closeWindow p).trk.axles = (c.takeStep p st (w.stats (c.trk.occupants p).isEmpty c.other)).trk.axles := by
  unfold Scene.closeWindow
  rw [hw]
  dsimp only
  refine ⟨fun hs => ?_, fun st hs => ?_⟩
  · rw [hs]
    rfl
  · rw [hs]
    refine axles_takeStep_congr ?_ ?_ p st _
    · rfl
    · rw [control_modFlags, control_modPlatform]

/-! ### The load of a finalized axle (R102, R103) -/

theorem finalize_of_noEstimate {r : AxleRecord} (h : r.estimates = []) :
    r.finalize.load = none ∧ r.finalize.flags.noEstimate = true ∧ r.finalize.flags.low = false := by
  simp [AxleRecord.finalize, h]

theorem finalize_of_estimates {r : AxleRecord} (h : r.estimates ≠ []) :
    r.finalize.load
        = some
            ⟨storedLoad (meanLoad (r.estimates.map (·.left))), storedLoad (meanLoad (r.estimates.map (·.right)))⟩
      ∧ r.finalize.flags.noEstimate = false
      ∧ (r.finalize.flags.low = true ↔
          meanLoad (r.estimates.map (·.left)) < 0 ∨ meanLoad (r.estimates.map (·.right)) < 0) := by
  simp [AxleRecord.finalize, h]

theorem meanLoad_map (f : Rails Int → Int) (l : List (Rails Int)) : meanLoad (l.map f) = roundDiv (l.map f).sum (10 * l.length) := by
  rw [meanLoad, List.length_map]

/-- Settles O18: rounding, the estimate of a step and its effect on the record, and the load, each from its own lemmas. -/
theorem estimatesAndLoadsAreRoundedDifferences : Obligations.EstimatesAndLoadsAreRoundedDifferences := by
  refine ⟨fun x d hd => roundDiv_nearest x hd, fun b a span => ⟨rfl, rfl⟩, sideEstimate_of_absent,
    fun x mean ch least => ⟨fun hs he hz => beforeSide_of_substitute hs he hz mean, fun h => beforeSide_of_window h mean⟩,
    fun cfg policy ch st after => ?_, fun r cfg speed e crosstalk => ?_, fun c p st after => ?_,
    fun c p w x h1 h4 hw hx => ?_, fun r => ?_⟩
  · intro l r crosstalk
    refine ⟨?_, fun e => ?_⟩
    · rw [stepEstimate_crosstalk]
      simp only [Bool.or_eq_true, or_assoc]
      exact Iff.rfl
    · rw [stepEstimate_eq_some, estimateTests_iff]
      simp only [and_assoc]
      exact Iff.rfl
  · intro q
    exact ⟨rfl, fun v hv hl => by subst hv; exact takeEstimate_estimates_of_room hl cfg speed v crosstalk,
      fun h => takeEstimate_estimates_of_none_or_full h cfg speed crosstalk, takeEstimate_speed .., takeEstimate_crosstalk ..⟩
  · refine ⟨fun hg => takeStep_of_ghost hg p after, fun hg => takeStep_of_real hg p after, fun hr => ?_⟩
    cases hg : st.entry.ghost with
    | true => exact takeStep_of_ghost hg p after
    | false => rw [takeStep_of_real hg, modRecord_of_absent hr]
  · have hs : some x = some (w.stats (c.trk.occupants p).isEmpty c.other) :=
      congrArg Platform.last (hx.symm.trans (platform_closeWindow hw))
    cases hs
    exact closeWindow_axles hw
  · refine ⟨rfl, rfl, rfl, rfl, rfl, rfl, rfl, rfl, finalize_of_noEstimate, fun h => ?_⟩
    rw [← meanLoad_map, ← meanLoad_map]
    exact finalize_of_estimates h

end Sys2Proof.Machine

namespace Sys2Proof.Machine

/-! ### The zero engine as the track leaves IDLE (R142) -/

/-- The end of an operation reads of the track its configuration alone, and changes of it the engine alone. -/
theorem endZero_withTrk (c : Scene) {k : TrackState} (hk : k.config = c.trk.config) (z : ZeroOperation) (e : ZeroEnd) :
    ({ c with trk := k } : Scene).endZero z e = { c with trk := { k with zero := none }, sh := (c.endZero z e).sh } := by
  unfold Scene.endZero
  cases z.origin with
  | order slot tag => simp only [Scene.setZero, Scene.modTrk, Scene.modShared, hk]
  | automatic => cases e <;> rfl

theorem suspendZero_of_spent {z : ZeroOperation} (h : seconds z.holdLimit - z.suspendedTotal = 0) (c : Scene) :
    c.suspendZero z
      = c.endZero { z with state := .suspended, suspendStart := c.now, startsRun := true } (.preempted .holdLimit) := by
  simp only [Scene.suspendZero, if_pos h]

theorem suspendZero_of_left {z : ZeroOperation} (h : seconds z.holdLimit - z.suspendedTotal ≠ 0) (c : Scene) :
    c.suspendZero z
      = c.setZero
          (some
            { z with
              state := .suspended
              suspendStart := c.now
              startsRun := true
              holdTimer := some ⟨c.now, seconds z.holdLimit - z.suspendedTotal⟩ }) := by
  simp only [Scene.suspendZero, if_neg h]

theorem suspendZero_withTrk (c : Scene) {k : TrackState} (hk : k.config = c.trk.config) (z : ZeroOperation) :
    ({ c with trk := k } : Scene).suspendZero z
      = { c with trk := { k with zero := (c.suspendZero z).trk.zero }, sh := (c.suspendZero z).sh } := by
  by_cases h : seconds z.holdLimit - z.suspendedTotal = 0
  · rw [suspendZero_of_spent h, suspendZero_of_spent h, endZero_withTrk c hk, endZero_trk]
    rfl
  · rw [suspendZero_of_left h, suspendZero_of_left h]
    rfl

theorem zeroLeavesIdle_of_accumulating {c : Scene} {z : ZeroOperation} (hz : c.trk.zero = some z) (hs : z.state = .accumulating) :
    c.zeroLeavesIdle = c.suspendZero z := by
  unfold Scene.zeroLeavesIdle
  simp only [hz, hs]

theorem zeroLeavesIdle_of_not_accumulating {c : Scene} (h : ∀ z, c.trk.zero = some z → z.state = .suspended) :
    c.zeroLeavesIdle = c := by
  unfold Scene.zeroLeavesIdle
  split
  · rfl
  · rename_i z hz
    rw [h z hz]

/-- The track's leaving IDLE reads of it its configuration and its zero engine alone, and changes of it the engine alone. -/
theorem zeroLeavesIdle_withTrk (c : Scene) {k : TrackState} (hk : k.config = c.trk.config) (hz : k.zero = c.trk.zero) :
    ({ c with trk := k } : Scene).zeroLeavesIdle
      = { c with trk := { k with zero := c.zeroLeavesIdle.trk.zero }, sh := c.zeroLeavesIdle.sh } := by
  by_cases h : ∀ z, c.trk.zero = some z → z.state = .suspended
  · rw [zeroLeavesIdle_of_not_accumulating h, zeroLeavesIdle_of_not_accumulating (c := { c with trk := k }) (hz ▸ h), ← hz]
  · obtain ⟨z, hz'⟩ := Classical.not_forall.1 h
    obtain ⟨h0, hs⟩ := Classical.not_imp.1 hz'
    have hs : z.state = .accumulating := by cases e : z.state with
      | accumulating => rfl
      | suspended => exact absurd e hs
    rw [zeroLeavesIdle_of_accumulating h0 hs, zeroLeavesIdle_of_accumulating (c := { c with trk := k }) (hz.trans h0) hs]
    exact suspendZero_withTrk c hk z

/-! ### The opening of a passage (R47, R48) -/

theorem requestPlace_eq (q : RecordQueue) :
    q.requestPlace
      = ({ q with
            placesInUse := if q.placesInUse < 2 then q.placesInUse + 1 else q.placesInUse
            lostPassages := if q.placesInUse < 2 then q.lostPassages else satInc 255 q.lostPassages
            lostSinceClose := if q.placesInUse < 2 then q.lostSinceClose else satInc 65535 q.lostSinceClose },
          if q.placesInUse < 2 then .reserved else .lost) := by
  unfold RecordQueue.requestPlace
  split <;> rfl

theorem unzeroed_iff (k : TrackState) (h4 : k.config.platforms ≤ 4) :
    k.unzeroed = true
      ↔ ∃ q, 1 ≤ q ∧ q ≤ k.config.platforms
          ∧ ((k.calibration.get q).left.zeroValid = false ∨ (k.calibration.get q).right.zeroValid = false) := by
  simp only [TrackState.unzeroed, List.any_eq_true, mem_platforms, Bool.and_eq_true, decide_eq_true_eq, Bool.or_eq_true,
    Bool.not_eq_true']
  refine exists_congr fun q => ⟨fun ⟨hq, hP, hz⟩ => ⟨hq.1, hP, hz⟩, fun ⟨h1, hP, hz⟩ => ⟨⟨h1, Nat.le_trans hP h4⟩, hP, hz⟩⟩

/-- The windows as a passage opens: opened from IDLE, kept from APPROACH. -/
def Scene.openingPlatforms (c : Scene) : Four Platform := if c.trk.mode = .idle then c.openWindows.trk.platforms else c.trk.platforms

theorem openingPlatforms_get (c : Scene) {q : Nat} (h1 : 1 ≤ q) (h4 : q ≤ 4) :
    c.openingPlatforms.get q
      = { c.trk.platforms.get q with
          window :=
            if c.trk.mode = .idle ∧ q ≤ c.trk.config.platforms then some (Window.opened c.other)
            else (c.trk.platforms.get q).window } := by
  unfold Scene.openingPlatforms
  by_cases hm : c.trk.mode = .idle
  · rw [if_pos hm, openWindows_platforms c q h1 h4]
    simp only [hm, true_and]
    split <;> rfl
  · simp only [hm, false_and, if_false]

/-- The track as a passage opens, before the zero engine is told and the entry pass is processed. -/
def Scene.openingTrack (c : Scene) (x : Pass) (cause : OpenCause) : TrackState :=
  { c.trk with
    mode := .crossing
    expected := none
    timer := some ⟨c.sh.time, c.trk.config.stallTime * 1000⟩
    passageNumber := nextPassageNumber c.trk.passageNumber
    context := some (Passage.opened (nextPassageNumber c.trk.passageNumber) x.direction cause x.time
      c.trk.records.requestPlace.2 c.trk.unzeroed)
    records := c.trk.records.requestPlace.1
    nextWagon := 1
    platforms := c.openingPlatforms }

/-- Steps 1 to 5 of the opening of a passage (R48). -/
theorem openPassage_eq (c : Scene) (x : Pass) (cause : OpenCause) :
    c.openPassage x cause
      = { c with
          trk := { c.openingTrack x cause with zero := if c.trk.mode = .idle then c.zeroLeavesIdle.trk.zero else c.trk.zero }
          sh := if c.trk.mode = .idle then c.zeroLeavesIdle.sh else c.sh } := by
  by_cases hm : c.trk.mode = .idle
  · have hp : c.openingPlatforms = c.openWindows.trk.platforms := if_pos hm
    rw [if_pos hm, if_pos hm, ← zeroLeavesIdle_withTrk c (k := c.openingTrack x cause) rfl rfl, Scene.openingTrack, hp]
    unfold Scene.openPassage
    simp only [if_pos hm]
    rfl
  · have hp : c.openingPlatforms = c.trk.platforms := if_neg hm
    rw [if_neg hm, if_neg hm, Scene.openingTrack, hp]
    unfold Scene.openPassage
    simp only [if_neg hm]
    rfl


/-! ### The entry pass of an opening passage (R31, R38, R80) -/

theorem Four.set_set {α : Type} (x : Four α) (i : Nat) (v w : α) : (x.set i v).set i w = x.set i w := by
  rcases i with _ | _ | _ | _ | i <;> rfl

theorem closeWindow_of_noStep {c : Scene} {p : Nat} {w : Window} (hw : (c.trk.platforms.get p).window = some w)
    (hs : (c.trk.platforms.get p).step = none) :
    c.closeWindow p
      = (c.modPlatform p fun _ => ⟨none, some (w.stats (c.trk.occupants p).isEmpty c.other), none⟩).modFlags
          (·.addMarks (w.stats (c.trk.occupants p).isEmpty c.other)) := by
  unfold Scene.closeWindow
  rw [hw]
  dsimp only
  rw [hs]

theorem finalizeResolved_of_none {c : Scene} (h : c.trk.axles.awaiting = []) : c.finalizeResolved = c := by
  rw [Scene.finalizeResolved, AxleTable.finalizable, h]
  rfl

/-- Axle 1 on the first platform, alone in the axle table, its step pending (R66, R80, R89). -/
def AxleTable.firstAxle (p : Nat) (x : Pass) : AxleTable :=
  ⟨[⟨1, p, x.time, x.speed, none, [], 1, ⟨false, false, false, true, false, false⟩⟩], [⟨1, false, p⟩], [], [], [], [], 1,
    some ⟨x.time, x.speed⟩, false⟩

/-- The creation of axle 1 and its step, on an empty axle table. -/
theorem moveAndRecord_firstAxle {c : Scene} {d : Direction} {p : Nat} {before : WindowStats} (ha : c.trk.axles = .empty)
    (hp : firstPlatform c.trk.config.platforms d = p) (hb : (c.trk.platforms.get p).last = some before) (x : Pass) :
    c.moveAndRecord d x .forwardEntry
      = { c with
          trk :=
            { c.trk with
              epoch := c.trk.epoch + 1
              axles := .firstAxle p x
              context := c.trk.context.map fun y => { y with axlesCreated := satInc 65535 y.axlesCreated }
              platforms :=
                c.trk.platforms.set p { c.trk.platforms.get p with step := some ⟨⟨1, false⟩, .entry, x.speed, before⟩ } } } := by
  have hm : c.movePass d x .forwardEntry = some (c.createAxle p x.time x.speed) := by
    rw [(movePass_eq c d x).1, hp, enter_of_emptyStack (by rw [ha]; rfl)]
  have hs : (c.createAxle p x.time x.speed).steps = [(p, .entry)] := rfl
  have he : (c.createAxle p x.time x.speed).entry = ⟨1, false⟩ := by
    show (⟨c.trk.axles.lastSerial + 1, false⟩ : Entry) = _
    rw [ha]
    rfl
  have hl : ((c.createAxle p x.time x.speed).scene.trk.platforms.get p).last = some before := hb
  rw [moveAndRecord_of_move hm, hs, he, List.foldl_cons, List.foldl_nil, recordStep_eq hl, createAxle_scene, ha]
  rfl

/-- The entry pass on an empty axle table: the first platform's window closes and opens again, and axle 1 is created. -/
theorem processPass_firstAxle {c : Scene} {d : Direction} {p : Nat} {w : Window} (ha : c.trk.axles = .empty)
    (hp : firstPlatform c.trk.config.platforms d = p) (hw : (c.trk.platforms.get p).window = some w)
    (hs : (c.trk.platforms.get p).step = none) (x : Pass) :
    c.processPass d x .forwardEntry
      = { c with
          trk :=
            { c.trk with
              epoch := c.trk.epoch + 1
              axles := .firstAxle p x
              context :=
                c.trk.context.map fun y =>
                  { y with flags := y.flags.addMarks (w.stats true c.other), axlesCreated := satInc 65535 y.axlesCreated }
              platforms :=
                c.trk.platforms.set p
                  ⟨some (Window.opened c.other), some (w.stats true c.other),
                    some ⟨⟨1, false⟩, .entry, x.speed, w.stats true c.other⟩⟩ } } := by
  have ho : (c.trk.occupants p).isEmpty = true := by
    rw [occupants_empty, ha]
    exact fun e he => absurd he List.not_mem_nil
  have hc : c.closeWindow p
      = { c with
          trk :=
            { c.trk with
              context := c.trk.context.map fun y => { y with flags := y.flags.addMarks (w.stats true c.other) }
              platforms := c.trk.platforms.set p ⟨none, some (w.stats true c.other), none⟩ } } := by
    rw [closeWindow_of_noStep hw hs, ho]
    rfl
  have hopen : ([p].foldl Scene.openWindow ([p].foldl Scene.closeWindow c).finalizeResolved)
      = { c with
          trk :=
            { c.trk with
              context := c.trk.context.map fun y => { y with flags := y.flags.addMarks (w.stats true c.other) }
              platforms := c.trk.platforms.set p ⟨some (Window.opened c.other), some (w.stats true c.other), none⟩ } } := by
    rw [List.foldl_cons, List.foldl_nil, List.foldl_cons, List.foldl_nil, hc, finalizeResolved_of_none]
    · simp only [Scene.openWindow, Scene.modPlatform, Scene.modTrk, Four.get_set_same, Four.set_set]
    · exact congrArg AxleTable.awaiting ha
  have hbound : boundPlatforms c.trk.config.platforms d .forwardEntry = [p] := congrArg (fun q => [q]) hp
  rw [processPass_of_bound hbound, hopen, moveAndRecord_firstAxle (p := p) (before := w.stats true c.other)]
  · simp only [Four.get_set_same, Four.set_set, Option.map_map, Function.comp_def]
  · exact ha
  · exact hp
  · rw [Four.get_set_same]

theorem classifyPass_of_opening {P k : Nat} {d : Direction} (h : opensPassage P k d = true) : classifyPass P d k d = .forwardEntry := by
  rw [opensPassage, decide_eq_true_iff] at h
  rw [classifyPass, if_pos h, if_pos rfl]

/-- A pass that opens a passage is its entry pass, and leaves the track CROSSING (R47, R50). -/
theorem handPass_firstAxle {c : Scene} {d : Direction} {p k : Nat} {w : Window} (ha : c.trk.axles = .empty)
    (hk : opensPassage c.trk.config.platforms k d = true) (hp : firstPlatform c.trk.config.platforms d = p)
    (hw : (c.trk.platforms.get p).window = some w) (hs : (c.trk.platforms.get p).step = none) {x : Pass} (hx : x.direction = d) :
    c.handPass d x k
      = { c with
          trk :=
            { c.trk with
              mode := .crossing
              timer := some ⟨c.sh.time, c.trk.config.stallTime * 1000⟩
              epoch := c.trk.epoch + 1
              axles := .firstAxle p x
              context :=
                c.trk.context.map fun y =>
                  { y with flags := y.flags.addMarks (w.stats true c.other), axlesCreated := satInc 65535 y.axlesCreated }
              platforms :=
                c.trk.platforms.set p
                  ⟨some (Window.opened c.other), some (w.stats true c.other),
                    some ⟨⟨1, false⟩, .entry, x.speed, w.stats true c.other⟩⟩ } } := by
  have hc : classifyPass c.trk.config.platforms d k x.direction = .forwardEntry := hx ▸ classifyPass_of_opening (hx.symm ▸ hk)
  have ho : c.trk.axles.overflows = false := by
    rw [ha]
    rfl
  unfold Scene.handPass
  dsimp only
  rw [hc, if_neg (by simp [ho]), processPass_firstAxle ha hp hw hs x, nextMode_of_occupied _ (by simp [AxleTable.firstAxle])]


/-! ### A passage opens with its entry pass (R47, R48, R50) -/

theorem zeroLeavesIdle_time (c : Scene) : c.zeroLeavesIdle.sh.time = c.sh.time := by rw [(zeroLeavesIdle_sh c).1]

theorem stats_eq (w : Window) (empty : Bool) (other : Occupancy) :
    w.stats empty other
      = ⟨if w.sampleCount = 0 then ⟨none, none⟩
          else ⟨some (roundDiv w.sum.left w.sampleCount), some (roundDiv w.sum.right w.sampleCount)⟩,
        w.sampleCount, empty, w.saturated, w.gapped,
        w.snapshotOccupied || other.occupied || other.epoch != w.snapshotEpoch⟩ := by
  unfold Window.stats
  split <;> rfl

/-- Outside a passage no step is pending (R38). -/
theorem step_outside_passage {k : TrackState} (hw : k.WindowsMatch) (hm : k.mode.inPassage = false) {q : Nat} (h1 : 1 ≤ q)
    (h4 : q ≤ 4) : (k.platforms.get q).step = none := by
  obtain ⟨-, hs, -⟩ := hw q h1 h4
  rw [← Option.not_isSome_iff_eq_none]
  exact fun h => absurd ((hs h).2.symm.trans hm) (by decide)

/-- Every platform of the track has a window as a passage opens (R28). -/
theorem openingWindow_isSome {c : Scene} (hw : c.trk.WindowsMatch) (hm : c.trk.mode = .idle ∨ c.trk.mode = .approach) {q : Nat}
    (h1 : 1 ≤ q) (hP : q ≤ c.trk.config.platforms) (h4 : q ≤ 4) : (c.openingPlatforms.get q).window.isSome = true := by
  rw [openingPlatforms_get c h1 h4]
  rcases hm with hm | hm
  · rw [hm]
    simp [hP]
  · obtain ⟨ha, -, -⟩ := hw q h1 h4
    rw [hm] at ha ⊢
    simpa [TrackMode.atRest, hP] using ha

/-- The context of an opened passage once its entry pass is processed: the marks of the closed window, and axle 1 counted. -/
def Passage.entered (p : Passage) (x : WindowStats) : Passage :=
  { p with flags := p.flags.addMarks x, axlesCreated := satInc 65535 p.axlesCreated }

/-- The opening of a passage by its entry pass, as one change of the track (R47, R48, R50). -/
theorem takePass_opening {c : Scene} {x : Pass} {k p : Nat} {w : Window} (hm : c.trk.mode = .idle ∨ c.trk.mode = .approach)
    (hb : boundaryIndex x.point = some k) (hk : opensPassage c.trk.config.platforms k x.direction = true)
    (hp : firstPlatform c.trk.config.platforms x.direction = p) (ha : c.trk.axles = .empty)
    (hw : (c.openingPlatforms.get p).window = some w) (hs : (c.openingPlatforms.get p).step = none) {cause : OpenCause}
    (hcause : cause = if c.trk.mode = .approach ∧ c.trk.expected = some x.direction then .approach else .direct) :
    c.takePass x
      = { c with
          trk :=
            { c.openingTrack x cause with
              epoch := c.trk.epoch + 1
              axles := .firstAxle p x
              context :=
                some
                  ((Passage.opened (nextPassageNumber c.trk.passageNumber) x.direction cause x.time
                    c.trk.records.requestPlace.2 c.trk.unzeroed).entered (w.stats true c.other))
              platforms :=
                c.openingPlatforms.set p
                  ⟨some (Window.opened c.other), some (w.stats true c.other),
                    some ⟨⟨1, false⟩, .entry, x.speed, w.stats true c.other⟩⟩
              zero := if c.trk.mode = .idle then c.zeroLeavesIdle.trk.zero else c.trk.zero }
          sh := if c.trk.mode = .idle then c.zeroLeavesIdle.sh else c.sh } := by
  have htime : (if c.trk.mode = .idle then c.zeroLeavesIdle.sh else c.sh).time = c.sh.time := by
    split
    · exact zeroLeavesIdle_time c
    · rfl
  rw [takePass_boundary hm hb, if_pos hk, ← hcause, openPassage_eq, handPass_firstAxle (p := p) (w := w) _ _ _ _ _ rfl]
  · dsimp only
    rw [htime]
    rfl
  · exact ha
  · exact hk
  · exact hp
  · exact hw
  · exact hs

theorem firstPlatform_range {P : Nat} (h : 1 ≤ P) (d : Direction) : 1 ≤ firstPlatform P d ∧ firstPlatform P d ≤ P := by
  cases d
  · exact ⟨Nat.le_refl 1, h⟩
  · exact ⟨h, Nat.le_refl P⟩

/-- Settles O23: `takePass_opening` is the whole change; what remains reads its items off the new context and platforms. -/
theorem aPassageOpensWithItsEntryPass : Obligations.APassageOpensWithItsEntryPass := by
  intro c x k hc hw ht hm hb hd first fresh opened unzeroed free
  obtain ⟨hP4, hP, -⟩ := hc
  have hrest : c.trk.mode.inPassage = false := by rcases hm with hm | hm <;> rw [hm] <;> rfl
  have hP1 : 1 ≤ c.trk.config.platforms := hP (by rcases hm with hm | hm <;> simp [hm])
  obtain ⟨hempty, -, -⟩ := ht hrest
  have hfirst : firstPlatform c.trk.config.platforms x.direction = first := by
    show _ = if x.direction = .up then 1 else c.trk.config.platforms
    cases x.direction <;> rfl
  obtain ⟨h1, hle⟩ := hfirst ▸ firstPlatform_range hP1 x.direction
  have h4 : first ≤ 4 := Nat.le_trans hle hP4
  have hget : ∀ q, 1 ≤ q → q ≤ 4 → c.openingPlatforms.get q = { c.trk.platforms.get q with window := opened q } :=
    fun q => openingPlatforms_get c
  obtain ⟨w, hwin⟩ := Option.isSome_iff_exists.1 (openingWindow_isSome hw hm h1 hle h4)
  have hstep : (c.openingPlatforms.get first).step = none := by
    rw [hget first h1 h4]
    exact step_outside_passage hw hrest h1 h4
  refine
    ⟨(Passage.opened (nextPassageNumber c.trk.passageNumber) x.direction
        (if c.trk.mode = .approach ∧ c.trk.expected = some x.direction then .approach else .direct) x.time
        c.trk.records.requestPlace.2 c.trk.unzeroed).entered (w.stats true c.other),
      c.openingPlatforms.set first
        ⟨some (Window.opened c.other), some (w.stats true c.other), some ⟨⟨1, false⟩, .entry, x.speed, w.stats true c.other⟩⟩,
      w, w.stats true c.other,
      (takePass_opening hm hb ((opensPassage_iff ..).2 hd) hfirst hempty hwin hstep rfl).trans ?_, rfl, rfl, rfl, rfl, ?_,
      decide_eq_true_iff, unzeroed_iff c.trk hP4, rfl, rfl, rfl, rfl, rfl, rfl, rfl, rfl, rfl, rfl, rfl, rfl,
      rfl, rfl, rfl, rfl, rfl, rfl, rfl, ?_,
      stats_eq .., Four.get_set_same .., fun q q1 q4 hq => ?_⟩
  · unfold Scene.openingTrack
    rw [requestPlace_eq]
    rfl
  · exact congrArg Prod.snd (requestPlace_eq _)
  · rw [← hwin, hget first h1 h4]
  · rw [Four.get_set_ne _ _ (Ne.symm hq) ⟨h1, h4⟩ ⟨q1, q4⟩]
    exact hget q q1 q4

end Sys2Proof.Machine

namespace Sys2Proof.Machine

/-! ### The track timer's expiries in a passage (R51 to R54) -/

/-- A close for a reason other than DISABLED, made on the machine: what it leaves of its track and beside it (R56). -/
theorem onTrack_closePassage_effects {s : State} {t : Track} {p : Passage} (hc : s.Coherent)
    (hs : ∀ e ∈ s.shared.classes, e.Sound) (hm : (s.tracks.get t).mode.inPassage = true)
    (hp : (s.tracks.get t).context = some p) (r : CloseReason) :
    (s.tracks.get t).ClosedTo t p r s.shared.time ((s.onTrack t fun c => c.closePassage r).tracks.get t)
      ∧ (s.scene t).ClosedEffects p r ((s.onTrack t fun c => c.closePassage r).tracks.get t)
          (s.onTrack t fun c => c.closePassage r).shared := by
  have hi : (s.scene t).InPassage := inPassage_of_coherent (hc.1 t).1 (hc.1 t).2 hm
  rw [State.onTrack_tracks, PerTrack.get_set_same, State.onTrack_shared]
  exact ⟨closePassage_closedTo r hi hp hs, closePassage_effects r hi hp⟩

/-- The expiries that close a passage: each closes it with its own reason and settles (R52, R53, R54). -/
theorem exec_closingExpiry {s : State} {t : Track} {i : Instr} {r : CloseReason} (hr : s.regs.part = .running)
    (ho : s.RunOut (s.tracks.get t).timer)
    (hi : (i = .standingExpiry t ∧ r = .standing ∧ (s.tracks.get t).mode = .standing)
      ∨ (i = .settleExpiry t ∧ r = .normal ∧ (s.tracks.get t).mode = .draining)
      ∨ (i = .withdrawnExpiry t ∧ r = .withdrawn ∧ (s.tracks.get t).mode = .withdrawn)) :
    exec i s = .next (s.onTrack t fun c => c.closePassage r).settle := by
  rcases hi with ⟨rfl, rfl, hm⟩ | ⟨rfl, rfl, hm⟩ | ⟨rfl, rfl, hm⟩ <;>
    exact congrArg _ (if_pos ((trackTimerDue_iff ..).2 ⟨hr, hm, ho⟩))

/-- Settles O20: STALL_EXPIRY is due and changes the mode and the timer; each closing expiry is the close of its reason. -/
theorem theTrackTimersExpiriesInAPassage : Obligations.TheTrackTimersExpiriesInAPassage := by
  refine ⟨fun s t hr hm ho => congrArg _ (if_pos ((trackTimerDue_iff ..).2 ⟨hr, hm, ho⟩)),
    fun s t p hc hs hr hp ho i r hi => ?_⟩
  have hm : (s.tracks.get t).mode.inPassage = true := by
    rcases hi with ⟨-, -, h⟩ | ⟨-, -, h⟩ | ⟨-, -, h⟩ <;> rw [h] <;> rfl
  have hd : r ≠ .disabled := by
    rcases hi with ⟨-, h, -⟩ | ⟨-, h, -⟩ | ⟨-, h, -⟩ <;> rw [h] <;> decide
  obtain ⟨htime, hoptions, hclasses, horders, -⟩ := closePassage_shared (s.scene t) r
  obtain ⟨hto, heff⟩ := onTrack_closePassage_effects hc hs hm hp r
  exact ⟨exec_closingExpiry hr ho hi, hto, heff, PerTrack.get_set_other .., rfl, rfl, rfl, rfl, rfl, htime, hoptions, hclasses,
    horders hd⟩

/-! ### Passes that move no entry, and the OVERFLOW close (R50, R76 to R78) -/

theorem moveAndRecord_of_noMove {c : Scene} {d : Direction} {x : Pass} {kind : PassKind} (h : c.movePass d x kind = none) :
    c.moveAndRecord d x kind = (c.modShared Shared.countSequenceError).modFlags fun f => { f with sequence := true } := by
  unfold Scene.moveAndRecord
  rw [h]

theorem eq_entryIndex_iff (P k : Nat) (d : Direction) : k = entryIndex P d ↔ (d = .up ∧ k = 0) ∨ (d = .down ∧ k = P) := by
  cases d <;> simp [entryIndex]

theorem eq_exitIndex_iff (P k : Nat) (d : Direction) : k = exitIndex P d ↔ (d = .up ∧ k = P) ∨ (d = .down ∧ k = 0) := by
  cases d <;> simp [exitIndex]

/-- In an open passage a boundary pass goes to the axle table, classified against the passage's direction (R50). -/
theorem takePass_handed {c : Scene} {p : Passage} {x : Pass} {k : Nat} (hm : c.trk.mode.inPassage = true)
    (hp : c.trk.context = some p) (hb : boundaryIndex x.point = some k) : c.takePass x = c.handPass p.direction x k := by
  unfold Scene.takePass
  split <;> rename_i h
  · exact absurd (h ▸ hm) (by decide)
  · exact absurd (h ▸ hm) (by decide)
  · exact absurd (h ▸ hm) (by decide)
  · rw [hb, hp]

theorem overflows_iff (a : AxleTable) :
    a.overflows = true ↔ 32 ≤ a.onBridge.length ∨ (a.backedOut = [] ∧ 65535 ≤ a.lastSerial) := by
  simp [AxleTable.overflows]

/-- An OVERFLOW closes the passage and processes no pass (R78). -/
theorem handPass_of_overflow {c : Scene} {d : Direction} {x : Pass} {k : Nat}
    (hk : classifyPass c.trk.config.platforms d k x.direction = .forwardEntry) (ho : c.trk.axles.overflows = true) :
    c.handPass d x k = c.closePassage .overflow := if_pos ⟨hk, ho⟩

/-- Settles O27: a pass without a move counts and flags, the kinds follow the entry and exit points, and an OVERFLOW is a close. -/
theorem passesThatMoveNothing : Obligations.PassesThatMoveNothing := by
  refine ⟨fun c d x kind => ⟨moveAndRecord_of_noMove, fun k P _ _ => ?_⟩, fun c p x k hc hw hs hm hp hb hk hfull => ?_⟩
  · simp only [classifyPass, eq_entryIndex_iff, eq_exitIndex_iff]
  · have hi : c.InPassage := inPassage_of_coherent hc hw hm
    have e : c.takePass x = c.closePassage .overflow :=
      (takePass_handed hm hp hb).trans (handPass_of_overflow hk ((overflows_iff _).2 hfull))
    rw [e]
    exact ⟨rfl, closePassage_closedTo .overflow hi hp hs, closePassage_effects .overflow hi hp⟩

/-! ### A part in HALTED (R63, R186) -/

/-- No timer is acted upon in HALTED, so no expiry happens (log 1). -/
theorem exec_expiry_halted {s : State} (h : s.regs.part = .halted) {i : Instr} (hi : IsExpiry i) : exec i s = .next s := by
  refine exec_expiry_not_due s i hi fun hd => ?_
  rw [mem_dueExpiries] at hd
  simp [stuckDue_iff, trackTimerDue_iff, holdDue_iff, scanTimerDue_iff, h] at hd

/-- Orders are carried out in RUNNING alone (R178, R183). -/
theorem carryOut_of_not_running {s : State} (h : s.regs.part ≠ .running) (isKind : Byte → Bool) (f : Order → State → State) :
    s.carryOut isKind f = .next s :=
  (carryOut_cases s isKind f).elim id fun ⟨_, _, hr, _⟩ => absurd hr h

/-- With a free port no completion event happens (log 1). -/
theorem completeAccess_of_free {s : State} (h : s.bus.inFlight = none) (kind : AccessKind) (f : Access → State → State) :
    s.completeAccess kind f = s := by
  unfold State.completeAccess
  rw [h]

theorem execBusError_of_free {s : State} (h : s.bus.inFlight = none) : execBusError s = .next s := by
  unfold execBusError
  rw [h]

/-- The state with another notice mask and other notices. -/
def State.withNotices (s : State) (mask notice : BitVec 6) : State :=
  { s with regs := { s.regs with noticeMask := mask }, shared := { s.shared with notice := notice } }

/-- A CONTROL write without SOFT_RESET sets in HALTED the notice mask and no more (R174). -/
theorem writeControl_halted {s : State} (h : s.regs.part = .halted) {v : Word} (hv : ¬ v.getLsbD 1 = true) :
    s.writeControl v = s.withNotices (maskField v) s.shared.notice :=
  writeControl_mask (Bool.not_eq_true _ ▸ hv) (.inr (by rw [h]; decide))

/-- In HALTED, with a free port, a command that is no reset changes the notice mask and NOTICE at most. -/
theorem exec_halted {s : State} (h : s.regs.part = .halted) (hb : s.bus.inFlight = none) (i : Instr) (hi : ¬ Resets i) :
    ∃ mask notice, exec i s = .next (s.withNotices mask notice) := by
  have kept : exec i s = .next s → ∃ mask notice, exec i s = .next (s.withNotices mask notice) := fun e => ⟨_, _, e⟩
  have hr : s.regs.part ≠ .running := by rw [h]; decide
  cases i
  case headEdgeMessage => exact kept (exec_headEdge_halted h)
  case sampleFrame => exact kept (exec_sampleFrame_resting (.inl h))
  case stuckTimerExpiry | approachTimeout | stallExpiry | standingExpiry | settleExpiry | withdrawnExpiry | holdTimerExpiry
      | scanTimerExpiry =>
    exact kept (exec_expiry_halted h trivial)
  case setOptions | report | quiet | setTrack | enableTrack | disableTrack | closePassage | writeSpan | readCalibration | zero
      | writeClass | readClass | setWatch | clearHits | setCapture | lendPage | reclaimPages | unknownOrder =>
    refine kept ?_
    unfold exec
    exact carryOut_of_not_running hr _ _
  case scanReadDone | takenWriteDone | answerFieldsWriteDone | answeredWriteDone | recordWriteDone | pageHeaderWriteDone
      | reclaimHeaderWriteDone | captureEntryWriteDone | captureHeaderWriteDone =>
    exact kept (congrArg _ (completeAccess_of_free hb _ _))
  case busError => exact kept (execBusError_of_free hb)
  case run | softReset | noticeMaskWrite => exact ⟨_, _, congrArg _ (writeControl_halted h hi)⟩
  case anchorWrite => exact kept (congrArg _ (if_neg (by rw [h]; decide)))
  case attention v => exact kept (execAttention_of_resting v (.inr h))
  case noticeClear => exact ⟨_, _, rfl⟩
  case readOnlyRegisterWrite => exact kept rfl
  case powerOnReset | hardReset => exact absurd trivial hi

/-- Settles O53: a HALTED part has a free port, and `exec_halted` says what each command then does. -/
theorem aHaltIsLeftByAResetOnly : Obligations.AHaltIsLeftByAResetOnly := by
  intro s i hc hp hi
  obtain ⟨-, -, -, hfree⟩ := hc
  obtain ⟨mask, notice, e⟩ := exec_halted hp (hfree hp) i hi
  exact ⟨_, e, rfl⟩

/-! ### The approach timeout (R46) -/

/-- A zero operation at the track's return to IDLE: ACCUMULATING, the current suspension counted (R143). -/
def ZeroOperation.resumedAt (z : ZeroOperation) (now : Word) : ZeroOperation :=
  if z.state = .suspended then { z with state := .accumulating, suspendedTotal := z.totalAt now, holdTimer := none } else z

theorem resumedAt_of_suspended {z : ZeroOperation} (h : z.state = .suspended) (now : Word) :
    z.resumedAt now
      = { z with
          state := .accumulating
          suspendedTotal := z.suspendedTotal + (now - z.suspendStart).toNat
          holdTimer := none } := by
  rw [ZeroOperation.resumedAt, if_pos h, ZeroOperation.totalAt, if_pos h]

theorem resumedAt_of_accumulating {z : ZeroOperation} (h : z.state ≠ .suspended) (now : Word) : z.resumedAt now = z := if_neg h

/-- A track after its APPROACH timer has run out (R37, R42, R46, R143). -/
def TrackState.approachExpired (k : TrackState) (now : Word) : TrackState :=
  { k with
    mode := .idle
    expected := none
    timer := none
    falseApproaches := satInc 255 k.falseApproaches
    platforms := k.platforms.mapIdx fun _ x => { x with window := none }
    zero := k.zero.map (·.resumedAt now) }

theorem approachExpires_trk (c : Scene) : c.approachExpires.trk = c.trk.approachExpired c.sh.time := by
  rw [Scene.approachExpires, zeroReturnsToIdle_trk, zeroReturnsToIdle_zero]
  rfl

theorem approachExpires_sh (c : Scene) : c.approachExpires.sh = c.sh := zeroReturnsToIdle_sh _

/-- APPROACH_TIMEOUT of a timer that has run out, in RUNNING: the track alone changes (R46). -/
theorem exec_approachTimeout {s : State} {t : Track} (hr : s.regs.part = .running) (hm : (s.tracks.get t).mode = .approach)
    (ho : s.RunOut (s.tracks.get t).timer) :
    exec (.approachTimeout t) s = .next (s.withTrack t ((s.tracks.get t).approachExpired s.shared.time)) := by
  have e : exec (.approachTimeout t) s = .next (s.onTrack t Scene.approachExpires) :=
    congrArg _ (if_pos ((trackTimerDue_iff ..).2 ⟨hr, hm, ho⟩))
  rw [e, State.onTrack, approachExpires_trk, approachExpires_sh]
  rfl

/-- Settles O19: the track after the timeout, its zero engine by whether an operation is in progress and suspended. -/
theorem approachExpiryReturnsTheTrackToIdle : Obligations.ApproachExpiryReturnsTheTrackToIdle := by
  intro s t hr hm ho
  dsimp only
  rw [exec_approachTimeout hr hm ho]
  unfold TrackState.approachExpired
  cases (s.tracks.get t).zero with
  | none => rfl
  | some z =>
    dsimp only
    by_cases hz : z.state = .suspended
    · rw [Option.map_some, resumedAt_of_suspended hz, if_pos hz]
      rfl
    · rw [Option.map_some, resumedAt_of_accumulating hz, if_neg hz]
      rfl

end Sys2Proof.Machine

namespace Sys2Proof.Machine

/-! ### Two invariants at once -/

/-- Two invariants, each kept by every elementary change of a step, are kept together. -/
theorem StepKeeps.and {P R : State → Prop} (p : StepKeeps P) (q : StepKeeps R) : StepKeeps fun s => P s ∧ R s where
  queue s l n h := h.imp (p.queue s l n) (q.queue s l n)
  tick s h := h.imp (p.tick s) (q.tick s)
  settle s h := h.imp (p.settle s) (q.settle s)
  badFrame s h := h.imp (p.badFrame s) (q.badFrame s)
  wake s cause h hq := ⟨p.wake s cause h.1 hq, q.wake s cause h.2 hq⟩
  edge s t x hd l h hp hm he := ⟨p.edge s t x hd l h.1 hp hm he, q.edge s t x hd l h.2 hp hm he⟩
  frame s t n l h hp hm := ⟨p.frame s t n l h.1 hp hm, q.frame s t n l h.2 hp hm⟩
  stuck s t x h hp := ⟨p.stuck s t x h.1 hp, q.stuck s t x h.2 hp⟩
  approach s t h hr hm := ⟨p.approach s t h.1 hr hm, q.approach s t h.2 hr hm⟩
  stall s t h hr hm := ⟨p.stall s t h.1 hr hm, q.stall s t h.2 hr hm⟩
  close s t r h hr hm := ⟨p.close s t r h.1 hr hm, q.close s t r h.2 hr hm⟩
  hold s t h hr := ⟨p.hold s t h.1 hr, q.hold s t h.2 hr⟩
  scanTimer s h := h.imp (p.scanTimer s) (q.scanTimer s)
  requestScan s h := h.imp (p.requestScan s) (q.requestScan s)
  scanRead s bytes h := h.imp (p.scanRead s bytes) (q.scanRead s bytes)
  takenWrite s h := h.imp (p.takenWrite s) (q.takenWrite s)
  answerFields s h := h.imp (p.answerFields s) (q.answerFields s)
  answered s h := h.imp (p.answered s) (q.answered s)
  reclaimHeader s h := h.imp (p.reclaimHeader s) (q.reclaimHeader s)
  pop s h := h.imp (p.pop s) (q.pop s)
  answer s owner o code area h := h.imp (p.answer s owner o code area) (q.answer s owner o code area)
  options s l x h hx := ⟨p.options s l x h.1 hx, q.options s l x h.2 hx⟩
  config s t l x h hm hx := ⟨p.config s t l x h.1 hm hx, q.config s t l x h.2 hm hx⟩
  enable s t h hr hm hP := ⟨p.enable s t h.1 hr hm hP, q.enable s t h.2 hr hm hP⟩
  disable s t h hr := ⟨p.disable s t h.1 hr, q.disable s t h.2 hr⟩
  span s t x h := h.imp (p.span s t x) (q.span s t x)
  zero s t o n h hr hm hz := ⟨p.zero s t o n h.1 hr hm hz, q.zero s t o n h.2 hr hm hz⟩
  classEntry s l w h hw := ⟨p.classEntry s l w h.1 hw, q.classEntry s l w h.2 hw⟩
  watch s l w h hw := ⟨p.watch s l w h.1 hw, q.watch s l w h.2 hw⟩
  hits s mask h := h.imp (p.hits s mask) (q.hits s mask)
  disarm s h := h.imp (p.disarm s) (q.disarm s)
  arm s area slots limit h := h.imp (p.arm s area slots limit) (q.arm s area slots limit)
  lend s address h ha hl := ⟨p.lend s address h.1 ha hl, q.lend s address h.2 ha hl⟩
  reclaim s o l h := h.imp (p.reclaim s o l) (q.reclaim s o l)
  freePort s h := h.imp (p.freePort s) (q.freePort s)
  enterQuiet s h hq := ⟨p.enterQuiet s h.1 hq, q.enterQuiet s h.2 hq⟩
  recordWritten s t n h := h.imp (p.recordWritten s t n) (q.recordWritten s t n)
  pageReturned s t h := h.imp (p.pageReturned s t) (q.pageReturned s t)
  captureEntry s h := h.imp (p.captureEntry s) (q.captureEntry s)
  captureHeader s h := h.imp (p.captureHeader s) (q.captureHeader s)
  halt s a h hb := ⟨p.halt s a h.1 hb, q.halt s a h.2 hb⟩
  powerOnReset s h := h.imp (p.powerOnReset s) (q.powerOnReset s)
  hardReset s h := h.imp (p.hardReset s) (q.hardReset s)
  softReset s h := h.imp (p.softReset s) (q.softReset s)
  mask s m h := h.imp (p.mask s m) (q.mask s m)
  run s h hs := ⟨p.run s h.1 hs, q.run s h.2 hs⟩
  badAnchor s h := h.imp (p.badAnchor s) (q.badAnchor s)
  anchor s v h := h.imp (p.anchor s v) (q.anchor s v)
  notice s n h := h.imp (p.notice s n) (q.notice s n)

/-- A machine that is coherent and within its capacities is so after every elementary change. -/
theorem stepKeeps_coherent_bounded : StepKeeps fun s => s.Coherent ∧ s.Bounded := stepKeeps_coherent.and stepKeeps_bounded

/-! ### Tables and accounts of one track (R66, R75, R90, R91, R117) -/

/-- `TrackState.TablesEmpty` said of the passage context instead of the track state: a rule that writes neither context nor tables keeps it,
even where it moves the track between states. -/
def TrackState.EmptyWithoutPassage (k : TrackState) : Prop :=
  k.context = none → k.axles = .empty ∧ k.group = [] ∧ k.nextWagon = 0

theorem context_eq_none_iff {k : TrackState} (h : k.Coherent) : k.context = none ↔ k.mode.inPassage = false := by
  obtain ⟨-, -, -, hc, -⟩ := h
  rw [← hc, Option.isSome_eq_false_iff, Option.isNone_iff_eq_none]

theorem tablesEmpty_iff {k : TrackState} (h : k.Coherent) : k.TablesEmpty ↔ k.EmptyWithoutPassage := by
  unfold TrackState.TablesEmpty TrackState.EmptyWithoutPassage
  rw [context_eq_none_iff h]

/-- The tables are empty without a passage, and the accounts balance. -/
def TrackState.Accounted (k : TrackState) : Prop := k.EmptyWithoutPassage ∧ k.Balanced

theorem accounted_iff {k : TrackState} (h : k.Coherent) : k.Accounted ↔ k.TablesEmpty ∧ k.Balanced :=
  and_congr_left' (tablesEmpty_iff h).symm

/-- Only the context, the tables and the records decide whether a track is accounted for. -/
theorem accounted_of_eq {k k' : TrackState} (h : k.Accounted) (hc : k'.context = k.context) (ha : k'.axles = k.axles)
    (hg : k'.group = k.group) (hn : k'.nextWagon = k.nextWagon) (hr : k'.records = k.records) : k'.Accounted := by
  refine ⟨?_, balanced_of_eq h.2 hc ha hr⟩
  unfold TrackState.EmptyWithoutPassage
  rw [hc, ha, hg, hn]
  exact h.1

theorem accounted_pointFault {c : Scene} (p : PointCode) (h : c.trk.Accounted) : (c.pointFault p).trk.Accounted :=
  ⟨fun e => h.1 (Option.map_eq_none_iff.1 e), balanced_pointFault p h.2⟩

theorem accounted_acceptFrame {c : Scene} (n : Byte) (l : List ChannelEntry) (h : c.trk.Accounted) :
    (c.acceptFrame n l).trk.Accounted := by
  rw [acceptFrame_eq]
  dsimp only
  rw [zeroFrame_trk]
  split
  · rw [zeroGap_trk]
    exact accounted_of_eq h rfl rfl rfl rfl rfl
  · exact accounted_of_eq h rfl rfl rfl rfl rfl

theorem accounted_startZero {c : Scene} (o : Order) (n : Nat) (h : c.trk.Accounted) : (c.startZero o n).trk.Accounted := by
  unfold Scene.startZero
  extract_lets z
  split
  · exact accounted_of_eq h rfl rfl rfl rfl rfl
  · rw [suspendZero_trk]
    exact accounted_of_eq h rfl rfl rfl rfl rfl

/-- The record a page writer has written leaves the queue; the others balance as before. -/
theorem accounted_dropHead {k : TrackState} (h : k.Accounted) :
    ({ k with records := k.records.dropHead } : TrackState).Accounted := by
  obtain ⟨he, hf, hb⟩ := h
  refine ⟨he, hf, fun x hx => hb x ?_⟩
  rw [dropHead_queue] at hx
  exact List.mem_of_mem_tail hx

theorem accounted_initial {k : TrackState} (hc : k.context = none) (ha : k.axles = .empty) (hg : k.group = [])
    (hn : k.nextWagon = 0) (hr : k.records.queue = []) : k.Accounted :=
  ⟨fun _ => ⟨ha, hg, hn⟩, fun _ e => (nomatch hc.symm.trans e),
    fun x e => absurd (hr ▸ e : Record.close x ∈ []) List.not_mem_nil⟩

/-- A close of an open passage: every axle is in the close record, and the tables are empty (R56, R90, R91). -/
theorem accounted_closePassage {c : Scene} (r : CloseReason) (hc : c.trk.Coherent) (hs : ∀ e ∈ c.sh.classes, ClassEntry.Sound e)
    (hm : c.trk.mode.inPassage = true) (h : c.trk.Accounted) : (c.closePassage r).trk.Accounted := by
  obtain ⟨-, hb⟩ := h
  obtain ⟨-, -, -, hx, -⟩ := hc
  exact ⟨fun _ => closePassage_tablesEmpty c r hs, balanced_closePassage r hb hb.1 (hx.trans hm)⟩

theorem accounted_disable {c : Scene} (hc : c.trk.Coherent) (hs : ∀ e ∈ c.sh.classes, ClassEntry.Sound e) (h : c.trk.Accounted) :
    c.disable.trk.Accounted := by
  have outside (hm : c.trk.mode = .idle ∨ c.trk.mode = .approach) : c.disable.trk.Accounted := by
    obtain ⟨-, e, -⟩ := disable_outside_passage hm
    rw [e]
    exact accounted_of_eq h rfl rfl rfl rfl rfl
  have inside (hm : c.trk.mode.inPassage = true) : c.disable.trk.Accounted := by
    rw [disable_of_inPassage hm]
    exact accounted_closePassage .disabled hc hs hm h
  cases hm : c.trk.mode with
  | disabled =>
    rw [disable_of_disabled hm]
    exact h
  | idle => exact outside (.inl hm)
  | approach => exact outside (.inr hm)
  | crossing | standing | draining | withdrawn => exact inside (by rw [hm]; rfl)

/-- A head edge keeps the tables empty outside a passage: only the pass it completes touches them (R66, R117). -/
theorem takeEdge_tablesEmpty {c : Scene} (hc : c.trk.Coherent) (hw : c.trk.WindowsMatch)
    (hs : ∀ e ∈ c.sh.classes, ClassEntry.Sound e) (p : PointCode) (hd : Head) (l : Level) (h : c.trk.TablesEmpty) :
    (c.takeEdge p hd l).trk.TablesEmpty := by
  unfold Scene.takeEdge
  split
  · exact h
  · next q pass _ =>
    cases pass with
    | none => exact h
    | some x => exact takePass_tablesEmpty (c := c.modTrk fun k => { k with points := k.points.set p q }) hc hw h hs x

theorem accounted_takeEdge {c : Scene} (hc : c.trk.Coherent) (hw : c.trk.WindowsMatch)
    (hs : ∀ e ∈ c.sh.classes, ClassEntry.Sound e) (p : PointCode) (hd : Head) (l : Level)
    (he : pointExists c.trk.config.platforms p = true) (h : c.trk.Accounted) : (c.takeEdge p hd l).trk.Accounted := by
  obtain ⟨ht, hb⟩ := (accounted_iff hc).1 h
  exact (accounted_iff (takeEdge_coherent hc hw p hd l he).1).2
    ⟨takeEdge_tablesEmpty hc hw hs p hd l ht, balanced_takeEdge p hd l hb ht⟩

/-! ### The accounts through the changes of a step -/

theorem State.Bounded.classes {s : State} (h : s.Bounded) : ∀ e ∈ s.shared.classes, ClassEntry.Sound e := by
  obtain ⟨-, ⟨-, -, -, -, -, -, hs, -⟩, -⟩ := h
  exact hs

theorem trackKeeps_accounted : TrackKeeps (fun s => s.Coherent ∧ s.Bounded) TrackState.Accounted where
  edge s t p hd l hm h he :=
    accounted_takeEdge (c := s.scene t) (hm.1.1 t).1 (hm.1.1 t).2 hm.2.classes p hd l he h
  frame _ n l h := accounted_acceptFrame n l h
  stuck _ p h := accounted_pointFault p h
  approach c h := by
    rw [approachExpires_trk]
    exact accounted_of_eq h rfl rfl rfl rfl rfl
  stall _ _ h := accounted_of_eq h rfl rfl rfl rfl rfl
  close s t r hm h hp := accounted_closePassage (c := s.scene t) r (hm.1.1 t).1 hm.2.classes hp h
  hold c h := by
    rw [zeroHoldExpires_trk]
    exact accounted_of_eq h rfl rfl rfl rfl rfl
  config _ _ h := accounted_of_eq h rfl rfl rfl rfl rfl
  enable _ h := accounted_of_eq h rfl rfl rfl rfl rfl
  disable s t hm h := accounted_disable (c := s.scene t) (hm.1.1 t).1 hm.2.classes h
  calibration _ _ h := accounted_of_eq h rfl rfl rfl rfl rfl
  zero _ o n h := accounted_startZero o n h
  sequence _ h := accounted_of_eq h rfl rfl rfl rfl rfl
  dropHead _ h := accounted_dropHead h
  initial := accounted_initial rfl rfl rfl rfl rfl
  softReset _ _ := accounted_initial rfl rfl rfl rfl rfl

/-- Settles O60: in a coherent machine within its capacities every change of a track keeps its tables and accounts; coherence, kept too
(O57), turns "no open passage" back into the track states. -/
theorem everyAxleIsAccountedFor : Obligations.EveryAxleIsAccountedFor := by
  intro s u hc hk ht hb e
  have hs : ∀ t, (s.tracks.get t).Accounted := fun t => (accounted_iff (hc.1 t).1).2 ⟨ht t, hb t⟩
  obtain ⟨⟨huc, -⟩, hu⟩ := (trackKeeps_accounted.stepKeeps stepKeeps_coherent_bounded).step ⟨⟨hc, hk⟩, hs⟩ e
  have parts : ∀ t, (u.tracks.get t).TablesEmpty ∧ (u.tracks.get t).Balanced := fun t => (accounted_iff (huc.1 t).1).1 (hu t)
  exact ⟨fun t => (parts t).1, fun t => (parts t).2⟩

end Sys2Proof.Machine

namespace Sys2Proof.Machine

/-! ### The channels of a calibration store (R107) -/

@[simp] theorem channelGet_channelSet_same (x : Four (Rails Channel)) (c : Nat) (v : Channel) :
    channelGet (channelSet x c v) c = v := by
  simp only [channelGet, channelSet, Four.get_set_same]
  split <;> rfl

/-- Another channel lies on another platform, or on the other rail of the same one. -/
theorem channelGet_channelSet_ne (x : Four (Rails Channel)) {c d : Nat} (v : Channel) (hc : 1 ≤ c ∧ c ≤ 8)
    (hd : 1 ≤ d ∧ d ≤ 8) (h : d ≠ c) : channelGet (channelSet x c v) d = channelGet x d := by
  unfold channelGet channelSet
  dsimp only
  by_cases hp : (c + 1) / 2 = (d + 1) / 2
  · have rails : ¬ (c % 2 = 1 ↔ d % 2 = 1) := by omega
    rw [hp, Four.get_set_same]
    by_cases hodd : d % 2 = 1
    · simp [hodd, show ¬ c % 2 = 1 from fun e => rails ⟨fun _ => hodd, fun _ => e⟩]
    · simp [hodd, show c % 2 = 1 from by omega]
  · rw [Four.get_set_ne _ _ hp (by omega) (by omega)]

/-! ### WRITE SPAN (R107) -/

/-- WRITE SPAN's area is accepted exactly when its four parameters are in range. -/
theorem spanWriteOf_eq_some (l : List Byte) (w : SpanWrite) :
    spanWriteOf l = some w ↔
      trackOf (nat8 l 0) = some w.track ∧ w.channel = nat8 l 1 ∧ w.span = nat32 l 2 ∧ boolOf (nat8 l 6) = some w.lock
        ∧ 1 ≤ w.channel ∧ w.channel ≤ 8 ∧ 1 ≤ w.span ∧ w.span ≤ 16777216 := by
  constructor
  · intro h
    unfold spanWriteOf at h
    split at h
    · rename_i t lock ht hlock
      split at h
      · rename_i hr
        obtain rfl := Option.some.inj h
        simp only [inRange, Bool.and_eq_true, decide_eq_true_eq] at hr
        obtain ⟨⟨h1, h2⟩, h3, h4⟩ := hr
        exact ⟨ht, rfl, rfl, hlock, h1, h2, h3, h4⟩
      · cases h
    · cases h
  · rintro ⟨ht, hc, hs, hlock, hr⟩
    unfold spanWriteOf
    rw [ht, hlock, ← hc, ← hs]
    refine if_pos ?_
    simp only [inRange, Bool.and_eq_true, decide_eq_true_eq]
    omega

theorem exec_writeSpan {s : State} {o : Order} (h : s.Carries 0x20#8 o) :
    exec .writeSpan s = .next (carryWriteSpan o s.popOrder).settle := carryOut_of_carries h (· == 0x20#8) rfl carryWriteSpan

/-- The channel that a WRITE SPAN of accepted parameters writes when nothing refuses it. -/
def State.withSpan (s : State) (w : SpanWrite) : State :=
  s.modTrack w.track fun k =>
    { k with calibration :=
        channelSet k.calibration w.channel ((channelGet k.calibration w.channel).writeSpan w.span w.lock) }

/-- WRITE SPAN with accepted parameters: a locked channel, then an open passage, refuses it. -/
theorem carryWriteSpan_accepted {o : Order} {w : SpanWrite} (hw : spanWriteOf o.params = some w) (s : State) :
    carryWriteSpan o s
      = if (channelGet (s.tracks.get w.track).calibration w.channel).lock then s.answer o .locked
        else if (s.tracks.get w.track).mode.inPassage then s.answer o .busy
        else (s.withSpan w).answer o .done := by
  unfold carryWriteSpan
  rw [hw]
  rfl

/-- What a WRITE SPAN of accepted parameters answers, and when it writes (R107). -/
theorem exec_writeSpan_accepted {s : State} {o : Order} {w : SpanWrite} (h : s.Carries 0x20#8 o)
    (hw : spanWriteOf o.params = some w) :
    exec .writeSpan s
      = .next
          (if (channelGet (s.tracks.get w.track).calibration w.channel).lock then s.answered o .locked []
          else if (s.tracks.get w.track).mode.inPassage then s.answered o .busy []
          else (s.withSpan w).answered o .done []) := by
  rw [exec_writeSpan h, carryWriteSpan_accepted hw, State.popOrder_tracks]
  split
  · rw [answered_pop]
  · split
    · rw [answered_pop]
    · rfl

/-- Settles O40: the tests of R107 in their order, the one channel written, and the ranges of its parameters. -/
theorem writeSpanWritesAnUnlockedChannel : Obligations.WriteSpanWritesAnUnlockedChannel := by
  refine ⟨fun s o h => ⟨fun hw => ?_, fun w hw => ?_⟩, spanWriteOf_eq_some⟩
  · simp only [exec_writeSpan h, carryWriteSpan, hw, answered_pop]
  · intro k ch
    rw [exec_writeSpan_accepted h hw]
    refine ⟨fun hl => congrArg _ (if_pos hl), fun hl hp => ?_, fun hl hp => ?_⟩
    · rw [if_neg (Bool.not_eq_true _ ▸ hl), if_pos hp]
    · rw [if_neg (Bool.not_eq_true _ ▸ hl), if_neg (Bool.not_eq_true _ ▸ hp)]
      obtain ⟨-, -, -, -, hc1, hc8, -⟩ := (spanWriteOf_eq_some _ _).1 hw
      exact ⟨channelSet k.calibration w.channel (ch.writeSpan w.span w.lock), rfl, channelGet_channelSet_same ..,
        fun c h1 h8 hne => channelGet_channelSet_ne _ _ ⟨hc1, hc8⟩ ⟨h1, h8⟩ hne⟩

end Sys2Proof.Machine

namespace Sys2Proof.Machine

/-! ### Byte layouts (R182) -/

/-- A mask holds its first member in bit 0. -/
theorem testBit_maskOf (l : List Bool) (i : Nat) : (maskOf l).testBit i = l.getD i false := by
  induction l generalizing i with
  | nil => simp [maskOf]
  | cons b l ih =>
    rw [maskOf]
    cases i with
    | zero =>
      rw [Nat.testBit_zero, List.getD_cons_zero]
      cases b
      · exact decide_eq_false (by simp only [Bool.false_eq_true, if_false]; omega)
      · exact decide_eq_true (by simp only [if_true]; omega)
    | succ i =>
      have half : ((if b then 1 else 0) + 2 * maskOf l) / 2 = maskOf l := by split <;> omega
      rw [Nat.testBit_succ, half, ih, List.getD_cons_succ]

/-- Four bytes hold a number modulo 2^32. -/
theorem le32_mod (n : Nat) : le32 (n % 4294967296) = le32 n := by
  have byteEq : ∀ a b : Nat, a % 256 = b % 256 → BitVec.ofNat 8 a = BitVec.ofNat 8 b :=
    fun a b h => BitVec.eq_of_toNat_eq (by simpa using h)
  unfold le32
  rw [byteEq (n % 4294967296) n (by omega), byteEq (n % 4294967296 / 256) (n / 256) (by omega),
    byteEq (n % 4294967296 / 65536) (n / 65536) (by omega), byteEq (n % 4294967296 / 16777216) (n / 16777216) (by omega)]

theorem le32i_of_nonneg (n : Nat) : le32i (n : Int) = le32 n := by
  rw [le32i, BitVec.ofInt_natCast, BitVec.toNat_ofNat]
  exact le32_mod n

theorem le32i_of_neg {n : Nat} (h : 0 < n) (hn : n ≤ 2147483648) : le32i (-(n : Int)) = le32 (4294967296 - n) := by
  have word : (BitVec.ofInt 32 (-(n : Int))).toNat = 4294967296 - n := by
    rw [BitVec.toNat_ofInt]
    omega
  rw [le32i, word]

/-! ### Orders that only report (R108, R180) -/

theorem exec_report {s : State} {o : Order} (h : s.Carries 0x02#8 o) :
    exec .report s = .next (s.answered o .done (reportFields s)) :=
  carryOut_of_carries h (· == 0x02#8) rfl fun o s => s.answer o .done (reportFields s)

theorem exec_readCalibration {s : State} {o : Order} (h : s.Carries 0x21#8 o) :
    exec .readCalibration s = .next (carryReadCalibration o s.popOrder).settle :=
  carryOut_of_carries h (· == 0x21#8) rfl carryReadCalibration

/-- An order of a kind outside the catalogue is answered INVALID (R178). -/
theorem exec_unknownOrder {s : State} {o : Order} (hr : s.regs.part = .running) (hc : s.shared.orders.carrying = false)
    (ho : s.shared.orders.queue.head? = some o) (hk : o.kind ∉ catalogue) :
    exec .unknownOrder s = .next (s.answered o .invalid []) :=
  carryOut_of_carries (k := o.kind) ⟨hr, hc, ho, rfl⟩ (fun k => !catalogue.contains k) (by simpa using hk)
    fun o s => s.answer o .invalid

/-- Outside the two tracks and the two halves READ CALIBRATION is INVALID (R108). -/
theorem carryReadCalibration_invalid {o : Order} (h : trackOf (nat8 o.params 0) = none ∨ boolOf (nat8 o.params 1) = none)
    (s : State) : carryReadCalibration o s = s.answer o .invalid := by
  unfold carryReadCalibration
  split
  · rename_i ht hb
    simp [ht, hb] at h
  · rfl

/-- The lock of every channel, 1 to 8 in order. -/
theorem lockList_eq (k : TrackState) : lockList k = (List.range 8).map fun i => (channelGet k.calibration (i + 1)).lock := rfl

/-- The hit counts of the four units, unit 0 first. -/
theorem hitCounts_bytes (x : Four WatchUnit) :
    (x.toList.map fun u => le16 u.hitCount).flatten
      = le16 x.first.hitCount ++ le16 x.second.hitCount ++ le16 x.third.hitCount ++ le16 x.fourth.hitCount := rfl

theorem length_reportFields (s : State) : (reportFields s).length = 48 := by
  simp [reportFields, reportTrack, le16, le32, Four.toList]

/-- Settles O34: REPORT's layout is that of `reportFields` with its codes written out, and the three orders answer and no more. -/
theorem reportingOrdersChangeNothingButTheirAnswer : Obligations.ReportingOrdersChangeNothingButTheirAnswer := by
  refine ⟨fun s o h => exec_report h, fun s => ?_, testBit_maskOf,
    fun n => ⟨rfl, rfl, le32i_of_nonneg n, le32i_of_neg⟩, fun s o t high h ht hb => ?_, fun s o h hn => ?_,
    fun s o hr hc ho hk => exec_unknownOrder hr hc ho hk⟩
  · intro track locks h
    have track_eq : ∀ k, reportTrack k = track k := by
      intro k
      unfold reportTrack track
      congr 2
      · cases k.mode <;> rfl
      · congr 1
        rcases k.zero with _ | z
        · rfl
        · simp only [zeroCode]
          cases z.state <;> rfl
    refine ⟨?_, length_reportFields s⟩
    rw [← track_eq, ← track_eq]
    simp only [reportFields, lockList_eq, hitCounts_bytes, List.append_assoc]
    cases s.shared.capture.state <;> rfl
  · rw [exec_readCalibration h]
    simp only [carryReadCalibration, ht, hb, State.popOrder_tracks, answered_pop]
    rfl
  · rw [exec_readCalibration h, carryReadCalibration_invalid hn, answered_pop]

end Sys2Proof.Machine

namespace Sys2Proof.Machine

/-! ### The host's stores: spans, channel locks and the class table (R104, R112) -/

/-- What WRITE SPAN writes of a channel: span and lock. -/
def Channel.written (x : Channel) : Nat × Bool := (x.span, x.lock)

/-- What WRITE SPAN writes of a calibration store. -/
def spansOf (x : Four (Rails Channel)) : Four (Rails (Nat × Bool)) := x.mapIdx fun _ r => r.map Channel.written

/-- The host's stores as one track's rules see them. -/
def Scene.stores (c : Scene) : Four (Rails (Nat × Bool)) × List ClassEntry := (spansOf c.trk.calibration, c.sh.classes)

/-- The host's stores: the spans and locks of both tracks, and the class table. -/
def State.stores (s : State) : PerTrack (Four (Rails (Nat × Bool))) × List ClassEntry :=
  (⟨spansOf s.tracks.a.calibration, spansOf s.tracks.b.calibration⟩, s.shared.classes)

theorem spansOf_get (x : Four (Rails Channel)) (p : Nat) : (spansOf x).get p = (x.get p).map Channel.written := by
  rcases p with _ | _ | _ | _ | p <;> rfl

/-- The stores fix every channel's span and lock. -/
theorem written_channelGet_congr {x y : Four (Rails Channel)} (h : spansOf x = spansOf y) (c : Nat) :
    (channelGet x c).written = (channelGet y c).written := by
  have rails : (x.get ((c + 1) / 2)).map Channel.written = (y.get ((c + 1) / 2)).map Channel.written := by
    rw [← spansOf_get, h, spansOf_get]
  unfold channelGet
  dsimp only
  split
  · exact congrArg Rails.left rails
  · exact congrArg Rails.right rails

/-- The stores belong to the control part of a track's view. -/
def Control.stores (k : Control) : Four (Rails (Nat × Bool)) × List ClassEntry := (spansOf k.calibration, k.classes)

theorem stores_eq_control (c : Scene) : c.stores = c.control.stores := rfl

/-- A rule of one track that keeps the stores it sees keeps the host's stores. -/
theorem stores_onTrack (s : State) (t : Track) {f : Scene → Scene} (h : (f (s.scene t)).stores = (s.scene t).stores) :
    (s.onTrack t f).stores = s.stores := by
  obtain ⟨hspans, hclasses⟩ := Prod.mk.inj h
  cases t
  · refine Prod.ext ?_ hclasses
    exact congrArg (PerTrack.mk · (spansOf s.tracks.b.calibration)) hspans
  · refine Prod.ext ?_ hclasses
    exact congrArg (PerTrack.mk (spansOf s.tracks.a.calibration)) hspans

/-- A change of one track that keeps its calibration keeps the host's stores. -/
theorem stores_modTrack (s : State) (t : Track) {f : TrackState → TrackState}
    (h : (f (s.tracks.get t)).calibration = (s.tracks.get t).calibration) : (s.modTrack t f).stores = s.stores :=
  stores_onTrack s t (f := fun c => c.modTrk f) (Prod.ext (congrArg spansOf h) rfl)

theorem stores_settle (s : State) : s.settle.stores = s.stores := by
  rw [State.settle_eq]
  rfl

/-! ### The zero engine writes offsets alone (R141) -/

/-- A change of the zero engine alone keeps the stores. -/
theorem stores_of_zero {c d : Scene} (ht : d.trk = { c.trk with zero := d.trk.zero }) (hs : c.sh.EngineKept d.sh) :
    d.stores = c.stores := by
  have hcalibration : d.trk.calibration = c.trk.calibration := by rw [ht]
  have hclasses : d.sh.classes = c.sh.classes := by rw [hs.1]
  exact Prod.ext (congrArg spansOf hcalibration) hclasses

theorem stores_endZero (c : Scene) (z : ZeroOperation) (e : ZeroEnd) : (c.endZero z e).stores = c.stores :=
  stores_of_zero (by rw [endZero_trk]) (endZero_sh c z e)

theorem stores_suspendZero (c : Scene) (z : ZeroOperation) : (c.suspendZero z).stores = c.stores :=
  stores_of_zero (by rw [suspendZero_trk]) (suspendZero_sh c z)

theorem stores_zeroLeavesIdle (c : Scene) : c.zeroLeavesIdle.stores = c.stores :=
  stores_of_zero (zeroLeavesIdle_trk c) (zeroLeavesIdle_sh c)

theorem stores_zeroReturnsToIdle (c : Scene) : c.zeroReturnsToIdle.stores = c.stores :=
  stores_of_zero (zeroReturnsToIdle_trk c) (by rw [zeroReturnsToIdle_sh]; exact .refl _)

theorem stores_zeroHoldExpires (c : Scene) : c.zeroHoldExpires.stores = c.stores :=
  stores_of_zero (by rw [zeroHoldExpires_trk]) (zeroHoldExpires_sh c)

theorem stores_zeroDisabled (c : Scene) : c.zeroDisabled.stores = c.stores :=
  stores_of_zero (by rw [zeroDisabled_trk]) (zeroDisabled_sh c)

theorem stores_autoZero (c : Scene) (r : CloseReason) : (c.autoZero r).stores = c.stores :=
  stores_of_zero (autoZero_trk c r) (by rw [autoZero_sh]; exact .refl _)

theorem stores_startZero (c : Scene) (o : Order) (n : Nat) : (c.startZero o n).stores = c.stores := by
  unfold Scene.startZero
  dsimp only
  split
  · rfl
  · exact stores_suspendZero c _

theorem stores_zeroGap (c : Scene) : c.zeroGap.stores = c.stores := by
  unfold Scene.zeroGap
  split
  · rfl
  · split
    · rfl
    · split <;> rfl

/-- Completion sets zero offsets and zero_valid, and no span or lock. -/
theorem stores_completeZero (c : Scene) (z : ZeroOperation) : (c.completeZero z).stores = c.stores := by
  unfold Scene.completeZero
  dsimp only
  rw [stores_endZero]
  refine Prod.ext ?_ rfl
  simp only [Scene.stores, Scene.modTrk_trk, spansOf, Four.mapIdx]
  congr 1 <;> split <;> rfl

theorem stores_zeroFrame (c : Scene) (l : List ChannelEntry) : (c.zeroFrame l).stores = c.stores := by
  unfold Scene.zeroFrame
  split
  · rfl
  · split
    · rfl
    · split
      · exact stores_endZero c _ _
      · dsimp only
        split
        · exact stores_completeZero c _
        · rfl

/-! ### The rules of one track -/

theorem stores_enterDisabled (c : Scene) : c.enterDisabled.stores = c.stores := by
  unfold Scene.enterDisabled
  exact stores_zeroDisabled _

theorem stores_endClose (c : Scene) (r : CloseReason) : (c.endClose r).stores = c.stores := by
  unfold Scene.endClose
  split
  · rw [stores_enterDisabled]
    rfl
  · rw [stores_autoZero, stores_zeroReturnsToIdle]
    rfl

theorem stores_closePassage (c : Scene) (r : CloseReason) : (c.closePassage r).stores = c.stores := by
  rw [Scene.closePassage, stores_endClose, stores_eq_control, control_closeToStep8]
  rfl

theorem stores_openPassage (c : Scene) (x : Pass) (cause : OpenCause) : (c.openPassage x cause).stores = c.stores := by
  obtain ⟨-, hcalibration, -⟩ := openPassage_rest c x cause
  exact Prod.ext (congrArg spansOf hcalibration) (classes_openPassage c x cause)

theorem stores_nextMode (c : Scene) (kind : PassKind) : (c.nextMode kind).stores = c.stores := by
  unfold Scene.nextMode
  split
  · rfl
  · split
    · cases kind <;> rfl
    · rfl

theorem stores_handPass (c : Scene) (d : Direction) (x : Pass) (k : Nat) : (c.handPass d x k).stores = c.stores := by
  unfold Scene.handPass
  dsimp only
  split
  · exact stores_closePassage c _
  · rw [stores_nextMode, stores_eq_control, control_processPass]
    rfl

theorem stores_takePass (c : Scene) (x : Pass) : (c.takePass x).stores = c.stores := by
  have opening : ∀ cause k, ((c.openPassage x cause).handPass x.direction x k).stores = c.stores := fun cause k => by
    rw [stores_handPass, stores_openPassage]
  unfold Scene.takePass
  split
  · rfl
  · split
    · split
      · exact stores_zeroLeavesIdle _
      · rfl
    · split
      · exact opening ..
      · rfl
  · split
    · rfl
    · split
      · exact opening ..
      · rfl
  · split
    · exact stores_handPass ..
    · rfl

theorem stores_takeEdge (c : Scene) (p : PointCode) (h : Head) (l : Level) : (c.takeEdge p h l).stores = c.stores := by
  unfold Scene.takeEdge
  split
  · rfl
  · dsimp only
    split
    · rfl
    · exact stores_takePass _ _

theorem stores_acceptFrame (c : Scene) (n : Byte) (l : List ChannelEntry) : (c.acceptFrame n l).stores = c.stores := by
  unfold Scene.acceptFrame
  extract_lets c1 c2 c3 c4
  have h1 : c1.stores = c.stores := by
    unfold c1
    split
    · exact stores_zeroGap _
    · rfl
  exact (stores_zeroFrame c2 l).trans h1

theorem stores_pointFault (c : Scene) (p : PointCode) : (c.pointFault p).stores = c.stores := rfl

theorem stores_approachExpires (c : Scene) : c.approachExpires.stores = c.stores := stores_zeroReturnsToIdle _

theorem stores_disable (c : Scene) : c.disable.stores = c.stores := by
  unfold Scene.disable
  split
  · rfl
  · exact stores_enterDisabled c
  · exact stores_enterDisabled _
  · exact stores_closePassage c _

end Sys2Proof.Machine

namespace Sys2Proof.Machine

/-! ### Orders (R178) -/

/-- An order keeps the stores when what it does behind the queue keeps them. -/
theorem stores_carryOut {s u : State} (isKind : Byte → Bool) {f : Order → State → State}
    (hf : ∀ o s, (f o s).stores = s.stores) (e : s.carryOut isKind f = .next u) : u.stores = s.stores := by
  rcases carryOut_cases s isKind f with h | ⟨o, -, -, -, -, h⟩ <;> rw [h] at e <;> cases e
  · rfl
  · rw [stores_settle, hf]
    rfl

theorem stores_answer (s : State) (o : Order) (code : AnswerCode) (area : List Byte) :
    (s.answer o code area).stores = s.stores := rfl

theorem stores_carrySetOptions (o : Order) (s : State) : (carrySetOptions o s).stores = s.stores := by
  unfold carrySetOptions
  split <;> rfl

theorem stores_carrySetTrack (o : Order) (s : State) : (carrySetTrack o s).stores = s.stores := by
  unfold carrySetTrack
  split
  · rfl
  · split
    · rfl
    · split
      · rfl
      · rw [stores_answer, stores_modTrack _ _ rfl]

theorem stores_carryEnableTrack (o : Order) (s : State) : (carryEnableTrack o s).stores = s.stores := by
  unfold carryEnableTrack
  split
  · rfl
  · split
    · rfl
    · split
      · rfl
      · rw [stores_answer, stores_onTrack _ _ rfl]

theorem stores_carryDisableTrack (o : Order) (s : State) : (carryDisableTrack o s).stores = s.stores := by
  unfold carryDisableTrack
  split
  · rfl
  · rw [stores_answer, stores_onTrack _ _ (stores_disable _)]

theorem stores_carryClosePassage (o : Order) (s : State) : (carryClosePassage o s).stores = s.stores := by
  unfold carryClosePassage
  split
  · rfl
  · split
    · rw [stores_answer]
      exact stores_onTrack _ _ (stores_closePassage _ _)
    · rfl

theorem stores_carryReadCalibration (o : Order) (s : State) : (carryReadCalibration o s).stores = s.stores := by
  unfold carryReadCalibration
  split <;> rfl

theorem stores_carryZero (o : Order) (s : State) : (carryZero o s).stores = s.stores := by
  unfold carryZero
  split
  · rfl
  · split
    · rfl
    · split
      · rfl
      · split
        · exact stores_onTrack s _ (stores_startZero _ _ _)
        · rfl

theorem stores_carryReadClass (o : Order) (s : State) : (carryReadClass o s).stores = s.stores := by
  unfold carryReadClass
  split <;> rfl

theorem stores_carrySetWatch (o : Order) (s : State) : (carrySetWatch o s).stores = s.stores := by
  unfold carrySetWatch
  split <;> rfl

theorem stores_carrySetCapture (o : Order) (s : State) : (carrySetCapture o s).stores = s.stores := by
  unfold carrySetCapture
  dsimp only
  repeat' split
  all_goals rfl

theorem stores_carryLendPage (o : Order) (s : State) : (carryLendPage o s).stores = s.stores := by
  unfold carryLendPage
  dsimp only
  repeat' split
  all_goals rfl

theorem stores_carryReclaimPages (o : Order) (s : State) : (carryReclaimPages o s).stores = s.stores := by
  unfold carryReclaimPages
  dsimp only
  split <;> rfl

/-! ### Ends of accesses and registers (R174, R175) -/

/-- A completion event keeps the stores when its effect keeps them. -/
theorem stores_completeAccess {s : State} {kind : AccessKind} {f : Access → State → State}
    (hf : ∀ a s, (f a s).stores = s.stores) : (s.completeAccess kind f).stores = s.stores := by
  rcases completeAccess_cases s kind f with h | ⟨a, -, -, h⟩ | ⟨a, -, h⟩ <;> rw [h]
  · exact stores_settle _
  · exact hf _ _

theorem stores_answeredDone (s : State) : s.answeredDone.stores = s.stores := by
  unfold State.answeredDone State.restNow
  dsimp only
  split
  · split
    · exact stores_settle _
    · split <;> exact stores_settle _
  · exact stores_settle _

theorem stores_recordWritten (s : State) (t : Track) (n : Nat) : (s.recordWritten t n).stores = s.stores := by
  unfold State.recordWritten
  split
  · split
    · exact stores_modTrack _ _ rfl
    · rfl
  · rfl

theorem stores_pageReturned (s : State) (t : Track) : (s.pageReturned t).stores = s.stores := by
  unfold State.pageReturned
  split <;> rfl

theorem stores_busError {s u : State} (e : execBusError s = .next u) : u.stores = s.stores := by
  cases e
  split
  · rfl
  · split
    · exact stores_settle _
    · rfl

/-- A soft reset keeps calibration and class table; a CONTROL write does no more to them (R104, R112). -/
theorem stores_writeControl (s : State) (v : Word) : (s.writeControl v).stores = s.stores := by
  unfold State.writeControl State.start
  dsimp only
  split
  · rfl
  · split
    · split
      · exact stores_settle _
      · rfl
    · rfl

theorem stores_attention {s u : State} {v : Word} (e : execAttention v s = .next u) : u.stores = s.stores := by
  cases e
  split
  · rfl
  · exact stores_settle _
  · exact stores_settle _
  · rfl

/-! ### Links and timers (R5, R22, R3) -/

theorem stores_edgeArrives (s : State) (t : Track) (p : PointCode) (h : Head) (l : Level) :
    (s.edgeArrives t p h l).stores = s.stores := by
  unfold State.edgeArrives
  extract_lets s'
  have wake : s'.stores = s.stores := by
    unfold s'
    split <;> rfl
  rw [stores_settle, stores_onTrack _ _ (stores_takeEdge _ _ _ _), wake]

theorem stores_headEdge {s u : State} {check : Bool} {t : Track} {p : PointCode} {h : Head} {l : Level}
    (e : execHeadEdgeMessage check t p h l s = .next u) : u.stores = s.stores := by
  cases e
  split
  · rfl
  · split
    · rfl
    · split
      · rfl
      · split
        · rfl
        · exact stores_edgeArrives ..

theorem stores_sampleFrame {s u : State} {check : Bool} {t : Track} {n : Byte} {l : List ChannelEntry}
    (e : execSampleFrame check t n l s = .next u) : u.stores = s.stores := by
  cases e
  split
  · rfl
  · split
    · rfl
    · split
      · rfl
      · split
        · rfl
        · split
          · rfl
          · rw [stores_settle, stores_onTrack _ _ (stores_acceptFrame _ _ _)]

/-- An expiry happens or changes nothing. -/
theorem stores_ite {s u : State} {b : Prop} [Decidable b] (h : u.stores = s.stores) :
    (if b then u else s).stores = s.stores := by
  split
  · exact h
  · rfl

theorem stores_expiry {s u : State} {i : Instr} (hi : IsExpiry i) (e : exec i s = .next u) : u.stores = s.stores := by
  cases i
  case stuckTimerExpiry => cases e; exact stores_ite (stores_onTrack _ _ (stores_pointFault _ _))
  case approachTimeout => cases e; exact stores_ite (stores_onTrack _ _ (stores_approachExpires _))
  case stallExpiry => cases e; exact stores_ite (stores_onTrack _ _ rfl)
  case standingExpiry | settleExpiry | withdrawnExpiry =>
    cases e
    exact stores_ite ((stores_settle _).trans (stores_onTrack _ _ (stores_closePassage _ _)))
  case holdTimerExpiry =>
    cases e
    exact stores_ite ((stores_settle _).trans (stores_onTrack _ _ (stores_zeroHoldExpires _)))
  case scanTimerExpiry => cases e; exact stores_ite (stores_settle _)
  all_goals exact False.elim hi

/-! ### Every command -/

/-- The commands that write the host's stores: WRITE SPAN, WRITE CLASS, and the resets that set them back. -/
def WritesStores : Instr → Prop
  | .writeSpan => True
  | .writeClass => True
  | i => ClearsStores i

/-- Only those commands change a span, a channel's lock or a class entry. -/
theorem exec_stores {s u : State} {i : Instr} (hi : ¬ WritesStores i) (e : exec i s = .next u) : u.stores = s.stores := by
  cases i
  case headEdgeMessage => exact stores_headEdge e
  case sampleFrame => exact stores_sampleFrame e
  case stuckTimerExpiry | approachTimeout | stallExpiry | standingExpiry | settleExpiry | withdrawnExpiry | holdTimerExpiry
      | scanTimerExpiry =>
    exact stores_expiry (by exact trivial) e
  case setOptions => exact stores_carryOut (· == 0x01#8) stores_carrySetOptions e
  case report => exact stores_carryOut (· == 0x02#8) (f := fun o s => s.answer o .done (reportFields s)) (fun _ _ => rfl) e
  case quiet =>
    unfold exec execQuiet at e
    exact stores_carryOut _ (fun _ _ => by split <;> rfl) e
  case setTrack => exact stores_carryOut (· == 0x10#8) stores_carrySetTrack e
  case enableTrack => exact stores_carryOut (· == 0x11#8) stores_carryEnableTrack e
  case disableTrack => exact stores_carryOut (· == 0x12#8) stores_carryDisableTrack e
  case closePassage => exact stores_carryOut (· == 0x13#8) stores_carryClosePassage e
  case readCalibration => exact stores_carryOut (· == 0x21#8) stores_carryReadCalibration e
  case zero => exact stores_carryOut (· == 0x22#8) stores_carryZero e
  case readClass => exact stores_carryOut (· == 0x31#8) stores_carryReadClass e
  case setWatch => exact stores_carryOut (· == 0x40#8) stores_carrySetWatch e
  case clearHits => exact stores_carryOut (· == 0x41#8) (f := carryClearHits) (fun _ _ => rfl) e
  case setCapture => exact stores_carryOut (· == 0x42#8) stores_carrySetCapture e
  case lendPage => exact stores_carryOut (· == 0x50#8) stores_carryLendPage e
  case reclaimPages => exact stores_carryOut (· == 0x51#8) stores_carryReclaimPages e
  case unknownOrder =>
    exact stores_carryOut (fun k => !catalogue.contains k) (f := fun o s => s.answer o .invalid) (fun _ _ => rfl) e
  case scanReadDone | takenWriteDone | answerFieldsWriteDone | reclaimHeaderWriteDone | captureEntryWriteDone
      | captureHeaderWriteDone =>
    cases e
    exact stores_completeAccess fun _ _ => stores_settle _
  case answeredWriteDone => cases e; exact stores_completeAccess fun _ _ => stores_answeredDone _
  case recordWriteDone => cases e; exact stores_completeAccess fun _ _ => (stores_settle _).trans (stores_recordWritten ..)
  case pageHeaderWriteDone => cases e; exact stores_completeAccess fun _ _ => (stores_settle _).trans (stores_pageReturned ..)
  case busError => exact stores_busError e
  case run | softReset | noticeMaskWrite => cases e; exact stores_writeControl _ _
  case attention v => exact stores_attention (v := v) e
  case anchorWrite => cases e; exact stores_ite rfl
  case noticeClear | readOnlyRegisterWrite => cases e; rfl
  case writeSpan | writeClass | powerOnReset | hardReset => exact absurd trivial hi

/-! ### What a lock holds (R105, R115) -/

/-- Every locked channel keeps its lock and span, and every locked class entry stays. -/
def State.LocksHold (s u : State) : Prop :=
  (∀ t c, 1 ≤ c → c ≤ 8 → (channelGet (s.tracks.get t).calibration c).lock = true →
      (channelGet (u.tracks.get t).calibration c).written = (channelGet (s.tracks.get t).calibration c).written)
    ∧ (∀ (j : Nat) (e : ClassEntry), s.shared.classes[j]? = some e → e.lock = true → u.shared.classes[j]? = some e)

theorem locksHold_of_stores {s u : State} (h : u.stores = s.stores) : s.LocksHold u := by
  have hspans : ∀ t, spansOf (u.tracks.get t).calibration = spansOf (s.tracks.get t).calibration := fun t => by
    have ht := congrArg (fun x => PerTrack.get x.1 t) h
    cases t <;> exact ht
  have hclasses : u.shared.classes = s.shared.classes := congrArg Prod.snd h
  exact ⟨fun t c _ _ _ => written_channelGet_congr (hspans t) c, fun j e he _ => hclasses ▸ he⟩

/-- An order leaves what is locked when what it does behind the queue leaves it. -/
theorem locksHold_carryOut {s u : State} (isKind : Byte → Bool) {f : Order → State → State}
    (hf : ∀ (o : Order) (s : State), s.LocksHold (f o s)) (e : s.carryOut isKind f = .next u) : s.LocksHold u := by
  rcases carryOut_cases s isKind f with h | ⟨o, -, -, -, -, h⟩ <;> rw [h] at e <;> cases e
  · exact locksHold_of_stores rfl
  · obtain ⟨hspans, hclasses⟩ := hf o s.popOrder
    unfold State.LocksHold
    rw [State.settle_tracks, State.settle_shared]
    exact ⟨hspans, hclasses⟩

/-- WRITE SPAN refuses a locked channel, so a locked channel is none that it writes (R105, R107). -/
theorem locksHold_writeSpan (o : Order) (s : State) : s.LocksHold (carryWriteSpan o s) := by
  cases hw : spanWriteOf o.params with
  | none =>
    unfold carryWriteSpan
    rw [hw]
    exact locksHold_of_stores rfl
  | some w =>
    rw [carryWriteSpan_accepted hw]
    split
    · exact locksHold_of_stores rfl
    · rename_i hl
      split
      · exact locksHold_of_stores rfl
      · obtain ⟨-, -, -, -, hc1, hc8, -⟩ := (spanWriteOf_eq_some _ _).1 hw
        refine ⟨fun t c h1 h8 hlock => ?_, fun _ _ he _ => he⟩
        show (channelGet ((s.withSpan w).tracks.get t).calibration c).written = _
        by_cases ht : t = w.track
        · subst ht
          have hne : c ≠ w.channel := fun e => hl (e ▸ hlock)
          simp only [State.withSpan, State.modTrack_tracks, PerTrack.get_set_same]
          rw [channelGet_channelSet_ne _ _ ⟨hc1, hc8⟩ ⟨h1, h8⟩ hne]
        · simp only [State.withSpan, State.modTrack_tracks, PerTrack.get_set_ne _ _ ht]

/-- WRITE CLASS refuses a locked entry, so a locked entry is none that it replaces (R115). -/
theorem locksHold_writeClass (o : Order) (s : State) : s.LocksHold (carryWriteClass o s) := by
  unfold carryWriteClass
  split
  · exact locksHold_of_stores rfl
  · rename_i w hw
    split
    · exact locksHold_of_stores rfl
    · rename_i hl
      refine ⟨fun _ _ _ _ _ => rfl, fun j e he hlock => ?_⟩
      have hne : w.index ≠ j := fun h => hl (by rw [h, List.getD_eq_getElem?_getD, he]; exact hlock)
      show (s.shared.classes.set w.index w.entry)[j]? = some e
      rw [List.getElem?_set_ne hne, he]

/-- Every command but a power-on or hard reset leaves what is locked. -/
theorem exec_locksHold {s u : State} {i : Instr} (hi : ¬ ClearsStores i) (e : exec i s = .next u) : s.LocksHold u := by
  by_cases hw : WritesStores i
  · cases i
    case writeSpan => exact locksHold_carryOut (· == 0x20#8) locksHold_writeSpan e
    case writeClass => exact locksHold_carryOut (· == 0x30#8) locksHold_writeClass e
    all_goals exact absurd hw hi
  · exact locksHold_of_stores (exec_stores hw e)

/-- Settles O54: span and lock together are what WRITE SPAN writes of a channel. -/
theorem locksHoldUntilAPowerOnOrHardReset : Obligations.LocksHoldUntilAPowerOnOrHardReset := by
  intro s u i e hi
  obtain ⟨hchannels, hclasses⟩ := exec_locksHold hi e
  refine ⟨fun t c h1 h8 hlock => ?_, hclasses⟩
  obtain ⟨hspan, hkept⟩ := Prod.mk.inj (hchannels t c h1 h8 hlock)
  exact ⟨hkept.trans hlock, hspan⟩

end Sys2Proof.Machine

namespace Sys2Proof.Machine

/-! ### The lookahead (R118) -/

theorem foldl_max_le_iff (classes : List ClassEntry) (m b : Nat) :
    classes.foldl (fun m e => if e.mode = .off then m else max m e.n) m ≤ b
      ↔ m ≤ b ∧ ∀ e ∈ classes, e.mode ≠ .off → e.n ≤ b := by
  induction classes generalizing m with
  | nil => simp
  | cons e l ih =>
    rw [List.foldl_cons, ih, List.forall_mem_cons]
    by_cases h : e.mode = .off
    · simp [h]
    · rw [if_neg h, Nat.max_le, and_assoc]
      simp [h]

/-- L - 1 is the least number from 1 on that no entry in use exceeds. -/
theorem lookahead_le_iff (classes : List ClassEntry) (b : Nat) :
    lookahead classes ≤ b + 1 ↔ 1 ≤ b ∧ ∀ e ∈ classes, e.mode ≠ .off → e.n ≤ b := by
  unfold lookahead
  rw [Nat.add_le_add_iff_right, foldl_max_le_iff]

/-- An entry in use, and the axle behind it, fit in the lookahead. -/
theorem lookahead_covers (classes : List ClassEntry) :
    2 ≤ lookahead classes ∧ ∀ e ∈ classes, e.mode ≠ .off → e.n + 1 ≤ lookahead classes := by
  obtain ⟨b, hb⟩ : ∃ b, lookahead classes = b + 1 := ⟨_, rfl⟩
  obtain ⟨h1, h⟩ := (lookahead_le_iff classes b).1 (Nat.le_of_eq hb)
  rw [hb]
  exact ⟨Nat.succ_le_succ h1, fun e he ho => Nat.succ_le_succ (h e he ho)⟩

theorem lookahead_of_all_off {classes : List ClassEntry} (h : ∀ e ∈ classes, e.mode = .off) : lookahead classes = 2 :=
  Nat.le_antisymm ((lookahead_le_iff classes 1).2 ⟨Nat.le_refl 1, fun e he ho => absurd (h e he) ho⟩)
    (lookahead_covers classes).1

theorem lookahead_of_longest {classes : List ClassEntry} {e : ClassEntry} (he : e ∈ classes) (ho : e.mode ≠ .off) (hn : 1 ≤ e.n)
    (h : ∀ f ∈ classes, f.mode ≠ .off → f.n ≤ e.n) : lookahead classes = e.n + 1 :=
  Nat.le_antisymm ((lookahead_le_iff classes e.n).2 ⟨hn, h⟩) ((lookahead_covers classes).2 e he ho)

/-! ### Which entry matches (R121, R122) -/

/-- No axle with the next serial exists: in a flush the end gap holds, and in the loop it does not. -/
theorem endGapHolds_of_last {k : TrackState} {serial : Nat} (h : serial = 65535 ∨ k.axles.lastSerial ≤ serial) (flush : Bool)
    (least : Nat) : k.endGapHolds flush least serial = flush :=
  if_pos (h.imp_right Nat.lt_succ_of_le)

/-- The axle with the next serial exists: its lead_spacing decides, in the loop and in a flush alike. -/
theorem endGapHolds_of_next {k : TrackState} {serial : Nat} (h : ¬ (serial = 65535 ∨ k.axles.lastSerial ≤ serial)) (flush : Bool)
    (least : Nat) :
    k.endGapHolds flush least serial = true
      ↔ serial + 1 ∉ k.axles.discarded ∧ ∃ g, k.leadSpacingOf (serial + 1) = some g ∧ least ≤ g := by
  unfold TrackState.endGapHolds
  rw [if_neg (fun e => h (e.imp_right Nat.le_of_lt_succ))]
  by_cases hd : serial + 1 ∈ k.axles.discarded
  · simp [hd]
  · rw [if_neg (by simpa using hd)]
    cases k.leadSpacingOf (serial + 1) <;> simp [hd]

theorem endGapHolds_iff (k : TrackState) (flush : Bool) (least serial : Nat) :
    k.endGapHolds flush least serial = true
      ↔ ((serial = 65535 ∨ k.axles.lastSerial ≤ serial) ∧ flush = true)
        ∨ (serial ≠ 65535 ∧ serial < k.axles.lastSerial ∧ serial + 1 ∉ k.axles.discarded
          ∧ ∃ g, k.leadSpacingOf (serial + 1) = some g ∧ least ≤ g) := by
  by_cases h : serial = 65535 ∨ k.axles.lastSerial ≤ serial
  · have hn : ¬ (serial ≠ 65535 ∧ serial < k.axles.lastSerial) := by omega
    rw [endGapHolds_of_last h]
    exact ⟨fun hf => .inl ⟨h, hf⟩, Or.rec And.right fun ⟨h1, h2, _⟩ => absurd ⟨h1, h2⟩ hn⟩
  · have hn : serial ≠ 65535 ∧ serial < k.axles.lastSerial := by omega
    obtain ⟨h1, h2⟩ := hn
    rw [endGapHolds_of_next h]
    exact ⟨fun hg => .inr ⟨h1, h2, hg⟩, Or.rec (fun ⟨hl, _⟩ => absurd hl h) fun ⟨_, _, hg⟩ => hg⟩

theorem fits_iff (r : SpacingRange) (x : FinalAxle) :
    r.fits x = true ↔ ∃ g, x.leadSpacing = some g ∧ r.min ≤ g ∧ g ≤ r.max := by
  unfold SpacingRange.fits
  cases x.leadSpacing <;> simp

/-- Pair j, counted from 0, is compared with the axle j + 1 behind the head (R121). -/
theorem innerSpacingsFit_iff (e : ClassEntry) (group : List FinalAxle) :
    innerSpacingsFit e group = true
      ↔ ∀ j pair x, j + 1 < e.n → e.pairs[j]? = some pair → group[j + 1]? = some x → pair.fits x = true := by
  have entry : ∀ j pair x, (e.pairs.zip (group.tail.take (e.n - 1)))[j]? = some (pair, x)
      ↔ j + 1 < e.n ∧ e.pairs[j]? = some pair ∧ group[j + 1]? = some x := by
    intro j pair x
    rw [List.getElem?_zip_eq_some, List.getElem?_take, List.getElem?_tail]
    by_cases hj : j + 1 < e.n
    · simp [hj, show j < e.n - 1 by omega]
    · simp [hj, show ¬ j < e.n - 1 by omega]
  unfold innerSpacingsFit
  rw [List.all_eq_true]
  constructor
  · intro h j pair x hj hp hx
    exact h (pair, x) (List.mem_of_getElem? ((entry j pair x).2 ⟨hj, hp, hx⟩))
  · rintro h ⟨pair, x⟩ hm
    obtain ⟨j, hj⟩ := List.getElem?_of_mem hm
    obtain ⟨hn, hp, hx⟩ := (entry j pair x).1 hj
    exact h j pair x hn hp hx

theorem matchesEntry_iff (k : TrackState) (flush : Bool) (e : ClassEntry) :
    k.matchesEntry flush e = true
      ↔ e.mode ≠ .off ∧ e.n ≤ k.group.length ∧ (e.mode = .pattern → innerSpacingsFit e k.group = true)
        ∧ ∃ x, k.group[e.n - 1]? = some x ∧ k.endGapHolds flush e.endGapMin x.serial = true := by
  unfold TrackState.matchesEntry
  cases e.mode <;> cases k.group[e.n - 1]? <;> simp [and_assoc]

theorem firstMatch_eq_some (k : TrackState) (flush : Bool) (classes : List ClassEntry) (i : Nat) :
    k.firstMatch flush classes = some i
      ↔ (∃ e, classes[i]? = some e ∧ k.matchesEntry flush e = true)
        ∧ ∀ (j : Nat) f, j < i → classes[j]? = some f → k.matchesEntry flush f = false := by
  unfold TrackState.firstMatch
  rw [List.findIdx?_eq_some_iff_getElem]
  constructor
  · rintro ⟨hi, hm, hf⟩
    refine ⟨⟨_, List.getElem?_eq_getElem hi, hm⟩, fun j f hj e => ?_⟩
    obtain ⟨-, rfl⟩ := List.getElem?_eq_some_iff.1 e
    exact Bool.eq_false_iff.2 (hf j hj)
  · rintro ⟨⟨e, he, hm⟩, hf⟩
    obtain ⟨hi, rfl⟩ := List.getElem?_eq_some_iff.1 he
    exact ⟨hi, hm, fun j hj => Bool.eq_false_iff.1 (hf j _ hj (List.getElem?_eq_getElem (Nat.lt_trans hj hi)))⟩

theorem firstMatch_eq_none (k : TrackState) (flush : Bool) (classes : List ClassEntry) :
    k.firstMatch flush classes = none ↔ ∀ e ∈ classes, k.matchesEntry flush e = false := List.findIdx?_eq_none_iff

/-! ### One turn of the loop (R119, R123, R124) -/

/-- The wagon of the first axles of the list leaves the list and is handed on. -/
def Scene.formFirst (c : Scene) (p : Passage) (entry : Option (Nat × ClassEntry)) (n : Nat) (flush : Bool) : Scene :=
  Scene.handOn { c with trk := { c.trk with group := c.trk.group.drop n, nextWagon := c.trk.nextWagon + 1 } }
    (formWagon c.id p.number c.trk.nextWagon entry (c.trk.group.take n) flush)

theorem passageOpen_of_context {k : TrackState} {p : Passage} (h : k.context = some p) : k.passageOpen = p.number := by
  rw [TrackState.passageOpen, h]
  rfl

theorem formNext_matched {c : Scene} {flush : Bool} {p : Passage} {i : Nat} {e : ClassEntry} (hp : c.trk.context = some p)
    (hi : c.trk.firstMatch flush c.sh.classes = some i) (he : c.sh.classes[i]? = some e) :
    c.formNext flush = c.formFirst p (some (i, e)) e.n flush := by
  simp only [Scene.formNext, hi, Option.bind_some, he, passageOpen_of_context hp]
  rfl

theorem formNext_ungrouped {c : Scene} {flush : Bool} {p : Passage} (hp : c.trk.context = some p)
    (hi : c.trk.firstMatch flush c.sh.classes = none) : c.formNext flush = c.formFirst p none 1 flush := by
  simp only [Scene.formNext, hi, Option.bind_none, passageOpen_of_context hp]
  rfl

/-- Settles O29: L by its universal property, the match test by its four parts, loop and flush by their unfoldings. -/
theorem theLookaheadIsOneMoreThanTheLongestEntry : Obligations.TheLookaheadIsOneMoreThanTheLongestEntry := by
  refine ⟨fun _ => lookahead_of_all_off, fun _ _ => lookahead_of_longest,
    fun classes h => ⟨(lookahead_covers classes).1, lookahead_le classes h⟩, fun c h => groupTurns_length _ c h (Nat.le_refl _),
    closeFlush_empty, fun k flush least serial => ?_, fun k flush e => ?_,
    fun k flush classes => ⟨firstMatch_eq_some k flush classes, firstMatch_eq_none k flush classes⟩,
    fun c flush p hp => ⟨fun i e => formNext_matched hp, formNext_ungrouped hp⟩, fun c h => ?_⟩
  · exact endGapHolds_iff k flush least serial
  · rw [matchesEntry_iff, innerSpacingsFit_iff]
    simp only [fits_iff]
  · have turn := groupLoop_eq c h
    have flushTurn := closeFlush_eq c h
    exact ⟨fun hl => turn.trans (if_pos hl), fun hl => turn.trans (if_neg (Nat.not_lt.2 hl)),
      fun hg => flushTurn.trans (if_pos hg), fun hg => flushTurn.trans (if_neg hg)⟩

end Sys2Proof.Machine

namespace Sys2Proof.Machine

/-! ### The figures of a wagon (R125 to R127) -/

theorem shiftPercent_of_zero {x : Rails Nat} (h : x.left + x.right = 0) : shiftPercent x = 255 := if_pos h

/-- The difference of the sides is taken as a size, so its share rounds down on either side. -/
theorem shiftPercent_of_pos {x : Rails Nat} (h : 0 < x.left + x.right) :
    shiftPercent x = (if x.right ≤ x.left then x.left - x.right else x.right - x.left) * 100 / (x.left + x.right) := by
  have size : ((x.left : Int) - (x.right : Int)).natAbs = if x.right ≤ x.left then x.left - x.right else x.right - x.left := by
    split <;> omega
  rw [shiftPercent, if_neg (Nat.ne_of_gt h), size]

theorem meanSpeed_of_absent {axles : List FinalAxle} (h : axles.filterMap (·.speed) = []) : meanSpeed axles = none := by
  rw [meanSpeed, h]
  rfl

theorem meanSpeed_of_present {axles : List FinalAxle} (h : axles.filterMap (·.speed) ≠ []) :
    meanSpeed axles = some ((axles.filterMap (·.speed)).sum / (axles.filterMap (·.speed)).length) :=
  if_neg (by simpa using h)

theorem axleAbove_iff (limit : Nat) (x : FinalAxle) :
    axleAbove limit x = true ↔ ∃ l, x.load = some l ∧ limit < l.left + l.right := by
  unfold axleAbove
  cases x.load <;> simp

/-- A wagon's flags that its axles decide, whatever its entry. -/
theorem formWagon_axleFlags (t : Track) (passage number : Nat) (entry : Option (Nat × ClassEntry)) (axles : List FinalAxle)
    (flush : Bool) :
    ((formWagon t passage number entry axles flush).flags.incomplete = true ↔ ∃ x ∈ axles, x.load = none)
      ∧ ((formWagon t passage number entry axles flush).flags.speed = true ↔ ∃ x ∈ axles, x.flags.speed = true)
      ∧ ((formWagon t passage number entry axles flush).flags.crosstalk = true ↔ ∃ x ∈ axles, x.flags.crosstalk = true) := by
  simp [formWagon]

/-- The limits of a wagon's entry, each off at 0 (R127). -/
theorem formWagon_limitFlags (t : Track) (passage number i : Nat) (e : ClassEntry) (axles : List FinalAxle) (flush : Bool) :
    let w := formWagon t passage number (some (i, e)) axles flush
    (w.flags.overGross = true ↔ e.grossLimit ≠ 0 ∧ e.grossLimit < w.gross)
      ∧ (w.flags.overAxle = true ↔
          e.axleLimit ≠ 0 ∧ ∃ x ∈ axles, ∃ l, x.load = some l ∧ e.axleLimit < l.left + l.right)
      ∧ (w.flags.sideShift = true ↔ e.shiftLimit ≠ 0 ∧ 0 < w.gross ∧ e.shiftLimit < w.shift) := by
  simp [formWagon, axleAbove_iff, and_assoc]

/-! ### Handing a wagon on (R128 to R130, R165, R166) -/

theorem modPassage_of_context {c : Scene} {p : Passage} (h : c.trk.context = some p) (f : Passage → Passage) :
    c.modPassage f = { c with trk := { c.trk with context := some (f p) } } := by
  rw [Scene.modPassage, Scene.modTrk, h]
  rfl

/-- A wagon counted in the passage totals and evaluated by the watch units, its record not yet offered. -/
def Scene.watched (c : Scene) (w : Wagon) (counted : Passage) : Scene :=
  { c with sh := (c.sh.evaluate w).sh, trk := { c.trk with context := some counted } }

@[simp] theorem watched_context (c : Scene) (w : Wagon) (counted : Passage) :
    (c.watched w counted).trk.context = some counted := rfl
@[simp] theorem watched_records (c : Scene) (w : Wagon) (counted : Passage) :
    (c.watched w counted).trk.records = c.trk.records := rfl

/-- Totals first, then the watch units, then the record as they leave it (R128). -/
theorem handOn_of_context {c : Scene} {p : Passage} (h : c.trk.context = some p) (w : Wagon) :
    c.handOn w = (c.watched w (p.countWagon w)).offerWagon (c.sh.evaluate w).wagon := by
  rw [Scene.handOn, modPassage_of_context h]
  rfl

theorem hasPlace_of_context {k : TrackState} {p : Passage} (h : k.context = some p) :
    k.hasPlace = decide (p.place = .reserved) := by
  rw [TrackState.hasPlace, h]

/-- A lost passage offers no wagon record (R165). -/
theorem offerWagon_of_lost {c : Scene} {p : Passage} (h : c.trk.context = some p) (hp : p.place = .lost) (w : Wagon) :
    c.offerWagon w = c := by
  simp [Scene.offerWagon, hasPlace_of_context h, hp]

/-- With fewer than 24 wagon records queued the wagon's joins the queue (R166). -/
theorem offerWagon_of_room {c : Scene} {p : Passage} (h : c.trk.context = some p) (hp : p.place = .reserved)
    (hq : c.trk.records.wagons < 24) (w : Wagon) :
    c.offerWagon w
      = { c with trk :=
          { c.trk with records := { c.trk.records with queue := c.trk.records.queue ++ [.wagon w] } } } := by
  simp [Scene.offerWagon, hasPlace_of_context h, hp, hq, Scene.modTrk]

/-- With 24 queued it is dropped, counted and flagged (R130). -/
theorem offerWagon_of_full {c : Scene} {p : Passage} (h : c.trk.context = some p) (hp : p.place = .reserved)
    (hq : 24 ≤ c.trk.records.wagons) (w : Wagon) :
    c.offerWagon w
      = { c with trk :=
          { c.trk with
            context :=
              some
                { p with
                  wagonsUnrecorded := satInc 65535 p.wagonsUnrecorded
                  flags := { p.flags with recordLoss := true } } } } := by
  rw [Scene.offerWagon, hasPlace_of_context h, if_pos (decide_eq_true hp), if_neg (Nat.not_lt.2 hq), modPassage_of_context h]

/-- The passage totals with the wagon's part in them written out (R129). -/
theorem countWagon_eq (p : Passage) (w : Wagon) :
    p.countWagon w
      = { p with
          wagonsFormed := if p.wagonsFormed < 65535 then p.wagonsFormed + 1 else p.wagonsFormed
          locomotives := if w.kind = .locomotive ∧ p.locomotives < 65535 then p.locomotives + 1 else p.locomotives
          freightTotal := if w.kind = .locomotive then p.freightTotal else min 4294967295 (p.freightTotal + w.gross) } := by
  unfold Passage.countWagon satInc
  by_cases hk : w.kind = .locomotive
  · simp only [hk, if_true, true_and]
  · simp only [hk, if_false, false_and]

/-- Settles O30: the figures by their own lemmas, the handing on by whether the passage holds a place and the queue has room. -/
theorem aWagonsFiguresComeFromItsAxles : Obligations.AWagonsFiguresComeFromItsAxles := by
  refine ⟨fun t passage number entry axles flush => ?_, fun c w p hp => ?_⟩
  · intro w speeds left right
    obtain ⟨incomplete, speed, crosstalk⟩ := formWagon_axleFlags t passage number entry axles flush
    refine ⟨rfl, rfl, rfl, rfl, rfl, rfl, shiftPercent_of_zero (x := loadSums axles),
      shiftPercent_of_pos (x := loadSums axles), meanSpeed_of_absent, meanSpeed_of_present,
      incomplete, speed, crosstalk, rfl, rfl, fun he => ?_, fun i e he => ?_⟩
    · subst he
      exact ⟨rfl, rfl, rfl, rfl, rfl, rfl, rfl⟩
    · subst he
      exact ⟨rfl, rfl, rfl, rfl, formWagon_limitFlags t passage number i e axles flush⟩
  · intro counted v
    have hcounted : p.countWagon w = counted := countWagon_eq p w
    have hctx := watched_context c w counted
    rw [handOn_of_context hp, hcounted]
    exact ⟨fun hl => offerWagon_of_lost hctx hl _, fun hr hq => offerWagon_of_room hctx hr hq _,
      fun hr hq => offerWagon_of_full hctx hr hq _⟩

end Sys2Proof.Machine

namespace Sys2Proof.Machine

/-! ### WRITE CLASS (R114) -/

theorem kindOf_eq_some (n : Nat) (kind : VehicleKind) :
    kindOf n = some kind
      ↔ (n = 0 ∧ kind = .wagon) ∨ (n = 1 ∧ kind = .locomotive) ∨ (n = 2 ∧ kind = .other) := by
  unfold kindOf
  split <;> cases kind <;> simp_all

theorem modeOf_eq_some (n : Nat) (mode : ClassMode) :
    modeOf n = some mode ↔ (n = 0 ∧ mode = .off) ∨ (n = 1 ∧ mode = .pattern) ∨ (n = 2 ∧ mode = .count) := by
  unfold modeOf
  split <;> cases mode <;> simp_all

/-- The content that a parameter area gives a PATTERN or COUNT entry. -/
def classContentAt (l : List Byte) (mode : ClassMode) (kind : VehicleKind) (lock : Bool) : ClassEntry :=
  ⟨mode, nat8 l 2, (List.range (nat8 l 2 - 1)).map fun i => ⟨nat16 l (3 + 4 * i), nat16 l (5 + 4 * i)⟩, nat16 l 31, nat8 l 33,
    kind, nat32 l 35, nat16 l 39, nat8 l 41, lock⟩

/-- The ranges that WRITE CLASS checks of a PATTERN or COUNT entry, its kind aside. -/
def ClassRanges (l : List Byte) : Prop :=
  1 ≤ nat8 l 2 ∧ nat8 l 2 ≤ 8 ∧ nat8 l 33 ≤ 254 ∧ nat8 l 41 ≤ 100
    ∧ ∀ i, i + 1 < nat8 l 2 → nat16 l (3 + 4 * i) ≤ nat16 l (5 + 4 * i)

theorem classContentOf_eq_some (l : List Byte) (mode : ClassMode) (lock : Bool) (e : ClassEntry) :
    classContentOf l mode lock = some e
      ↔ ∃ kind, kindOf (nat8 l 34) = some kind ∧ ClassRanges l ∧ e = classContentAt l mode kind lock := by
  have ranges : (inRange 1 8 (nat8 l 2) && inRange 0 254 (nat8 l 33) && inRange 0 100 (nat8 l 41)
      && ((List.range (nat8 l 2 - 1)).map (pairAt l)).all fun p => decide (p.min ≤ p.max)) = true ↔ ClassRanges l := by
    simp only [inRange, Bool.and_eq_true, decide_eq_true_eq, List.all_map, List.all_eq_true, List.mem_range,
      Function.comp_apply, Nat.lt_sub_iff_add_lt, Nat.zero_le, true_and, and_assoc]
    exact Iff.rfl
  unfold classContentOf
  cases kindOf (nat8 l 34) with
  | none => simp
  | some kind =>
    dsimp only
    by_cases hr : ClassRanges l
    · rw [if_pos (ranges.2 hr)]
      simp only [Option.some.injEq, exists_eq_left', hr, true_and]
      exact eq_comm
    · rw [if_neg (mt ranges.1 hr)]
      simp [hr]

/-- An OFF area: index, mode and lock alone decide it, and the OFF content is stored. -/
theorem classWriteOf_off {l : List Byte} (hm : nat8 l 1 = 0) (w : ClassWrite) :
    classWriteOf l = some w
      ↔ ∃ lock, boolOf (nat8 l 42) = some lock ∧ nat8 l 0 ≤ 15 ∧ w = ⟨nat8 l 0, { ClassEntry.off with lock := lock }⟩ := by
  unfold classWriteOf
  rw [hm]
  cases boolOf (nat8 l 42) <;> simp [modeOf, inRange, @eq_comm _ w]

/-- A PATTERN or COUNT area: its content is checked too. -/
theorem classWriteOf_used {l : List Byte} {mode : ClassMode} (hm : modeOf (nat8 l 1) = some mode) (ho : mode ≠ .off)
    (w : ClassWrite) :
    classWriteOf l = some w
      ↔ ∃ lock, boolOf (nat8 l 42) = some lock ∧ nat8 l 0 ≤ 15
        ∧ ∃ e, classContentOf l mode lock = some e ∧ w = ⟨nat8 l 0, e⟩ := by
  unfold classWriteOf
  rw [hm]
  cases boolOf (nat8 l 42) with
  | none => simp
  | some lock =>
    cases mode with
    | off => exact absurd rfl ho
    | pattern | count => simp [inRange, Option.map_eq_some_iff, @eq_comm _ w]

/-- WRITE CLASS's area is accepted exactly when its index, mode and lock are in range and it is OFF or its content is in range. -/
theorem classWriteOf_eq_some (l : List Byte) (w : ClassWrite) :
    classWriteOf l = some w
      ↔ w.index = nat8 l 0 ∧ w.index ≤ 15 ∧ boolOf (nat8 l 42) = some w.entry.lock
        ∧ ((nat8 l 1 = 0 ∧ w.entry = { ClassEntry.off with lock := w.entry.lock })
          ∨ (((nat8 l 1 = 1 ∧ w.entry.mode = .pattern) ∨ (nat8 l 1 = 2 ∧ w.entry.mode = .count))
            ∧ w.entry = classContentAt l w.entry.mode w.entry.kind w.entry.lock
            ∧ kindOf (nat8 l 34) = some w.entry.kind ∧ ClassRanges l)) := by
  have used {mode : ClassMode} (hm : modeOf (nat8 l 1) = some mode) (ho : mode ≠ .off) :
      classWriteOf l = some w
        ↔ w.index = nat8 l 0 ∧ w.index ≤ 15 ∧ boolOf (nat8 l 42) = some w.entry.lock ∧ w.entry.mode = mode
          ∧ w.entry = classContentAt l w.entry.mode w.entry.kind w.entry.lock
          ∧ kindOf (nat8 l 34) = some w.entry.kind ∧ ClassRanges l := by
    obtain ⟨index, entry⟩ := w
    rw [classWriteOf_used hm ho]
    constructor
    · rintro ⟨lock, hl, hi, e, he, hw⟩
      obtain ⟨kind, hk, hr, rfl⟩ := (classContentOf_eq_some ..).1 he
      cases hw
      exact ⟨rfl, hi, hl, rfl, rfl, hk, hr⟩
    · rintro ⟨rfl, hi, hl, rfl, he, hk, hr⟩
      exact ⟨_, hl, hi, entry, (classContentOf_eq_some ..).2 ⟨_, hk, hr, he⟩, rfl⟩
  cases hm : modeOf (nat8 l 1) with
  | none =>
    have h0 : nat8 l 1 ≠ 0 ∧ nat8 l 1 ≠ 1 ∧ nat8 l 1 ≠ 2 := by
      refine ⟨?_, ?_, ?_⟩ <;> intro h <;> rw [h] at hm <;> cases hm
    simp [classWriteOf, hm, h0]
  | some mode =>
    rcases (modeOf_eq_some _ _).1 hm with ⟨h, rfl⟩ | ⟨h, rfl⟩ | ⟨h, rfl⟩
    · obtain ⟨index, entry⟩ := w
      rw [classWriteOf_off h]
      simp only [h]
      constructor
      · rintro ⟨lock, hl, hi, hw⟩
        cases hw
        exact ⟨rfl, hi, hl, .inl ⟨trivial, rfl⟩⟩
      · rintro ⟨rfl, hi, hl, ⟨-, he⟩ | ⟨hm, -⟩⟩
        · exact ⟨_, hl, hi, congrArg _ he⟩
        · omega
    · rw [used hm (by decide)]
      simp [h]
    · rw [used hm (by decide)]
      simp [h]

theorem exec_writeClass {s : State} {o : Order} (h : s.Carries 0x30#8 o) :
    exec .writeClass s = .next (carryWriteClass o s.popOrder).settle := carryOut_of_carries h (· == 0x30#8) rfl carryWriteClass

/-- WRITE CLASS with an area outside its ranges is INVALID, whatever the lock (log 17). -/
theorem exec_writeClass_invalid {s : State} {o : Order} (h : s.Carries 0x30#8 o) (hw : classWriteOf o.params = none) :
    exec .writeClass s = .next (s.answered o .invalid []) := by
  simp only [exec_writeClass h, carryWriteClass, hw, answered_pop]

/-- The machine with one class entry replaced. -/
def State.withClass (s : State) (w : ClassWrite) : State :=
  { s with shared := { s.shared with classes := s.shared.classes.set w.index w.entry } }

/-- WRITE CLASS with accepted parameters: the entry's lock refuses it, and otherwise the entry is replaced (R114). -/
theorem exec_writeClass_accepted {s : State} {o : Order} {w : ClassWrite} {e : ClassEntry} (h : s.Carries 0x30#8 o)
    (hw : classWriteOf o.params = some w) (he : s.shared.classes[w.index]? = some e) :
    exec .writeClass s = .next (if e.lock then s.answered o .locked [] else (s.withClass w).answered o .done []) := by
  have hg : s.popOrder.shared.classes.getD w.index .off = e := by
    rw [State.popOrder_classes, List.getD_eq_getElem?_getD, he, Option.getD_some]
  simp only [exec_writeClass h, carryWriteClass, hw, hg]
  split
  · rw [answered_pop]
  · rfl

theorem exec_writeClass_unlocked {s : State} {o : Order} {w : ClassWrite} {e : ClassEntry} (h : s.Carries 0x30#8 o)
    (hw : classWriteOf o.params = some w) (he : s.shared.classes[w.index]? = some e) (hl : e.lock = false) :
    exec .writeClass s = .next ((s.withClass w).answered o .done []) := by
  rw [exec_writeClass_accepted h hw he, if_neg (Bool.not_eq_true _ ▸ hl)]

/-- Settles O42: the order by its tests, and its area by the two forms of an entry. -/
theorem writeClassReplacesAnUnlockedEntry : Obligations.WriteClassReplacesAnUnlockedEntry := by
  refine ⟨fun s o h => ⟨exec_writeClass_invalid h, fun w e hw he => ⟨fun hl => ?_, exec_writeClass_unlocked h hw he⟩⟩,
    fun l w => ?_, fun s o e lock h hi hlock he hl => ⟨fun hm => ?_, fun mode kind hm hk h1 h8 hcode hshift hpairs => ?_⟩⟩
  · rw [exec_writeClass_accepted h hw he, if_pos hl]
  · rw [classWriteOf_eq_some, kindOf_eq_some]
    rfl
  · have hw : classWriteOf o.params = some ⟨nat8 o.params 0, { ClassEntry.off with lock := lock }⟩ :=
      (classWriteOf_off hm _).2 ⟨lock, hlock, hi, rfl⟩
    exact (exec_writeClass_unlocked h hw he hl :)
  · have hr : ClassRanges o.params := ⟨h1, h8, hcode, hshift, hpairs⟩
    have hw : classWriteOf o.params = some ⟨nat8 o.params 0, classContentAt o.params mode kind lock⟩ :=
      (classWriteOf_eq_some ..).2 ⟨rfl, hi, hlock, .inr ⟨hm, rfl, hk, hr⟩⟩
    exact (exec_writeClass_unlocked h hw he hl :)

/-! ### READ CLASS (R116) -/

theorem exec_readClass {s : State} {o : Order} (h : s.Carries 0x31#8 o) :
    exec .readClass s = .next (carryReadClass o s.popOrder).settle := carryOut_of_carries h (· == 0x31#8) rfl carryReadClass

/-- Settles O35: the index decides the answer, and the entry's bytes are `classFields` with the codes of mode and kind written out. -/
theorem readClassAnswersTheEntryAsItStands : Obligations.ReadClassAnswersTheEntryAsItStands := by
  refine fun s o h => ⟨fun hi => ?_, fun e hi he => ?_⟩
  · have hr : ¬ inRange 0 15 (nat8 o.params 0) = true := by simpa [inRange] using hi
    rw [exec_readClass h, carryReadClass, if_neg hr, answered_pop]
  · have hr : inRange 0 15 (nat8 o.params 0) = true := by simpa [inRange] using hi
    have hg : s.popOrder.shared.classes.getD (nat8 o.params 0) .off = e := by
      rw [State.popOrder_classes, List.getD_eq_getElem?_getD, he, Option.getD_some]
    rw [exec_readClass h, carryReadClass, if_pos hr, hg, answered_pop]
    refine congrArg (fun l => Host.Outcome.next (s.answered o .done l)) ?_
    unfold classFields
    cases e.mode <;> cases e.kind <;> rfl

end Sys2Proof.Machine

namespace Sys2Proof.Machine

/-! ### The end of a zero operation (R146) -/

/-- The end of an ORDER operation makes its answer due. -/
theorem endZero_of_order {z : ZeroOperation} {slot : Nat} {tag : BitVec 16} (h : z.origin = .order slot tag) (c : Scene)
    (e : ZeroEnd) :
    c.endZero z e
      = { c with
          trk := { c.trk with zero := none }
          sh := { c.sh with
            orders := c.sh.orders.pushAnswer
              ⟨slot, tag, (z.answer c.trk.config.platforms e).1, (z.answer c.trk.config.platforms e).2, .zero⟩ } } := by
  simp only [Scene.endZero, h]
  rfl

theorem endZero_done_of_automatic {z : ZeroOperation} (h : z.origin = .automatic) (c : Scene) (means : Four (Rails Int)) :
    c.endZero z (.done means) = { c with trk := { c.trk with zero := none } } := by
  simp only [Scene.endZero, h]
  rfl

/-- An AUTOMATIC operation that did not complete is counted and raises ALERT. -/
theorem endZero_of_automatic {z : ZeroOperation} (h : z.origin = .automatic) (c : Scene) {e : ZeroEnd}
    (he : ∀ means, e ≠ .done means) :
    c.endZero z e
      = { c with
          trk := { c.trk with zero := none }
          sh := { c.sh with
            notice := c.sh.notice ||| 0x04#6
            counters := { c.sh.counters with autoZeroFailures := satInc 255 c.sh.counters.autoZeroFailures } } } := by
  simp only [Scene.endZero, h]
  cases e with
  | done means => exact absurd rfl (he means)
  | failed channel => rfl
  | preempted cause => rfl

/-- The mean of channel i + 1. -/
def meanAt (means : Four (Rails Int)) (i : Nat) : Int :=
  if i % 2 = 0 then (means.get (i / 2 + 1)).left else (means.get (i / 2 + 1)).right

/-- The offsets of a DONE answer, channel by channel. -/
theorem doneOffsets_eq (P : Nat) (means : Four (Rails Int)) :
    doneOffsets P means = (List.range 8).map fun i => if i < 2 * P then meanAt means i else 0 := by
  have rails (p : Nat) (x : Rails Int) (hp : 1 ≤ p) :
      (if p ≤ P then [x.left, x.right] else [0, 0])
        = [if 2 * p - 2 < 2 * P then x.left else 0, if 2 * p - 1 < 2 * P then x.right else 0] := by
    by_cases h : p ≤ P
    · rw [if_pos h, if_pos (by omega), if_pos (by omega)]
    · rw [if_neg h, if_neg (by omega), if_neg (by omega)]
  dsimp only [doneOffsets, Four.mapIdx, Four.toList]
  rw [rails 1 _ (by decide), rails 2 _ (by decide), rails 3 _ (by decide), rails 4 _ (by decide)]
  rfl

/-- The answer of a completed operation: the eight offsets channel by channel, then target, restarts and suspended_ms. -/
theorem answer_done (z : ZeroOperation) (P : Nat) (means : Four (Rails Int)) :
    z.answer P (.done means)
      = (.done,
          ((List.range 8).map fun i => le32i (if i < 2 * P then meanAt means i else 0)).flatten
            ++ le16 z.target ++ le16 z.restarts ++ le32 (z.suspendedTotal / 1000)) := by
  rw [ZeroOperation.answer, doneOffsets_eq, List.map_map]
  rfl

/-! ### The hold timer's expiry (R144) -/

theorem zeroHoldExpires_of_some {c : Scene} {z : ZeroOperation} (h : c.trk.zero = some z) :
    c.zeroHoldExpires = c.endZero (z.addSuspension c.now) (.preempted .holdLimit) := by
  simp only [Scene.zeroHoldExpires, h]

/-- HOLD_TIMER_EXPIRY of a timer that has run out, in RUNNING, ends the operation and settles. -/
theorem exec_holdTimerExpiry {s : State} {t : Track} {z : ZeroOperation} (hr : s.regs.part = .running)
    (hz : (s.tracks.get t).zero = some z) (ho : s.RunOut z.holdTimer) :
    exec (.holdTimerExpiry t) s
      = .next (s.onTrack t fun c => c.endZero (z.addSuspension c.now) (.preempted .holdLimit)).settle := by
  have due : exec (.holdTimerExpiry t) s = .next (s.onTrack t Scene.zeroHoldExpires).settle :=
    congrArg _ (if_pos ((holdDue_iff ..).2 ⟨hr, z, hz, ho⟩))
  rw [due]
  exact congrArg (fun u : State => Host.Outcome.next u.settle)
    (onTrack_congr (g := fun c => c.endZero (z.addSuspension c.now) (.preempted .holdLimit))
      (zeroHoldExpires_of_some (c := s.scene t) hz))

/-! ### Suspension and preemption (R142, R145) -/

/-- An ACCUMULATING operation with time left is SUSPENDED as its track leaves IDLE, its hold timer running for what is left. -/
theorem zeroLeavesIdle_of_left {c : Scene} {z : ZeroOperation} (hz : c.trk.zero = some z) (hs : z.state = .accumulating)
    (hl : z.suspendedTotal < z.holdLimit * 1000000) :
    c.zeroLeavesIdle
      = c.setZero
          (some
            { z with
              state := .suspended
              suspendStart := c.now
              startsRun := true
              holdTimer := some ⟨c.now, seconds z.holdLimit - z.suspendedTotal⟩ }) := by
  rw [zeroLeavesIdle_of_accumulating hz hs, suspendZero_of_left (Nat.sub_ne_zero_of_lt hl)]

/-- One with no time left is PREEMPTED at once. -/
theorem zeroLeavesIdle_of_spent {c : Scene} {z : ZeroOperation} (hz : c.trk.zero = some z) (hs : z.state = .accumulating)
    (hl : z.holdLimit * 1000000 ≤ z.suspendedTotal) :
    c.zeroLeavesIdle
      = c.endZero { z with state := .suspended, suspendStart := c.now, startsRun := true } (.preempted .holdLimit) := by
  rw [zeroLeavesIdle_of_accumulating hz hs, suspendZero_of_spent (Nat.sub_eq_zero_of_le hl)]

theorem afterPreemption_of_order {z : ZeroOperation} {slot : Nat} {tag : BitVec 16} (h : z.origin = .order slot tag) (x : Shared)
    (cause : Byte) :
    x.afterPreemption z cause
      = { x with
          orders := x.orders.pushAnswer
            ⟨slot, tag, .preempted, [cause] ++ le16 z.frames ++ le16 z.restarts ++ le32 (z.totalAt x.time / 1000), .zero⟩ } := by
  rw [Shared.afterPreemption, h]

theorem afterPreemption_of_automatic {z : ZeroOperation} (h : z.origin = .automatic) (x : Shared) (cause : Byte) :
    x.afterPreemption z cause
      = { x with
          notice := x.notice ||| 0x04#6
          counters := { x.counters with autoZeroFailures := satInc 255 x.counters.autoZeroFailures } } := by
  rw [Shared.afterPreemption, h]

/-- Settles O22: the entry into SUSPENDED by what is left of the limit, the ends by their origin, the hold timer's expiry as such
an end. -/
theorem zeroOperationsSuspendEndAndReport : Obligations.ZeroOperationsSuspendEndAndReport := by
  have stays (c : Scene) (z : ZeroOperation) (hz : c.trk.zero = some z) (hs : z.state = .suspended) : c.zeroLeavesIdle = c :=
    zeroLeavesIdle_of_not_accumulating fun y hy => by rwa [Option.some.inj (hy.symm.trans hz)]
  refine ⟨fun c => ⟨fun h => zeroLeavesIdle_of_not_accumulating (by simp [h]), stays c, fun z => zeroLeavesIdle_of_left,
      fun z => zeroLeavesIdle_of_spent⟩,
    ⟨fun c z e slot tag h => endZero_of_order h c e, fun c z means h => endZero_done_of_automatic h c means,
      fun c z e h => endZero_of_automatic h c, fun z P means channel => ⟨answer_done z P means, rfl, rfl, rfl⟩,
      fun c => ⟨zeroDisabled_none, fun z => zeroDisabled_some⟩,
      fun x z cause => ⟨fun slot tag h => afterPreemption_of_order h x cause, fun h => afterPreemption_of_automatic h x cause⟩⟩,
    fun s t z hr hz ho => ⟨fun slot tag h => ?_, fun h => ?_⟩⟩
  · rw [exec_holdTimerExpiry hr hz ho, State.onTrack, endZero_of_order (z := z.addSuspension _) h]
    rfl
  · rw [exec_holdTimerExpiry hr hz ho, State.onTrack, endZero_of_automatic (z := z.addSuspension _) h _ (by simp)]
    rfl

end Sys2Proof.Machine

namespace Sys2Proof.Machine

/-! ### A frame's channels at the zero engine (R139) -/

theorem failingChannel_eq_none (P : Nat) (channels : List ChannelEntry) :
    failingChannel P channels = none ↔ ∀ i, i < 2 * P → (channels.getD i ⟨0, false⟩).overrange = false := by
  simp [failingChannel, frameChannel]

theorem failingChannel_eq_some {P i : Nat} {channels : List ChannelEntry} (hi : i < 2 * P)
    (ho : (channels.getD i ⟨0, false⟩).overrange = true) (hj : ∀ j, j < i → (channels.getD j ⟨0, false⟩).overrange = false) :
    failingChannel P channels = some (i + 1) := by
  have found : (List.range (2 * P)).find? (fun i => (frameChannel channels (i + 1)).overrange) = some i :=
    List.find?_range_eq_some.2 ⟨ho, List.mem_range.2 hi, fun j h => by rw [frameChannel, Nat.add_sub_cancel, hj j h]; rfl⟩
  rw [failingChannel, found]
  rfl

/-- The sums of a platform in use after a frame. -/
theorem addSums_get {P p : Nat} (h1 : 1 ≤ p) (h4 : p ≤ 4) (hP : p ≤ P) (sums : Four (Rails Int)) (channels : List ChannelEntry) :
    (addSums P sums channels).get p
      = ⟨(sums.get p).left + (channels.getD (2 * p - 2) ⟨0, false⟩).value.toInt,
          (sums.get p).right + (channels.getD (2 * p - 1) ⟨0, false⟩).value.toInt⟩ := by
  rw [addSums, Four.get_mapIdx _ _ h1 h4, if_pos hP]
  rfl

/-! ### Completion (R141) -/

/-- The rounded means of an operation's sums. -/
def ZeroOperation.means (z : ZeroOperation) : Four (Rails Int) := z.sums.mapIdx fun _ x => x.map fun v => roundDiv v z.target

theorem ZeroOperation.means_get {p : Nat} (h1 : 1 ≤ p) (h4 : p ≤ 4) (z : ZeroOperation) :
    z.means.get p = ⟨roundDiv (z.sums.get p).left z.target, roundDiv (z.sums.get p).right z.target⟩ :=
  Four.get_mapIdx _ _ h1 h4

/-- A calibration store with the means as the zero offsets of channels 1 to 2P. -/
def zeroedStore (P : Nat) (means : Four (Rails Int)) (x : Four (Rails Channel)) : Four (Rails Channel) :=
  x.mapIdx fun p x =>
    if p ≤ P then
      ⟨{ x.left with zeroOffset := (means.get p).left, zeroValid := true },
        { x.right with zeroOffset := (means.get p).right, zeroValid := true }⟩
    else x

theorem zeroedStore_get_of_le {P p : Nat} (h1 : 1 ≤ p) (h4 : p ≤ 4) (hP : p ≤ P) (means : Four (Rails Int))
    (x : Four (Rails Channel)) :
    (zeroedStore P means x).get p
      = ⟨{ (x.get p).left with zeroOffset := (means.get p).left, zeroValid := true },
          { (x.get p).right with zeroOffset := (means.get p).right, zeroValid := true }⟩ := by
  rw [zeroedStore, Four.get_mapIdx _ _ h1 h4, if_pos hP]

theorem zeroedStore_get_of_lt {P p : Nat} (h1 : 1 ≤ p) (h4 : p ≤ 4) (hP : P < p) (means : Four (Rails Int))
    (x : Four (Rails Channel)) : (zeroedStore P means x).get p = x.get p := by
  rw [zeroedStore, Four.get_mapIdx _ _ h1 h4, if_neg (Nat.not_le.2 hP)]

/-- A zeroed channel has its mean as its offset. -/
theorem zeroedStore_zeroOffset {P i : Nat} (h8 : i < 8) (hP : i < 2 * P) (means : Four (Rails Int)) (x : Four (Rails Channel)) :
    (channelGet (zeroedStore P means x) (i + 1)).zeroOffset = meanAt means i := by
  have platform : (i + 1 + 1) / 2 = i / 2 + 1 := by omega
  rw [channelGet, platform, zeroedStore_get_of_le (by omega) (by omega) (by omega), meanAt]
  by_cases hi : i % 2 = 0
  · rw [if_pos hi, if_pos (by omega)]
  · rw [if_neg hi, if_neg (by omega)]

theorem completeZero_eq (c : Scene) (z : ZeroOperation) :
    c.completeZero z
      = Scene.endZero
          { c with trk := { c.trk with calibration := zeroedStore c.trk.config.platforms z.means c.trk.calibration } } z
          (.done z.means) := rfl

theorem completeZero_trk (c : Scene) (z : ZeroOperation) :
    (c.completeZero z).trk
      = { c.trk with calibration := zeroedStore c.trk.config.platforms z.means c.trk.calibration, zero := none } := by
  rw [completeZero_eq, endZero_trk]

theorem completeZero_sh_of_automatic {c : Scene} {z : ZeroOperation} (h : z.origin = .automatic) :
    (c.completeZero z).sh = c.sh := by
  rw [completeZero_eq, endZero_done_of_automatic h]

/-- A completed ORDER operation reports the offsets as the calibration store now holds them, those above 2P as 0 (R146). -/
theorem completeZero_sh_of_order {c : Scene} {z : ZeroOperation} {slot : Nat} {tag : BitVec 16} (h : z.origin = .order slot tag) :
    (c.completeZero z).sh
      = { c.sh with
          orders := c.sh.orders.pushAnswer
            ⟨slot, tag, .done,
              ((List.range 8).map fun i =>
                  le32i
                    (if i < 2 * c.trk.config.platforms then
                      (channelGet (c.completeZero z).trk.calibration (i + 1)).zeroOffset
                    else 0)).flatten
                ++ le16 z.target ++ le16 z.restarts ++ le32 (z.suspendedTotal / 1000),
              .zero⟩ } := by
  have offsets : ∀ i ∈ List.range 8,
      le32i (if i < 2 * c.trk.config.platforms then meanAt z.means i else 0)
        = le32i (if i < 2 * c.trk.config.platforms then
            (channelGet (c.completeZero z).trk.calibration (i + 1)).zeroOffset else 0) := fun i hi => by
    split
    · rename_i hP
      rw [completeZero_trk, zeroedStore_zeroOffset (List.mem_range.1 hi) hP]
    · rfl
  rw [← List.map_congr_left offsets, completeZero_eq, endZero_of_order h, answer_done]

/-! ### Frames and gaps at the zero engine (R139, R140) -/

/-- An operation that has taken a frame. -/
def ZeroOperation.counted (z : ZeroOperation) (P : Nat) (channels : List ChannelEntry) : ZeroOperation :=
  { z with sums := addSums P z.sums channels, frames := z.frames + 1, startsRun := false }

section
variable {c : Scene} {z : ZeroOperation}

theorem zeroFrame_of_suspended (hz : c.trk.zero = some z) (hs : z.state = .suspended) (channels : List ChannelEntry) :
    c.zeroFrame channels = c.setZero (some { z with startsRun := false }) := by
  simp only [Scene.zeroFrame, hz, hs]

theorem zeroFrame_of_overrange (hz : c.trk.zero = some z) (hs : z.state = .accumulating) {channels : List ChannelEntry}
    {channel : Nat} (hf : failingChannel c.trk.config.platforms channels = some channel) :
    c.zeroFrame channels = c.endZero z (.failed channel) := by
  simp only [Scene.zeroFrame, hz, hs, hf]

/-- A clean frame is counted, and completes the operation at the target. -/
theorem zeroFrame_of_clean (hz : c.trk.zero = some z) (hs : z.state = .accumulating) {channels : List ChannelEntry}
    (hf : ∀ i, i < 2 * c.trk.config.platforms → (channels.getD i ⟨0, false⟩).overrange = false) :
    c.zeroFrame channels
      = if z.frames + 1 = z.target then c.completeZero (z.counted c.trk.config.platforms channels)
        else c.setZero (some (z.counted c.trk.config.platforms channels)) := by
  simp only [Scene.zeroFrame, hz, hs, (failingChannel_eq_none ..).2 hf, ZeroOperation.counted]

theorem zeroGap_of_suspended (hz : c.trk.zero = some z) (hs : z.state = .suspended) : c.zeroGap = c := by
  simp only [Scene.zeroGap, hz, hs]

/-- A gap restarts an ACCUMULATING operation unless it is found against the last frame before a suspension (log 30). -/
theorem zeroGap_of_accumulating (hz : c.trk.zero = some z) (hs : z.state = .accumulating) :
    c.zeroGap
      = if z.startsRun then c
        else c.setZero
          (some { z with sums := ⟨⟨0, 0⟩, ⟨0, 0⟩, ⟨0, 0⟩, ⟨0, 0⟩⟩, frames := 0, restarts := satInc 65535 z.restarts }) := by
  simp only [Scene.zeroGap, hz, hs]

end

/-- The channels of a platform once an operation has counted its last frame: the rounded means are their offsets (R141). -/
theorem zeroedStore_counted_get {p P : Nat} (h1 : 1 ≤ p) (h4 : p ≤ 4) (hP : p ≤ P) (x : Four (Rails Channel))
    (z : ZeroOperation) (channels : List ChannelEntry) :
    (zeroedStore P (z.counted P channels).means x).get p
      = ⟨{ (x.get p).left with
            zeroOffset := roundDiv ((z.sums.get p).left + (channels.getD (2 * p - 2) ⟨0, false⟩).value.toInt) z.target
            zeroValid := true },
          { (x.get p).right with
            zeroOffset := roundDiv ((z.sums.get p).right + (channels.getD (2 * p - 1) ⟨0, false⟩).value.toInt) z.target
            zeroValid := true }⟩ := by
  rw [zeroedStore_get_of_le h1 h4 hP, ZeroOperation.means_get h1 h4, ZeroOperation.counted, addSums_get h1 h4 hP]

/-- Settles O17: a gap by `startsRun`, a frame by whether it is clean and is the last one; completion through the calibration
store that `zeroedStore` describes. -/
theorem theZeroEngineTakesFramesAndGaps : Obligations.TheZeroEngineTakesFramesAndGaps := by
  refine fun c z channels hz => ⟨fun hs => ⟨zeroFrame_of_suspended hz hs channels, zeroGap_of_suspended hz hs⟩,
    fun hs => ⟨fun hg => ?_, fun hg => ?_, fun hf hn => ?_, fun hf hn p h1 h4 => ?_, fun i hi ho hj => ?_⟩⟩
  · rw [zeroGap_of_accumulating hz hs, if_pos hg]
  · rw [zeroGap_of_accumulating hz hs, if_neg (by simp [hg])]
    rfl
  · refine ⟨addSums c.trk.config.platforms z.sums channels, ?_, fun p h1 h4 hP => ?_⟩
    · rw [zeroFrame_of_clean hz hs hf, if_neg hn]
      rfl
    · rw [addSums_get h1 h4 hP]
      exact ⟨rfl, rfl⟩
  · rw [zeroFrame_of_clean hz hs hf, if_pos hn]
    refine ⟨?_, completeZero_sh_of_automatic (z := z.counted _ channels) (c := c),
      fun slot tag => completeZero_sh_of_order (z := z.counted _ channels) (c := c), fun hP => ?_, fun hP => ?_⟩
    · rw [completeZero_trk]
    · rw [completeZero_trk, zeroedStore_counted_get h1 h4 hP]
      exact ⟨rfl, rfl⟩
    · rw [completeZero_trk, zeroedStore_get_of_lt h1 h4 hP]
  · exact zeroFrame_of_overrange hz hs (failingChannel_eq_some hi ho hj)

end Sys2Proof.Machine

namespace Sys2Proof.Machine

/-! ### ZERO (R138) -/

theorem exec_zero {s : State} {o : Order} (h : s.Carries 0x22#8 o) : exec .zero s = .next (carryZero o s.popOrder).settle :=
  carryOut_of_carries h (· == 0x22#8) rfl carryZero

/-- ZERO of a track: its tests in R138's order. -/
theorem exec_zero_track {s : State} {o : Order} (h : s.Carries 0x22#8 o) {t : Track}
    (ht : trackOf (nat8 o.params 0) = some t) :
    exec .zero s
      = .next
          (if (s.tracks.get t).mode = .disabled then s.popOrder.answer o .busy
          else if (s.tracks.get t).zero.isSome then s.popOrder.answer o .busy
          else if inRange 64 65535 (nat16 o.params 1) then s.popOrder.onTrack t fun c => c.startZero o (nat16 o.params 1)
          else s.popOrder.answer o .invalid).settle := by
  rw [exec_zero h, carryZero, ht]
  rfl

theorem nat16_le (l : List Byte) (i : Nat) : nat16 l i ≤ 65535 := by
  unfold nat16 nat8
  omega

/-- ZERO that passes R138's tests starts its operation. -/
theorem exec_zero_accepted {s : State} {o : Order} (h : s.Carries 0x22#8 o) {t : Track}
    (ht : trackOf (nat8 o.params 0) = some t) (hm : (s.tracks.get t).mode ≠ .disabled) (hz : (s.tracks.get t).zero = none)
    (hn : 64 ≤ nat16 o.params 1) :
    exec .zero s = .next (s.popOrder.onTrack t fun c => c.startZero o (nat16 o.params 1)).settle := by
  have hr : inRange 64 65535 (nat16 o.params 1) = true := by simp [inRange, hn, nat16_le]
  rw [exec_zero_track h ht, if_neg hm, if_neg (by simp [hz]), if_pos hr]

theorem startZero_of_idle {c : Scene} (h : c.trk.mode = .idle) (o : Order) (n : Nat) :
    c.startZero o n = c.setZero (some (.started (.order o.slot o.tag) n c.sh.options.zeroHoldLimit)) := if_pos h

/-- Outside IDLE an operation starts SUSPENDED, its whole hold limit left (R142). -/
theorem startZero_of_not_idle {c : Scene} (h : c.trk.mode ≠ .idle) (hl : 0 < c.sh.options.zeroHoldLimit) (o : Order) (n : Nat) :
    c.startZero o n
      = c.setZero
          (some
            { ZeroOperation.started (.order o.slot o.tag) n c.sh.options.zeroHoldLimit with
              state := .suspended
              suspendStart := c.now
              startsRun := true
              holdTimer := some ⟨c.now, seconds c.sh.options.zeroHoldLimit⟩ }) :=
  (if_neg h).trans (suspendZero_of_left (Nat.sub_ne_zero_of_lt (Nat.mul_pos hl (by decide))) c)

/-- Settles O41: the tests in R138's order, and an accepted order by whether the track is in IDLE. -/
theorem zeroStartsAnOperation : Obligations.ZeroStartsAnOperation := by
  refine fun s o h => ⟨fun ht => ?_, fun t ht => ⟨fun hb => ?_, fun hm hz hn => ?_, fun hm hz hn => ?_, fun hm hi hz hn hl => ?_⟩⟩
  · rw [exec_zero h, carryZero, ht]
    rfl
  · rw [exec_zero_track h ht]
    split
    · rfl
    · rename_i hm
      rw [if_pos (Option.isSome_iff_ne_none.2 (hb.resolve_left hm))]
      rfl
  · have hr : ¬ inRange 64 65535 (nat16 o.params 1) = true := by simp [inRange]; omega
    rw [exec_zero_track h ht, if_neg hm, if_neg (by simp [hz]), if_neg hr]
    rfl
  · rw [exec_zero_accepted h ht (by simp [hm]) hz hn, State.onTrack, startZero_of_idle (c := s.popOrder.scene t) hm]
    rfl
  · rw [exec_zero_accepted h ht hm hz hn, State.onTrack, startZero_of_not_idle (c := s.popOrder.scene t) hi hl]
    rfl

end Sys2Proof.Machine

namespace Sys2Proof.Machine

/-! ### When a watch unit hits (R154) -/

theorem speedOutside_iff (lowest highest : Nat) (x : FinalAxle) :
    speedOutside lowest highest x = true ↔ ∀ v, x.speed = some v → v < lowest ∨ highest < v := by
  unfold speedOutside
  cases x.speed <;> simp

theorem hits_iff (u : WatchUnit) (w : Wagon) :
    u.hits w = true ↔ u.enabled = true ∧ (u.track = none ∨ u.track = some w.track) ∧ u.holds w = true := by
  unfold WatchUnit.hits
  cases u.track with
  | none => simp
  | some t => simp [and_assoc]

/-! ### What a hit does (R155, R158) -/

/-- The evaluation once unit i has hit, before its action: the hit counted and the unit marked in the wagon's mask. -/
def Evaluation.counted (v : Evaluation) (i : Nat) : Evaluation :=
  { v with
    wagon := { v.wagon with watchMask := v.wagon.watchMask ||| (1#4 <<< i) }
    sh :=
      { v.sh with
        watch := v.sh.watch.set (i + 1)
          { v.sh.watch.get (i + 1) with hitCount := satInc 65535 (v.sh.watch.get (i + 1)).hitCount } } }

section
variable {v : Evaluation} {i : Nat}

@[simp] theorem Evaluation.counted_capture : (v.counted i).sh.capture = v.sh.capture := rfl

theorem unit_of_miss (h : (v.sh.watch.get (i + 1)).hits v.wagon = false) : v.unit i = v := if_neg (by simp [h])

theorem unit_of_hit (h : (v.sh.watch.get (i + 1)).hits v.wagon = true) :
    v.unit i = (v.counted i).act (v.sh.watch.get (i + 1)) := if_pos h

end

section
variable {v : Evaluation} {u : WatchUnit}

theorem act_of_mark (h : u.action = .mark) : v.act u = { v with sh := v.sh.raise .alert } := by
  rw [Evaluation.act, h]

/-- The first CAPTURE hit on a wagon: an ARMED unit starts its recording, any other misses the wagon. -/
theorem act_of_first_capture (h : u.action = .capture) (hf : v.captureHit = false) :
    v.act u
      = if v.sh.capture.state = .armed then
          { v with sh := v.sh.modCapture (·.start v.wagon u.scope), captureHit := true }
        else
          { v with wagon := { v.wagon with flags := { v.wagon.flags with captureMissed := true } }, captureHit := true } := by
  rw [Evaluation.act, h]
  exact if_neg (by simp [hf])

theorem act_of_later_capture (h : u.action = .capture) (hl : v.captureHit = true) : v.act u = v := by
  rw [Evaluation.act, h]
  exact if_pos hl

end

/-- Settles O31: a hit by its condition; a unit that hits counts and marks, and then acts by its action. -/
theorem watchUnitsCountMarkAndCapture : Obligations.WatchUnitsCountMarkAndCapture := by
  refine ⟨fun u w => ?_, fun v i _ => ⟨unit_of_miss, fun hit ha => ?_, fun hit ha hf hs => ?_, fun hit ha hf hs => ?_,
    fun hit ha hl => ?_⟩, fun h w => rfl⟩
  · refine (hits_iff u w).trans (and_congr_right' (and_congr_right' ?_))
    unfold WatchUnit.holds
    cases u.condition with
    | grossAbove | classIs => exact decide_eq_true_iff
    | axleAbove => simp only [List.any_eq_true, axleAbove_iff]
    | shiftAbove => simp only [Bool.and_eq_true, decide_eq_true_eq]
    | speedOutside => simp only [List.any_eq_true, speedOutside_iff]
    | ungrouped => exact Iff.rfl
  · rw [unit_of_hit hit, act_of_mark (v := v.counted i) ha]
    rfl
  · rw [unit_of_hit hit, act_of_first_capture (v := v.counted i) ha hf, Evaluation.counted_capture, if_pos hs]
    rfl
  · rw [unit_of_hit hit, act_of_first_capture (v := v.counted i) ha hf, Evaluation.counted_capture, if_neg hs]
    rfl
  · rw [unit_of_hit hit, act_of_later_capture (v := v.counted i) ha hl]
    rfl

end Sys2Proof.Machine

namespace Sys2Proof.Machine

/-! ### Entries and end of a recording (R159, R160) -/

/-- A frame that forms an entry; the entry that brings `written` to M is the last. -/
theorem takeFrame_of_captured {x : CaptureUnit} {t : Track} (ht : x.taking = true) (hs : t = x.triggerTrack ∨ x.scope = .both)
    (hw : x.waiting.length < 16) (now : Word) (n : Byte) (channels : List ChannelEntry) :
    x.takeFrame now t n channels
      = { x with
          waiting := x.waiting ++ [⟨x.written % x.slots, now, t, n, channels⟩]
          written := x.written + 1
          taking := decide (x.written + 1 ≠ x.limit) } := by
  rw [CaptureUnit.takeFrame, if_pos ⟨ht, hs, hw⟩]
  dsimp only
  split
  · rename_i hl
    rw [decide_eq_false (not_not_intro hl)]
    rfl
  · rename_i hl
    rw [decide_eq_true hl, ht]

theorem takeFrame_of_passed_over {x : CaptureUnit} {t : Track}
    (h : x.taking = false ∨ (t ≠ x.triggerTrack ∧ x.scope = .own) ∨ 16 ≤ x.waiting.length) (now : Word) (n : Byte)
    (channels : List ChannelEntry) : x.takeFrame now t n channels = x := by
  refine if_neg ?_
  rintro ⟨ht, hs, hw⟩
  rcases h with h | ⟨hn, ho⟩ | h
  · simp [ht] at h
  · simp [hn, ho] at hs
  · omega

/-! ### The capture writer's accesses (R159, R160, R182) -/

theorem captureEntryBytes_eq (e : CaptureEntry) :
    captureEntryBytes e
      = (le32 e.time.toNat
          ++ [match e.track with
              | .A => 0#8
              | .B => 1#8, e.sequence, BitVec.ofNat 8 e.channels.length,
            BitVec.ofNat 8 (maskOf (e.channels.map fun (y : ChannelEntry) => y.overrange))]
          ++ (e.channels.map fun (y : ChannelEntry) => le32i y.value.toInt).flatten ++ List.replicate 40 0).take 40 := by
  unfold captureEntryBytes
  cases e.track <;> rfl

theorem captureHeaderBytes_eq (x : CaptureUnit) :
    captureHeaderBytes x
      = [1#8, match x.triggerTrack with
          | .A => 0#8
          | .B => 1#8, if x.slots < x.written then 1#8 else 0#8, 0#8]
        ++ le32 x.triggerPassage ++ le16 x.triggerWagon ++ le16 x.written
        ++ le16 (if x.slots < x.written then x.written % x.slots else 0) ++ List.replicate 18 0 := by
  unfold captureHeaderBytes
  rw [padTo_eq (n := 32) (m := 18)]
  · cases x.triggerTrack <;> rfl
  · rfl

theorem headerDue_iff {x : CaptureUnit} : x.headerDue = true ↔ x.state = .recording ∧ x.taking = false ∧ x.waiting = [] := by
  simp [CaptureUnit.headerDue, and_assoc]

/-- A waiting entry comes before the header, the oldest first. -/
theorem captureRequest_of_waiting {x : CaptureUnit} {e : CaptureEntry} {l : List CaptureEntry} (h : x.waiting = e :: l) :
    x.request = some ⟨.captureWriter, .captureEntry, x.entryAddress e, captureEntryBytes e, false⟩ := by
  rw [CaptureUnit.request, h]

theorem captureRequest_of_written {x : CaptureUnit} (h : x.waiting = []) :
    x.request
      = if x.headerDue then some ⟨.captureWriter, .captureHeader, x.area, captureHeaderBytes x, false⟩ else none := by
  rw [CaptureUnit.request, h]

/-- Settles O32: an entry by the frame that forms it, the accesses by whether an entry waits, their ends by the access in flight. -/
theorem recordingsTakeWriteAndEnd : Obligations.RecordingsTakeWriteAndEnd := by
  refine ⟨fun x now t n channels =>
      ⟨fun ht hs hw => takeFrame_of_captured ht hs hw now n channels, fun h => takeFrame_of_passed_over h now n channels, rfl,
        fun e l h => ⟨_, captureRequest_of_waiting h, rfl, rfl, captureEntryBytes_eq e⟩, fun hw hs ht => ?_, fun hw h => ?_⟩,
    fun s a h => ?_, fun s a h => ?_⟩
  · rw [captureRequest_of_written hw, if_pos (headerDue_iff.2 ⟨hs, ht, hw⟩)]
    exact ⟨_, rfl, rfl, rfl, captureHeaderBytes_eq x⟩
  · rw [captureRequest_of_written hw, if_neg]
    intro hd
    obtain ⟨hs, ht, -⟩ := headerDue_iff.1 hd
    simp [hs, ht] at h
  · exact congrArg Host.Outcome.next (completeAccess_of_ends h _)
  · exact congrArg Host.Outcome.next (completeAccess_of_ends h _)

end Sys2Proof.Machine

namespace Sys2Proof.Machine

/-! ### SET WATCH (R152) -/

theorem watchTrackOf_eq_some (n : Nat) (t : Option Track) :
    watchTrackOf n = some t ↔ (n = 0 ∧ t = some .A) ∨ (n = 1 ∧ t = some .B) ∨ (n = 2 ∧ t = none) := by
  unfold watchTrackOf
  split <;> simp_all [eq_comm]

theorem actionOf_eq_some (n : Nat) (a : WatchAction) : actionOf n = some a ↔ (n = 0 ∧ a = .mark) ∨ (n = 1 ∧ a = .capture) := by
  unfold actionOf
  split <;> simp_all [eq_comm]

theorem scopeOf_eq_some (n : Nat) (x : CaptureScope) : scopeOf n = some x ↔ (n = 0 ∧ x = .own) ∨ (n = 1 ∧ x = .both) := by
  unfold scopeOf
  split <;> simp_all [eq_comm]

/-- The code of a condition (R182). -/
def conditionCode : WatchCondition → Nat
  | .grossAbove => 0
  | .axleAbove => 1
  | .shiftAbove => 2
  | .speedOutside => 3
  | .classIs => 4
  | .ungrouped => 5

theorem conditionOf_eq_some (n : Nat) (c : WatchCondition) : conditionOf n = some c ↔ n = conditionCode c := by
  constructor
  · unfold conditionOf
    split <;> intro h <;> cases h <;> rfl
  · rintro rfl
    cases c <;> rfl

/-- SET WATCH's area is accepted exactly when each code is one of its quantity and the condition's values are in range. -/
theorem watchWriteOf_eq_some (l : List Byte) (w : WatchWrite) :
    watchWriteOf l = some w ↔
      w.unit = nat8 l 0 ∧ w.unit ≤ 3 ∧ w.value.hitCount = 0 ∧ boolOf (nat8 l 1) = some w.value.enabled
        ∧ watchTrackOf (nat8 l 2) = some w.value.track ∧ actionOf (nat8 l 10) = some w.value.action
        ∧ scopeOf (nat8 l 11) = some w.value.scope
        ∧ conditionOf (nat8 l 3) = some w.value.condition
        ∧ w.value.value1 = watchValue1 w.value.condition (nat32 l 4)
        ∧ w.value.value2 = watchValue2 w.value.condition (nat16 l 8)
        ∧ watchValuesOk w.value.condition (nat32 l 4) (nat16 l 8) = true := by
  have unitOk : inRange 0 3 (nat8 l 0) = true ↔ nat8 l 0 ≤ 3 := by simp [inRange]
  constructor
  · intro h
    unfold watchWriteOf at h
    split at h
    · rename_i enabled track condition action scope he ht hc ha hs
      split at h
      · rename_i hr
        obtain ⟨hu, hv⟩ := (Bool.and_eq_true ..).mp hr
        obtain rfl := Option.some.inj h
        exact ⟨rfl, unitOk.1 hu, rfl, he, ht, ha, hs, hc, rfl, rfl, hv⟩
      · cases h
    · cases h
  · obtain ⟨unit, enabled, track, condition, value1, value2, action, scope, hitCount⟩ := w
    dsimp only
    rintro ⟨rfl, hu, rfl, he, ht, ha, hs, hc, rfl, rfl, hv⟩
    unfold watchWriteOf
    rw [he, ht, hc, ha, hs]
    exact if_pos ((Bool.and_eq_true ..).mpr ⟨unitOk.2 hu, hv⟩)

theorem exec_setWatch {s : State} {o : Order} (h : s.Carries 0x40#8 o) :
    exec .setWatch s = .next (carrySetWatch o s.popOrder).settle := carryOut_of_carries h (· == 0x40#8) rfl carrySetWatch

/-- Settles O43: the order by whether its area is accepted, the area by its codes and the ranges of its condition. -/
theorem setWatchReplacesAUnit : Obligations.SetWatchReplacesAUnit := by
  refine ⟨fun s o h => ⟨fun hw => ?_, fun w hw => ?_⟩, fun l w => ?_⟩
  · simp only [exec_setWatch h, carrySetWatch, hw, answered_pop]
  · rw [exec_setWatch h, carrySetWatch, hw]
    rfl
  · rw [watchWriteOf_eq_some, watchTrackOf_eq_some, actionOf_eq_some, scopeOf_eq_some, conditionOf_eq_some]
    refine and_congr_right' (and_congr_right' (and_congr_right' (and_congr_right' (and_congr_right' (and_congr_right'
      (and_congr_right' ?_))))))
    cases w.value.condition with
    | grossAbove | ungrouped => simp [conditionCode, watchValue1, watchValue2, watchValuesOk]
    | axleAbove | shiftAbove | classIs => simp [conditionCode, watchValue1, watchValue2, watchValuesOk, inRange]
    | speedOutside =>
      simp only [conditionCode, watchValue1, watchValue2, watchValuesOk, inRange, Bool.and_eq_true, decide_eq_true_eq]
      omega

/-! ### CLEAR HITS (R153) -/

/-- Settles O44: the units are cleared one by one, and the counts answered are those of the units before it. -/
theorem clearHitsReadsAllAndClearsTheNamedCounts : Obligations.ClearHitsReadsAllAndClearsTheNamedCounts := by
  intro s o h
  have carried : exec .clearHits s = .next (carryClearHits o s.popOrder).settle :=
    carryOut_of_carries h (· == 0x41#8) rfl carryClearHits
  rw [carried, carryClearHits, State.popOrder_watch, hitCounts_bytes]
  rfl

end Sys2Proof.Machine

namespace Sys2Proof.Machine

/-! ### SET CAPTURE (R157) -/

/-- The machine with the capture unit replaced. -/
def State.withCapture (s : State) (x : CaptureUnit) : State := { s with shared := { s.shared with capture := x } }

theorem captureEntriesOk_iff {n : Nat} (h : n ≤ 65535) : captureEntriesOk n = true ↔ n = 0 ∨ 16 ≤ n := by
  simp [captureEntriesOk, inRange, h]

theorem captureAreaOk_iff {postTrigger : Nat} (h : postTrigger ≤ 65535) (address entries : Nat) :
    captureAreaOk address entries postTrigger = true ↔
      address % 8 = 0 ∧ address + 32 + 40 * entries ≤ 4294967296 ∧ 16 ≤ postTrigger := by
  simp [captureAreaOk, inRange, h, and_assoc]

/-- SET CAPTURE: its tests in R157's order. -/
theorem exec_setCapture {s : State} {o : Order} (h : s.Carries 0x42#8 o) :
    exec .setCapture s
      = .next
          (if captureEntriesOk (nat16 o.params 4) = false then s.answered o .invalid []
          else if s.shared.capture.state = .recording then s.answered o .busy []
          else if nat16 o.params 4 = 0 then
            (s.withCapture { s.shared.capture with state := .disarmed }).answered o .done []
          else if captureAreaOk (nat32 o.params 0) (nat16 o.params 4) (nat16 o.params 6) = false then s.answered o .invalid []
          else
            (s.withCapture
              { s.shared.capture with
                state := .armed
                area := BitVec.ofNat 32 (nat32 o.params 0)
                slots := nat16 o.params 4
                limit := nat16 o.params 6 }).answered o .done []) := by
  have carried : exec .setCapture s = .next (carrySetCapture o s.popOrder).settle :=
    carryOut_of_carries h (· == 0x42#8) rfl carrySetCapture
  rw [carried]
  dsimp only [carrySetCapture]
  rw [State.popOrder_capture]
  split
  · rw [answered_pop]
  · split
    · rw [answered_pop]
    · split
      · rfl
      · split
        · rw [answered_pop]
        · rfl

/-- Settles O45: the tests of R157 in their order; an order that passes them disarms or arms the unit. -/
theorem setCaptureArmsOrDisarms : Obligations.SetCaptureArmsOrDisarms := by
  intro s o h address entries postTrigger
  have passed : entries = 0 ∨ 16 ≤ entries → ¬ captureEntriesOk entries = false := fun he =>
    Bool.not_eq_false _ ▸ (captureEntriesOk_iff (nat16_le ..)).2 he
  have areaOk := captureAreaOk_iff (nat16_le o.params 6) address entries
  rw [exec_setCapture h]
  refine ⟨fun h0 h16 => ?_, fun he hr => ?_, fun he hr => ?_, fun he hr ha => ?_, fun he hr ha hl hp => ?_⟩
  · have refused : captureEntriesOk entries = false :=
      Bool.not_eq_true _ ▸ mt (captureEntriesOk_iff (nat16_le ..)).1 (by omega)
    rw [if_pos refused]
  · rw [if_neg (passed he), if_pos hr]
  · rw [if_neg (passed (.inl he)), if_neg hr, if_pos he]
    rfl
  · have refused : captureAreaOk address entries postTrigger = false := Bool.not_eq_true _ ▸ mt areaOk.1 (by omega)
    rw [if_neg (passed (.inr he)), if_neg hr, if_neg (by omega), if_pos refused]
  · have accepted : ¬ captureAreaOk address entries postTrigger = false := Bool.not_eq_false _ ▸ areaOk.2 ⟨ha, hl, hp⟩
    rw [if_neg (passed (.inr he)), if_neg hr, if_neg (by omega), if_neg accepted]
    rfl

end Sys2Proof.Machine

namespace Sys2Proof.Machine

/-! ### LEND PAGE (R167, R168) -/

theorem exec_lendPage {s : State} {o : Order} (h : s.Carries 0x50#8 o) :
    exec .lendPage s = .next (carryLendPage o s.popOrder).settle := carryOut_of_carries h (· == 0x50#8) rfl carryLendPage

/-- An address is held exactly when it is in the list or a current page. -/
theorem holds_iff_mem_addresses (b : PageBlock) (address : Word) : b.holds address = true ↔ address ∈ b.addresses := by
  simp [PageBlock.holds, addresses_eq, or_assoc]

theorem carryLendPage_invalid {o : Order} {s : State}
    (h : nat32 o.params 0 % 4096 ≠ 0 ∨ BitVec.ofNat 32 (nat32 o.params 0) ∈ s.pages.addresses) :
    carryLendPage o s = s.answer o .invalid := by
  dsimp only [carryLendPage]
  by_cases ha : nat32 o.params 0 % 4096 ≠ 0
  · rw [if_pos ha]
  · rw [if_neg ha, if_pos ((holds_iff_mem_addresses ..).2 (h.resolve_left ha))]

/-- A page that may be lent is refused by a full list alone. -/
theorem carryLendPage_of_fresh {o : Order} {s : State} (ha : nat32 o.params 0 % 4096 = 0)
    (hm : BitVec.ofNat 32 (nat32 o.params 0) ∉ s.pages.addresses) :
    carryLendPage o s
      = if 16 ≤ s.pages.lent.length then s.answer o .noRoom
        else
          State.answer
            { s with pages := { s.pages with lent := s.pages.lent ++ [BitVec.ofNat 32 (nat32 o.params 0)] } } o .done := by
  dsimp only [carryLendPage]
  rw [if_neg (not_not_intro ha), if_neg (mt (holds_iff_mem_addresses ..).1 hm)]

/-- Settles O46: the tests of R168 in their order, each answer that of the order carried out. -/
theorem lendPageAddsAPageToTheList : Obligations.LendPageAddsAPageToTheList := by
  intro s o h address
  rw [exec_lendPage h]
  refine ⟨fun ha => ?_, fun hm => ?_, fun ha hm hl => ?_, fun ha hm hl => ?_⟩
  · rw [carryLendPage_invalid (.inl ha), answered_pop]
  · rw [carryLendPage_invalid (s := s.popOrder) (.inr hm), answered_pop]
  · rw [carryLendPage_of_fresh (s := s.popOrder) ha hm, State.popOrder_pages, if_pos hl, answered_pop]
  · rw [carryLendPage_of_fresh (s := s.popOrder) ha hm, State.popOrder_pages, if_neg (Nat.not_le.2 hl)]
    rfl

/-! ### RECLAIM PAGES (R169) -/

theorem exec_reclaimPages {s : State} {o : Order} (h : s.Carries 0x51#8 o) :
    exec .reclaimPages s = .next (carryReclaimPages o s.popOrder).settle :=
  carryOut_of_carries h (· == 0x51#8) rfl carryReclaimPages

/-- With nothing lent there is no header to write. -/
theorem carryReclaimPages_of_empty {s : State} (o : Order) (h : s.pages.lent = []) :
    carryReclaimPages o s = s.answer o .done [0] := if_pos (List.isEmpty_iff.2 h)

theorem carryReclaimPages_of_lent {s : State} (o : Order) (h : s.pages.lent ≠ []) :
    carryReclaimPages o s
      = State.modShared { s with pages := { s.pages with lent := [] } } fun x =>
          x.modOrders (·.startReclaim o s.pages.lent) := if_neg (mt List.isEmpty_iff.1 h)

/-- After a header write that is not the last, the next page's header is ready (log 10). -/
theorem reclaimHeaderDone_of_more {u : OrderUnit} {r : Reclaim} {first second : Word} {rest : List Word}
    (hr : u.reclaim = some r) (hl : r.left = first :: second :: rest) :
    u.reclaimHeaderDone
      = { u with reclaim := some { r with left := second :: rest }, ready := u.ready.tail ++ [.reclaimHeader] } := by
  simp only [OrderUnit.reclaimHeaderDone, hr, hl, List.tail_cons]

theorem reclaimHeaderDone_of_last {u : OrderUnit} {r : Reclaim} {first : Word} (hr : u.reclaim = some r)
    (hl : r.left = [first]) :
    u.reclaimHeaderDone
      = ({ u with ready := u.ready.tail, reclaim := none }).pushAnswer
          ⟨r.slot, r.tag, .done, [BitVec.ofNat 8 r.count], .order⟩ := by
  simp only [OrderUnit.reclaimHeaderDone, hr, hl, List.tail_cons]

theorem exec_reclaimHeaderWriteDone {s : State} {a : Access} (h : s.Ends .reclaimHeader a) :
    exec .reclaimHeaderWriteDone s = .next (s.withFreePort.withOrders s.shared.orders.reclaimHeaderDone).settle :=
  congrArg Host.Outcome.next (completeAccess_of_ends h _)

/-- Settles O47: the order by whether a page is lent, a header write by whether pages are left, the access by its bytes. -/
theorem reclaimPagesWritesEveryHeaderAndAnswers : Obligations.ReclaimPagesWritesEveryHeaderAndAnswers := by
  refine ⟨fun s o h => ⟨fun hl => ?_, fun hl => ?_⟩, fun s a r first h hr => ⟨fun second rest hl => ?_, fun hl => ?_⟩,
    fun u anchor r first rest hr hl => ?_⟩
  · rw [exec_reclaimPages h, carryReclaimPages_of_empty (s := s.popOrder) o hl, answered_pop]
  · rw [exec_reclaimPages h, carryReclaimPages_of_lent (s := s.popOrder) o hl]
    rfl
  · rw [exec_reclaimHeaderWriteDone h, reclaimHeaderDone_of_more hr hl]
  · rw [exec_reclaimHeaderWriteDone h, reclaimHeaderDone_of_last hr hl]
  · simp only [OrderUnit.access, hr, hl, Option.bind_some, List.head?_cons, Option.map_some]
    rfl

end Sys2Proof.Machine

namespace Sys2Proof.Machine

/-! ### The arbiter (R175) -/

theorem orderUnitRequest_requester {u : OrderUnit} {anchor : Word} {a : Access} (h : u.request anchor = some a) :
    a.requester = .orderUnit := by
  obtain ⟨x, -, hx⟩ := Option.bind_eq_some_iff.1 h
  cases x with
  | scanRead | takenWrite => cases hx; rfl
  | answerFields | answered | reclaimHeader =>
    obtain ⟨y, -, rfl⟩ := Option.map_eq_some_iff.1 hx
    rfl

theorem pageWriterRequest_requester {w : PageWriter} {t : Track} {queue : List Record} {a : Access}
    (h : w.request t queue = some a) : a.requester = writerOf t := by
  unfold PageWriter.request at h
  split at h
  · cases h
  · dsimp only at h
    split at h
    · cases h; rfl
    · split at h
      · cases h
      · split at h <;> cases h <;> rfl

theorem captureRequest_requester {x : CaptureUnit} {a : Access} (h : x.request = some a) : a.requester = .captureWriter := by
  unfold CaptureUnit.request at h
  split at h
  · cases h; rfl
  · split at h <;> cases h
    rfl

/-- An access bears the name of the requester that asks for it. -/
theorem request_requester {s : State} {r : Requester} {a : Access} (h : s.request r = some a) : a.requester = r := by
  cases r with
  | orderUnit => exact orderUnitRequest_requester h
  | pageWriterA => exact pageWriterRequest_requester h
  | pageWriterB => exact pageWriterRequest_requester h
  | captureWriter => exact captureRequest_requester h

/-- The cyclic order goes round all four requesters. -/
theorem mem_following (q r : Requester) : q ∈ r.following := by
  cases r <;> cases q <;> decide

theorem nextRequest_eq_none_iff (s : State) : s.nextRequest = none ↔ ∀ r, s.request r = none := by
  rw [State.nextRequest, List.findSome?_eq_none_iff]
  exact ⟨fun h r => h r (mem_following _ _), fun h r _ => h r⟩

/-- The first requester asking, after the last grantee, is the next (R175). -/
theorem nextRequest_of_first {s : State} {skipped later : List Requester} {r : Requester} {a : Access}
    (hf : s.bus.lastGrantee.following = skipped ++ r :: later) (hs : ∀ q ∈ skipped, s.request q = none)
    (hr : s.request r = some a) : s.nextRequest = some a := by
  rw [State.nextRequest, hf, List.findSome?_append, List.findSome?_eq_none_iff.2 hs, List.findSome?_cons, hr]
  rfl

theorem grant_of_busy {s : State} {a : Access} (h : s.bus.inFlight = some a) : s.grant = s := by
  rw [State.grant, h]

theorem grant_of_none {s : State} (h : s.nextRequest = none) : s.grant = s := by
  unfold State.grant
  split
  · rename_i e
    rw [h] at e
    cases e
  · rfl

theorem grant_of_some {s : State} {a : Access} (hb : s.bus.inFlight = none) (h : s.nextRequest = some a) :
    s.grant = { s with bus := ⟨some a, a.requester⟩ } := by
  rw [State.grant, hb, h]

/-- A free port stays free or carries an access of the requester last granted. -/
theorem grant_bus_of_free {s : State} (h : s.bus.inFlight = none) :
    s.grant.bus.inFlight = none ∨ ∃ a, s.grant.bus = ⟨some a, a.requester⟩ := by
  cases hn : s.nextRequest with
  | none => exact .inl (by rw [grant_of_none hn, h])
  | some a => exact .inr ⟨a, by rw [grant_of_some h hn]⟩

/-! ### The end of a step by the part state (R170, R171, R184) -/

theorem settle_of_running {s : State} (h : s.regs.part = .running) : s.settle = s.claimPages.servePages.grant := by
  rw [State.settle, h]

theorem settle_of_quiet {s : State} (h : s.regs.part = .quiet) : s.settle = s.claimPages := by
  rw [State.settle, h]

theorem claimPages_bus (s : State) : s.claimPages.bus = s.bus := by
  rw [State.claimPages, State.claimPage_eq, State.claimPage_eq s]

/-- In RUNNING the claims, the new ones behind those that wait, are served (R170). -/
theorem settle_pages_of_running {s : State} (h : s.regs.part = .running) : s.settle.pages = s.claimPages.pages.serveAll := by
  rw [settle_of_running h, grant_pages]
  rfl

/-- The writers once track t's has taken a page: its page_sequence advances (R170). -/
def pageGiven (writers : PerTrack PageWriter) (t : Track) (address : Word) : PerTrack PageWriter :=
  writers.set t ⟨some (Page.claimed address), (writers.get t).sequence + 1⟩

/-- Up to two claims are served, in the order taken, while pages last (R170). -/
theorem serveAll_of_claims (b : PageBlock) (claims : List Track) :
    (claims = [] → b.claims = []) → ({ b with claims := claims } : PageBlock).serveAll
      = match claims, b.lent with
        | [], _ => b
        | _, [] => { b with claims := claims }
        | t :: ts, [address] => ⟨[], ts, pageGiven b.writers t address⟩
        | [t], address :: rest => ⟨rest, [], pageGiven b.writers t address⟩
        | t :: u :: ts, address :: next :: rest => ⟨rest, ts, pageGiven (pageGiven b.writers t address) u next⟩ := by
  intro h
  obtain ⟨lent, old, writers⟩ := b
  rcases claims with _ | ⟨t, _ | ⟨u, ts⟩⟩
  · obtain rfl : old = [] := h rfl
    rfl
  · rcases lent with _ | ⟨address, _ | ⟨next, rest⟩⟩ <;> rfl
  · rcases lent with _ | ⟨address, _ | ⟨next, rest⟩⟩ <;> rfl

/-- Of the two tracks, those with a property are one track alone when the other lacks it. -/
theorem tracks_filter_eq {p : Track → Bool} {t : Track} (h : p t = true) (ho : p t.other = false) :
    [Track.A, .B].filter p = [t] := by
  cases t <;> simp only [Track.other] at ho <;> simp [h, ho]

/-- Track t alone makes a claim when the other writer has no record or has a page (R170). -/
theorem claimPages_of_one {s : State} {t : Track} (hq : (s.tracks.get t).records.queue ≠ [])
    (hw : (s.pages.writers.get t).current = none) (hc : s.pages.claims = [])
    (ho : (s.tracks.get t.other).records.queue = [] ∨ (s.pages.writers.get t.other).current ≠ none) :
    s.claimPages.pages = { s.pages with claims := [t] } := by
  rw [claimPages_pages, hc, tracks_filter_eq (decide_eq_true ⟨hq, hw, List.not_mem_nil⟩)
    (decide_eq_false fun ⟨wants, lacks, _⟩ => ho.elim wants (absurd lacks)), List.nil_append]

/-- Settles O52: the end of a step by the part state, the grant by the first requester asking, the pages by what `serveAll` does
with the claims that wait and those just made. -/
theorem theEndOfAStepServesClaimsAndGrantsThePort : Obligations.TheEndOfAStepServesClaimsAndGrantsThePort := by
  refine ⟨fun s => ⟨s.settle_eq, fun h => s.settle_of_not_active h.symm, fun h => ?_, fun a h => ?_,
      fun t address rest hr hq hw hc hl ho => ?_⟩,
    ⟨fun s h => ⟨fun hn => grant_of_none ((nextRequest_eq_none_iff s).2 hn), fun skipped later r a hf hs ha => ?_⟩,
      fun s => settle_of_running, fun r => by cases r <;> rfl⟩,
    fun s h => ?_, fun s h => ?_⟩
  · rw [settle_of_quiet h]
    exact ⟨claimPages_bus s, claimPages_lent s⟩
  · by_cases hr : s.regs.part = .running
    · have busy : s.claimPages.servePages.bus.inFlight = some a := by
        rw [← h, ← claimPages_bus s]
        rfl
      rw [settle_of_running hr, grant_of_busy busy]
      exact claimPages_bus s
    · exact settle_bus s hr
  · rw [settle_pages_of_running hr, claimPages_of_one hq hw hc ho, serveAll_of_claims _ _ (by simp), hl]
    cases rest <;> rfl
  · rw [grant_of_some h (nextRequest_of_first hf hs ha), request_requester ha]
  · intro wants claims give
    rw [settle_pages_of_running h, claimPages_pages]
    exact serveAll_of_claims s.pages _ fun e => (List.append_eq_nil_iff.1 e).1
  · rw [settle_of_quiet h]
    exact claimPages_pages s

end Sys2Proof.Machine

namespace Sys2Proof.Machine

/-! ### The tests of QUIET (R184) -/

theorem atRest_iff (m : TrackMode) : m.atRest = true ↔ m = .idle ∨ m = .disabled := by
  cases m <;> decide

/-- The four conditions of R184. -/
theorem mayRest_iff (s : State) :
    s.mayRest = true ↔
      (∀ t, ((s.tracks.get t).mode = .idle ∨ (s.tracks.get t).mode = .disabled) ∧ (s.tracks.get t).zero = none)
        ∧ s.shared.capture.state ≠ .recording ∧ s.shared.orders.queue = [] := by
  simp only [State.mayRest, Bool.and_eq_true, atRest_iff, Option.isNone_iff_eq_none, decide_eq_true_eq, List.isEmpty_iff]
  constructor
  · rintro ⟨⟨⟨⟨⟨ha, hb⟩, za⟩, zb⟩, hc⟩, hq⟩
    refine ⟨fun t => ?_, hc, hq⟩
    cases t
    · exact ⟨ha, za⟩
    · exact ⟨hb, zb⟩
  · rintro ⟨ht, hc, hq⟩
    exact ⟨⟨⟨⟨⟨(ht .A).1, (ht .B).1⟩, (ht .A).2⟩, (ht .B).2⟩, hc⟩, hq⟩

theorem mayEnterQuiet_iff (s : State) : s.mayEnterQuiet = true ↔ s.mayRest = true ∧ s.shared.orders.scan = none := by
  rw [State.mayEnterQuiet, Bool.and_eq_true, Option.isNone_iff_eq_none]

/-- The order being carried out is the only one queued exactly when its removal empties the queue. -/
theorem tail_eq_nil_iff_of_head {q : List Order} {o : Order} (h : q.head? = some o) : q.tail = [] ↔ q = [o] := by
  obtain ⟨l, rfl⟩ := List.head?_eq_some_iff.1 h
  simp

theorem exec_quiet {s : State} {o : Order} (h : s.Carries 0x03#8 o) :
    exec .quiet s
      = .next (if s.popOrder.mayRest then s.popOrder.answerAs .quiet o .done [] else s.popOrder.answer o .busy).settle :=
  carryOut_of_carries h (· == 0x03#8) rfl fun o s => if s.mayRest then s.answerAs .quiet o .done [] else s.answer o .busy

/-! ### The entry into QUIET (R184, log 13) -/

/-- The step's end after the entry makes claims, serves none and starts no access. -/
theorem enterQuiet_settle_frame (s : State) :
    s.enterQuiet.settle.bus = s.bus ∧ s.enterQuiet.settle.pages.lent = s.pages.lent
      ∧ s.enterQuiet.settle.pages.writers = s.pages.writers
      ∧ ∃ made, s.enterQuiet.settle.pages.claims = s.pages.claims ++ made := by
  obtain ⟨lent, writers⟩ := claimPages_lent s.enterQuiet
  rw [settle_of_quiet (s := s.enterQuiet) rfl]
  exact ⟨claimPages_bus _, lent, writers, _, congrArg PageBlock.claims (claimPages_pages s.enterQuiet)⟩

theorem settle_bus_of_free {s : State} (h : s.bus.inFlight = none) :
    s.settle.bus.inFlight = none ∨ ∃ a, s.settle.bus = ⟨some a, a.requester⟩ := by
  by_cases hr : s.regs.part = .running
  · rw [settle_of_running hr]
    refine grant_bus_of_free ?_
    show s.claimPages.bus.inFlight = none
    rw [claimPages_bus, h]
  · exact .inl (by rw [settle_bus s hr, h])

/-- The machine with the choice between entry and grant drawn. -/
def State.drawn (s : State) : State := { s with freeCount := s.freeCount + 1 }

theorem restNow_of_noRequest {s : State} (h : ∀ r, s.claimPages.servePages.request r = none) :
    s.restNow = s.enterQuiet.settle :=
  if_pos (Option.isNone_iff_eq_none.2 ((nextRequest_eq_none_iff _).2 h))

/-- With a requester asking, the entry comes before the step's end or after it. -/
theorem restNow_of_request {s : State} (h : ∃ r, s.claimPages.servePages.request r ≠ none) :
    s.restNow = s.drawn.enterQuiet.settle ∨ s.restNow = s.drawn.settle.enterQuiet := by
  obtain ⟨r, hr⟩ := h
  have asked : ¬ s.claimPages.servePages.nextRequest.isNone = true := fun hn =>
    hr ((nextRequest_eq_none_iff _).1 (Option.isNone_iff_eq_none.1 hn) r)
  unfold State.restNow
  rw [if_neg asked]
  dsimp only
  split
  · exact .inl rfl
  · exact .inr rfl

theorem restNow_cases (s : State) :
    s.restNow = s.enterQuiet.settle ∨ s.restNow = s.drawn.enterQuiet.settle ∨ s.restNow = s.drawn.settle.enterQuiet := by
  by_cases h : ∀ r, s.claimPages.servePages.request r = none
  · exact .inl (restNow_of_noRequest h)
  · exact .inr (restNow_of_request (Classical.not_forall.1 h))

/-- A part that rests is in QUIET with tracks and waiting commands as they were, its port free or just granted. -/
theorem restNow_frame {s : State} (h : s.bus.inFlight = none) :
    s.restNow.regs = s.enterQuiet.regs ∧ s.restNow.shared = s.enterQuiet.shared ∧ s.restNow.tracks = s.tracks
      ∧ s.restNow.pending = s.pending
      ∧ (s.restNow.bus.inFlight = none ∨ ∃ a, s.restNow.bus = ⟨some a, a.requester⟩) := by
  rcases restNow_cases s with e | e | e <;> rw [e]
  · exact ⟨State.settle_regs _, State.settle_shared _, State.settle_tracks _, State.settle_pending _,
      settle_bus_of_free (s := s.enterQuiet) h⟩
  · exact ⟨State.settle_regs _, State.settle_shared _, State.settle_tracks _, State.settle_pending _,
      settle_bus_of_free (s := s.drawn.enterQuiet) h⟩
  · exact ⟨congrArg (fun r : Registers => { r with part := .quiet }) (State.settle_regs s.drawn),
      congrArg (fun x : Shared => x.modOrders fun u => { u with scanTimer := none, pendingScan := false })
        (State.settle_shared s.drawn),
      State.settle_tracks s.drawn, State.settle_pending s.drawn, settle_bus_of_free (s := s.drawn) h⟩

/-! ### The ANSWERED write of a QUIET order (R178, R184) -/

theorem exec_answeredWriteDone {s : State} {a : Access} (h : s.Ends .answered a) :
    exec .answeredWriteDone s = .next s.withFreePort.answeredDone :=
  congrArg Host.Outcome.next (completeAccess_of_ends h _)

/-- The answer leaves the FIFO, and the next one's fields become ready. -/
theorem answeredDone_of_answer {u : OrderUnit} {x : Answer} {rest : List Answer} (h : u.answers = x :: rest) :
    u.answeredDone
      = { u with
          answers := rest
          ready := if rest = [] then u.ready.tail else u.ready.tail ++ [.answerFields]
          carrying := if x.owner = .zero then u.carrying else false } := by
  simp only [OrderUnit.answeredDone, h, List.isEmpty_iff]

/-- The machine with its order unit replaced and ANSWER raised. -/
def State.answerRaised (s : State) (u : OrderUnit) : State :=
  { s with shared := { s.shared with notice := s.shared.notice ||| 0x01#6, orders := u } }

/-- The second test of R184 decides whether the part rests or the step ends as any other. -/
theorem answeredDone_of_quiet {s : State} {x : Answer} {rest : List Answer} (hr : s.regs.part = .running)
    (ha : s.shared.orders.answers = x :: rest) (hx : x.owner = .quiet) :
    s.answeredDone
      = if (s.answerRaised s.shared.orders.answeredDone).mayEnterQuiet then
          (s.answerRaised s.shared.orders.answeredDone).restNow
        else (s.answerRaised s.shared.orders.answeredDone).settle := by
  have quiet : s.shared.orders.answers.head?.map (·.owner) = some .quiet := by rw [ha, List.head?_cons, Option.map_some, hx]
  have running : (s.answerRaised s.shared.orders.answeredDone).regs.part = .running := hr
  unfold State.answeredDone
  exact ite_congr (propext ⟨fun ⟨_, rests, _⟩ => rests, fun rests => ⟨quiet, rests, running⟩⟩) (fun _ => rfl) fun _ => rfl

/-- Settles O36: the order by the four conditions, the ANSWERED write by the five; the entry by `restNow`. -/
theorem quietIsAnsweredAndEnteredByItsConditions : Obligations.QuietIsAnsweredAndEnteredByItsConditions := by
  refine ⟨fun s o h => ?_, fun s a x rest h hr ha hx => ?_⟩
  · intro rests
    have tested : s.popOrder.mayRest = true ↔ rests := by
      obtain ⟨-, -, ho, -⟩ := h
      exact (mayRest_iff _).trans (and_congr_right' (and_congr_right' (tail_eq_nil_iff_of_head ho)))
    rw [exec_quiet h]
    refine ⟨fun hn => ?_, fun hy => ?_⟩
    · rw [if_neg (mt tested.1 hn), answered_pop]
    · rw [if_pos (tested.2 hy)]
      obtain ⟨-, -, hq⟩ : rests := hy
      have popped : s.popOrder = s.withOrders { s.shared.orders with queue := [] } := by
        show s.withOrders { s.shared.orders with queue := s.shared.orders.queue.tail } = _
        rw [hq, List.tail_cons]
      rw [popped]
      rfl
  · intro rests orders v quiet drawn
    have tested : v.mayEnterQuiet = true ↔ rests := by
      rw [mayEnterQuiet_iff, mayRest_iff, and_assoc, and_assoc]
      rfl
    have ended : exec .answeredWriteDone s = .next (if v.mayEnterQuiet then v.restNow else v.settle) := by
      have left : s.shared.orders.answeredDone = orders := by
        rw [answeredDone_of_answer ha, hx]
        rfl
      have raised : s.withFreePort.answerRaised s.withFreePort.shared.orders.answeredDone = v :=
        congrArg s.withFreePort.answerRaised left
      rw [exec_answeredWriteDone h, answeredDone_of_quiet (s := s.withFreePort) hr ha hx, raised]
    rw [ended]
    refine ⟨fun hn => ?_, fun hy => ?_, fun y => ?_, fun hy => ?_⟩
    · rw [if_neg (mt tested.1 hn)]
    · rw [if_pos (tested.2 hy)]
      exact ⟨fun hf => congrArg _ (restNow_of_noRequest hf), fun hf => (restNow_of_request hf).imp (congrArg _) (congrArg _)⟩
    · exact ⟨State.settle_tracks y.enterQuiet, enterQuiet_settle_frame y⟩
    · rw [if_pos (tested.2 hy)]
      obtain ⟨regs, shared, tracks, pending, bus⟩ := restNow_frame (s := v) rfl
      exact ⟨_, rfl, regs, shared, tracks, pending, bus⟩

end Sys2Proof.Machine

namespace Sys2Proof.Machine

/-! ### The page writer's accesses (R171, R172) -/

theorem writerRequest_of_noPage {w : PageWriter} (h : w.current = none) (t : Track) (queue : List Record) :
    w.request t queue = none := by
  rw [PageWriter.request, h]

theorem writerRequest_of_noRecord {w : PageWriter} {g : Page} (h : w.current = some g) (he : g.ended = false) (t : Track) :
    w.request t [] = none := by
  simp only [PageWriter.request, h, he, Bool.false_eq_true, if_false]

/-- The head record is written while it fits. -/
theorem writerRequest_of_fitting {w : PageWriter} {g : Page} (h : w.current = some g) (he : g.ended = false) {r : Record}
    (hf : g.fill + r.size ≤ 4096) (t : Track) (rest : List Record) :
    w.request t (r :: rest)
      = some ⟨writerOf t, .recordWrite, g.address + BitVec.ofNat 32 (g.fill + g.written), r.piece g.written, false⟩ := by
  have fits : g.fits r = true := decide_eq_true hf
  simp only [PageWriter.request, h, he, fits, Bool.false_eq_true, if_false, if_true]

/-- An ended page, and one that the head record does not fit, is returned with its header. -/
theorem writerRequest_of_full {w : PageWriter} {g : Page} (h : w.current = some g) {queue : List Record}
    (hf : g.ended = true ∨ (g.ended = false ∧ ∃ r rest, queue = r :: rest ∧ 4096 < g.fill + r.size)) (t : Track) :
    w.request t queue = some ⟨writerOf t, .pageHeader, g.address, g.header t w.sequence, false⟩ := by
  rcases hf with he | ⟨he, r, rest, rfl, hr⟩
  · simp only [PageWriter.request, h, he, if_true]
  · have fits : g.fits r = false := decide_eq_false (Nat.not_le.2 hr)
    simp only [PageWriter.request, h, he, fits, Bool.false_eq_true, if_false]

/-! ### The codes of records and headers (R182) -/

theorem byte_trackCode (t : Track) :
    byte (trackCode t) = match t with
      | .A => 0#8
      | .B => 1#8 := by
  cases t <;> rfl

theorem byte_directionCode (d : Direction) :
    byte (directionCode d) = match d with
      | .up => 0#8
      | .down => 1#8 := by
  cases d <;> rfl

theorem byte_causeCode (c : OpenCause) :
    byte (causeCode c) = match c with
      | .approach => 0#8
      | .direct => 1#8 := by
  cases c <;> rfl

theorem byte_reasonCode (r : Option CloseReason) :
    byte ((r.map reasonCode).getD 0) = match r with
      | none => 0#8
      | some .normal => 0#8
      | some .withdrawn => 1#8
      | some .ordered => 2#8
      | some .disabled => 3#8
      | some .standing => 4#8
      | some .overflow => 5#8 := by
  rcases r with _ | r
  · rfl
  · cases r <;> rfl

theorem byte_kindCode (k : VehicleKind) :
    byte (kindCode k) = match k with
      | .wagon => 0#8
      | .locomotive => 1#8
      | .other => 2#8
      | .unknown => 3#8 := by
  cases k <;> rfl

theorem byte_classIndex (i : Option Nat) :
    byte (i.getD 255) = match i with
      | none => 255#8
      | some i => BitVec.ofNat 8 i := by
  cases i <;> rfl

theorem byte_pageState (ended : Bool) : byte (if ended then 2 else 1) = if ended then 2#8 else 1#8 := by
  cases ended <;> rfl

theorem le16_firstSerial (l : List FinalAxle) :
    le16 ((l.head?.map (·.serial)).getD 0) = match l with
      | [] => le16 0
      | y :: _ => le16 y.serial := by
  cases l <;> rfl

theorem le32_closeTime (v : Option Word) :
    le32 ((v.map (·.toNat)).getD 0) = match v with
      | none => le32 0
      | some v => le32 v.toNat := by
  cases v <;> rfl

@[simp] theorem le16Optional_length (n : Option Nat) : (le16Optional n).length = 2 := by
  cases n <;> rfl

@[simp] theorem axleBytes_length (x : FinalAxle) : (axleBytes x).length = 8 := by
  simp [axleBytes]

theorem axleBytes_eq (y : FinalAxle) :
    axleBytes y
      = (match y.load with
          | none => le16 0 ++ le16 0
          | some l => le16 l.left ++ le16 l.right)
        ++ (match y.speed with
          | none => le16 65535
          | some v => le16 v)
        ++ [BitVec.ofNat 8 y.estimateCount,
          BitVec.ofNat 8
            (maskOf
              [y.flags.noEstimate, y.flags.crosstalk, y.flags.speed, y.flags.noLead, y.flags.low,
                y.flags.reentered])] := by
  unfold axleBytes
  cases y.load <;> rfl

@[simp] theorem wagonHeader_length (x : Wagon) : (wagonHeader x).length = 32 := padTo_length _ _

theorem wagonBytes_length (x : Wagon) : (Record.wagon x).bytes.length = 32 + 8 * x.axles.length := by
  have each : List.length ∘ axleBytes = fun _ => 8 := funext axleBytes_length
  rw [Record.bytes, List.length_append, wagonHeader_length, List.length_flatten, List.map_map, each, List.map_const',
    List.sum_replicate_nat, Nat.mul_comm]

theorem pageHeaderBytes_eq (g : Page) (t : Track) (sequence : Nat) :
    g.header t sequence
      = [if g.ended then 2#8 else 1#8, match t with
          | .A => 0#8
          | .B => 1#8] ++ le16 sequence ++ le32 g.passage ++ le16 g.records ++ le16 g.fill ++ le16 g.firstWagon
        ++ List.replicate 18 0 := by
  rw [Page.header, pageHeader, padTo_eq (n := 32) (m := 18) (by simp), byte_pageState, byte_trackCode]

/-! ### The ends of the page writer's accesses (R171) -/

theorem dropHead_of_wagon {q : RecordQueue} {x : Wagon} {l : List Record} (h : q.queue = .wagon x :: l) :
    q.dropHead = { q with queue := l } := by
  rw [RecordQueue.dropHead, h]

/-- A close record that leaves frees its place (R164). -/
theorem dropHead_of_close {q : RecordQueue} {x : CloseRecord} {l : List Record} (h : q.queue = .close x :: l) :
    q.dropHead = { q with queue := l, placesInUse := q.placesInUse - 1 } := by
  rw [RecordQueue.dropHead, h]

theorem recordWritten_of_part {s : State} {t : Track} {g : Page} {r : Record} {rest : List Record} {n : Nat}
    (hg : (s.pages.writers.get t).current = some g) (hq : (s.tracks.get t).records.queue = r :: rest)
    (hn : g.written + n < r.size) :
    s.recordWritten t n = s.modWriter t fun w => { w with current := some { g with written := g.written + n } } := by
  simp only [State.recordWritten, hg, hq, if_neg (Nat.not_le.2 hn)]

theorem recordWritten_of_whole {s : State} {t : Track} {g : Page} {r : Record} {rest : List Record} {n : Nat}
    (hg : (s.pages.writers.get t).current = some g) (hq : (s.tracks.get t).records.queue = r :: rest)
    (hn : r.size ≤ g.written + n) :
    s.recordWritten t n
      = (s.modWriter t fun w => { w with current := some (g.addRecord r) }).withTrack t
          { s.tracks.get t with records := (s.tracks.get t).records.dropHead } := by
  simp only [State.recordWritten, hg, hq, if_pos hn]
  rfl

theorem pageReturned_of_page {s : State} {t : Track} {g : Page} (hg : (s.pages.writers.get t).current = some g) :
    s.pageReturned t
      = (s.modWriter t fun w => { w with current := none, sequence := if g.ended then 0 else w.sequence }).modShared
          (·.raise .page) := by
  simp only [State.pageReturned, hg]

theorem exec_recordWriteDone {s : State} {a : Access} (h : s.Ends .recordWrite a) :
    exec .recordWriteDone s = .next (s.withFreePort.recordWritten a.requester.track a.data.length).settle :=
  congrArg Host.Outcome.next (completeAccess_of_ends h _)

theorem exec_pageHeaderWriteDone {s : State} {a : Access} (h : s.Ends .pageHeader a) :
    exec .pageHeaderWriteDone s = .next (s.withFreePort.pageReturned a.requester.track).settle :=
  congrArg Host.Outcome.next (completeAccess_of_ends h _)

/-- Settles O50: the accesses by page and head record, the layouts code by code, the ends by whether the record is whole. -/
theorem recordsAreWrittenIntoPages : Obligations.RecordsAreWrittenIntoPages := by
  refine ⟨⟨fun w t g => ⟨fun h => writerRequest_of_noPage h t, fun h he => writerRequest_of_noRecord h he t,
        fun r rest h he hf => ⟨_, writerRequest_of_fitting h he hf t rest, rfl, rfl, rfl⟩,
        fun queue h hf => ⟨_, writerRequest_of_full h hf t, rfl, rfl, pageHeaderBytes_eq g t w.sequence⟩⟩,
      fun x => ⟨?_, wagonBytes_length x⟩, fun x => ⟨?_, padTo_length 64 _⟩⟩,
    fun s a g r rest h hg hq => ?_, fun s a g h hg => ?_⟩
  · rw [Record.bytes, wagonHeader, padTo_eq (n := 32) (m := 8) (by simp), byte_trackCode, byte_classIndex, byte_kindCode,
      le16_firstSerial, funext axleBytes_eq]
    rfl
  · rw [Record.bytes, closeBytes, padTo_eq (n := 64) (m := 20) (by simp), byte_trackCode, byte_directionCode, byte_causeCode,
      byte_reasonCode, le32_closeTime]
    rfl
  · rw [exec_recordWriteDone h]
    refine ⟨fun hn => ?_, fun x hx hn => ?_, fun x hx hn => ?_⟩
    · rw [recordWritten_of_part (s := s.withFreePort) hg hq hn]
      rfl
    · subst hx
      rw [recordWritten_of_whole (s := s.withFreePort) hg hq hn,
        dropHead_of_wagon (q := (s.withFreePort.tracks.get _).records) hq]
      rfl
    · subst hx
      rw [recordWritten_of_whole (s := s.withFreePort) hg hq hn,
        dropHead_of_close (q := (s.withFreePort.tracks.get _).records) hq]
      rfl
  · rw [exec_pageHeaderWriteDone h, pageReturned_of_page (s := s.withFreePort) hg]
    rfl

end Sys2Proof.Machine

namespace Sys2Proof.Machine

/-! ### Reading the registers (R174, R182) -/

theorem partCode_lt (p : PartState) : partCode p < 4 := by cases p <;> decide

theorem resetCode_lt (r : ResetCause) : resetCode r < 4 := by cases r <;> decide

theorem wakeCode_lt (w : Option WakeCause) : wakeCode w < 3 := by rcases w with _ | _ | _ <;> decide

theorem faultCodeValue_lt (f : Option Requester) : faultCodeValue f < 5 := by rcases f with _ | _ | _ | _ | _ <;> decide

/-- Each code fits the bits of its field, so every field of STATUS reads back as it was laid out (R182). -/
theorem status_fields (s : State) :
    s.status.toNat % 8 = partCode s.regs.part
      ∧ s.status.toNat / 16 % 4 = resetCode s.regs.resetCause
      ∧ s.status.toNat / 64 % 4 = wakeCode s.regs.wakeCause
      ∧ s.status.toNat / 256 % 16 = (if s.regs.badAnchor then 1 else 0)
      ∧ s.status.toNat / 65536 % 16 = faultCodeValue s.regs.faultCode := by
  have hp := partCode_lt s.regs.part
  have hr := resetCode_lt s.regs.resetCause
  have hw := wakeCode_lt s.regs.wakeCause
  have hb : (if s.regs.badAnchor then 1 else 0) < 2 := by split <;> decide
  have hf := faultCodeValue_lt s.regs.faultCode
  rw [State.status, BitVec.toNat_ofNat]
  omega

theorem control_toNat (s : State) :
    s.control.toNat = (if s.regs.part = .stopped then 0 else 1) + 256 * s.regs.noticeMask.toNat := by
  have hr : (if s.regs.part = .stopped then 0 else 1) < 2 := by split <;> decide
  have hm := s.regs.noticeMask.isLt
  rw [State.control, BitVec.toNat_ofNat]
  omega

/-- CONTROL reads RUN in bit 0, 0 in bit 1 and the notice mask in the bits 13:8 (R174, R182). -/
theorem control_fields (s : State) :
    s.control.getLsbD 0 = decide (s.regs.part ≠ .stopped) ∧ s.control.getLsbD 1 = false
      ∧ s.control.extractLsb' 8 6 = s.regs.noticeMask := by
  have hc := control_toNat s
  have hr : (if s.regs.part = .stopped then 0 else 1) < 2 := by split <;> decide
  refine ⟨?_, ?_, BitVec.eq_of_toNat_eq ?_⟩
  · rw [BitVec.getLsbD, Nat.testBit_zero, hc]
    by_cases h : s.regs.part = .stopped
    · rw [if_pos h, decide_eq_false (not_not_intro h)]
      exact decide_eq_false (by omega)
    · rw [if_neg h, decide_eq_true h]
      exact decide_eq_true (by omega)
  · rw [BitVec.getLsbD, Nat.testBit_succ, Nat.testBit_zero]
    exact decide_eq_false (by omega)
  · have hm := s.regs.noticeMask.isLt
    rw [BitVec.extractLsb'_toNat, Nat.shiftRight_eq_div_pow, hc]
    omega

/-- Two words share a set bit exactly when their conjunction is not 0. -/
theorem and_ne_zero_iff {n : Nat} (x y : BitVec n) :
    x &&& y ≠ 0#n ↔ ∃ i, i < n ∧ x.getLsbD i = true ∧ y.getLsbD i = true := by
  constructor
  · refine fun h => Classical.byContradiction fun apart => h (BitVec.eq_of_getLsbD_eq fun i hi => ?_)
    rw [BitVec.getLsbD_and, BitVec.getLsbD_zero]
    exact Bool.eq_false_iff.2 fun both => apart ⟨i, hi, (Bool.and_eq_true_iff ..).1 both⟩
  · rintro ⟨i, -, hx, hy⟩ h
    have bit := BitVec.getLsbD_and (x := x) (y := y) (i := i)
    rw [h, hx, hy, BitVec.getLsbD_zero] at bit
    exact absurd bit (by decide)

theorem irq_iff (s : State) :
    s.irq = true ↔ ∃ i, i < 6 ∧ s.shared.notice.getLsbD i = true ∧ s.regs.noticeMask.getLsbD i = true := by
  rw [State.irq, bne_iff_ne, and_ne_zero_iff]

/-- Settles O8: STATUS and CONTROL by their fields, the IRQ line by the bits that NOTICE and the mask share. -/
theorem registersReadAsTheFormatsGive : Obligations.RegistersReadAsTheFormatsGive := by
  intro s
  obtain ⟨part, reset, wake, start, fault⟩ := status_fields s
  exact ⟨rfl, ⟨s.status, rfl, part, reset, wake, start, fault⟩, ⟨s.control, rfl, control_fields s⟩, rfl, rfl, rfl, rfl,
    irq_iff s⟩

/-! ### RUN (R183) -/

theorem exec_run (s : State) (v : Word) : exec (.run v) s = .next (s.writeControl v) := rfl

/-- RUN written 1 in STOPPED sets the notice mask and then starts the part or refuses to. -/
theorem writeControl_start {s : State} {v : Word} (hs : softResetBit v = false) (hr : runBit v = true)
    (hp : s.regs.part = .stopped) :
    s.writeControl v = (s.modRegs fun r => { r with noticeMask := maskField v }).start := by
  unfold State.writeControl
  rw [if_neg (by simp [hs])]
  exact if_pos ⟨hr, hp⟩

theorem start_of_aligned {s : State} (h : s.regs.anchor.toNat % 4096 = 0) :
    s.start = (s.modRegs fun r => { r with part := .running, badAnchor := false }).requestScan.settle := if_pos h

theorem start_of_unaligned {s : State} (h : s.regs.anchor.toNat % 4096 ≠ 0) :
    s.start = s.modRegs fun r => { r with badAnchor := true } := if_neg h

/-- Settles O6: the write by the part state, the start by the anchor. -/
theorem runStartsThePartOrReportsABadAnchor : Obligations.RunStartsThePartOrReportsABadAnchor := by
  intro s v hr hs
  rw [exec_run]
  refine ⟨fun hp ha => ?_, fun hp ha => ?_, fun hp => ?_⟩
  · rw [writeControl_start hs hr hp]
    exact congrArg Host.Outcome.next (start_of_aligned ha)
  · rw [writeControl_start hs hr hp]
    exact congrArg Host.Outcome.next (start_of_unaligned ha)
  · rw [writeControl_mask hs (.inr hp)]
    rfl

end Sys2Proof.Machine

namespace Sys2Proof.Machine

/-! ### SET OPTIONS (R179) -/

theorem exec_setOptions {s : State} {o : Order} (h : s.Carries 0x01#8 o) :
    exec .setOptions s = .next (carrySetOptions o s.popOrder).settle :=
  carryOut_of_carries h (· == 0x01#8) rfl carrySetOptions

theorem carrySetOptions_invalid {o : Order} (h : optionsOf o.params = none) (s : State) :
    carrySetOptions o s = s.answer o .invalid := by
  rw [carrySetOptions, h]

theorem carrySetOptions_accepted {o : Order} {x : Options} (h : optionsOf o.params = some x) (s : State) :
    carrySetOptions o s = (s.modShared (·.setOptions x)).answer o .done := by
  rw [carrySetOptions, h]

/-- The options replaced, and of the order unit the scan timer alone. -/
theorem setOptions_eq (h : Shared) (x : Options) :
    h.setOptions x
      = { h with
          options := x
          orders :=
            { h.orders with
              scanTimer :=
                if h.orders.scan.isSome then h.orders.scanTimer
                else if x.scanInterval = 0 then none
                else some ⟨h.time, x.scanInterval * 1000⟩ } } := by
  unfold Shared.setOptions
  split <;> rfl

/-- The three ranges that the widths and codes of the parameters do not give already (R179). -/
theorem optionRanges_iff (interval count limit : Nat) :
    (inRange 0 1000 interval && inRange 64 65535 count && inRange 60 1800 limit) = true
      ↔ interval ≤ 1000 ∧ 64 ≤ count ∧ count ≤ 65535 ∧ 60 ≤ limit ∧ limit ≤ 1800 := by
  simp only [inRange, Bool.and_eq_true, decide_eq_true_eq]
  omega

/-- SET OPTIONS' parameters are accepted exactly in the codes and ranges of R179. -/
theorem optionsOf_eq_some (l : List Byte) (x : Options) :
    optionsOf l = some x ↔
      boolOf (nat8 l 2) = some x.autoZero ∧ policyOf (nat8 l 7) = some x.crosstalkPolicy
        ∧ boolOf (nat8 l 10) = some x.hold
        ∧ x = ⟨nat16 l 0, x.autoZero, nat16 l 3, nat16 l 5, x.crosstalkPolicy, nat16 l 8, x.hold⟩
        ∧ nat16 l 0 ≤ 1000 ∧ 64 ≤ nat16 l 3 ∧ nat16 l 3 ≤ 65535 ∧ 60 ≤ nat16 l 5 ∧ nat16 l 5 ≤ 1800 := by
  rw [← optionRanges_iff]
  unfold optionsOf
  constructor
  · intro h
    split at h
    · rename_i auto policy hold hauto hpolicy hhold
      split at h
      · rename_i ranges
        obtain rfl := Option.some.inj h
        exact ⟨hauto, hpolicy, hhold, rfl, ranges⟩
      · cases h
    · cases h
  · rintro ⟨hauto, hpolicy, hhold, hx, ranges⟩
    rw [hauto, hpolicy, hhold]
    dsimp only
    rw [if_pos ranges, ← hx]

/-- Settles O33: the order by whether its parameters are accepted, the parser by its codes and ranges. -/
theorem setOptionsReplacesAllOptions : Obligations.SetOptionsReplacesAllOptions := by
  refine ⟨fun s o h => ⟨fun hx => ?_, fun x hx => ?_⟩, fun l x => ?_⟩
  · rw [exec_setOptions h, carrySetOptions_invalid hx, answered_pop]
  · rw [exec_setOptions h, carrySetOptions_accepted hx, State.modShared, setOptions_eq]
    rfl
  · rw [optionsOf_eq_some]
    constructor
    · rintro ⟨hauto, hpolicy, hhold, hx, ranges⟩
      rw [hx]
      exact ⟨rfl, hauto, rfl, rfl, hpolicy, rfl, hhold, ranges⟩
    · rintro ⟨hinterval, hauto, hcount, hlimit, hpolicy, hdrift, hhold, ranges⟩
      rw [← hinterval, ← hcount, ← hlimit, ← hdrift]
      exact ⟨hauto, hpolicy, hhold, rfl, ranges⟩

end Sys2Proof.Machine

namespace Sys2Proof.Machine

/-! ### Slots read and taken (R176, R177) -/

theorem exec_scanReadDone {s : State} {a : Access} (h : s.Ends .scanRead a) (bytes : List Byte) :
    exec (.scanReadDone bytes) s
      = .next
          (s.withFreePort.withOrders
            (s.shared.orders.scanReadDone s.shared.time s.shared.options.scanInterval bytes)).settle :=
  congrArg Host.Outcome.next (completeAccess_of_ends h _)

theorem exec_takenWriteDone {s : State} {a : Access} (h : s.Ends .takenWrite a) :
    exec .takenWriteDone s
      = .next
          (s.withFreePort.withOrders
            (s.shared.orders.takenWriteDone s.shared.time s.shared.options.scanInterval)).settle :=
  congrArg Host.Outcome.next (completeAccess_of_ends h _)

theorem scanReadDone_of_posted {u : OrderUnit} {x : Scan} {bytes : List Byte} (hx : u.scan = some x)
    (hp : byteAt bytes 0 = 1#8) (now : Word) (n : Nat) :
    u.scanReadDone now n bytes
      = { u with
          scan := some { x with take := some (slotOrder x.slot bytes) }
          ready := u.ready.tail ++ [.takenWrite x.slot] } := by
  simp only [OrderUnit.scanReadDone, hx, hp, if_true]

theorem scanReadDone_of_passed {u : OrderUnit} {x : Scan} {bytes : List Byte} (hx : u.scan = some x)
    (hp : byteAt bytes 0 ≠ 1#8) (now : Word) (n : Nat) :
    u.scanReadDone now n bytes = ({ u with ready := u.ready.tail }).continueScan now n x.slot x.left := by
  simp only [OrderUnit.scanReadDone, hx, if_neg hp]

theorem takenWriteDone_of_take {u : OrderUnit} {x : Scan} {o : Order} (hx : u.scan = some x) (ho : x.take = some o)
    (now : Word) (n : Nat) :
    u.takenWriteDone now n
      = ({ u with
          ready := u.ready.tail
          queue := u.queue ++ [o]
          scanPosition := x.slot
          scan := some { x with take := none } }).continueScan now n x.slot x.left := by
  simp only [OrderUnit.takenWriteDone, hx, ho]

/-! ### The codes of the parameters (R182) -/

theorem nat16_eq (l : List Byte) (i : Nat) : nat16 l i = (l.getD i 0).toNat + 256 * (l.getD (i + 1) 0).toNat := rfl

theorem nat32_eq (l : List Byte) (i : Nat) :
    nat32 l i
      = (l.getD i 0).toNat + 256 * (l.getD (i + 1) 0).toNat + 65536 * (l.getD (i + 2) 0).toNat
        + 16777216 * (l.getD (i + 3) 0).toNat := by
  rw [nat32, nat16_eq, nat16_eq l (i + 2), Nat.mul_add, ← Nat.mul_assoc, ← Nat.add_assoc]

/-- An odd channel number names the left rail of its platform (R107). -/
theorem channelGet_odd (x : Four (Rails Channel)) {p : Nat} (h : 1 ≤ p) : channelGet x (2 * p - 1) = (x.get p).left := by
  have half : (2 * p - 1 + 1) / 2 = p := by omega
  have odd : (2 * p - 1) % 2 = 1 := by omega
  rw [channelGet, half]
  exact if_pos odd

/-- An even channel number names the right rail (R107). -/
theorem channelGet_even (x : Four (Rails Channel)) (p : Nat) : channelGet x (2 * p) = (x.get p).right := by
  have half : (2 * p + 1) / 2 = p := by omega
  have even : 2 * p % 2 ≠ 1 := by omega
  rw [channelGet, half]
  exact if_neg even

/-- Settles O48: the ends of the two accesses by slot and take, the codes value by value, the channels by their parity. -/
theorem aScanReadTakesAPostedSlot : Obligations.AScanReadTakesAPostedSlot := by
  refine ⟨fun s a bytes x h hx => ⟨fun hp => ?_, fun hp => ?_⟩, fun s a x o h hx ho => ?_, fun u anchor k => ⟨rfl, rfl⟩,
    fun n => ?_, fun l i => ⟨rfl, nat16_eq l i, nat32_eq l i⟩,
    fun x => ⟨fun p h1 _ => ⟨channelGet_odd x h1, channelGet_even x p⟩, rfl, rfl⟩, rfl⟩
  · rw [exec_scanReadDone h, scanReadDone_of_posted hx hp]
    rfl
  · rw [exec_scanReadDone h, scanReadDone_of_passed hx hp]
  · rw [exec_takenWriteDone h, takenWriteDone_of_take hx ho]
  · rcases n with _ | _ | _ | n
    all_goals exact ⟨rfl, rfl, rfl, rfl⟩

end Sys2Proof.Machine

namespace Sys2Proof.Machine

/-! ### The two accesses of an answer (R178) -/

theorem exec_answerFieldsWriteDone {s : State} {a : Access} (h : s.Ends .answerFields a) :
    exec .answerFieldsWriteDone s = .next (s.withFreePort.withOrders s.shared.orders.answerFieldsDone).settle :=
  congrArg Host.Outcome.next (completeAccess_of_ends h _)

/-- Only the answer of a QUIET order can bring the part to rest (R184). -/
theorem answeredDone_of_notQuiet {s : State} {x : Answer} {rest : List Answer} (ha : s.shared.orders.answers = x :: rest)
    (hx : x.owner ≠ .quiet) : s.answeredDone = (s.answerRaised s.shared.orders.answeredDone).settle := by
  have notQuiet : s.shared.orders.answers.head?.map (·.owner) ≠ some .quiet := by
    rw [ha, List.head?_cons, Option.map_some]
    exact fun e => hx (Option.some.inj e)
  exact if_neg fun ⟨quiet, _⟩ => notQuiet quiet

theorem answerBytes_eq (x : Answer) :
    answerBytes x
      = [BitVec.ofNat 8 x.tag.toNat, BitVec.ofNat 8 (x.tag.toNat / 256), match x.code with
          | .done => 0#8
          | .busy => 1#8
          | .invalid => 2#8
          | .locked => 3#8
          | .noRoom => 4#8
          | .nothing => 5#8
          | .failed => 6#8
          | .preempted => 7#8]
        ++ List.replicate 11 0 ++ (x.area ++ List.replicate 48 0).take 48 := by
  unfold answerBytes
  cases x.code <;> rfl

/-- Both accesses of an answer are those of the head of the FIFO. -/
theorem access_of_answer {u : OrderUnit} {x : Answer} (h : u.answers.head? = some x) (anchor : Word) :
    u.access anchor .answerFields
        = some ⟨.orderUnit, .answerFields, slotAddress anchor x.slot + 2, answerBytes x, false⟩
      ∧ u.access anchor .answered = some ⟨.orderUnit, .answered, slotAddress anchor x.slot, [3], false⟩ := by
  simp only [OrderUnit.access, h, Option.map_some, and_self]

theorem request_of_ready {u : OrderUnit} {x : ReadyAccess} {l : List ReadyAccess} (h : u.ready = x :: l) (anchor : Word) :
    u.request anchor = u.access anchor x := by
  rw [OrderUnit.request, h, List.head?_cons, Option.bind_some]

theorem request_of_noneReady {u : OrderUnit} (h : u.ready = []) (anchor : Word) : u.request anchor = none := by
  rw [OrderUnit.request, h, List.head?_nil, Option.bind_none]

theorem pushAnswer_of_empty {u : OrderUnit} (h : u.answers = []) (x : Answer) :
    u.pushAnswer x = { u with answers := [x], ready := u.ready ++ [.answerFields] } := by
  simp only [OrderUnit.pushAnswer, h, List.nil_append, List.isEmpty_nil, if_true]

theorem pushAnswer_of_waiting {u : OrderUnit} (h : u.answers ≠ []) (x : Answer) :
    u.pushAnswer x = { u with answers := u.answers ++ [x] } := by
  rw [OrderUnit.pushAnswer, if_neg (mt List.isEmpty_iff.1 h)]

/-- Settles O49: the ends of the two writes, the accesses by the head of the FIFO, a due answer by whether one waits. -/
theorem anAnswerIsWrittenInTwoAccesses : Obligations.AnAnswerIsWrittenInTwoAccesses := by
  refine ⟨fun s a h => exec_answerFieldsWriteDone h, fun s a x rest h ha hx => ?_, fun u anchor x hx => ?_,
    fun u anchor => ⟨fun h => request_of_noneReady h anchor, fun x l h => request_of_ready h anchor⟩,
    fun u x => ⟨fun h => pushAnswer_of_empty h x, fun h => pushAnswer_of_waiting h x⟩⟩
  · rw [exec_answeredWriteDone h, answeredDone_of_notQuiet (s := s.withFreePort) ha hx,
      answeredDone_of_answer (u := s.withFreePort.shared.orders) ha]
    rfl
  · obtain ⟨fields, state⟩ := access_of_answer hx anchor
    exact ⟨⟨_, fields, rfl, rfl, answerBytes_eq x⟩, ⟨_, state, rfl, rfl, rfl⟩⟩

end Sys2Proof.Machine

namespace Sys2Proof.Machine

/-! ### Bus errors and discarded accesses (R186, R187) -/

theorem execBusError_of_kept {s : State} {a : Access} (h : s.bus.inFlight = some a) (hd : a.discarded = false) :
    execBusError s = .next (s.withFreePort.halt a) := by
  simp only [execBusError, h, hd, Bool.false_eq_true, if_false]
  rfl

theorem execBusError_of_discarded {s : State} {a : Access} (h : s.bus.inFlight = some a) (hd : a.discarded = true) :
    execBusError s = .next s.withFreePort.settle := by
  simp only [execBusError, h, hd, if_true]
  rfl

/-- The completion of a discarded access frees the port, whatever its effect would have been (R187). -/
theorem completeAccess_of_discarded {s : State} {a : Access} {k : AccessKind} (h : s.bus.inFlight = some a)
    (hd : a.discarded = true) (hk : a.kind = k) (f : Access → State → State) :
    s.completeAccess k f = s.withFreePort.settle := by
  simp only [State.completeAccess, h, hk, hd, if_true]
  rfl

/-- Settles O51: the bus error by whether a reset discarded the access, each completion by the rule for discarded ones. -/
theorem aBusErrorHaltsThePart : Obligations.ABusErrorHaltsThePart := by
  refine ⟨fun s a h hd => execBusError_of_kept h hd, fun s a bytes h hd => ⟨execBusError_of_discarded h hd, ?_⟩⟩
  have freed : ∀ {k : AccessKind} (f : Access → State → State), a.kind = k →
      Host.Outcome.next (s.completeAccess k f) = (.next s.withFreePort.settle : Result) :=
    fun f hk => congrArg Host.Outcome.next (completeAccess_of_discarded h hd hk f)
  exact ⟨freed _, freed _, freed _, freed _, freed _, freed _, freed _, freed _, freed _⟩

end Sys2Proof.Machine

namespace Sys2Proof.Machine

/-! ### The reset state (R187) -/

/-- A track's property that the reset values have holds of both tracks of the reset state. -/
theorem forall_tracks_reset {Q : TrackState → Prop} (h : Q .initial) : ∀ t, Q (State.reset.tracks.get t) :=
  forall_tracks h h

/-- At its reset values a track has empty tables and, with no passage open and no record queued, balanced accounts (R66, R91). -/
theorem trackInitial_tablesEmpty_balanced : TrackState.initial.TablesEmpty ∧ TrackState.initial.Balanced :=
  (accounted_iff trackInitial_coherent.1).1 trackKeeps_accounted.initial

/-- Settles O56: coherence is that of any state after a power-on reset, no page is lent, and each invariant of a track holds of a
track's reset values. -/
theorem resetMeetsEveryInvariant : Obligations.ResetMeetsEveryInvariant := by
  obtain ⟨tables, balanced⟩ := trackInitial_tablesEmpty_balanced
  have coherent : State.reset.Coherent := coherent_powerOnReset State.reset
  have bounded : State.reset.Bounded := bounded_resetWith (forall_tracks_reset trackBounded_initial) bounded_initial rfl
  have pages : State.reset.PagesDistinct := List.nodup_nil
  exact ⟨coherent, bounded, forall_tracks_reset trackKeeps_points.initial, pages, forall_tracks_reset balanced,
    forall_tracks_reset trackKeeps_counts.initial, forall_tracks_reset trackKeeps_placed.initial, forall_tracks_reset tables⟩

end Sys2Proof.Machine
